-- ==== Sys2Proof/Word.lean ====
section
/-! DEFINITION. The word types of the block and the sparse table type that holds keyed state.
Widths: 00_scope R13, 10_state R30 (registers 32 bits), R41 and R44 (indices 16 bits). -/

namespace Sys2Proof

/-- One byte of memory or of a frame. -/
abbrev Byte := BitVec 8

/-- A 16-bit ring index or PHY register value (R41, R107). -/
abbrev Half := BitVec 16

/-- A 32-bit register, descriptor word, physical or bus address (R30, R39, R60). -/
abbrev Word := BitVec 32

/-- Sparse keyed data: pairs in strictly rising key order (the order is kept by the operations of
Machine/Tab.lean). What an unlisted key holds is said where the table is read. -/
abbrev Tab (α : Type) := List (Nat × α)

end Sys2Proof
end

