-- ==== Sys2Proof/Config.lean ====
section
/-! DEFINITION. The configuration of the block: every parameter of 00_scope R12, the position table of 30_encoding
R90 to R95, the codes, offsets and PHY map of R96 to R107. The spec asks that the model take each as an
argument; it stands in `Machine.State.cfg`, which no step changes (log 3). The default written beside a
field is the spec's default, general knowledge where the spec says so (PRESUMED, log 5); an OPEN
parameter's default is the model's (DESIGN CHOICE, log 4). Also the opaque constant that stands for
free values (log 6). -/

namespace Sys2Proof

/-- A bit field `[hi:lo]` of a word (R13). -/
structure FieldPos where
  hi : Nat
  lo : Nat
  deriving DecidableEq, Repr

/-- The field positions of one DMA block, RDMA or TDMA (R95): of `xDMA_RING_CFG`, `xDMA_CTRL` and `xDMA_STATUS`, and of
`RING_BUF_SIZE` in the block of each of its rings. `ringEn` and `ringBufEn` give the bit of each `RING_EN[q]` and
`RING_BUF_EN[q]` in turn; an entry the list does not have is R95's default bit, `q` or `q + 1`. -/
structure DmaPos where
  ringEn : List Nat := []
  en : FieldPos := ⟨0, 0⟩
  ringBufEn : List Nat := []
  disabled : FieldPos := ⟨0, 0⟩
  descCount : FieldPos := ⟨31, 16⟩
  bufSize : FieldPos := ⟨15, 0⟩
  deriving DecidableEq, Repr

/-- Where each register of one interrupt controller holds its bit per source (R95): source `i` is bit `lo + i` (log 35). -/
structure IntrlPos where
  cpuStatus : FieldPos := ⟨31, 0⟩
  cpuClear : FieldPos := ⟨31, 0⟩
  cpuMaskStatus : FieldPos := ⟨31, 0⟩
  cpuMaskSet : FieldPos := ⟨31, 0⟩
  cpuMaskClear : FieldPos := ⟨31, 0⟩
  deriving DecidableEq, Repr

/-- Register-field positions, the parameters `POS_<REG>_<FIELD>` of R95. `P_INDEX` and `C_INDEX` are not here: their
positions (15:0) follow from the source (R95). RDMA and TDMA, and the two interrupt controllers, have their own; a
per-ring row is one parameter for all rings of its direction (log 35). `mdfEn` gives the bit of each `EN[j]` in turn; an
entry the list does not have is R95's default bit `MDF_SLOTS - 1 - j`. -/
structure RegPos where
  revMajor : FieldPos := ⟨27, 24⟩
  revMinor : FieldPos := ⟨19, 16⟩
  revEphy : FieldPos := ⟨15, 0⟩
  portMode : FieldPos := ⟨2, 0⟩
  rbufFlush : FieldPos := ⟨1, 1⟩
  rgmiiLink : FieldPos := ⟨4, 4⟩
  oobDisable : FieldPos := ⟨5, 5⟩
  rgmiiModeEn : FieldPos := ⟨6, 6⟩
  idModeDis : FieldPos := ⟨16, 16⟩
  align2b : FieldPos := ⟨1, 1⟩
  txEn : FieldPos := ⟨0, 0⟩
  rxEn : FieldPos := ⟨1, 1⟩
  speed : FieldPos := ⟨3, 2⟩
  promisc : FieldPos := ⟨4, 4⟩
  crcFwd : FieldPos := ⟨6, 6⟩
  rxPauseIgnore : FieldPos := ⟨8, 8⟩
  hdEn : FieldPos := ⟨10, 10⟩
  swReset : FieldPos := ⟨13, 13⟩
  lclLoopEn : FieldPos := ⟨15, 15⟩
  txPauseIgnore : FieldPos := ⟨28, 28⟩
  mibResetRx : FieldPos := ⟨0, 0⟩
  mibResetRunt : FieldPos := ⟨1, 1⟩
  mibResetTx : FieldPos := ⟨2, 2⟩
  txFlush : FieldPos := ⟨0, 0⟩
  mdfEn : List Nat := []
  mdioData : FieldPos := ⟨15, 0⟩
  mdioRegAddr : FieldPos := ⟨20, 16⟩
  mdioPhyAddr : FieldPos := ⟨25, 21⟩
  mdioOp : FieldPos := ⟨27, 26⟩
  mdioReadFail : FieldPos := ⟨28, 28⟩
  mdioStartBusy : FieldPos := ⟨29, 29⟩
  rdma : DmaPos := {}
  tdma : DmaPos := {}
  intrl0 : IntrlPos := {}
  intrl1 : IntrlPos := {}
  arbMode : FieldPos := ⟨1, 0⟩
  discardCnt : FieldPos := ⟨31, 16⟩
  xoff : FieldPos := ⟨31, 16⟩
  xon : FieldPos := ⟨15, 0⟩
  flowPeriod : FieldPos := ⟨31, 16⟩
  deriving DecidableEq, Repr

/-- Positions in the descriptor word `w0` (R90 to R92). `OWN` and `WRAP` have no use in any operation (R94). -/
structure DescPos where
  bufLen : FieldPos := ⟨27, 16⟩
  own : FieldPos := ⟨15, 15⟩
  eop : FieldPos := ⟨14, 14⟩
  sop : FieldPos := ⟨13, 13⟩
  wrap : FieldPos := ⟨12, 12⟩
  ov : FieldPos := ⟨0, 0⟩
  crcErr : FieldPos := ⟨1, 1⟩
  rxErr : FieldPos := ⟨2, 2⟩
  no : FieldPos := ⟨3, 3⟩
  lg : FieldPos := ⟨4, 4⟩
  mult : FieldPos := ⟨5, 5⟩
  brdcast : FieldPos := ⟨6, 6⟩
  appendCrc : FieldPos := ⟨6, 6⟩
  deriving DecidableEq, Repr

/-- Field values the source does not number: port mode, arbiter mode, MDIO operation, speed code (R95, R102); and the
byte-to-bit assignment of the station address and of a filter slot (R98, R99), as left shifts per byte. -/
structure Codes where
  extGphy : Nat := 3
  arbSp : Nat := 2
  mdioWrite : Nat := 1
  mdioRead : Nat := 2
  speed1000 : Nat := 2
  speed100 : Nat := 1
  speed10 : Nat := 0
  mac0Shifts : List Nat := [24, 16, 8, 0]
  mac1Shifts : List Nat := [8, 0]
  mdfEvenShifts : List Nat := [8, 0]
  mdfOddShifts : List Nat := [24, 16, 8, 0]
  deriving DecidableEq, Repr

/-- The PHY register numbers and bits of R107. -/
structure PhyMap where
  bmsr : Nat := 1
  advertise : Nat := 4
  lpa : Nat := 5
  ctrl1000 : Nat := 9
  stat1000 : Nat := 10
  lstatus : Nat := 2
  full10 : Nat := 6
  half100 : Nat := 7
  full100 : Nat := 8
  pauseCap : Nat := 10
  half1000 : Nat := 10
  full1000 : Nat := 11
  msFail : Nat := 15
  deriving DecidableEq, Repr

/-- The register offsets `OFF_<NAME>` (R96). R96's table gives block bases and the offsets in a block, and a per-ring
register of ring `q` is at its direction's ring base plus `ringStride * q` plus the offset in the ring block. `moved`
gives any register an offset of its own, by its key (`Machine.RegId.key`), in place of the table's; so every
`OFF_<NAME>` is an argument by itself. -/
structure Offsets where
  sysRevCtrl : Nat := 0x0000
  sysPortCtrl : Nat := 0x0004
  sysRbufFlushCtrl : Nat := 0x0008
  extRgmiiOobCtrl : Nat := 0x008C
  intrl2Base0 : Nat := 0x0200
  intrl2Base1 : Nat := 0x0240
  cpuStatus : Nat := 0x00
  cpuClear : Nat := 0x08
  cpuMaskStatus : Nat := 0x0C
  cpuMaskSet : Nat := 0x10
  cpuMaskClear : Nat := 0x14
  rbufCtrl : Nat := 0x0300
  umacCmd : Nat := 0x0808
  umacMac0 : Nat := 0x080C
  umacMac1 : Nat := 0x0810
  umacMaxFrameLen : Nat := 0x0814
  umacTxFlush : Nat := 0x0B34
  umacMibCtrl : Nat := 0x0D80
  umacMdfCtrl : Nat := 0x0E50
  umacMdfAddr : Nat := 0x0E54
  mdioCmd : Nat := 0x0E14
  rdmaRingBase : Nat := 0x2C00
  rdmaGlobal : Nat := 0x3040
  tdmaRingBase : Nat := 0x4C00
  tdmaGlobal : Nat := 0x5040
  ringStride : Nat := 0x40
  ringCfg : Nat := 0x00
  dmaCtrl : Nat := 0x04
  dmaStatus : Nat := 0x08
  arbCtrl : Nat := 0x2C
  priority : Nat := 0x30
  rxWritePtr : Nat := 0x00
  rxProdIndex : Nat := 0x08
  rxConsIndex : Nat := 0x0C
  rxReadPtr : Nat := 0x2C
  txReadPtr : Nat := 0x00
  txConsIndex : Nat := 0x08
  txProdIndex : Nat := 0x0C
  txWritePtr : Nat := 0x2C
  ringBufSize : Nat := 0x10
  startAddr : Nat := 0x14
  endAddr : Nat := 0x1C
  xonXoffThresh : Nat := 0x28
  flowPeriod : Nat := 0x28
  moved : Tab Nat := []
  deriving DecidableEq, Repr

/-- The parameters of R12 and the tables above. OPEN in the spec, so the model's values (DESIGN CHOICE, log 4):
`revMajor`, `revMinor`, `revEphy`, `linkPollLimit`, `mdioPollLimit`, `descBaseRx`, `descBaseTx`, `bufBase`. -/
structure Config where
  mtu : Nat := 1536
  fcsLen : Nat := 4
  crcFwd : Bool := false
  txAppendCrc : Bool := true
  basePriority : Nat := 0
  aliasTag : Word := 0xC0000000
  physMask : Word := 0x3FFFFFFF
  revMajor : Nat := 0
  revMinor : Nat := 0
  revEphy : Nat := 0
  phyAddr : Nat := 1
  linkPollLimit : Nat := 3
  mdioPollLimit : Nat := 5
  xoffThresh : Nat := 5
  xonThresh : Nat := 16
  bufAlign : Nat := 64
  mdfSlots : Nat := 17
  descBaseRx : Word := 0x00200000
  descBaseTx : Word := 0x00200C00
  bufBase : Word := 0x00100000
  cacheEnabled : Bool := true
  cacheLine : Nat := 64
  flowPeriodThrottles : Bool := true
  pos : RegPos := {}
  desc : DescPos := {}
  codes : Codes := {}
  phy : PhyMap := {}
  off : Offsets := {}
  deriving DecidableEq, Repr

/-- The fixed sizes of R10, stated by the source. -/
def nDesc : Nat := 256
def bufLen : Nat := 2048
def descWords : Nat := 3
def rxPad : Nat := 2
def rxSize : Nat := 256
def txPrioSize : Nat := 32
def txDefaultSize : Nat := 128
def queuesPerPrioReg : Nat := 6
def prioFieldBits : Nat := 5

/-- The free value behind the `n`-th draw that the tape does not supply (R14 `draw T`; log 6). -/
opaque Config.freeNat : Nat → Nat

end Sys2Proof
end

