-- ==== Sys2Proof/Syntax.lean ====
section
/-! DEFINITION. The operations of the block: one constructor per row of opcode_table.json (30_encoding R110, R111).
An operation carries the Q byte of its word where the table gives the row one; every other operand is
passed beside the word as a named argument (R110) and stands in `Machine.State.args`. -/

namespace Sys2Proof

/-- The 26 operations of R111. `q` is the word's Q field: a direction, a queue or a PHY register. -/
inductive Instr where
  | busXlate
  | physXlate
  | poolInit (q : BitVec 8)
  | poolRefill (q : BitVec 8)
  | rxRingInit
  | rxRecv
  | txQueuesInit
  | txSend (q : BitVec 8)
  | txReclaim (q : BitVec 8)
  | prioPack (q : BitVec 8)
  | prioUnpack (q : BitVec 8)
  | arbSelect
  | seqStep
  | mdioRead (q : BitVec 8)
  | mdioWrite (q : BitVec 8)
  | linkReadStatus
  | rdmaDeliver
  | rdmaDrop
  | tdmaTransmit
  | regRead
  | regWrite
  | cacheClean
  | cacheInvalidate
  | cacheCleanInvalidate
  | barrier
  | delay
  deriving DecidableEq, Repr

/-- The mnemonic of R111, as opcode_table.json spells it; with R113 it is the first word of the operation's text form. -/
def Instr.mnemonic : Instr → String
  | .busXlate => "BUS_XLATE"
  | .physXlate => "PHYS_XLATE"
  | .poolInit _ => "POOL_INIT"
  | .poolRefill _ => "POOL_REFILL"
  | .rxRingInit => "RX_RING_INIT"
  | .rxRecv => "RX_RECV"
  | .txQueuesInit => "TX_QUEUES_INIT"
  | .txSend _ => "TX_SEND"
  | .txReclaim _ => "TX_RECLAIM"
  | .prioPack _ => "PRIO_PACK"
  | .prioUnpack _ => "PRIO_UNPACK"
  | .arbSelect => "ARB_SELECT"
  | .seqStep => "SEQ_STEP"
  | .mdioRead _ => "MDIO_READ"
  | .mdioWrite _ => "MDIO_WRITE"
  | .linkReadStatus => "LINK_READ_STATUS"
  | .rdmaDeliver => "RDMA_DELIVER"
  | .rdmaDrop => "RDMA_DROP"
  | .tdmaTransmit => "TDMA_TRANSMIT"
  | .regRead => "REG_READ"
  | .regWrite => "REG_WRITE"
  | .cacheClean => "CACHE_CLEAN"
  | .cacheInvalidate => "CACHE_INVALIDATE"
  | .cacheCleanInvalidate => "CACHE_CLEAN_INVALIDATE"
  | .barrier => "BARRIER"
  | .delay => "DELAY"

end Sys2Proof
end

