-- ==== Sys2Proof/Machine/State.lean ====
section
/-! DEFINITION. The state of the block as plain data: every piece of state of 10_state R22 to R57, the configuration
(log 3), the model's own fields (log 34), and the power-on state of 70_reset_and_hazards R340. -/

namespace Sys2Proof.Machine

/-- A direction: receive (d = 0) or transmit (d = 1) (R40). -/
inductive Dir where
  | rx
  | tx
  deriving DecidableEq, Repr

/-- The five transmit queues (R10, R44). -/
inductive TxQueue where
  | q0
  | q1
  | q2
  | q3
  | q16
  deriving DecidableEq, Repr

/-- The agents of R8. -/
inductive Agent where
  | host
  | rdma
  | tdma
  | phy
  deriving DecidableEq, Repr

/-- The two delay names of R299. -/
inductive DelayName where
  | tSwresetHold
  | tFlushHold
  deriving DecidableEq, Repr

/-- The error kinds of R310; `dropped` carries the count. -/
inductive Err where
  | hwVersionNotSupported
  | hwError
  | fragmented
  | malformed
  | exhausted
  | dropped (n : Nat)
  | timedOut
  | unaligned
  deriving DecidableEq, Repr

/-- Link speed in Mbit/s; `s0` is the spec's speed 0 (R23). -/
inductive LinkSpeed where
  | s0
  | s10
  | s100
  | s1000
  deriving DecidableEq, Repr

/-- R23. -/
structure LinkStatus where
  linkUp : Bool
  speed : LinkSpeed
  fullDuplex : Bool
  pause : Bool
  deriving DecidableEq, Repr

/-- The step numbers of the sequencer, 1 to 15 (R22). -/
inductive StepNo where
  | s1
  | s2
  | s3
  | s4
  | s5
  | s6
  | s7
  | s8
  | s9
  | s10
  | s11
  | s12
  | s13
  | s14
  | s15
  deriving DecidableEq, Repr

/-- The sequencer state `seq` (R22). -/
inductive Seq where
  | idle
  | step (k : StepNo)
  | ready
  | failed (kind : Err)
  deriving DecidableEq, Repr

/-- The six bytes of a station address, `b0` first on the wire (R98). -/
structure MacAddr where
  b0 : Byte
  b1 : Byte
  b2 : Byte
  b3 : Byte
  b4 : Byte
  b5 : Byte
  deriving DecidableEq, Repr

/-- The two interrupt controllers and their registers (R33). -/
inductive IntrlId where
  | c0
  | c1
  deriving DecidableEq, Repr

inductive IntrlReg where
  | cpuStatus
  | cpuClear
  | cpuMaskStatus
  | cpuMaskSet
  | cpuMaskClear
  deriving DecidableEq, Repr

/-- The registers every hardware ring has in either direction (R38). -/
inductive RingReg where
  | prodIndex
  | consIndex
  | ringBufSize
  | startAddr
  | endAddr
  | readPtr
  | writePtr
  deriving DecidableEq, Repr

/-- The MMIO registers of R31 to R38, by name. -/
inductive RegId where
  | sysRevCtrl
  | sysPortCtrl
  | sysRbufFlushCtrl
  | extRgmiiOobCtrl
  | intrl2 (x : IntrlId) (r : IntrlReg)
  | rbufCtrl
  | umacCmd
  | umacMac0
  | umacMac1
  | umacMaxFrameLen
  | umacMibCtrl
  | umacTxFlush
  | umacMdfCtrl
  | umacMdfAddr (j : Nat)
  | mdioCmd
  | dmaRingCfg (d : Dir)
  | dmaCtrl (d : Dir)
  | dmaStatus (d : Dir)
  | tdmaArbCtrl
  | tdmaPriority (k : Fin 3)
  | ring (d : Dir) (q : Fin 17) (r : RingReg)
  | rdmaXonXoff (q : Fin 17)
  | tdmaFlowPeriod (q : Fin 17)
  deriving DecidableEq, Repr

/-- A descriptor (R39). -/
structure Desc where
  w0 : Word
  w1 : Word
  w2 : Word
  deriving DecidableEq, Repr

/-- The three words of a descriptor. -/
inductive DescWord where
  | w0
  | w1
  | w2
  deriving DecidableEq, Repr

/-- The ghost owner of a control block (R40, R63). -/
inductive Owner where
  | sw
  | hw
  deriving DecidableEq, Repr

/-- A control block (R40). Its buffer address is a function of the configuration (`cbBuf`). -/
structure Cb where
  descIndex : Nat
  owner : Owner
  deriving DecidableEq, Repr

/-- The receive ring record (R41). -/
structure RxRing where
  index : Nat
  cbBase : Nat
  size : Nat
  cIndex : Half
  readPtr : Nat
  initPtr : Nat
  endPtr : Nat
  oldDiscards : Half
  deriving DecidableEq, Repr

/-- A transmit ring record (R44). -/
structure TxRing where
  index : Nat
  queue : Nat
  cbBase : Nat
  size : Nat
  endPtr : Nat
  cleanPtr : Nat
  cIndex : Half
  freeBds : Nat
  writePtr : Nat
  prodIndex : Half
  deriving DecidableEq, Repr

/-- The MDIO transaction in progress (R260): none; `START_BUSY` stays 1 for `k + 1` more host reads; or for ever. -/
inductive MdioWait where
  | idle
  | busy (k : Nat)
  | forever
  deriving DecidableEq, Repr

/-- The receive status set `st` of R281, one flag per status bit of R91. -/
structure RxStatus where
  ov : Bool := false
  crcErr : Bool := false
  rxErr : Bool := false
  no : Bool := false
  lg : Bool := false
  mult : Bool := false
  brdcast : Bool := false
  deriving DecidableEq, Repr

/-- A host write to a descriptor word that no barrier has ordered yet, with the word it replaced (R69; log 13). -/
structure UnsyncedWrite where
  dir : Dir
  index : Nat
  word : DescWord
  old : Word
  deriving DecidableEq, Repr

/-- The fault reasons of R320, and one of the model's own. -/
inductive FaultReason where
  /-- R56: state with no value was read. -/
  | unwrittenRead
  /-- R63: the host wrote a buffer or descriptor address the hardware owns. -/
  | ownershipViolation
  /-- R134: a descriptor address lacks the coherent alias. -/
  | untranslatedAddress
  /-- R155: the receive pending count exceeds the ring size. -/
  | indexOutOfRange
  /-- R280, R285: a DMA agent became enabled before its ring was initialised. -/
  | dmaBeforeInit
  /-- The model's own (log 10): a descriptor index outside the pool of `N_DESC`, which R39 says does not exist. -/
  | descriptorOutsidePool
  deriving DecidableEq, Repr

/-- MDIO transaction kinds: the OP codes of R95; any other OP is `other` (log 19). -/
inductive MdioKind where
  | read
  | write
  | other
  deriving DecidableEq, Repr

/-- The events of R53 and R66. MMIO accesses are the host's and 32 bits wide (R60a, R65); a memory event's width is the
number of its bytes. -/
inductive Event where
  | mmioRead (r : RegId) (v : Word)
  | mmioWrite (r : RegId) (v : Word)
  | memRead (a : Agent) (addr : Word) (bytes : List Byte)
  | memWrite (a : Agent) (addr : Word) (bytes : List Byte)
  | clean (addr : Word) (len : Nat)
  | invalidate (addr : Word) (len : Nat)
  | barrier
  | delay (name : DelayName)
  | rxFrame (f : List Byte) (st : RxStatus)
  | rxDropped
  | txFrame (q : TxQueue) (frame : List Byte)
  | mdio (kind : MdioKind) (phyReg : Nat) (data : Half) (readFail : Bool)
  deriving DecidableEq, Repr

/-- What an operation returned to the host (R16, R310, R311), or what became of an agent step. -/
inductive Result where
  /-- Nothing has been returned. -/
  | none
  /-- `Ok(())`. -/
  | ok
  | word (w : Word)
  | half (h : Half)
  /-- `Ok(n)` of RX_RECV and TX_RECLAIM, and the value of PRIO_UNPACK. -/
  | count (n : Nat)
  | prioRegs (r0 r1 r2 : Word)
  | queue (q : Option TxQueue)
  | link (l : LinkStatus)
  | wouldBlock
  | err (e : Err)
  /-- The agent took its step. -/
  | stepped
  /-- The agent step was not enabled, so nothing happened (R16 "stuck"; log 11). -/
  | notEnabled
  deriving DecidableEq, Repr

/-- One step of a spontaneous agent with its draws (R8, R281, R283, R286), or a write of hardware to its own status
register (R364; log 18), as it is scheduled between two host steps (R9; log 8). -/
inductive AgentStep where
  | deliver (f : List Byte) (st : RxStatus)
  | drop (f : List Byte)
  | transmit
  /-- The PHY answers the MDIO transaction in progress (R260, R333; log 19). -/
  | phy
  /-- An interrupt controller writes its `CPU_STATUS`: pending bits may become set (R315, R364). -/
  | interrupts (x : IntrlId)
  /-- A DMA block writes its `xDMA_STATUS` (R364). -/
  | dmaStatus (d : Dir)
  deriving DecidableEq, Repr

/-- The named arguments that are passed beside an operation word (R110, R111). `dest` is the host's byte buffer and
holds what RX_RECV left in it. `width` is the access width of REG_READ and REG_WRITE in bits (R62; log 32). -/
structure Args where
  phys : Word := 0
  bus : Word := 0
  count : Nat := 0
  cb : Nat := 0
  dest : List Byte := []
  payload : List Byte := []
  p : Nat := 0
  regs0 : Word := 0
  regs1 : Word := 0
  regs2 : Word := 0
  mac : MacAddr := ⟨0, 0, 0, 0, 0, 0⟩
  rxDescLen : Nat := 0
  data : Half := 0
  frame : List Byte := []
  st : RxStatus := {}
  off : Nat := 0
  v : Word := 0
  width : Nat := 32
  addr : Word := 0
  len : Nat := 0
  name : DelayName := .tSwresetHold
  deriving DecidableEq, Repr

/-- One invocation: an operation word, its arguments, the agent steps that come before the operation, and those that come
between its host steps, one list per gap (log 7, log 8). -/
structure Invocation where
  word : BitVec 16
  args : Args := {}
  before : List AgentStep := []
  between : List (List AgentStep) := []
  deriving DecidableEq, Repr

/-- A byte of `cpu_stale` (R64): the CPU's view of it before the DMA write, or since a later host write (log 14), and the
value the DMA write stored. A host read of it draws between the two. -/
structure StaleByte where
  view : Byte
  written : Byte
  deriving DecidableEq, Repr

/-- The state of the block. The comment of a field names its rule. -/
@[ext]
structure State where
  -- R12, R95, R96: the configuration; no step changes it (log 3)
  cfg : Config
  -- R22
  seq : Seq
  -- R22; `none` is unwritten
  seqPolls : Option Nat
  -- R23; `none` is unwritten
  seqLink : Option LinkStatus
  -- R12 `MAC_ADDR`, assigned by step 0 of R220
  macAddr : MacAddr
  -- R30 to R38, by `RegId.key`; an unlisted register holds its power-on value 0 (log 1)
  regs : Tab Word
  -- R260
  mdioWait : MdioWait
  -- R50
  rdmaWp : Nat
  -- R50, by queue number; unlisted is the power-on value 0 (log 1)
  tdmaRp : Tab Nat
  -- R60b, R64: the memory copy of every byte; unlisted reads 0 (log 2)
  mem : List Host.Cell
  -- R64 cpu_dirty, with the CPU's value
  cpuDirty : List Host.Cell
  -- R64 cpu_stale, with the CPU's view and the DMA-written value
  cpuStale : Tab StaleByte
  -- R39, by index; unlisted is the all-zero descriptor (log 1)
  descRx : Tab Desc
  descTx : Tab Desc
  -- R69
  unsynced : List UnsyncedWrite
  -- R40, by index; unlisted is unwritten
  cbRx : Tab Cb
  cbTx : Tab Cb
  -- R41; `none` is unwritten
  rx : Option RxRing
  -- R44, by queue number; unlisted is unwritten
  tx : Tab TxRing
  -- R53, newest first
  hist : List Event
  -- R55
  fault : Option FaultReason
  -- R57
  refused : Bool
  -- the model's own fields (log 34)
  pending : List Invocation
  args : Args
  between : List (List AgentStep)
  result : Result
  tape : List Nat
  drawCount : Nat
  deriving DecidableEq, Repr

/-- Why a step stops the run. The spec's own faults are marks in `State.fault` after which the run goes on (R55; log 9),
so none of them is here. -/
inductive Fault where
  /-- Raised by `step` when no invocation is pending: no agent has a step to take (R16 "stuck"; log 7). Safe: the run
  only ends. -/
  | noInvocation
  deriving DecidableEq, Repr

/-- Why a step has no meaning. The spec's own refusals are the mark `State.refused`, a next state (R57; log 9). -/
inductive Refusal where
  /-- An arm of `exec` that has no meaning yet; no arm answers so. Safe. -/
  | notModelled (mnemonic : String)
  deriving DecidableEq, Repr

/-- Power-on (R340). What R340 calls "any value" holds 0 here (log 1, log 2); what it calls "unwritten" is absent. -/
def State.reset : State where
  cfg := {}
  seq := .idle
  seqPolls := none
  seqLink := none
  macAddr := ⟨0, 0, 0, 0, 0, 0⟩
  regs := []
  mdioWait := .idle
  rdmaWp := 0
  tdmaRp := []
  mem := []
  cpuDirty := []
  cpuStale := []
  descRx := []
  descTx := []
  unsynced := []
  cbRx := []
  cbTx := []
  rx := none
  tx := []
  hist := []
  fault := none
  refused := false
  pending := []
  args := {}
  between := []
  result := .none
  tape := []
  drawCount := 0

end Sys2Proof.Machine
end

