-- ==== Sys2Proof/Machine/Flags.lean ====
section
/-! DEFINITION. Bit fields, and every flag computation of the block: descriptor words (30_encoding R90 to R94), register
fields (R95), the ring-enable bitmaps (R103), the receive verdict on a descriptor (42_rx_ring R157 to R159) and the
link resolution (45_link_negotiator R262 to R266). -/

namespace Sys2Proof.Machine

/-- The number of bits of a field. A position is a parameter (R95) and may be ill-formed: the subtraction is in the
natural numbers, so that with `hi < lo` the field has no bit (DESIGN CHOICE, log 57). -/
def fieldWidth (p : FieldPos) : Nat := p.hi + 1 - p.lo

/-- The bits of the word that the field occupies. -/
def fieldMask (p : FieldPos) : Word := BitVec.ofNat 32 ((2 ^ fieldWidth p - 1) <<< p.lo)

/-- `v[hi:lo]` (R13). -/
def fieldGet (p : FieldPos) (w : Word) : Nat := (w.toNat >>> p.lo) % 2 ^ fieldWidth p

/-- The word that holds `v` in the field and 0 elsewhere. Bits of `v` past the field's width, and bits of the field past
bit 31, are lost (DESIGN CHOICE, log 57). -/
def fieldPlace (p : FieldPos) (v : Nat) : Word := BitVec.ofNat 32 ((v % 2 ^ fieldWidth p) <<< p.lo)

/-- The word `w` with the field replaced by `v` (R14 `Reg(NAME).FIELD <- v`, R114 REG_SET). -/
def fieldSet (p : FieldPos) (v : Nat) (w : Word) : Word := (w &&& ~~~ fieldMask p) ||| fieldPlace p v

/-- The one-bit field read as a truth value. A flag that a configuration gives several bits is set when the field is exactly
1, the value that setting it writes (DESIGN CHOICE, log 57). -/
def fieldOn (p : FieldPos) (w : Word) : Bool := fieldGet p w == 1

/-- The value of a one-bit field. -/
def bitVal (b : Bool) : Nat := if b then 1 else 0

/-- Bits [15:0] of an index register, `P_INDEX` or `C_INDEX` (R38, R95). -/
def indexOf (w : Word) : Half := w.setWidth 16

/-- An index register with its index replaced and its other bits kept. -/
def withIndex (w : Word) (i : Half) : Word := (w &&& 0xFFFF0000) ||| i.setWidth 32

/-- `zext_32` of an index (R13). -/
def indexWord (i : Half) : Word := i.setWidth 32

/-- A one-bit field. -/
def bitPos (b : Nat) : FieldPos := ⟨b, b⟩

/-- The field positions of a direction's DMA block. -/
def dmaPos (p : RegPos) : Dir → DmaPos
  | .rx => p.rdma
  | .tx => p.tdma

/-- The field positions of an interrupt controller. -/
def intrlPos (p : RegPos) : IntrlId → IntrlPos
  | .c0 => p.intrl0
  | .c1 => p.intrl1

/-- The bits at `dst` for the sources whose bits are 1 at `src` in `w`: source `i` is the `i`-th bit of either (R95). -/
def moveField (src dst : FieldPos) (w : Word) : Word := fieldPlace dst (fieldGet src w)

/-- `EN` of a direction's `xDMA_CTRL` (R95). -/
def dmaEnPos (d : Dir) (p : RegPos) : FieldPos := (dmaPos p d).en

/-- `RING_EN[q]` of a direction's `xDMA_RING_CFG` (R95). -/
def ringEnPos (p : RegPos) (d : Dir) (q : Nat) : FieldPos := bitPos ((dmaPos p d).ringEn.getD q q)

/-- `RING_BUF_EN[q]` of a direction's `xDMA_CTRL` (R95). -/
def ringBufEnPos (p : RegPos) (d : Dir) (q : Nat) : FieldPos := bitPos ((dmaPos p d).ringBufEn.getD q (q + 1))

/-- `EN[j]` of `UMAC_MDF_CTRL` (R95). The default bit is computed in the natural numbers, so that with `MDF_SLOTS` below 2
it is 0 for the two slots step 9 enables, and it is outside the word above 32 slots (DESIGN CHOICE, log 41). -/
def mdfEnPos (c : Config) (j : Nat) : FieldPos := bitPos (c.pos.mdfEn.getD j (c.mdfSlots - 1 - j))

/-- The OR of a list of words, and so of fields that a configuration lets overlap (DESIGN CHOICE, log 57). -/
def orAll (ws : List Word) : Word := ws.foldl (· ||| ·) 0

/-- The queues of the transmit topology, in number order (R10). -/
def txQueueNums : List Nat := [0, 1, 2, 3, 16]

/-- `Q_MASK` of R103 for TDMA, in the `xDMA_RING_CFG` positions. -/
def tdmaRingMask (p : RegPos) : Word := orAll (txQueueNums.map fun q => fieldPlace (ringEnPos p .tx q) 1)

/-- `RING_BUF_EN[0,1,2,3,16]` of `TDMA_CTRL` (R180). -/
def tdmaBufEnMask (p : RegPos) : Word := orAll (txQueueNums.map fun q => fieldPlace (ringBufEnPos p .tx q) 1)

/-- `EN | RING_BUF_EN[all]` of `TDMA_CTRL` (R180). -/
def ctrlEnableMask (p : RegPos) : Word :=
  fieldMask (dmaEnPos .tx p) ||| orAll ((List.range 17).map fun q => fieldMask (ringBufEnPos p .tx q))

/-- `RING_BUF_SIZE` of a direction's ring (R105): the descriptor count and the buffer size. -/
def ringBufSizeWord (p : RegPos) (d : Dir) (size : Nat) : Word :=
  fieldPlace (dmaPos p d).descCount size ||| fieldPlace (dmaPos p d).bufSize bufLen

/-- `XON_XOFF_THRESH` (R106, R150). A threshold above 65535 is cut to its 16-bit field (R38, R95) and does not reach the
other's (DESIGN CHOICE, log 54). -/
def xonXoffWord (c : Config) : Word := fieldPlace c.pos.xoff c.xoffThresh ||| fieldPlace c.pos.xon c.xonThresh

/-- `FLOW_PERIOD` of a queue: the MTU for queues 0 to 3, 0 for queue 16 (R182). An MTU above 65535 is cut to the 16-bit
field `PERIOD`, so that an MTU of 65536 gives period 0, no throttle (DESIGN CHOICE, log 56). -/
def flowPeriodWord (c : Config) (q : Nat) : Word := if q = 16 then 0 else fieldPlace c.pos.flowPeriod c.mtu

/-- Bytes placed in a word at the given left shifts (R98, R99). Where a configured list of shifts has another length than the
bytes, the bytes or shifts left over are dropped; a bit shifted past the word is lost (DESIGN CHOICE, log 58). -/
def packBytes (shifts : List Nat) (bytes : List Byte) : Word :=
  orAll (List.zipWith (fun sh b => (b.setWidth 32) <<< sh) shifts bytes)

/-- The bytes of a word at the given shifts, the inverse of `packBytes` where there is a shift within the word for each byte
(R99, R284). With other lists a slot yields as many bytes as there are shifts, and matches no destination address unless
they are six (DESIGN CHOICE, log 58). -/
def unpackBytes (shifts : List Nat) (w : Word) : List Byte := shifts.map fun sh => (w >>> sh).setWidth 8

/-- The bytes of a station address in wire order. -/
def MacAddr.bytes (m : MacAddr) : List Byte := [m.b0, m.b1, m.b2, m.b3, m.b4, m.b5]

/-- A word as four bytes, little-endian (R61). -/
def wordBytes (w : Word) : List Byte :=
  [w.setWidth 8, (w >>> 8).setWidth 8, (w >>> 16).setWidth 8, (w >>> 24).setWidth 8]

/-- A descriptor as its twelve bytes (R90). -/
def Desc.bytes (d : Desc) : List Byte := wordBytes d.w0 ++ wordBytes d.w1 ++ wordBytes d.w2

/-- One word of a descriptor. -/
def Desc.word (d : Desc) : DescWord → Word
  | .w0 => d.w0
  | .w1 => d.w1
  | .w2 => d.w2

/-- A descriptor with one word replaced. -/
def Desc.setWord (d : Desc) (k : DescWord) (v : Word) : Desc :=
  match k with
  | .w0 => { d with w0 := v }
  | .w1 => { d with w1 := v }
  | .w2 => { d with w2 := v }

/-- The descriptor word that holds byte `k` of a descriptor, and the byte's number in it (R90, R61). -/
def wordOfByte (k : Nat) : DescWord × Nat :=
  (match k / 4 with
    | 0 => .w0
    | 1 => .w1
    | _ => .w2, k % 4)

/-- Byte `n` of a word, little-endian (R61). -/
def wordByte (w : Word) (n : Nat) : Byte := (w >>> (8 * n)).setWidth 8

/-- A word with byte `n` replaced. -/
def setWordByte (w : Word) (n : Nat) (b : Byte) : Word :=
  (w &&& ~~~((0xFF : Word) <<< (8 * n))) ||| (b.setWidth 32 <<< (8 * n))

/-- Byte `k` of a descriptor (R90, R61). -/
def Desc.byte (d : Desc) (k : Nat) : Byte := wordByte (d.word (wordOfByte k).1) (wordOfByte k).2

/-- The word of a descriptor that a write of byte `k` leaves. -/
def Desc.withByte (d : Desc) (k : Nat) (b : Byte) : Word := setWordByte (d.word (wordOfByte k).1) (wordOfByte k).2 b

/-- Some status bit is in `RX_ERR_MASK` (R91). -/
def RxStatus.error (st : RxStatus) : Bool := st.ov || st.crcErr || st.rxErr || st.no || st.lg

/-- `bits(st)` of R281: the status bits of R91. -/
def rxStatusBits (p : DescPos) (st : RxStatus) : Word :=
  orAll [fieldPlace p.ov (bitVal st.ov), fieldPlace p.crcErr (bitVal st.crcErr),
    fieldPlace p.rxErr (bitVal st.rxErr), fieldPlace p.no (bitVal st.no), fieldPlace p.lg (bitVal st.lg),
    fieldPlace p.mult (bitVal st.mult), fieldPlace p.brdcast (bitVal st.brdcast)]

/-- `RX_ERR_MASK` (R91). -/
def rxErrMask (p : DescPos) : Word :=
  orAll [fieldMask p.ov, fieldMask p.crcErr, fieldMask p.rxErr, fieldMask p.no, fieldMask p.lg]

/-- The `w0` RDMA writes back for a chunk of `n` bytes (R281, R282); `OWN` and `WRAP` are 0. -/
def rxW0 (p : DescPos) (n : Nat) (sop eop : Bool) (st : RxStatus) : Word :=
  orAll [fieldPlace p.bufLen n, fieldPlace p.sop (bitVal sop), fieldPlace p.eop (bitVal eop), rxStatusBits p st]

/-- The `w0` the host writes for a frame of `n` bytes (R183, R92). -/
def txW0 (c : Config) (n : Nat) : Word :=
  orAll [fieldPlace c.desc.bufLen n, fieldPlace c.desc.sop 1, fieldPlace c.desc.eop 1,
    fieldPlace c.desc.appendCrc (bitVal c.txAppendCrc)]

/-- `BUFLEN` of a `w0`. -/
def w0Len (p : DescPos) (w0 : Word) : Nat := fieldGet p.bufLen w0

/-- `SOP` and `EOP` are both set. -/
def w0Whole (p : DescPos) (w0 : Word) : Bool := fieldOn p.sop w0 && fieldOn p.eop w0

/-- Steps 4 and 5 of RX_RECV (R152, R157 to R159): the error of the descriptor, or the payload length. The length
is computed in unbounded integers. -/
def rxVerdict (c : Config) (destLen : Nat) (w0 : Word) : Except Err Nat :=
  let dmaLen := w0Len c.desc w0
  let len : Int := (dmaLen : Int) - rxPad - (if c.crcFwd then c.fcsLen else 0)
  if !w0Whole c.desc w0 then .error .fragmented
  else if w0 &&& rxErrMask c.desc ≠ 0 then .error .hwError
  else if dmaLen > bufLen ∨ len ≤ 0 then .error .malformed
  else if len > destLen then .error .exhausted
  else .ok len.toNat

/-- Bit `n` of a PHY register (R107); a configured `n` past 15 reads 0 (DESIGN CHOICE, log 57). -/
def phyBit (h : Half) (n : Nat) : Bool := h.getLsbD n

/-- `common_gb` of R262 step 4: the partner's 1000BASE-T ability masked with the local control shifted by 2 (R264). -/
def commonGigabit (stat1000 ctrl1000 : Half) : Half := stat1000 &&& (ctrl1000 <<< 2)

/-- Steps 6 and 7 of R262: speed, duplex and pause from the common abilities; the first match wins (R265, R266). -/
def resolveLink (m : PhyMap) (stat1000 ctrl1000 lpa adv : Half) : LinkStatus :=
  let gb := commonGigabit stat1000 ctrl1000
  let common := lpa &&& adv
  let sf : LinkSpeed × Bool :=
    if phyBit gb m.full1000 || phyBit gb m.half1000 then (.s1000, phyBit gb m.full1000)
    else if phyBit common m.full100 || phyBit common m.half100 then (.s100, phyBit common m.full100)
    else (.s10, phyBit common m.full10)
  { linkUp := true, speed := sf.1, fullDuplex := sf.2, pause := sf.2 && phyBit lpa m.pauseCap }

/-- The link-down result (R263). -/
def linkDown : LinkStatus := { linkUp := false, speed := .s0, fullDuplex := false, pause := false }

/-- `speed_code` of R102; the spec gives speed 0 no code (log 27). -/
def speedCode (c : Codes) : LinkSpeed → Option Nat
  | .s0 => none
  | .s10 => some c.speed10
  | .s100 => some c.speed100
  | .s1000 => some c.speed1000

/-- One step of the reflected IEEE 802.3 CRC-32 (R286; log 26). -/
def crcBit (c : Word) : Word := if c.getLsbD 0 then (c >>> 1) ^^^ 0xEDB88320 else c >>> 1

/-- The CRC register after one byte. -/
def crcByte (c : Word) (b : Byte) : Word := Nat.repeat crcBit 8 (c ^^^ b.setWidth 32)

/-- `fcs(bytes)` of R286: the CRC-32 of the bytes, its bytes in wire order (PRESUMED, log 26). It is four bytes long also
where the parameter `FCS_LEN` (R12) is not 4 (DESIGN CHOICE, log 26). -/
def fcs (bytes : List Byte) : List Byte := wordBytes (~~~ (bytes.foldl crcByte 0xFFFFFFFF))

/-- The codes of R310. -/
def Err.code : Err → Nat
  | .hwVersionNotSupported => 1
  | .hwError => 2
  | .fragmented => 3
  | .malformed => 4
  | .exhausted => 5
  | .dropped _ => 6
  | .timedOut => 7
  | .unaligned => 8

end Sys2Proof.Machine
end

