-- ==== Sys2Proof/Machine/Tab.lean ====
section
/-! DEFINITION. Sparse tables in one canonical form (keys strictly rising), and the byte memory built on them
(20_memory R60, R64). -/

namespace Sys2Proof.Machine

/-- The value listed for key `k`. -/
def Tab.get? {α : Type} : Tab α → Nat → Option α
  | [], _ => none
  | (a, v) :: t, k => if a = k then some v else Tab.get? t k

/-- List `v` for key `k`, keeping the keys in rising order. -/
def Tab.put {α : Type} : Tab α → Nat → α → Tab α
  | [], k, v => [(k, v)]
  | (a, w) :: t, k, v =>
    if k < a then (k, v) :: (a, w) :: t
    else if a = k then (k, v) :: t
    else (a, w) :: Tab.put t k v

/-- List nothing for key `k`. -/
def Tab.erase {α : Type} (t : Tab α) (k : Nat) : Tab α := t.filter (fun e => !(e.1 == k))

/-- The keys rise strictly. -/
abbrev Tab.sorted {α : Type} (t : Tab α) : Prop := t.Pairwise (fun x y => x.1 < y.1)

/-- What an unlisted byte of memory reads as (log 2). -/
def Memory.unlisted : Byte := 0

/-- The byte memory holds at address `a`. -/
def Memory.read (m : List Host.Cell) (a : Nat) : Byte := (Tab.get? m a).getD Memory.unlisted

/-- Store a byte; the value an unlisted address reads as removes the entry. -/
def Memory.write (m : List Host.Cell) (a : Nat) (v : Byte) : List Host.Cell :=
  if v = Memory.unlisted then Tab.erase m a else Tab.put m a v

/-- The canonical form: addresses rise strictly and no entry equals what an unlisted address reads as. -/
abbrev Memory.wf (m : List Host.Cell) : Prop := Tab.sorted m ∧ ∀ c ∈ m, c.2 ≠ Memory.unlisted

/-- The address `k` bytes after `a`, modulo 2^32 (R60; log 24). -/
def byteAddr (a : Word) (k : Nat) : Nat := (a.toNat + k) % 2 ^ 32

end Sys2Proof.Machine
end

