-- ==== Sys2Proof/WellFormed.lean ====
section
/-! DEFINITION. Which operations are well formed: the constraints of 30_encoding R112 on the Q field. -/

namespace Sys2Proof

/-- `POOL_*`: Q is a direction, 0 (RX) or 1 (TX) (R112). -/
def legalDirQ (q : BitVec 8) : Bool := q.toNat ≤ 1

/-- `TX_SEND`, `TX_RECLAIM`: Q is one of the five transmit queues (R112). -/
def legalQueueQ (q : BitVec 8) : Bool := q.toNat ≤ 3 || q.toNat == 16

/-- `PRIO_PACK`, `PRIO_UNPACK`: Q is any of 0..17 (R112, R189). -/
def legalPrioQ (q : BitVec 8) : Bool := q.toNat ≤ 17

/-- `MDIO_*`: Q is a PHY register number 0..31 (R112). -/
def legalPhyQ (q : BitVec 8) : Bool := q.toNat ≤ 31

/-- An operation whose Q field R112 allows. -/
def Instr.wellFormed : Instr → Bool
  | .poolInit q | .poolRefill q => legalDirQ q
  | .txSend q | .txReclaim q => legalQueueQ q
  | .prioPack q | .prioUnpack q => legalPrioQ q
  | .mdioRead q | .mdioWrite q => legalPhyQ q
  | .busXlate | .physXlate | .rxRingInit | .rxRecv | .txQueuesInit | .arbSelect | .seqStep
  | .linkReadStatus | .rdmaDeliver | .rdmaDrop | .tdmaTransmit | .regRead | .regWrite
  | .cacheClean | .cacheInvalidate | .cacheCleanInvalidate | .barrier | .delay => true

end Sys2Proof
end

