-- ==== Sys2Proof/Machine/Operands.lean ====
section
/-! DEFINITION. Operand forms: queues and directions from the Q field (30_encoding R112), addresses (40_bus_address R130 to
R134, 10_state R40), cache lines (46_dma_agents R295), ring arithmetic (10_state R42, R43), priorities
(43_tx_ring_arbiter R188 to R190), and the register map (30_encoding R95, R96; 10_state R30 to R38). -/

namespace Sys2Proof.Machine

/-- The direction a POOL_* word names (R111, R112). -/
def dirOfQ (q : BitVec 8) : Option Dir :=
  match q.toNat with
  | 0 => some .rx
  | 1 => some .tx
  | _ => none

/-- The transmit queue a word names (R112). -/
def queueOfQ (q : BitVec 8) : Option TxQueue :=
  match q.toNat with
  | 0 => some .q0
  | 1 => some .q1
  | 2 => some .q2
  | 3 => some .q3
  | 16 => some .q16
  | _ => none

/-- The queue's number as a hardware ring number (R38). -/
def TxQueue.ring : TxQueue → Fin 17
  | .q0 => 0
  | .q1 => 1
  | .q2 => 2
  | .q3 => 3
  | .q16 => 16

/-- The queue's number. -/
def TxQueue.num (q : TxQueue) : Nat := q.ring.val

/-- The queue with a given number. -/
def queueOfNum : Nat → Option TxQueue
  | 0 => some .q0
  | 1 => some .q1
  | 2 => some .q2
  | 3 => some .q3
  | 16 => some .q16
  | _ => none

/-- The transmit queues in number order (R10). -/
def txQueues : List TxQueue := [.q0, .q1, .q2, .q3, .q16]

/-- `cb_base` of a transmit ring (R44). -/
def TxQueue.base : TxQueue → Nat
  | .q0 => 0
  | .q1 => 32
  | .q2 => 64
  | .q3 => 96
  | .q16 => 128

/-- `size` of a transmit ring (R10, R44). -/
def TxQueue.size : TxQueue → Nat
  | .q0 | .q1 | .q2 | .q3 => txPrioSize
  | .q16 => txDefaultSize

/-- `to_bus_address` (R130). -/
def toBusAddress (c : Config) (phys : Word) : Word := phys ||| c.aliasTag

/-- `to_phys_address` (R131). -/
def toPhysAddress (c : Config) (bus : Word) : Word := bus &&& c.physMask

/-- The 64-bit bus address a descriptor's address pair holds, `w2 ++ w1` (R93). -/
def addrPair (w2 w1 : Word) : BitVec 64 := w2 ++ w1

/-- The physical byte address behind a descriptor's address pair `w2 ++ w1`, a 64-bit bus address masked by
`PHYS_MASK` (R93, R60c). -/
def descPhys (c : Config) (w2 w1 : Word) : Word :=
  (addrPair w2 w1 &&& c.physMask.setWidth 64).setWidth 32

/-- The address pair carries every bit of the coherent alias (R134). -/
def aliasTagged (c : Config) (w2 w1 : Word) : Bool :=
  decide (addrPair w2 w1 &&& c.aliasTag.setWidth 64 = c.aliasTag.setWidth 64)

/-- The configuration constraints of R132 and R188, the ones R321 refuses a configuration for. A `DESC_BASE` that is no
multiple of 4 (R62) is not refused (DESIGN CHOICE, log 47), nor is an `MDIO_POLL_LIMIT` or a `LINK_POLL_LIMIT` of 0, below
the bound of R12 (DESIGN CHOICE, log 52). -/
def configOk (c : Config) : Bool := decide (c.aliasTag &&& c.physMask = 0) && decide (c.basePriority ≤ 15)

/-- `d` of R40. -/
def Dir.num : Dir → Nat
  | .rx => 0
  | .tx => 1

/-- `CB(dir, i).buf` (R40). With a `BUF_BASE` so high that the sum passes 2^32 it wraps to low memory (DESIGN CHOICE,
log 24). -/
def cbBuf (c : Config) (d : Dir) (i : Nat) : Word := c.bufBase + BitVec.ofNat 32 ((d.num * nDesc + i) * bufLen)

/-- The address of a descriptor (R90). -/
def descAddr (c : Config) (d : Dir) (i : Nat) : Word :=
  (match d with
    | .rx => c.descBaseRx
    | .tx => c.descBaseTx) + BitVec.ofNat 32 (12 * i)

/-- A byte of a descriptor pool: the direction, the descriptor's index and the byte's number in it. -/
structure PoolByte where
  dir : Dir
  index : Nat
  byte : Nat
  deriving DecidableEq, Repr

/-- The number of bytes of a descriptor pool (R10, R90). -/
def poolBytes : Nat := 4 * descWords * nDesc

/-- The byte of a direction's descriptor pool that stands at physical address `a`, if one does (R60b, R90, D37). -/
def poolByteOf (c : Config) (d : Dir) (a : Nat) : Option PoolByte :=
  let k := (BitVec.ofNat 32 a - descAddr c d 0).toNat
  if k < poolBytes then some ⟨d, k / 12, k % 12⟩ else none

/-- The descriptor byte that stands at physical address `a`, if one does; where the two pools overlap, the receive
pool's (log 12). -/
def poolByte? (c : Config) (a : Nat) : Option PoolByte := (poolByteOf c .rx a).or (poolByteOf c .tx a)

/-- A buffer address that POOL_REFILL and TX_SEND refuse to write (R62, R141): null, or with a bus address that is no
multiple of `BUF_ALIGN`. With `BUF_ALIGN` 0 the only multiple is 0 (DESIGN CHOICE, log 48). -/
def badBuffer (c : Config) (buf : Word) : Bool :=
  (toBusAddress c buf).toNat % c.bufAlign != 0 || buf == 0

/-- The byte address `a` is in `lines(addr, len)` (R295): a line that covers a byte of `[addr, addr + len)`. The lines of
a range do not go on at address 0 past the top of memory (DESIGN CHOICE, log 24). With `CACHE_LINE` 0 all of memory is one
line (DESIGN CHOICE, log 48). -/
def inLines (c : Config) (addr : Word) (len a : Nat) : Bool :=
  decide (0 < len) && decide (addr.toNat / c.cacheLine ≤ a / c.cacheLine)
    && decide (a / c.cacheLine ≤ (addr.toNat + len - 1) / c.cacheLine)

/-- `next(r, p)` of R42 over a ring's `[cb_base, end_ptr]`. -/
def ringNext (cbBase endPtr p : Nat) : Nat := if p = endPtr then cbBase else p + 1

/-- The pending count `(hw_prod - c_index) mod 65536` (R43, R155). -/
def pendingCount (hwProd cIndex : Half) : Nat := (hwProd - cIndex).toNat

/-- The hardware pointer register value that names control block `p` (R104). -/
def ptrWord (p : Nat) : Word := BitVec.ofNat 32 (p * descWords)

/-- The three priority words (R37). -/
structure Prio where
  r0 : Word
  r1 : Word
  r2 : Word
  deriving DecidableEq, Repr

/-- `regs[k]`. -/
def Prio.get (r : Prio) (k : Nat) : Word :=
  match k with
  | 0 => r.r0
  | 1 => r.r1
  | _ => r.r2

/-- `regs` with word `k` replaced. -/
def Prio.set (r : Prio) (k : Nat) (w : Word) : Prio :=
  match k with
  | 0 => { r with r0 := w }
  | 1 => { r with r1 := w }
  | _ => { r with r2 := w }

/-- The field of queue `q` (R101, R189): bits `[s + 4 : s]` with `s = (q mod 6) * 5`, of register `q / 6`. -/
def prioPos (q : Nat) : FieldPos :=
  ⟨q % queuesPerPrioReg * prioFieldBits + 4, q % queuesPerPrioReg * prioFieldBits⟩

/-- `PRIO_PACK` (R189). -/
def prioPack (q p : Nat) (r : Prio) : Prio :=
  r.set (q / queuesPerPrioReg) (fieldSet (prioPos q) p (r.get (q / queuesPerPrioReg)))

/-- `PRIO_UNPACK` (R190). -/
def prioUnpack (q : Nat) (r : Prio) : Nat := fieldGet (prioPos q) (r.get (q / queuesPerPrioReg))

/-- The number of an interrupt controller. -/
def IntrlId.num : IntrlId → Nat
  | .c0 => 0
  | .c1 => 1

def IntrlReg.num : IntrlReg → Nat
  | .cpuStatus => 0
  | .cpuClear => 1
  | .cpuMaskStatus => 2
  | .cpuMaskSet => 3
  | .cpuMaskClear => 4

def RingReg.num : RingReg → Nat
  | .prodIndex => 0
  | .consIndex => 1
  | .ringBufSize => 2
  | .startAddr => 3
  | .endAddr => 4
  | .readPtr => 5
  | .writePtr => 6

/-- The key of a register in `State.regs`, one number per register. -/
def RegId.key : RegId → Nat
  | .sysRevCtrl => 0
  | .sysPortCtrl => 1
  | .sysRbufFlushCtrl => 2
  | .extRgmiiOobCtrl => 3
  | .intrl2 x r => 10 + 5 * x.num + r.num
  | .rbufCtrl => 4
  | .umacCmd => 20
  | .umacMac0 => 21
  | .umacMac1 => 22
  | .umacMaxFrameLen => 23
  | .umacMibCtrl => 24
  | .umacTxFlush => 25
  | .umacMdfCtrl => 26
  | .mdioCmd => 27
  | .dmaRingCfg d => 30 + d.num
  | .dmaCtrl d => 32 + d.num
  | .dmaStatus d => 34 + d.num
  | .tdmaArbCtrl => 36
  | .tdmaPriority k => 37 + k.val
  | .ring d q r => 100 + 200 * d.num + 10 * q.val + r.num
  | .rdmaXonXoff q => 500 + q.val
  | .tdmaFlowPeriod q => 520 + q.val
  | .umacMdfAddr j => 600 + j

/-- The default queue's ring number (R10). -/
def defaultRing : Fin 17 := 16

/-- The hardware ring numbers 0..16 (R38). -/
def ringNums : List (Fin 17) := List.finRange 17

/-- The registers of one hardware ring block (R38). -/
def ringRegs : List RingReg := [.prodIndex, .consIndex, .ringBufSize, .startAddr, .endAddr, .readPtr, .writePtr]

/-- The filter-slot registers `UMAC_MDF_ADDR[j]`, two a slot (R35). -/
def mdfAddrRegs (c : Config) : List RegId := (List.range (2 * c.mdfSlots)).map RegId.umacMdfAddr

/-- The UMAC registers other than `UMAC_CMD` (R35), the ones a soft reset leaves with any value (R238). -/
def umacRegs (c : Config) : List RegId :=
  .umacMac0 :: .umacMac1 :: .umacMaxFrameLen :: .umacMibCtrl :: .umacTxFlush :: .umacMdfCtrl :: mdfAddrRegs c

/-- The registers of one interrupt controller (R33). -/
def intrlRegs (x : IntrlId) : List RegId :=
  [.intrl2 x .cpuStatus, .intrl2 x .cpuClear, .intrl2 x .cpuMaskStatus, .intrl2 x .cpuMaskSet,
    .intrl2 x .cpuMaskClear]

/-- The SYS, EXT, RBUF, MDIO and global DMA registers, and `UMAC_CMD` (R31 to R37). -/
def globalRegs : List RegId :=
  [.sysRevCtrl, .sysPortCtrl, .sysRbufFlushCtrl, .extRgmiiOobCtrl, .rbufCtrl, .umacCmd, .mdioCmd,
    .dmaRingCfg .rx, .dmaRingCfg .tx, .dmaCtrl .rx, .dmaCtrl .tx, .dmaStatus .rx, .dmaStatus .tx, .tdmaArbCtrl,
    .tdmaPriority 0, .tdmaPriority 1, .tdmaPriority 2]

/-- The registers of one hardware ring, receive or transmit (R38). -/
def rxRingRegs (q : Fin 17) : List RegId := .rdmaXonXoff q :: ringRegs.map (RegId.ring .rx q)
def txRingRegs (q : Fin 17) : List RegId := .tdmaFlowPeriod q :: ringRegs.map (RegId.ring .tx q)

/-- Every register of R31 to R38. -/
def allRegs (c : Config) : List RegId :=
  globalRegs ++ intrlRegs .c0 ++ intrlRegs .c1 ++ umacRegs c ++ ringNums.flatMap rxRingRegs
    ++ ringNums.flatMap txRingRegs

/-- The offset of a ring register inside its ring block (R96). -/
def ringRegOffset (o : Offsets) : Dir → RingReg → Nat
  | .rx, .prodIndex => o.rxProdIndex
  | .rx, .consIndex => o.rxConsIndex
  | .rx, .readPtr => o.rxReadPtr
  | .rx, .writePtr => o.rxWritePtr
  | .tx, .prodIndex => o.txProdIndex
  | .tx, .consIndex => o.txConsIndex
  | .tx, .readPtr => o.txReadPtr
  | .tx, .writePtr => o.txWritePtr
  | _, .ringBufSize => o.ringBufSize
  | _, .startAddr => o.startAddr
  | _, .endAddr => o.endAddr

/-- The start of ring `q`'s block (R96). -/
def ringBlock (o : Offsets) (d : Dir) (q : Fin 17) : Nat :=
  (match d with
    | .rx => o.rdmaRingBase
    | .tx => o.tdmaRingBase) + o.ringStride * q.val

/-- The start of a direction's global registers (R96). -/
def dmaGlobal (o : Offsets) : Dir → Nat
  | .rx => o.rdmaGlobal
  | .tx => o.tdmaGlobal

/-- The offset of a register that R96's table of blocks gives. -/
def RegId.blockOffset (o : Offsets) : RegId → Nat
  | .sysRevCtrl => o.sysRevCtrl
  | .sysPortCtrl => o.sysPortCtrl
  | .sysRbufFlushCtrl => o.sysRbufFlushCtrl
  | .extRgmiiOobCtrl => o.extRgmiiOobCtrl
  | .intrl2 x r =>
    (match x with
      | .c0 => o.intrl2Base0
      | .c1 => o.intrl2Base1) +
    (match r with
      | .cpuStatus => o.cpuStatus
      | .cpuClear => o.cpuClear
      | .cpuMaskStatus => o.cpuMaskStatus
      | .cpuMaskSet => o.cpuMaskSet
      | .cpuMaskClear => o.cpuMaskClear)
  | .rbufCtrl => o.rbufCtrl
  | .umacCmd => o.umacCmd
  | .umacMac0 => o.umacMac0
  | .umacMac1 => o.umacMac1
  | .umacMaxFrameLen => o.umacMaxFrameLen
  | .umacMibCtrl => o.umacMibCtrl
  | .umacTxFlush => o.umacTxFlush
  | .umacMdfCtrl => o.umacMdfCtrl
  | .umacMdfAddr j => o.umacMdfAddr + 4 * j
  | .mdioCmd => o.mdioCmd
  | .dmaRingCfg d => dmaGlobal o d + o.ringCfg
  | .dmaCtrl d => dmaGlobal o d + o.dmaCtrl
  | .dmaStatus d => dmaGlobal o d + o.dmaStatus
  | .tdmaArbCtrl => dmaGlobal o .tx + o.arbCtrl
  | .tdmaPriority k => dmaGlobal o .tx + o.priority + 4 * k.val
  | .ring d q r => ringBlock o d q + ringRegOffset o d r
  | .rdmaXonXoff q => ringBlock o .rx q + o.xonXoffThresh
  | .tdmaFlowPeriod q => ringBlock o .tx q + o.flowPeriod

/-- `OFF_<NAME>` (R96, R12): the register's own, or the table's. -/
def RegId.offset (o : Offsets) (r : RegId) : Nat := (Tab.get? o.moved r.key).getD (r.blockOffset o)

/-- The register at an offset (R290), if any. Of two registers that a configuration gives one offset, it is the first in
the order of `allRegs` (DESIGN CHOICE, log 40). The descriptors stand at `DESC_BASE` in physical memory alone (R60b, R90),
so the place at +0x000 of an xDMA block, where the informative table of R96 puts them, names no register (DESIGN CHOICE,
log 53). -/
def regAt (c : Config) (off : Nat) : Option RegId := (allRegs c).find? (fun r => r.offset c.off == off)

/-- The read-only registers of R291. -/
def RegId.readOnly : RegId → Bool
  | .sysRevCtrl | .dmaStatus _ | .intrl2 _ .cpuStatus | .intrl2 _ .cpuMaskStatus => true
  | _ => false

/-- The registers of R292's refused list, with the direction whose `EN` refuses the write: the producer index RDMA
owns, the consumer index TDMA owns, and every ring-extent or pointer register (R38). -/
def RegId.ownedBy : RegId → Option Dir
  | .ring .rx q .prodIndex => if q = defaultRing then some .rx else none
  | .ring .tx _ .consIndex => some .tx
  | .ring d _ .startAddr | .ring d _ .endAddr | .ring d _ .readPtr | .ring d _ .writePtr => some d
  | _ => none

/-- The station address in two words (R98). -/
def mac0Word (c : Codes) (m : MacAddr) : Word := packBytes c.mac0Shifts (m.bytes.take 4)
def mac1Word (c : Codes) (m : MacAddr) : Word := packBytes c.mac1Shifts (m.bytes.drop 4)

/-- A filter slot in two words (R99). -/
def mdfEvenWord (c : Codes) (m : MacAddr) : Word := packBytes c.mdfEvenShifts (m.bytes.take 2)
def mdfOddWord (c : Codes) (m : MacAddr) : Word := packBytes c.mdfOddShifts (m.bytes.drop 2)

/-- The broadcast address (R229). -/
def broadcastMac : MacAddr := ⟨0xff, 0xff, 0xff, 0xff, 0xff, 0xff⟩

/-- The MDIO command word of R100; `data` is 0 for a read. -/
def mdioCommand (c : Config) (op phyReg : Nat) (data : Half) : Word :=
  orAll [fieldPlace c.pos.mdioStartBusy 1, fieldPlace c.pos.mdioOp op, fieldPlace c.pos.mdioPhyAddr c.phyAddr,
    fieldPlace c.pos.mdioRegAddr phyReg, fieldPlace c.pos.mdioData data.toNat]

/-- The number of buffers a stored frame of `n` bytes takes (R282). -/
def chunkCount (n : Nat) : Nat := (n + bufLen - 1) / bufLen

/-- The first `k` chunks of one buffer length each (R282). -/
def chunks : Nat → List Byte → List (List Byte)
  | 0, _ => []
  | k + 1, bs => bs.take bufLen :: chunks k (bs.drop bufLen)

end Sys2Proof.Machine
end

