-- ==== Sys2Proof/Machine/Ops.lean ====
section
/-! DEFINITION. The named operations over registers, memory, descriptors and control blocks, each ONE atomic access
(00_scope R7), and how an operation ends: a value, an error result, a fault mark or a refusal (00_scope R16,
60_exceptions R310, R316, R320, R321). Larger operations are built from these in the family files. -/

namespace Sys2Proof.Machine

/-! ## How an operation ends -/

/-- How an operation ends before its `return` (R14, R16): `raise Err(kind)`, a fault of R320, or a refusal of R321. -/
inductive Halt where
  | err (e : Err)
  | fault (f : FaultReason)
  | refused
  deriving DecidableEq, Repr

/-- An operation: a function of the state to a value or a `Halt`, and a state. State written before a `Halt` stays
written (R14, R316). -/
abbrev Op (α : Type) := EStateM Halt State α

/-- A value read from the state. -/
def gets {α : Type} (f : State → α) : Op α := fun s => .ok (f s) s

/-- An update of the state. -/
def upd (f : State → State) : Op Unit := fun s => .ok () (f s)

/-- End the operation. -/
def halt {α : Type} (h : Halt) : Op α := fun s => .error h s

/-- End the operation if the condition holds. -/
def haltIf (c : Bool) (h : Halt) : Op Unit := fun s => if c then .error h s else .ok () s

/-- A value, or the end of the operation where there is none. -/
def orHalt {α : Type} (a : Option α) (h : Halt) : Op α := fun s =>
  match a with
  | some x => .ok x s
  | none => .error h s

/-- Run an operation for each element of a list, in order. -/
def each {α : Type} : List α → (α → Op Unit) → Op Unit
  | [], _ => pure ()
  | x :: xs, f => do
    f x
    each xs f

/-- Set the fault mark: the first fault stays (R55). -/
def State.mark (s : State) (f : FaultReason) : State := { s with fault := s.fault.or (some f) }

/-- Set the refused mark (R57); nothing else changes (R112). -/
def State.refuse (s : State) : State := { s with refused := true }

/-- The state an operation leaves: its result is recorded, a raised error is its result (R316), a fault or a refusal
sets its mark (R55, R57). This is the one place where an operation's end becomes state; there is no trap entry
(R316), no return from one (R317) and no mode (R325). -/
def settle : EStateM.Result Halt State Result → State
  | .ok r s => { s with result := r }
  | .error (.err e) s => { s with result := .err e }
  | .error (.fault f) s => s.mark f
  | .error .refused s => s.refuse

/-- Run an operation as an instruction: it always answers a next state (log 9). Under a configuration that breaks R132
or R188 every invocation is refused (R321; log 38). -/
def runOp (op : Op Result) (s : State) : Host.Outcome State Fault Refusal :=
  .next (if configOk s.cfg then settle (op s) else s.refuse)

/-- Catch the error result of an inner operation (R317); a fault or a refusal is not caught. -/
def attempt {α : Type} (op : Op α) : Op (Except Err α) := fun s =>
  match op s with
  | .ok a t => .ok (.ok a) t
  | .error (.err e) t => .ok (.error e) t
  | .error h t => .error h t

/-- `emit E` (R14): append an event to the history, which is kept newest first (log 31). -/
def emit (e : Event) : Op Unit := upd fun s => { s with hist := e :: s.hist }

/-! ## Draws (R14; log 6) -/

/-- `draw`: the next value of the tape, or the free value of the counter once the tape is used up. -/
def drawNat : Op Nat := fun s =>
  .ok (s.tape.headD (Config.freeNat s.drawCount)) { s with tape := s.tape.tail, drawCount := s.drawCount + 1 }

def drawBool : Op Bool := do return (← drawNat) % 2 == 1
def drawByte : Op Byte := do return BitVec.ofNat 8 (← drawNat)
def drawHalf : Op Half := do return BitVec.ofNat 16 (← drawNat)
def drawWord : Op Word := do return BitVec.ofNat 32 (← drawNat)

/-- `draw bytes(n)`. -/
def drawBytes : Nat → Op (List Byte)
  | 0 => pure []
  | n + 1 => do
    let b ← drawByte
    let bs ← drawBytes n
    return b :: bs

/-- One element of `a :: rest`, chosen by a draw. -/
def drawFrom {α : Type} (a : α) (rest : List α) : Op α := do
  let n ← drawNat
  return (a :: rest).getD (n % (rest.length + 1)) a

/-! ## Registers (R30, R65, R290 to R292) -/

/-- The word a register holds. -/
def State.reg (s : State) (r : RegId) : Word := (Tab.get? s.regs r.key).getD 0

/-- The register holds a new word. -/
def State.setReg (s : State) (r : RegId) (v : Word) : State := { s with regs := Tab.put s.regs r.key v }

/-- Set a register without an access: what a DMA agent or the block itself does to its own registers (R60a). -/
def setReg (r : RegId) (v : Word) : Op Unit := upd (·.setReg r v)

/-- A one-bit field of a register, by its position in the configuration. -/
def State.flag (s : State) (r : RegId) (p : RegPos → FieldPos) : Bool := fieldOn (p s.cfg.pos) (s.reg r)

/-- `xDMA_CTRL.EN` (R37). -/
def State.dmaEn (s : State) (d : Dir) : Bool := s.flag (.dmaCtrl d) (dmaEnPos d)

/-- `RING_EN[q]` and `RING_BUF_EN[q]` of a direction (R37). -/
def State.ringEn (s : State) (d : Dir) (q : Fin 17) : Bool :=
  s.flag (.dmaRingCfg d) (ringEnPos · d q.val) && s.flag (.dmaCtrl d) (ringBufEnPos · d q.val)

/-- The three priority words (R37). -/
def State.prio (s : State) : Prio := ⟨s.reg (.tdmaPriority 0), s.reg (.tdmaPriority 1), s.reg (.tdmaPriority 2)⟩

/-- The kind of the MDIO transaction in `MDIO_CMD` (R95, R100). -/
def mdioKind (c : Config) (w : Word) : MdioKind :=
  if fieldGet c.pos.mdioOp w = c.codes.mdioRead then .read
  else if fieldGet c.pos.mdioOp w = c.codes.mdioWrite then .write
  else .other

/-- The MDIO block completes its transaction (R260, R261): a read sets `DATA` and `READ_FAIL` to draws, a write leaves
them, and `START_BUSY` clears. Every answer to a read is a draw, the first after a soft reset included (R333, R362); a
write leaves them also where it is the first transaction after a soft reset (DESIGN CHOICE, log 19). Its event is appended
here, for a write with the data written and no failure, whatever `READ_FAIL` holds (DESIGN CHOICE, log 60). -/
def mdioComplete : Op Unit := do
  let c ← gets (·.cfg)
  let w ← gets (·.reg .mdioCmd)
  let kind := mdioKind c w
  let phyReg := fieldGet c.pos.mdioRegAddr w
  match kind with
  | .write =>
    setReg .mdioCmd (fieldSet c.pos.mdioStartBusy 0 w)
    upd fun s => { s with mdioWait := .idle }
    emit (.mdio kind phyReg (BitVec.ofNat 16 (fieldGet c.pos.mdioData w)) false)
  | _ =>
    let data ← drawHalf
    let fail ← drawBool
    setReg .mdioCmd (fieldSet c.pos.mdioStartBusy 0
      (fieldSet c.pos.mdioReadFail (bitVal fail) (fieldSet c.pos.mdioData data.toNat w)))
    upd fun s => { s with mdioWait := .idle }
    emit (.mdio kind phyReg data fail)

/-- A transaction starts: `busy_reads` is a draw of `ℕ ∪ {∞}` (R260), the drawn 0 standing for ∞ and `n + 1` for `n`. -/
def mdioStart : Op Unit := do
  match ← drawNat with
  | 0 => upd fun s => { s with mdioWait := .forever }
  | 1 => mdioComplete
  | n + 2 => upd fun s => { s with mdioWait := .busy n }

/-- A host read of `MDIO_CMD` was made: one busy read of the transaction has passed (R65, R260). -/
def mdioCount : Op Unit := do
  match ← gets (·.mdioWait) with
  | .busy 0 => mdioComplete
  | .busy (k + 1) => upd fun s => { s with mdioWait := .busy k }
  | .idle | .forever => pure ()

/-- An interrupt controller sets pending bits of its own `CPU_STATUS`, a draw per bit; none clears (R315, R364; log 18). -/
def setPending (x : IntrlId) : Op Unit := do
  let n ← drawNat
  upd fun s =>
    s.setReg (.intrl2 x .cpuStatus) (s.reg (.intrl2 x .cpuStatus) ||| fieldPlace (intrlPos s.cfg.pos x).cpuStatus n)

/-- A DMA block writes its own `xDMA_STATUS`, a draw (R364; log 18). -/
def setDmaStatus (d : Dir) : Op Unit := do
  let w ← drawWord
  setReg (.dmaStatus d) w

/-- The one read-dependent behaviour of R65: a read of `MDIO_CMD` counts as a busy read. -/
def readEffect (r : RegId) : Op Unit :=
  match r with
  | .mdioCmd => mdioCount
  | _ => pure ()

/-- `Reg(NAME)`: one host read of a register (R14, R290). It returns the word the register holds, a write-only register's
the last word written (R67; log 17). A drawn value is drawn where it is written and then fixed until the next write, by
the host or by hardware in a step of its own (R290, R364; log 18). No read changes register contents but for the count of
MDIO busy reads (R65). -/
def mmioRead (r : RegId) : Op Word := do
  let v ← gets (·.reg r)
  emit (.mmioRead r v)
  readEffect r
  return v

/-- The MAC soft reset (R238): every UMAC register other than `UMAC_CMD` takes any value. -/
def umacSoftReset : Op Unit := do
  let c ← gets (·.cfg)
  each (umacRegs c) fun r => do
    let w ← drawWord
    setReg r w

/-- Set, or clear, in one register of an interrupt controller the bits of the sources whose bits are 1 in the word `v`
written to another one (R292), each register with its own position (R95). -/
def setSources (x : IntrlId) (r : IntrlReg) (src dst : FieldPos) (v : Word) : Op Unit :=
  upd fun s => s.setReg (.intrl2 x r) (s.reg (.intrl2 x r) ||| moveField src dst v)
def clearSources (x : IntrlId) (r : IntrlReg) (src dst : FieldPos) (v : Word) : Op Unit :=
  upd fun s => s.setReg (.intrl2 x r) (s.reg (.intrl2 x r) &&& ~~~ moveField src dst v)

/-- The side effects of a register write (R292), given the word before it. The two flush pulses discard frames held
inside the block, and an atomic agent step holds none (R230, R238; log 28). A write of `CONS_INDEX` or `PROD_INDEX`
moves no ghost owner: the operation that kicks moves it (R152, R163, R183; log 44). -/
def writeEffect (r : RegId) (old v : Word) : Op Unit := do
  let c ← gets (·.cfg)
  match r with
  | .umacCmd =>
    if fieldOn c.pos.swReset old && !fieldOn c.pos.swReset v then umacSoftReset else pure ()
  | .mdioCmd => if fieldOn c.pos.mdioStartBusy v then mdioStart else pure ()
  | .intrl2 x .cpuMaskSet =>
    setSources x .cpuMaskStatus (intrlPos c.pos x).cpuMaskSet (intrlPos c.pos x).cpuMaskStatus v
  | .intrl2 x .cpuMaskClear =>
    clearSources x .cpuMaskStatus (intrlPos c.pos x).cpuMaskClear (intrlPos c.pos x).cpuMaskStatus v
  | .intrl2 x .cpuClear => clearSources x .cpuStatus (intrlPos c.pos x).cpuClear (intrlPos c.pos x).cpuStatus v
  | .ring .rx q .writePtr =>
    if q = defaultRing then upd fun s => { s with rdmaWp := v.toNat / descWords } else pure ()
  | .ring .tx q .readPtr => upd fun s => { s with tdmaRp := Tab.put s.tdmaRp q.val (v.toNat / descWords) }
  | _ => pure ()

/-- The write is refused (R292, R260): a register the hardware owns while its direction runs, or `MDIO_CMD` while a
transaction is in progress. -/
def State.writeRefused (s : State) (r : RegId) : Bool :=
  match r with
  | .mdioCmd => s.flag .mdioCmd (·.mdioStartBusy)
  | _ =>
    match r.ownedBy with
    | some d => s.dmaEn d
    | none => false

/-- `Reg(NAME) <- v`: one host write of a register (R14, R291, R292). -/
def mmioWrite (r : RegId) (v : Word) : Op Unit := do
  if r.readOnly then emit (.mmioWrite r v)
  else do
    haltIf (← gets (·.writeRefused r)) .refused
    let old ← gets (·.reg r)
    setReg r v
    emit (.mmioWrite r v)
    writeEffect r old v

/-! ## Descriptors and control blocks as data (R39, R40, R63, R69) -/

/-- `Desc(dir, i)`. -/
def State.desc (s : State) (d : Dir) (i : Nat) : Desc :=
  (Tab.get? (match d with | .rx => s.descRx | .tx => s.descTx) i).getD ⟨0, 0, 0⟩

/-- Replace a descriptor of a pool; the all-zero descriptor is not listed. -/
def putDesc (t : Tab Desc) (i : Nat) (x : Desc) : Tab Desc :=
  if x = ⟨0, 0, 0⟩ then Tab.erase t i else Tab.put t i x

/-- `Desc(dir, i) <- x`. -/
def State.setDesc (s : State) (d : Dir) (i : Nat) (x : Desc) : State :=
  match d with
  | .rx => { s with descRx := putDesc s.descRx i x }
  | .tx => { s with descTx := putDesc s.descTx i x }

/-- `CB(dir, i)`, if written. -/
def State.cb? (s : State) (d : Dir) (i : Nat) : Option Cb :=
  Tab.get? (match d with | .rx => s.cbRx | .tx => s.cbTx) i

/-- The hardware owns control block `i`, and with it descriptor `i` (R63, R142). -/
def State.hwOwned (s : State) (d : Dir) (i : Nat) : Bool :=
  match s.cb? d i with
  | some b => decide (b.owner = .hw)
  | none => false

/-- The host writes a descriptor word: the word it replaces is one a fetch may see until the next `BARRIER` (R69). -/
def State.writeDesc (s : State) (d : Dir) (i : Nat) (k : DescWord) (v : Word) : State :=
  let x := s.desc d i
  let t := s.setDesc d i (x.setWord k v)
  if x.word k = v then t else { t with unsynced := ⟨d, i, k, x.word k⟩ :: s.unsynced }

/-! ## Memory and cache (R60, R64, R295 to R298) -/

/-- The byte physical memory holds at an address: a descriptor's where a pool stands there, else the memory copy's
(R60b, D37; log 12). -/
def State.memByte (s : State) (a : Nat) : Byte :=
  match poolByte? s.cfg a with
  | some b => (s.desc b.dir b.index).byte b.byte
  | none => Memory.read s.mem a

/-- The CPU's view of a byte: its dirty value, its stale view, or the memory copy (R64; log 14). -/
def State.cpuView (s : State) (a : Nat) : Byte :=
  ((Tab.get? s.cpuDirty a).or ((Tab.get? s.cpuStale a).map (·.view))).getD (s.memByte a)

/-- A DMA agent reads a byte: of a dirty byte it gets the old or the new value, a draw (R64). -/
def dmaReadByte (a : Nat) : Op Byte := do
  let m ← gets (·.memByte a)
  match ← gets fun s => Tab.get? s.cpuDirty a with
  | none => return m
  | some new => do
    let b ← drawBool
    return if b then new else m

/-- The host reads a byte: of a stale byte it gets the pre-DMA or the DMA-written value, a draw (R64), also where a clean
has put the CPU's value in memory since (R365, log 14). -/
def hostReadByte (a : Nat) : Op Byte := do
  let view ← gets (·.cpuView a)
  match ← gets fun s => Tab.get? s.cpuStale a with
  | none => return view
  | some x => do
    let b ← drawBool
    return if b then x.written else view

/-- A DMA agent writes a byte of cacheable memory: memory takes it and the byte enters `cpu_stale` with the CPU's view of
it and the value written (R64, R281); with the cache off nothing is stale (log 15). -/
def State.dmaStoreByte (s : State) (a : Nat) (v : Byte) : State :=
  { s with
    mem := Memory.write s.mem a v
    cpuStale := if s.cfg.cacheEnabled then Tab.put s.cpuStale a ⟨s.cpuView a, v⟩ else s.cpuStale }

/-- A DMA agent writes a byte: of a descriptor pool, which is not cached (R69, R74), or of the other memory. -/
def State.dmaWriteByte (s : State) (a : Nat) (v : Byte) : State :=
  match poolByte? s.cfg a with
  | some b =>
    let d := s.desc b.dir b.index
    s.setDesc b.dir b.index (d.setWord (wordOfByte b.byte).1 (d.withByte b.byte v))
  | none => s.dmaStoreByte a v

/-- The host writes a byte of cacheable memory: it enters `cpu_dirty`, or memory with the cache off (R64, R295). The
view of a stale byte becomes the new value (log 14). -/
def State.hostStoreByte (s : State) (a : Nat) (v : Byte) : State :=
  if s.cfg.cacheEnabled then
    { s with
      cpuDirty := Tab.put s.cpuDirty a v
      cpuStale := match Tab.get? s.cpuStale a with
        | some x => Tab.put s.cpuStale a { x with view := v }
        | none => s.cpuStale }
  else { s with mem := Memory.write s.mem a v }

/-- The host writes a byte: of a descriptor pool, which is not cached, so that a fetch before the next `BARRIER` may see
the old word (R69, R74), or of the other memory. -/
def State.hostWriteByte (s : State) (a : Nat) (v : Byte) : State :=
  match poolByte? s.cfg a with
  | some b => s.writeDesc b.dir b.index (wordOfByte b.byte).1 ((s.desc b.dir b.index).withByte b.byte v)
  | none => s.hostStoreByte a v

/-- One of the `n` bytes from `addr` on is of the address words of a descriptor of which `p` holds. -/
def hitsAddrWord (c : Config) (p : Dir → Nat → Bool) (addr : Word) (n : Nat) : Bool :=
  (List.range n).any fun k =>
    match poolByte? c (byteAddr addr k) with
    | some b => decide (4 ≤ b.byte) && p b.dir b.index
    | none => false

/-- One of the `n` bytes from `addr` on is of the address words of a descriptor the hardware owns (R63). -/
def State.hitsOwned (s : State) (addr : Word) (n : Nat) : Bool := hitsAddrWord s.cfg s.hwOwned addr n

/-- One of the `n` bytes from `addr` on is of the address words of a descriptor whose address lacks the coherent alias
(R134). -/
def State.hitsRaw (s : State) (addr : Word) (n : Nat) : Bool :=
  hitsAddrWord s.cfg (fun d i => !aliasTagged s.cfg (s.desc d i).w2 (s.desc d i).w1) addr n

/-- Write consecutive bytes from address `a`, the `k`-th at `a + k` (R61), with `f` the write of one byte. -/
def writeBytes (f : State → Nat → Byte → State) (a : Word) : Nat → List Byte → State → State
  | _, [], s => s
  | k, b :: bs, s => writeBytes f a (k + 1) bs (f s (byteAddr a k) b)

/-- Read `n` consecutive bytes from `a + k` on, with `f` the read of one byte. -/
def readBytes (f : Nat → Op Byte) (a : Word) : Nat → Nat → Op (List Byte)
  | _, 0 => pure []
  | k, n + 1 => do
    let b ← f (byteAddr a k)
    let bs ← readBytes f a (k + 1) n
    return b :: bs

/-- `MemWrite` and `MemRead` by the host (R14): one buffer copy. A copy onto the address words of a descriptor the hardware
owns is the fault of R63, before a byte is written; one that leaves a descriptor it wrote an address of without the
coherent alias is the fault of R134, after the bytes are written (log 29). Whether the address so left is a multiple of
`BUF_ALIGN`, or null (R62), is not checked here: TX_SEND checks its own buffer (DESIGN CHOICE, log 64). -/
def hostWrite (a : Word) (bs : List Byte) : Op Unit := do
  haltIf (← gets (·.hitsOwned a bs.length)) (.fault .ownershipViolation)
  upd (writeBytes State.hostWriteByte a 0 bs)
  haltIf (← gets (·.hitsRaw a bs.length)) (.fault .untranslatedAddress)
def hostRead (a : Word) (n : Nat) : Op (List Byte) := readBytes hostReadByte a 0 n

/-- `MemWrite` and `MemRead` by a DMA agent, each with its event (R66). -/
def dmaWrite (g : Agent) (a : Word) (bs : List Byte) : Op Unit := do
  upd (writeBytes State.dmaWriteByte a 0 bs)
  emit (.memWrite g a bs)
def dmaRead (g : Agent) (a : Word) (n : Nat) : Op (List Byte) := do
  let bs ← readBytes dmaReadByte a 0 n
  emit (.memRead g a bs)
  return bs

/-- Memory takes the CPU value of the given dirty bytes (R295). -/
def cleanBytes (m : List Host.Cell) : List Host.Cell → List Host.Cell
  | [] => m
  | (a, v) :: t => cleanBytes (Memory.write m a v) t

/-- The dirty bytes of the lines that cover a range, and the rest (R295). -/
def State.dirtyIn (s : State) (addr : Word) (len : Nat) : List Host.Cell :=
  s.cpuDirty.filter fun e => inLines s.cfg addr len e.1
def State.dirtyOut (s : State) (addr : Word) (len : Nat) : List Host.Cell :=
  s.cpuDirty.filter fun e => !inLines s.cfg addr len e.1

/-- An operation on the cache, which does nothing when there is none (`CACHE_ENABLED`, R295). -/
def whenCached (op : Op Unit) : Op Unit := fun s => if s.cfg.cacheEnabled then op s else .ok () s

/-- The dirty bytes of a range go to memory and are clean (R295). A byte that is stale as well stays
stale and keeps its DMA-written value for the draw of a host read (R64, R365; log 14). -/
def writeBackLines (addr : Word) (len : Nat) : Op Unit := upd fun s =>
  { s with mem := cleanBytes s.mem (s.dirtyIn addr len), cpuDirty := s.dirtyOut addr len }

/-- `CACHE_CLEAN` (R295); with the cache off only its event. -/
def cacheClean (addr : Word) (len : Nat) : Op Unit := do
  whenCached (writeBackLines addr len)
  emit (.clean addr len)

/-- The given dirty bytes are discarded: memory keeps its value or takes the CPU's, a draw for each (R296). -/
def discardBytes : List Host.Cell → Op Unit
  | [] => pure ()
  | (a, v) :: t => do
    let b ← drawBool
    upd fun s => if b then { s with mem := Memory.write s.mem a v } else s
    discardBytes t

/-- The lines of a range leave the CPU's view: its dirty bytes are discarded and its stale ones forgotten (R296). -/
def dropLines (addr : Word) (len : Nat) : Op Unit := do
  discardBytes (← gets (·.dirtyIn addr len))
  upd fun s => { s with
    cpuDirty := s.dirtyOut addr len
    cpuStale := s.cpuStale.filter fun e => !inLines s.cfg addr len e.1 }

/-- `CACHE_INVALIDATE` (R296); with the cache off only its event. -/
def cacheInvalidate (addr : Word) (len : Nat) : Op Unit := do
  whenCached (dropLines addr len)
  emit (.invalidate addr len)

/-- `CACHE_CLEAN_INVALIDATE` (R297): the clean and then the invalidate, as one atomic step. -/
def cacheCleanInvalidate (addr : Word) (len : Nat) : Op Unit := do
  cacheClean addr len
  cacheInvalidate addr len

/-- `BARRIER` (R298, R73): every earlier host descriptor write is now visible to every agent (R69). -/
def barrier : Op Unit := do
  upd fun s => { s with unsynced := [] }
  emit .barrier

/-- `DELAY` (R299). -/
def delay (name : DelayName) : Op Unit := emit (.delay name)

/-! ## Descriptor and control-block accesses (R39, R40, R56, R63, R69, R134) -/

/-- `CB(dir, i) <- b`. -/
def State.setCb (s : State) (d : Dir) (i : Nat) (b : Cb) : State :=
  match d with
  | .rx => { s with cbRx := Tab.put s.cbRx i b }
  | .tx => { s with cbTx := Tab.put s.cbTx i b }

/-- Set the ghost owner of a written control block (R40). -/
def State.setOwner (s : State) (d : Dir) (i : Nat) (o : Owner) : State :=
  match s.cb? d i with
  | some b => s.setCb d i { b with owner := o }
  | none => s

/-- `POOL_INIT(dir)` is done: every control block of the pool is written (R140). -/
def State.poolDone (s : State) (d : Dir) : Bool := (List.range nDesc).all fun i => (s.cb? d i).isSome

/-- Read a control block; an unwritten one is a fault (R56). -/
def readCb (d : Dir) (i : Nat) : Op Cb := do orHalt (← gets (·.cb? d i)) (.fault .unwrittenRead)

/-- Set the owner of a control block. -/
def setOwner (d : Dir) (i : Nat) (o : Owner) : Op Unit := upd (·.setOwner d i o)

/-- A descriptor index the pool does not have ends the operation (log 10). -/
def inPool (i : Nat) : Op Unit := haltIf (decide (nDesc ≤ i)) (.fault .descriptorOutsidePool)

/-- The host reads one descriptor word (R65, R67). -/
def hostReadDesc (d : Dir) (i : Nat) (k : DescWord) : Op Word := do
  inPool i
  gets fun s => (s.desc d i).word k

/-- The word is one of a descriptor's two address words. -/
def DescWord.isAddr : DescWord → Bool
  | .w0 => false
  | .w1 | .w2 => true

/-- The host writes one descriptor word; until the next `BARRIER` a fetch may see the old word (R69). An address word of a
descriptor the hardware owns is the fault of R63. Where the configuration places a pool inside the buffers, a word that
lies in a buffer the hardware owns is no fault by that (DESIGN CHOICE, log 49). -/
def hostWriteDesc (d : Dir) (i : Nat) (k : DescWord) (v : Word) : Op Unit := do
  inPool i
  haltIf (k.isAddr && (← gets (·.hwOwned d i))) (.fault .ownershipViolation)
  upd (·.writeDesc d i k v)

/-- The check of R134 on an address pair written into a descriptor (log 29). -/
def checkAlias (w2 w1 : Word) : Op Unit := do
  haltIf (!aliasTagged (← gets (·.cfg)) w2 w1) (.fault .untranslatedAddress)

/-- The words a fetch may see in place of the current one (R69). -/
def State.oldWords (s : State) (d : Dir) (i : Nat) (k : DescWord) : List Word :=
  (s.unsynced.filter fun u => decide (u.dir = d) && decide (u.index = i) && decide (u.word = k)).map (·.old)

/-- One word of a descriptor fetch: the current word, or a draw among it and the older ones (R69). -/
def fetchWord (d : Dir) (i : Nat) (k : DescWord) : Op Word := do
  let now ← gets fun s => (s.desc d i).word k
  match ← gets (·.oldWords d i k) with
  | [] => return now
  | o :: os => drawFrom now (o :: os)

/-- A DMA agent fetches a descriptor: one atomic three-word read (R65, R281, R286). Before `POOL_INIT` it is the fault
`UnwrittenRead` (R56). -/
def fetchDesc (g : Agent) (d : Dir) (i : Nat) : Op Desc := do
  inPool i
  let _ ← readCb d i
  let w0 ← fetchWord d i .w0
  let w1 ← fetchWord d i .w1
  let w2 ← fetchWord d i .w2
  let c ← gets (·.cfg)
  emit (.memRead g (descAddr c d i) (Desc.bytes ⟨w0, w1, w2⟩))
  return ⟨w0, w1, w2⟩

end Sys2Proof.Machine
end

