-- ==== Sys2Proof/Machine/Dma.lean ====
section
/-! DEFINITION. The DMA agents: RDMA (46_dma_agents R280 to R284), the transmit arbiter (43_tx_ring_arbiter R191, R192)
and TDMA (R285 to R287). Each agent step is atomic (00_scope R7). The meanings of RDMA_DELIVER, RDMA_DROP,
TDMA_TRANSMIT and ARB_SELECT stand here. -/

namespace Sys2Proof.Machine

/-! ## RDMA -/

/-- The six address bytes in filter slot `j` (R99). Bits of its two registers in no byte of the layout, 31:16 of the even
one by default, do not matter (DESIGN CHOICE, log 51). -/
def State.slotAddr (s : State) (j : Nat) : List Byte :=
  unpackBytes s.cfg.codes.mdfEvenShifts (s.reg (.umacMdfAddr (2 * j)))
    ++ unpackBytes s.cfg.codes.mdfOddShifts (s.reg (.umacMdfAddr (2 * j + 1)))

/-- The receive address filter (R284): promiscuous mode, or an enabled slot that equals the destination address. A frame of 1
to 5 bytes (R281) has no whole destination address and equals no slot of six bytes (DESIGN CHOICE, log 63). -/
def State.passesFilter (s : State) (f : List Byte) : Bool :=
  s.flag .umacCmd (·.promisc) ||
    (List.range s.cfg.mdfSlots).any fun j =>
      fieldOn (mdfEnPos s.cfg j) (s.reg .umacMdfCtrl) && decide (f.take 6 = s.slotAddr j)

/-- The enabling condition of R280, but for the ring's free count: the enables, and a frame of at least one byte that
passes the filter (R281, R284). -/
def State.rdmaEnabled (s : State) (f : List Byte) : Bool :=
  s.dmaEn .rx && s.ringEn .rx defaultRing && s.flag .umacCmd (·.rxEn) && !f.isEmpty && s.passesFilter f

/-- `free` of R280, in the integers: the ring's size less the descriptors filled and not yet acknowledged. -/
def State.rdmaFree (s : State) (r : RxRing) : Int :=
  (r.size : Int) -
    pendingCount (indexOf (s.reg (.ring .rx defaultRing .prodIndex))) (indexOf (s.reg (.ring .rx defaultRing .consIndex)))

/-- The lengths of the leading pad and of the forwarded FCS (R281). -/
def State.padLen (s : State) : Nat := if s.flag .rbufCtrl (·.align2b) then rxPad else 0
def State.fcsFwdLen (s : State) : Nat := if s.flag .umacCmd (·.crcFwd) then s.cfg.fcsLen else 0

/-- `|stored|` of R281 for a frame of `n` bytes. -/
def State.storedLen (s : State) (n : Nat) : Nat := s.padLen + n + s.fcsFwdLen

/-- The frame bytes RDMA stores: `f`, or draws where the status has an error bit (R281; log 25). -/
def storedBody (f : List Byte) (st : RxStatus) : Op (List Byte) :=
  if st.error then drawBytes f.length else pure f

/-- `stored` of R281: pad, frame and forwarded FCS; the pad and the FCS are draws. -/
def storedBytes (f : List Byte) (st : RxStatus) : Op (List Byte) := do
  let pad ← drawBytes (← gets (·.padLen))
  let body ← storedBody f st
  let tail ← drawBytes (← gets (·.fcsFwdLen))
  return pad ++ body ++ tail

/-- The write pointer moves to the next control block of the ring, and `WRITE_PTR` shows it (R50, R281). The extent is the
ring record's, as R50 and R281 write it, and not read from `START_ADDR` and `END_ADDR` (DESIGN CHOICE, log 42). -/
def advanceWp (r : RxRing) (cb : Nat) : Op Unit := upd fun s =>
  { s with rdmaWp := ringNext r.cbBase r.endPtr cb }.setReg (.ring .rx defaultRing .writePtr)
    (ptrWord (ringNext r.cbBase r.endPtr cb))

/-- One descriptor is filled with one chunk (R281, R282): fetch, data, writeback, then the pointer; the producer index
follows in `rdmaFill`. The owner of the control block is not checked, as R281 has no check of it: after a REG_WRITE of
`WRITE_PTR` it may be the software already, and the step runs with no mark (R63; DESIGN CHOICE, log 65). -/
def fillOne (r : RxRing) (chunk : List Byte) (sop eop : Bool) (st : RxStatus) : Op Unit := do
  let cb ← gets (·.rdmaWp)
  let d ← fetchDesc .rdma .rx cb
  let c ← gets (·.cfg)
  dmaWrite .rdma (descPhys c d.w2 d.w1) chunk
  let w0 := rxW0 c.desc chunk.length sop eop st
  upd fun s => s.setDesc .rx cb { s.desc .rx cb with w0 := w0 }
  emit (.memWrite .rdma (descAddr c .rx cb) (wordBytes w0))
  advanceWp r cb
  setOwner .rx cb .sw

/-- Consecutive descriptors are filled with the chunks of a frame: `SOP` on the first only, `EOP` and the status on the
last only (R282). -/
def fillAll (r : RxRing) (st : RxStatus) : Bool → List (List Byte) → Op Unit
  | _, [] => pure ()
  | first, [c] => fillOne r c first true st
  | first, c :: cs => do
    fillOne r c first false {}
    fillAll r st false cs

/-- Add to the low 16 bits of an index register, modulo 65536 (R281, R286). -/
def bumpIndex (r : RegId) (n : Nat) : Op Unit := upd fun s =>
  s.setReg r (withIndex (s.reg r) (indexOf (s.reg r) + BitVec.ofNat 16 n))

/-- The effect of RDMA_DELIVER once it is enabled (R281, R282): the frame is stored in `k` descriptors, and the producer
index moves by `k` last. -/
def rdmaFill (r : RxRing) (f : List Byte) (st : RxStatus) : Op Unit := do
  let stored ← storedBytes f st
  let k := chunkCount stored.length
  fillAll r st true (chunks k stored)
  bumpIndex (.ring .rx defaultRing .prodIndex) k
  emit (.rxFrame f st)

/-- The effect of RDMA_DROP (R283): the discard counter goes up by one, modulo its 16 bits (R51). Where a configuration gives
`DISCARD_CNT` another width (R95), it wraps at that width (DESIGN CHOICE, log 66). -/
def rdmaDiscard : Op Unit := do
  upd fun s =>
    let p := s.reg (.ring .rx defaultRing .prodIndex)
    let pos := s.cfg.pos.discardCnt
    s.setReg (.ring .rx defaultRing .prodIndex) (fieldSet pos (fieldGet pos p + 1) p)
  emit .rxDropped

/-- RDMA_DELIVER (R280 to R282). -/
def rdmaDeliver (f : List Byte) (st : RxStatus) : Op Result := do
  if !(← gets (·.rdmaEnabled f)) then return .notEnabled
  else
    match ← gets (·.rx) with
    | none => halt (.fault .dmaBeforeInit)
    | some r => do
      let free ← gets (·.rdmaFree r)
      let k ← gets fun s => chunkCount (s.storedLen f.length)
      if free ≤ 0 then return .notEnabled
      else if (k : Int) > free then do
        rdmaDiscard
        return .stepped
      else do
        rdmaFill r f st
        return .stepped

/-- RDMA_DROP (R280, R283): enabled with no free descriptor, or with too few for a long frame (log 30). -/
def rdmaDrop (f : List Byte) : Op Result := do
  if !(← gets (·.rdmaEnabled f)) then return .notEnabled
  else
    match ← gets (·.rx) with
    | none => halt (.fault .dmaBeforeInit)
    | some r => do
      let free ← gets (·.rdmaFree r)
      let k ← gets fun s => chunkCount (s.storedLen f.length)
      if free = 0 ∨ (1 < k ∧ free < (k : Int)) then do
        rdmaDiscard
        return .stepped
      else return .notEnabled

/-! ## The arbiter -/

/-- The conditions of R191 that are no draw: the DMA enable, the two ring enables, and a descriptor handed over and not
yet taken. -/
def State.ringLoaded (s : State) (q : TxQueue) : Bool :=
  s.dmaEn .tx && s.ringEn .tx q.ring &&
    decide (0 < pendingCount (indexOf (s.reg (.ring .tx q.ring .prodIndex)))
      (indexOf (s.reg (.ring .tx q.ring .consIndex))))

/-- The flow period may throttle the ring (R191, R182). -/
def State.mayThrottle (s : State) (q : TxQueue) : Bool :=
  s.cfg.flowPeriodThrottles && decide (s.reg (.tdmaFlowPeriod q.ring) ≠ 0)

/-- Eligibility of a ring (R191); `not_throttled(q)` is a draw. -/
def eligible (q : TxQueue) : Op Bool := do
  if !(← gets (·.ringLoaded q)) then return false
  else if ← gets (·.mayThrottle q) then drawBool
  else return true

/-- The eligible ones of a list of queues, in order. -/
def eligibleOf : List TxQueue → Op (List TxQueue)
  | [] => pure []
  | q :: qs => do
    let e ← eligible q
    let rest ← eligibleOf qs
    return if e then q :: rest else rest

/-- The queue with the least priority value among `q :: rest`; a tie goes to the one listed first (R192). -/
def leastPrio (r : Prio) (q : TxQueue) : List TxQueue → TxQueue
  | [] => q
  | p :: ps =>
    if prioUnpack p.num r < prioUnpack q.num r then leastPrio r p ps else leastPrio r q ps

/-- Strict priority is the arbiter's mode (R37, R95). -/
def State.strictPriority (s : State) : Bool :=
  fieldGet s.cfg.pos.arbMode (s.reg .tdmaArbCtrl) == s.cfg.codes.arbSp

/-- ARB_SELECT (R192). -/
def arbSelect : Op (Option TxQueue) := do
  match ← eligibleOf txQueues with
  | [] => return none
  | q :: qs => do
    if ← gets (·.strictPriority) then return some (leastPrio (← gets (·.prio)) q qs)
    else return some (← drawFrom q qs)

/-! ## TDMA -/

/-- The bytes of a frame with a malformed descriptor: any bytes, of any number (R94, R286; log 37). -/
def anyBytes : Op (List Byte) := do drawBytes (← drawNat)

/-- The frame's bytes: those read, or any where the descriptor has no length or lacks `SOP` or `EOP` (R286, R94). -/
def txBytes (c : Config) (w0 : Word) (bytes : List Byte) : Op (List Byte) :=
  if !w0Whole c.desc w0 || w0Len c.desc w0 == 0 then anyBytes else pure bytes

/-- One transmission from ring `q` (R286): fetch, buffer read, emission, and the consumer index last (R287). The ring's
extent is the record's (R50, R286; DESIGN CHOICE, log 42). The owner of the control block is not checked, as R286 has no
check of it, also where a REG_WRITE of `READ_PTR` led to one the software owns (R63; DESIGN CHOICE, log 65). -/
def tdmaSend (q : TxQueue) (r : TxRing) : Op Unit := do
  let cb ← gets fun s => (Tab.get? s.tdmaRp q.num).getD 0
  let d ← fetchDesc .tdma .tx cb
  let c ← gets (·.cfg)
  let read ← dmaRead .tdma (descPhys c d.w2 d.w1) (w0Len c.desc d.w0)
  let bytes ← txBytes c d.w0 read
  emit (.txFrame q (bytes ++ (if fieldOn c.desc.appendCrc d.w0 then fcs bytes else [])))
  upd fun s =>
    { s with tdmaRp := Tab.put s.tdmaRp q.num (ringNext r.cbBase r.endPtr cb) }.setReg (.ring .tx q.ring .readPtr)
      (ptrWord (ringNext r.cbBase r.endPtr cb))
  bumpIndex (.ring .tx q.ring .consIndex) 1

/-- TDMA_TRANSMIT (R285, R286). -/
def tdmaTransmit : Op Result := do
  if !(← gets (·.flag .umacCmd (·.txEn))) then return .notEnabled
  else
    match ← arbSelect with
    | none => return .notEnabled
    | some q =>
      match ← gets fun s => Tab.get? s.tx q.num with
      | none => halt (.fault .dmaBeforeInit)
      | some r => do
        tdmaSend q r
        return .stepped

/-! ## Agent steps between host steps (R7, R9; log 8) -/

/-- The PHY's step: it answers the transaction in progress, which it may do at any time (R8, R9, R260, R333; log 19). -/
def phyAnswer : Op Result := do
  if (← gets (·.mdioWait)) = .idle then return .notEnabled
  else do
    mdioComplete
    return .stepped

/-- A write of hardware to its own status register, which it may do at any time (R364; log 18). -/
def hardwareWrite (op : Op Unit) : Op Result := do
  op
  return .stepped

/-- The operation of an agent step. -/
def agentOp : AgentStep → Op Result
  | .deliver f st => rdmaDeliver f st
  | .drop f => rdmaDrop f
  | .transmit => tdmaTransmit
  | .phy => phyAnswer
  | .interrupts x => hardwareWrite (setPending x)
  | .dmaStatus d => hardwareWrite (setDmaStatus d)

/-- An agent takes a step while a host operation runs: its effect and its fault mark stay, and the host's result is not
its business. A step that is not enabled does nothing. -/
def agentMove (s : State) (a : AgentStep) : State :=
  match agentOp a s with
  | .ok _ t => t
  | .error (.fault f) t => t.mark f
  | .error _ t => t

/-- The agent steps scheduled for the next gap between two host steps. -/
def runGap (s : State) : State :=
  match s.between with
  | [] => s
  | gap :: rest => gap.foldl agentMove { s with between := rest }

/-- Agent steps before an operation; under a configuration that R321 refuses no agent steps. -/
def State.agentSteps (s : State) (gap : List AgentStep) : State :=
  if configOk s.cfg then gap.foldl agentMove s else s

/-- One atomic host step of a composite operation: first the agent steps that come before it, then its access. -/
def hostStep {α : Type} (act : Op α) : Op α := fun s => act (runGap s)

/-! ## The host steps of composite operations (R7, R14) -/

def hRead (r : RegId) : Op Word := hostStep (mmioRead r)
def hWrite (r : RegId) (v : Word) : Op Unit := hostStep (mmioWrite r v)

/-- `Reg(NAME).FIELD <- v`: a read step and a write step (R14, R76). -/
def hField (r : RegId) (p : RegPos → FieldPos) (v : Nat) : Op Unit := do
  let c ← gets (·.cfg)
  let w ← hRead r
  hWrite r (fieldSet (p c.pos) v w)

def hDescRead (d : Dir) (i : Nat) (k : DescWord) : Op Word := hostStep (hostReadDesc d i k)
def hDescWrite (d : Dir) (i : Nat) (k : DescWord) (v : Word) : Op Unit := hostStep (hostWriteDesc d i k v)
/-- A descriptor address write: `w1`, then `w2`, and the check of R134 on the pair written (R93; log 29). -/
def hDescAddr (d : Dir) (i : Nat) (w2 w1 : Word) : Op Unit := do
  hDescWrite d i .w1 w1
  hDescWrite d i .w2 w2
  checkAlias w2 w1

def hCopyOut (a : Word) (bs : List Byte) : Op Unit := hostStep (hostWrite a bs)
def hCopyIn (a : Word) (n : Nat) : Op (List Byte) := hostStep (hostRead a n)
def hClean (a : Word) (n : Nat) : Op Unit := hostStep (cacheClean a n)
def hInvalidate (a : Word) (n : Nat) : Op Unit := hostStep (cacheInvalidate a n)
def hCleanInvalidate (a : Word) (n : Nat) : Op Unit := hostStep (cacheCleanInvalidate a n)
def hBarrier : Op Unit := hostStep barrier
def hDelay (n : DelayName) : Op Unit := hostStep (delay n)

/-! ## Meanings -/

/-- RDMA_DELIVER with the frame and status passed beside the word (R281). -/
def execRdmaDeliver (s : State) : Host.Outcome State Fault Refusal := runOp (rdmaDeliver s.args.frame s.args.st) s

/-- RDMA_DROP with the frame passed beside the word (R283). -/
def execRdmaDrop (s : State) : Host.Outcome State Fault Refusal := runOp (rdmaDrop s.args.frame) s

/-- TDMA_TRANSMIT (R286). -/
def execTdmaTransmit (s : State) : Host.Outcome State Fault Refusal := runOp tdmaTransmit s

/-- ARB_SELECT (R192). -/
def execArbSelect (s : State) : Host.Outcome State Fault Refusal := runOp (do return .queue (← arbSelect)) s

end Sys2Proof.Machine
end

