-- ==== Sys2Proof/Machine/Elementary.lean ====
section
/-! DEFINITION. The elementary host operations, one atomic step each (00_scope R7): the bus address translator
(40_bus_address R130, R131), priority packing (43_tx_ring_arbiter R189, R190), register access (46_dma_agents R290,
R291), cache operations, barrier and delay (R295 to R299). -/

namespace Sys2Proof.Machine

/-- `BUS_XLATE` (R130). -/
def busXlate (phys : Word) : Op Result := do return .word (toBusAddress (← gets (·.cfg)) phys)

/-- `PHYS_XLATE` (R131). -/
def physXlate (bus : Word) : Op Result := do return .word (toPhysAddress (← gets (·.cfg)) bus)

/-- The result that carries three priority words. -/
def prioResult (r : Prio) : Result := .prioRegs r.r0 r.r1 r.r2

/-- `PRIO_PACK` (R189): a queue outside 0..17 or a priority outside 0..31 is refused. -/
def prioPackOp (q p : Nat) (r : Prio) : Op Result := do
  haltIf (decide (17 < q) || decide (31 < p)) .refused
  return prioResult (prioPack q p r)

/-- `PRIO_UNPACK` (R190): a queue outside 0..17 is refused. -/
def prioUnpackOp (q : Nat) (r : Prio) : Op Result := do
  haltIf (decide (17 < q)) .refused
  return .count (prioUnpack q r)

/-- The register a 32-bit aligned access at an offset names; any other access is refused (R62, R290, R321). -/
def accessReg (off width : Nat) : Op RegId := do
  haltIf (decide (width ≠ 32) || decide (off % 4 ≠ 0)) .refused
  orHalt (regAt (← gets (·.cfg)) off) .refused

/-- `REG_READ` (R290). -/
def regRead (off width : Nat) : Op Result := do
  let r ← accessReg off width
  return .word (← mmioRead r)

/-- `REG_WRITE` (R291, R292). -/
def regWrite (off width : Nat) (v : Word) : Op Result := do
  let r ← accessReg off width
  mmioWrite r v
  return .ok

/-- An operation that returns `Ok(())`. -/
def okAfter (op : Op Unit) : Op Result := do
  op
  return .ok

/-! ## Meanings -/

/-- The three words `regs[0..2]` passed beside the word (R111). -/
def Args.prio (a : Args) : Prio := ⟨a.regs0, a.regs1, a.regs2⟩

def execBusXlate (s : State) : Host.Outcome State Fault Refusal := runOp (busXlate s.args.phys) s
def execPhysXlate (s : State) : Host.Outcome State Fault Refusal := runOp (physXlate s.args.bus) s
def execPrioPack (q : BitVec 8) (s : State) : Host.Outcome State Fault Refusal :=
  runOp (prioPackOp q.toNat s.args.p s.args.prio) s
def execPrioUnpack (q : BitVec 8) (s : State) : Host.Outcome State Fault Refusal :=
  runOp (prioUnpackOp q.toNat s.args.prio) s
def execRegRead (s : State) : Host.Outcome State Fault Refusal := runOp (regRead s.args.off s.args.width) s
def execRegWrite (s : State) : Host.Outcome State Fault Refusal :=
  runOp (regWrite s.args.off s.args.width s.args.v) s
def execCacheClean (s : State) : Host.Outcome State Fault Refusal :=
  runOp (okAfter (cacheClean s.args.addr s.args.len)) s
def execCacheInvalidate (s : State) : Host.Outcome State Fault Refusal :=
  runOp (okAfter (cacheInvalidate s.args.addr s.args.len)) s
def execCacheCleanInvalidate (s : State) : Host.Outcome State Fault Refusal :=
  runOp (okAfter (cacheCleanInvalidate s.args.addr s.args.len)) s
def execBarrier (s : State) : Host.Outcome State Fault Refusal := runOp (okAfter barrier) s
def execDelay (s : State) : Host.Outcome State Fault Refusal := runOp (okAfter (delay s.args.name)) s

end Sys2Proof.Machine
end

