-- ==== Sys2Proof/Machine/Pool.lean ====
section
/-! DEFINITION. The descriptor and control-block pool: POOL_INIT (41_pool R140) and POOL_REFILL (R141). -/

namespace Sys2Proof.Machine

/-- Construction has ended: `seq` is `Ready` or `Failed(_)` (R220, R314). -/
def State.constructed (s : State) : Bool :=
  match s.seq with
  | .ready | .failed _ => true
  | .idle | .step _ => false

/-- One round of POOL_INIT's loop (R140). Its zeros name no buffer and are not checked by R134 (log 29). -/
def poolInitOne (d : Dir) (i : Nat) : Op Unit := do
  hDescWrite d i .w0 0
  hDescWrite d i .w1 0
  hDescWrite d i .w2 0
  upd (·.setCb d i { descIndex := i, owner := .sw })

/-- `POOL_INIT` (R140): refused once construction has ended, at `Ready` or after a failure (R321, R314), whatever the count
(DESIGN CHOICE, log 21); before that, another count than `N_DESC` is `Malformed`; a block the hardware owns is the fault of
R63 at its first address word (log 21). -/
def poolInit (d : Dir) (count : Nat) : Op Unit := do
  haltIf (← gets (·.constructed)) .refused
  haltIf (decide (count ≠ nDesc)) (.err .malformed)
  each (List.range nDesc) (poolInitOne d)

/-- Write a buffer's bus address into a descriptor's address words (R93, R134, R141, R183). -/
def writeBufAddr (d : Dir) (i : Nat) (buf : Word) : Op Unit := do
  hDescAddr d i 0 (toBusAddress (← gets (·.cfg)) buf)

/-- The cache operation of a refill: the whole buffer of a receive control block (R72, R141). -/
def refillCache (d : Dir) (buf : Word) : Op Unit :=
  match d with
  | .rx => hCleanInvalidate buf bufLen
  | .tx => pure ()

/-- `POOL_REFILL` (R141). -/
def poolRefill (d : Dir) (cb : Nat) : Op Unit := do
  let b ← readCb d cb
  haltIf (decide (b.owner = .hw)) (.fault .ownershipViolation)
  let c ← gets (·.cfg)
  haltIf (badBuffer c (cbBuf c d cb)) (.err .unaligned)
  refillCache d (cbBuf c d cb)
  writeBufAddr d b.descIndex (cbBuf c d cb)

/-! ## Meanings -/

/-- POOL_INIT with its direction in Q (R112). -/
def execPoolInit (q : BitVec 8) (s : State) : Host.Outcome State Fault Refusal :=
  runOp (do
    let d ← orHalt (dirOfQ q) .refused
    poolInit d s.args.count
    return .ok) s

/-- POOL_REFILL with its direction in Q; an operand `cb` outside `0..N_DESC-1` is refused (R141, R112; log 39). -/
def execPoolRefill (q : BitVec 8) (s : State) : Host.Outcome State Fault Refusal :=
  runOp (do
    let d ← orHalt (dirOfQ q) .refused
    haltIf (decide (nDesc ≤ s.args.cb)) .refused
    poolRefill d s.args.cb
    return .ok) s

end Sys2Proof.Machine
end

