-- ==== Sys2Proof/Machine/RxRing.lean ====
section
/-! DEFINITION. The receive ring: RX_RING_INIT (42_rx_ring R150, R151) and RX_RECV (R152 to R165). -/

namespace Sys2Proof.Machine

/-- A register of the default receive ring. -/
def rxReg (r : RingReg) : RegId := .ring .rx defaultRing r

/-- The record RX_RING_INIT writes (R150, R41). -/
def freshRx : RxRing where
  index := 16
  cbBase := 0
  size := rxSize
  cIndex := 0
  readPtr := 0
  initPtr := 0
  endPtr := rxSize - 1
  oldDiscards := 0

/-- One round of `alloc_rx_buffers` (R151). -/
def allocRxBuffer (cb : Nat) : Op Unit := do
  poolRefill .rx cb
  setOwner .rx cb .hw

/-- RX_RING_INIT (R150): refused while RDMA is enabled or before `POOL_INIT(RX)`. An error of an inner refill ends it with
that error, what was done before it done (DESIGN CHOICE, log 59). -/
def rxRingInit : Op Unit := do
  haltIf ((← gets (·.dmaEn .rx)) || !(← gets (·.poolDone .rx))) .refused
  let c ← gets (·.cfg)
  upd fun s => { s with rx := some freshRx }
  each (List.range rxSize) allocRxBuffer
  hWrite (rxReg .prodIndex) 0
  hWrite (rxReg .consIndex) 0
  hWrite (rxReg .ringBufSize) (ringBufSizeWord c.pos .rx rxSize)
  hWrite (.rdmaXonXoff defaultRing) (xonXoffWord c)
  hWrite (rxReg .startAddr) (ptrWord freshRx.cbBase)
  hWrite (rxReg .endAddr) (ptrWord (freshRx.endPtr + 1) - 1)
  hWrite (rxReg .readPtr) (ptrWord freshRx.cbBase)
  hWrite (rxReg .writePtr) (ptrWord freshRx.cbBase)
  hField (.dmaRingCfg .rx) (ringEnPos · .rx defaultRing.val) 1
  hField (.dmaCtrl .rx) (ringBufEnPos · .rx defaultRing.val) 1

/-- The receive ring record; reading it unwritten is a fault (R41, R56). -/
def readRx : Op RxRing := do orHalt (← gets (·.rx)) (.fault .unwrittenRead)

/-- The discard counter in a `PROD_INDEX` word (R51), cut to 16 bits where a configuration gives `DISCARD_CNT` more (DESIGN
CHOICE, log 66). -/
def discardsOf (c : Config) (p : Word) : Half := BitVec.ofNat 16 (fieldGet c.pos.discardCnt p)

/-- Step 2 of R152: a discard counter that has moved is recorded and reported (R154). -/
def surfaceDrops (r : RxRing) (disc : Half) : Op Unit :=
  if disc ≠ r.oldDiscards then do
    upd fun s => { s with rx := some { r with oldDiscards := disc } }
    halt (.err (.dropped (disc - r.oldDiscards).toNat))
  else pure ()

/-- Step 6 of R152: copy the payload past the pad, and leave the rest of `dest` (R161); or the error of steps 4, 5. -/
def rxCopy (verdict : Except Err Nat) (dest : List Byte) (buf : Word) : Op Result :=
  match verdict with
  | .error e => pure (.err e)
  | .ok n => do
    let bs ← hCopyIn (buf + BitVec.ofNat 32 rxPad) n
    upd fun s => { s with args := { s.args with dest := bs ++ dest.drop n } }
    return .count n

/-- The record after one descriptor is consumed (R152 step 7, R42). -/
def RxRing.advance (r : RxRing) : RxRing :=
  { r with readPtr := ringNext r.cbBase r.endPtr r.readPtr, cIndex := r.cIndex + 1 }

/-- Steps 4 to 8 of R152 on the descriptor at the read pointer (R156): whatever they find, the refill, the advance and
the acknowledgement follow (R160, R162). An error of the refill itself ends the operation before the advance (DESIGN CHOICE,
log 59). -/
def rxTake (r : RxRing) (dest : List Byte) : Op Result := do
  hBarrier
  let b ← readCb .rx r.readPtr
  let c ← gets (·.cfg)
  hInvalidate (cbBuf c .rx r.readPtr) bufLen
  let w0 ← hDescRead .rx b.descIndex .w0
  let result ← rxCopy (rxVerdict c dest.length w0) dest (cbBuf c .rx r.readPtr)
  poolRefill .rx r.readPtr
  upd fun s => { s with rx := some r.advance }
  setOwner .rx r.readPtr .hw
  hBarrier
  hWrite (rxReg .consIndex) (indexWord r.advance.cIndex)
  return result

/-- RX_RECV (R152): refused before `Ready`. -/
def rxRecv (dest : List Byte) : Op Result := do
  haltIf (decide ((← gets (·.seq)) ≠ .ready)) .refused
  let c ← gets (·.cfg)
  haltIf (decide (dest.length < c.mtu)) (.err .exhausted)
  let p ← hRead (rxReg .prodIndex)
  let r ← readRx
  surfaceDrops r (discardsOf c p)
  if pendingCount (indexOf p) r.cIndex = 0 then return .wouldBlock
  else do
    haltIf (decide (r.size < pendingCount (indexOf p) r.cIndex)) (.fault .indexOutOfRange)
    rxTake r dest

/-! ## Meanings -/

def execRxRingInit (s : State) : Host.Outcome State Fault Refusal := runOp (okAfter rxRingInit) s

/-- RX_RECV with the host's buffer `dest` passed beside the word. -/
def execRxRecv (s : State) : Host.Outcome State Fault Refusal := runOp (rxRecv s.args.dest) s

end Sys2Proof.Machine
end

