-- ==== Sys2Proof/Machine/TxRing.lean ====
section
/-! DEFINITION. The transmit rings: TX_QUEUES_INIT (43_tx_ring_arbiter R180 to R182), TX_SEND (R183, R184) and TX_RECLAIM
(R185, R186). -/

namespace Sys2Proof.Machine

/-- A register of a transmit ring. -/
def txReg (q : TxQueue) (r : RingReg) : RegId := .ring .tx q.ring r

/-- `tx[q] <- r` (R44). -/
def setTx (q : TxQueue) (r : TxRing) : Op Unit := upd fun s => { s with tx := Tab.put s.tx q.num r }

/-- The record `init_tx_ring` writes (R181). -/
def freshTx (q : TxQueue) : TxRing where
  index := q.num
  queue := q.num
  cbBase := q.base
  size := q.size
  endPtr := q.base + q.size - 1
  cleanPtr := q.base
  cIndex := 0
  freeBds := q.size
  writePtr := q.base
  prodIndex := 0

/-- `init_tx_ring` (R181). -/
def initTxRing (q : TxQueue) : Op Unit := do
  let c ← gets (·.cfg)
  let r := freshTx q
  setTx q r
  each (List.range' r.cbBase r.size) fun cb => setOwner .tx cb .sw
  hWrite (txReg q .prodIndex) 0
  hWrite (txReg q .consIndex) 0
  hWrite (txReg q .ringBufSize) (ringBufSizeWord c.pos .tx r.size)
  hWrite (txReg q .startAddr) (ptrWord r.cbBase)
  hWrite (txReg q .endAddr) (ptrWord (r.endPtr + 1) - 1)
  hWrite (txReg q .readPtr) (ptrWord r.cbBase)
  hWrite (txReg q .writePtr) (ptrWord r.cbBase)

/-- One round of TX_QUEUES_INIT's loop: the ring and its flow period (R180, R182). -/
def initTxQueue (q : TxQueue) : Op Unit := do
  initTxRing q
  hWrite (.tdmaFlowPeriod q.ring) (flowPeriodWord (← gets (·.cfg)) q.num)

/-- The priority words of R180 and R188: each queue's `BASE_PRIORITY + q`. -/
def initialPrio (base : Nat) : Prio := txQueues.foldl (fun r q => prioPack q.num (base + q.num) r) ⟨0, 0, 0⟩

/-- TX_QUEUES_INIT (R180): refused before `POOL_INIT(TX)` and outside step 11 (log 22). -/
def txQueuesInit : Op Unit := do
  haltIf (decide ((← gets (·.seq)) ≠ .step .s11) || !(← gets (·.poolDone .tx))) .refused
  let c ← gets (·.cfg)
  let saved ← hRead (.dmaCtrl .tx)
  hWrite (.dmaCtrl .tx) (saved &&& ~~~ ctrlEnableMask c.pos)
  hField .tdmaArbCtrl (·.arbMode) c.codes.arbSp
  each txQueues initTxQueue
  let prio := initialPrio c.basePriority
  hWrite (.tdmaPriority 0) prio.r0
  hWrite (.tdmaPriority 1) prio.r1
  hWrite (.tdmaPriority 2) prio.r2
  hWrite (.dmaRingCfg .tx) (tdmaRingMask c.pos)
  hWrite (.dmaCtrl .tx) ((saved &&& fieldMask (dmaEnPos .tx c.pos)) ||| tdmaBufEnMask c.pos)

/-- Release `n` control blocks from the clean pointer on; the new clean pointer is returned (R185). -/
def releaseBds (r : TxRing) : Nat → Nat → Op Nat
  | 0, p => pure p
  | n + 1, p => do
    setOwner .tx p .sw
    releaseBds r n (ringNext r.cbBase r.endPtr p)

/-- TX_RECLAIM (R185): refused before the ring is initialised. -/
def txReclaim (q : TxQueue) : Op Nat := do
  let r ← orHalt (← gets fun s => Tab.get? s.tx q.num) .refused
  let hwC := indexOf (← hRead (txReg q .consIndex))
  let n := pendingCount hwC r.cIndex
  haltIf (decide ((r.size : Int) - r.freeBds < n)) (.err .hwError)
  hBarrier
  let p ← releaseBds r n r.cleanPtr
  setTx q { r with cleanPtr := p, freeBds := r.freeBds + n, cIndex := hwC }
  return n

/-- A transmit ring record; reading it unwritten is a fault (R44, R56). -/
def readTx (q : TxQueue) : Op TxRing := do orHalt (← gets fun s => Tab.get? s.tx q.num) (.fault .unwrittenRead)

/-- The checks of R183 on the payload length and the ring (R313). -/
def checkPayload (c : Config) (r : TxRing) (len : Nat) : Op Unit := do
  haltIf (decide (len = 0)) (.err .malformed)
  haltIf (decide (min c.mtu bufLen < len)) (.err .exhausted)
  haltIf (decide (r.freeBds = 0)) (.err .exhausted)

/-- The record after one descriptor is handed over (R183). -/
def TxRing.handOver (r : TxRing) : TxRing :=
  { r with
    writePtr := ringNext r.cbBase r.endPtr r.writePtr
    freeBds := r.freeBds - 1
    prodIndex := r.prodIndex + 1 }

/-- TX_SEND after its checks: copy, clean, descriptor, bookkeeping, barrier, kick (R183, R363). -/
def txFill (q : TxQueue) (r : TxRing) (descIndex : Nat) (payload : List Byte) : Op Unit := do
  let c ← gets (·.cfg)
  let buf := cbBuf c .tx r.writePtr
  hCopyOut buf payload
  hClean buf payload.length
  writeBufAddr .tx descIndex buf
  hDescWrite .tx descIndex .w0 (txW0 c payload.length)
  setOwner .tx r.writePtr .hw
  setTx q r.handOver
  hBarrier
  hWrite (txReg q .prodIndex) (indexWord r.handOver.prodIndex)

/-- TX_SEND (R183): refused before `Ready`. -/
def txSend (q : TxQueue) (payload : List Byte) : Op Unit := do
  haltIf (decide ((← gets (·.seq)) ≠ .ready)) .refused
  let _ ← readTx q
  let _ ← txReclaim q
  let r ← readTx q
  let c ← gets (·.cfg)
  checkPayload c r payload.length
  let b ← readCb .tx r.writePtr
  haltIf (decide (b.owner = .hw)) (.fault .ownershipViolation)
  haltIf (badBuffer c (cbBuf c .tx r.writePtr)) (.err .unaligned)
  txFill q r b.descIndex payload

/-! ## Meanings -/

def execTxQueuesInit (s : State) : Host.Outcome State Fault Refusal := runOp (okAfter txQueuesInit) s

/-- TX_SEND with its queue in Q (R112) and the payload passed beside the word. -/
def execTxSend (q : BitVec 8) (s : State) : Host.Outcome State Fault Refusal :=
  runOp (do
    let k ← orHalt (queueOfQ q) .refused
    txSend k s.args.payload
    return .ok) s

/-- TX_RECLAIM with its queue in Q (R112). -/
def execTxReclaim (q : BitVec 8) (s : State) : Host.Outcome State Fault Refusal :=
  runOp (do
    let k ← orHalt (queueOfQ q) .refused
    return .count (← txReclaim k)) s

end Sys2Proof.Machine
end

