-- ==== Sys2Proof/Machine/Link.lean ====
section
/-! DEFINITION. MDIO access and the link negotiator: MDIO_READ (45_link_negotiator R260), MDIO_WRITE (R261) and
LINK_READ_STATUS (R262 to R267). -/

namespace Sys2Proof.Machine

/-- Poll `MDIO_CMD` until `START_BUSY` clears, `n` polls after the first one: the busy poll that makes
`MDIO_POLL_LIMIT` of them is `TimedOut` (R260, R361). A limit of 0 acts as 1, as the loop of R260 tests the limit only after
a busy poll (log 52). -/
def mdioPoll (c : Config) : Nat → Op Word
  | 0 => do
    let w ← hRead .mdioCmd
    haltIf (fieldOn c.pos.mdioStartBusy w) (.err .timedOut)
    return w
  | n + 1 => do
    let w ← hRead .mdioCmd
    if fieldOn c.pos.mdioStartBusy w then mdioPoll c n else return w

/-- MDIO_READ (R260). -/
def mdioRead (phyReg : Nat) : Op Half := do
  let c ← gets (·.cfg)
  hWrite .mdioCmd (mdioCommand c c.codes.mdioRead phyReg 0)
  let w ← mdioPoll c (c.mdioPollLimit - 1)
  haltIf (fieldOn c.pos.mdioReadFail w) (.err .hwError)
  return BitVec.ofNat 16 (fieldGet c.pos.mdioData w)

/-- MDIO_WRITE (R261). -/
def mdioWrite (phyReg : Nat) (data : Half) : Op Unit := do
  let c ← gets (·.cfg)
  hWrite .mdioCmd (mdioCommand c c.codes.mdioWrite phyReg data)
  let _ ← mdioPoll c (c.mdioPollLimit - 1)

/-- Steps 3 to 7 of R262, once the link is up. -/
def linkResolve (m : PhyMap) : Op LinkStatus := do
  let stat1000 ← mdioRead m.stat1000
  let ctrl1000 ← mdioRead m.ctrl1000
  haltIf (phyBit stat1000 m.msFail) (.err .hwError)
  let lpa ← mdioRead m.lpa
  let adv ← mdioRead m.advertise
  return resolveLink m stat1000 ctrl1000 lpa adv

/-- LINK_READ_STATUS (R262, R263, R314): the error of a failed MDIO read ends it. -/
def linkReadStatus : Op LinkStatus := do
  let m ← gets (·.cfg.phy)
  let bmsr ← mdioRead m.bmsr
  if phyBit bmsr m.lstatus then linkResolve m else return linkDown

/-! ## Meanings -/

/-- MDIO_READ with the PHY register in Q; a register above 31 is refused (R112). -/
def execMdioRead (q : BitVec 8) (s : State) : Host.Outcome State Fault Refusal :=
  runOp (do
    haltIf (!legalPhyQ q) .refused
    return .half (← mdioRead q.toNat)) s

/-- MDIO_WRITE with the PHY register in Q and the data passed beside the word. -/
def execMdioWrite (q : BitVec 8) (s : State) : Host.Outcome State Fault Refusal :=
  runOp (do
    haltIf (!legalPhyQ q) .refused
    mdioWrite q.toNat s.args.data
    return .ok) s

def execLinkReadStatus (s : State) : Host.Outcome State Fault Refusal :=
  runOp (do return .link (← linkReadStatus)) s

end Sys2Proof.Machine
end

