-- ==== Sys2Proof/Machine/Sequencer.lean ====
section
/-! DEFINITION. The MAC reset/init sequencer: SEQ_STEP and its sixteen steps (44_mac_sequencer R220 to R239). -/

namespace Sys2Proof.Machine

/-- `seq <- x` (R22). -/
def setSeq (x : Seq) : Op Unit := upd fun s => { s with seq := x }

/-- The sequencer state after step k (R221 to R235). -/
def StepNo.next : StepNo → Seq
  | .s1 => .step .s2
  | .s2 => .step .s3
  | .s3 => .step .s4
  | .s4 => .step .s5
  | .s5 => .step .s6
  | .s6 => .step .s7
  | .s7 => .step .s8
  | .s8 => .step .s9
  | .s9 => .step .s10
  | .s10 => .step .s11
  | .s11 => .step .s12
  | .s12 => .step .s13
  | .s13 => .step .s14
  | .s14 => .step .s15
  | .s15 => .ready

/-- Step 0 (R220). -/
def seqStart (mac : MacAddr) (rxDescLen : Nat) : Op Unit := do
  upd fun s => { s with macAddr := mac }
  poolInit .rx rxDescLen
  poolInit .tx nDesc
  upd fun s => { s with seqPolls := some 0 }
  setSeq (.step .s1)

/-- The accepted revision (R97, R221). -/
def revisionOk (c : Config) (rev : Word) : Bool :=
  fieldGet c.pos.revMajor rev == c.revMajor && fieldGet c.pos.revMinor rev == c.revMinor
    && fieldGet c.pos.revEphy rev == c.revEphy

/-- Step 1 (R221). -/
def seqRevision : Op Unit := do
  let c ← gets (·.cfg)
  let rev ← hRead .sysRevCtrl
  haltIf (!revisionOk c rev) (.err .hwVersionNotSupported)

/-- Step 2 (R222). -/
def seqPortMode : Op Unit := do
  let c ← gets (·.cfg)
  hField .sysPortCtrl (·.portMode) c.codes.extGphy
  hField .extRgmiiOobCtrl (·.rgmiiModeEn) 1

/-- Steps 3 and 6 (R223, R226): the soft-reset effect comes with the write that clears `SW_RESET` (R292, R238). -/
def seqSoftReset : Op Unit := do
  let c ← gets (·.cfg)
  hWrite .umacCmd 0
  hWrite .umacCmd (fieldPlace c.pos.swReset 1 ||| fieldPlace c.pos.lclLoopEn 1)
  hDelay .tSwresetHold
  hWrite .umacCmd 0

/-- Step 4 (R224): the throwaway MDIO read, every result discarded. -/
def seqThrowaway : Op Unit := do
  let m ← gets (·.cfg.phy)
  let _ ← attempt (mdioRead m.bmsr)

/-- `REG_PULSE` (R114): set, hold, clear. -/
def hPulse (r : RegId) (p : RegPos → FieldPos) (name : DelayName) : Op Unit := do
  hField r p 1
  hDelay name
  hField r p 0

/-- Step 5 (R225). -/
def seqRbufFlush : Op Unit := hPulse .sysRbufFlushCtrl (·.rbufFlush) .tFlushHold

/-- Mask every source of an interrupt controller and clear what is pending (R227). -/
def maskAll (x : IntrlId) : Op Unit := do
  hWrite (.intrl2 x .cpuMaskSet) 0xFFFFFFFF
  hWrite (.intrl2 x .cpuClear) 0xFFFFFFFF

/-- Step 7 (R227). An MTU of 2^32 or more is written modulo 2^32 (DESIGN CHOICE, log 56). -/
def seqCounters : Op Unit := do
  let c ← gets (·.cfg)
  hWrite .umacMibCtrl
    (fieldPlace c.pos.mibResetRx 1 ||| fieldPlace c.pos.mibResetRunt 1 ||| fieldPlace c.pos.mibResetTx 1)
  hWrite .umacMibCtrl 0
  hWrite .umacMaxFrameLen (BitVec.ofNat 32 c.mtu)
  hField .rbufCtrl (·.align2b) 1
  maskAll .c0
  maskAll .c1

/-- Step 8 (R228). -/
def seqStationAddr : Op Unit := do
  let c ← gets (·.cfg)
  let mac ← gets (·.macAddr)
  hWrite .umacMac0 (mac0Word c.codes mac)
  hWrite .umacMac1 (mac1Word c.codes mac)

/-- `mdf_write` (R229, R99): the even register first (DESIGN CHOICE, log 62). -/
def mdfWrite (j : Nat) (a : MacAddr) : Op Unit := do
  let c ← gets (·.cfg)
  hWrite (.umacMdfAddr (2 * j)) (mdfEvenWord c.codes a)
  hWrite (.umacMdfAddr (2 * j + 1)) (mdfOddWord c.codes a)

/-- Step 9 (R229). -/
def seqFilter : Op Unit := do
  let c ← gets (·.cfg)
  hField .umacCmd (·.promisc) 0
  mdfWrite 0 broadcastMac
  mdfWrite 1 (← gets (·.macAddr))
  hWrite .umacMdfCtrl (fieldPlace (mdfEnPos c 0) 1 ||| fieldPlace (mdfEnPos c 1) 1)

/-- Step 10 (R230). -/
def seqQuiesce : Op Unit := do
  hField (.dmaCtrl .rx) (dmaEnPos .rx) 0
  hField (.dmaCtrl .tx) (dmaEnPos .tx) 0
  hPulse .umacTxFlush (·.txFlush) .tFlushHold

/-- Step 11 (R231). -/
def seqRings : Op Unit := do
  rxRingInit
  txQueuesInit

/-- Step 12 (R232). -/
def seqDmaEnable : Op Unit := do
  hField (.dmaCtrl .rx) (dmaEnPos .rx) 1
  hField (.dmaCtrl .tx) (dmaEnPos .tx) 1

/-- A poll of step 13 that did not find the link up (R233). A limit of 0 acts as 1, as R233 tests the limit only after a
failed poll (log 52). -/
def seqPollFailed : Op Unit := do
  let c ← gets (·.cfg)
  let n ← orHalt (← gets (·.seqPolls)) (.fault .unwrittenRead)
  upd fun s => { s with seqPolls := some (n + 1) }
  haltIf (decide (c.linkPollLimit ≤ n + 1)) (.err .timedOut)

/-- Step 13 (R233): one poll. -/
def seqLinkPoll : Op Unit := do
  match ← attempt linkReadStatus with
  | .ok l =>
    if l.linkUp then do
      upd fun s => { s with seqLink := some l }
      setSeq StepNo.s13.next
    else seqPollFailed
  | .error _ => seqPollFailed

/-- The speed code of R102; for speed 0, which the spec gives no code, any value (log 27). -/
def codeOfSpeed (c : Config) (x : LinkSpeed) : Op Nat :=
  match speedCode c.codes x with
  | some n => pure n
  | none => drawNat

/-- Step 14 (R234). -/
def seqLinkProgram : Op Unit := do
  let c ← gets (·.cfg)
  let l ← orHalt (← gets (·.seqLink)) (.fault .unwrittenRead)
  hField .umacCmd (·.speed) (← codeOfSpeed c l.speed)
  hField .umacCmd (·.hdEn) (bitVal !l.fullDuplex)
  hField .umacCmd (·.rxPauseIgnore) (bitVal !l.pause)
  hField .umacCmd (·.txPauseIgnore) (bitVal !l.pause)
  hField .umacCmd (·.crcFwd) (bitVal c.crcFwd)
  hField .extRgmiiOobCtrl (·.oobDisable) 0
  hField .extRgmiiOobCtrl (·.rgmiiLink) 1
  hField .extRgmiiOobCtrl (·.rgmiiModeEn) 1

/-- Step 15 (R235). -/
def seqMacEnable : Op Unit := do
  hField .umacCmd (·.txEn) 1
  hField .umacCmd (·.rxEn) 1

/-- Step k and then `seq <- ` the next one; step 13 moves on by itself (R221 to R235). -/
def andNext (k : StepNo) (op : Op Unit) : Op Unit := do
  op
  setSeq k.next

/-- The step that `Step(k)` names (R236). -/
def seqRun : StepNo → Op Unit
  | .s1 => andNext .s1 seqRevision
  | .s2 => andNext .s2 seqPortMode
  | .s3 => andNext .s3 seqSoftReset
  | .s4 => andNext .s4 seqThrowaway
  | .s5 => andNext .s5 seqRbufFlush
  | .s6 => andNext .s6 seqSoftReset
  | .s7 => andNext .s7 seqCounters
  | .s8 => andNext .s8 seqStationAddr
  | .s9 => andNext .s9 seqFilter
  | .s10 => andNext .s10 seqQuiesce
  | .s11 => andNext .s11 seqRings
  | .s12 => andNext .s12 seqDmaEnable
  | .s13 => seqLinkPoll
  | .s14 => andNext .s14 seqLinkProgram
  | .s15 => andNext .s15 seqMacEnable

/-- The first failing step ends construction with its kind (R314, R221, R233, R237; log 20). -/
def failing (op : Op Unit) : Op Unit := fun s =>
  match op s with
  | .error (.err e) t => .error (.err e) { t with seq := .failed e }
  | r => r

/-- SEQ_STEP (R236): refused at `Ready` and after a failure (R237). -/
def seqStep (mac : MacAddr) (rxDescLen : Nat) : Op Unit := do
  match ← gets (·.seq) with
  | .idle => failing (seqStart mac rxDescLen)
  | .step k => failing (seqRun k)
  | .ready => halt .refused
  | .failed _ => halt .refused

/-! ## Meaning -/

/-- SEQ_STEP with `mac` and `rx_desc_len` passed beside the word. -/
def execSeqStep (s : State) : Host.Outcome State Fault Refusal := runOp (okAfter (seqStep s.args.mac s.args.rxDescLen)) s

end Sys2Proof.Machine
end

