-- ==== Sys2Proof/Machine/Dispatch.lean ====
section
/-! DEFINITION. One arm per operation of 30_encoding R111, each one call of its meaning. -/

namespace Sys2Proof.Machine

def exec (i : Instr) (s : State) : Host.Outcome State Fault Refusal :=
  match i with
  | .busXlate => Sys2Proof.Machine.execBusXlate s
  | .physXlate => Sys2Proof.Machine.execPhysXlate s
  | .poolInit q => Sys2Proof.Machine.execPoolInit q s
  | .poolRefill q => Sys2Proof.Machine.execPoolRefill q s
  | .rxRingInit => Sys2Proof.Machine.execRxRingInit s
  | .rxRecv => Sys2Proof.Machine.execRxRecv s
  | .txQueuesInit => Sys2Proof.Machine.execTxQueuesInit s
  | .txSend q => Sys2Proof.Machine.execTxSend q s
  | .txReclaim q => Sys2Proof.Machine.execTxReclaim q s
  | .prioPack q => Sys2Proof.Machine.execPrioPack q s
  | .prioUnpack q => Sys2Proof.Machine.execPrioUnpack q s
  | .arbSelect => Sys2Proof.Machine.execArbSelect s
  | .seqStep => Sys2Proof.Machine.execSeqStep s
  | .mdioRead q => Sys2Proof.Machine.execMdioRead q s
  | .mdioWrite q => Sys2Proof.Machine.execMdioWrite q s
  | .linkReadStatus => Sys2Proof.Machine.execLinkReadStatus s
  | .rdmaDeliver => Sys2Proof.Machine.execRdmaDeliver s
  | .rdmaDrop => Sys2Proof.Machine.execRdmaDrop s
  | .tdmaTransmit => Sys2Proof.Machine.execTdmaTransmit s
  | .regRead => Sys2Proof.Machine.execRegRead s
  | .regWrite => Sys2Proof.Machine.execRegWrite s
  | .cacheClean => Sys2Proof.Machine.execCacheClean s
  | .cacheInvalidate => Sys2Proof.Machine.execCacheInvalidate s
  | .cacheCleanInvalidate => Sys2Proof.Machine.execCacheCleanInvalidate s
  | .barrier => Sys2Proof.Machine.execBarrier s
  | .delay => Sys2Proof.Machine.execDelay s

end Sys2Proof.Machine
end

