-- ==== Sys2Proof/Decode.lean ====
section
/-! DEFINITION. Decoding and encoding of operation words: 30_encoding R110 (OPC in bits 15:8, Q in bits 7:0),
R111 (the map) and R112 (reserved OPC and illegal Q). A word is 16 bits and there is no other form (R115);
as two bytes it is little-endian (20_memory R61). -/

namespace Sys2Proof

/-- Why a word is no operation. -/
inductive DecodeError where
  /-- The OPC is not in R111 (R112). -/
  | reservedOpc (opc : BitVec 8)
  /-- The OPC is in R111 and its Q is not allowed (R112). -/
  | illegalQ (opc q : BitVec 8)
  /-- Fewer than the two bytes of a word were given. -/
  | truncated
  deriving DecidableEq, Repr

/-- The OPC field, bits 15:8 (R110). -/
def opcOf (w : BitVec 16) : BitVec 8 := w.extractLsb' 8 8

/-- The Q field, bits 7:0 (R110). -/
def qOf (w : BitVec 16) : BitVec 8 := w.extractLsb' 0 8

/-- The operation map of R111, before any constraint on Q; `none` for a reserved OPC. A row with no Q still
needs Q = 0, which `decodeWord` checks. -/
def opMap (opc q : BitVec 8) : Option Instr :=
  match opc.toNat with
  | 0x01 => some .busXlate
  | 0x02 => some .physXlate
  | 0x10 => some (.poolInit q)
  | 0x11 => some (.poolRefill q)
  | 0x20 => some .rxRingInit
  | 0x21 => some .rxRecv
  | 0x30 => some .txQueuesInit
  | 0x31 => some (.txSend q)
  | 0x32 => some (.txReclaim q)
  | 0x33 => some (.prioPack q)
  | 0x34 => some (.prioUnpack q)
  | 0x35 => some .arbSelect
  | 0x40 => some .seqStep
  | 0x50 => some (.mdioRead q)
  | 0x51 => some (.mdioWrite q)
  | 0x52 => some .linkReadStatus
  | 0x60 => some .rdmaDeliver
  | 0x61 => some .rdmaDrop
  | 0x62 => some .tdmaTransmit
  | 0x70 => some .regRead
  | 0x71 => some .regWrite
  | 0x78 => some .cacheClean
  | 0x79 => some .cacheInvalidate
  | 0x7A => some .cacheCleanInvalidate
  | 0x7B => some .barrier
  | 0x7C => some .delay
  | _ => none

/-- The Q field an operation's word carries: its operand, or 0 where the row has no Q (R110). -/
def Instr.qField : Instr → BitVec 8
  | .poolInit q | .poolRefill q | .txSend q | .txReclaim q | .prioPack q | .prioUnpack q
  | .mdioRead q | .mdioWrite q => q
  | .busXlate | .physXlate | .rxRingInit | .rxRecv | .txQueuesInit | .arbSelect | .seqStep
  | .linkReadStatus | .rdmaDeliver | .rdmaDrop | .tdmaTransmit | .regRead | .regWrite
  | .cacheClean | .cacheInvalidate | .cacheCleanInvalidate | .barrier | .delay => 0

/-- The OPC of each row of R111. -/
def Instr.opcField : Instr → BitVec 8
  | .busXlate => 0x01
  | .physXlate => 0x02
  | .poolInit _ => 0x10
  | .poolRefill _ => 0x11
  | .rxRingInit => 0x20
  | .rxRecv => 0x21
  | .txQueuesInit => 0x30
  | .txSend _ => 0x31
  | .txReclaim _ => 0x32
  | .prioPack _ => 0x33
  | .prioUnpack _ => 0x34
  | .arbSelect => 0x35
  | .seqStep => 0x40
  | .mdioRead _ => 0x50
  | .mdioWrite _ => 0x51
  | .linkReadStatus => 0x52
  | .rdmaDeliver => 0x60
  | .rdmaDrop => 0x61
  | .tdmaTransmit => 0x62
  | .regRead => 0x70
  | .regWrite => 0x71
  | .cacheClean => 0x78
  | .cacheInvalidate => 0x79
  | .cacheCleanInvalidate => 0x7A
  | .barrier => 0x7B
  | .delay => 0x7C

/-- Decode one operation word (R110 to R112): the map of R111, then the constraint on Q of R112. -/
def decodeWord (w : BitVec 16) : Except DecodeError Instr :=
  match opMap (opcOf w) (qOf w) with
  | none => .error (.reservedOpc (opcOf w))
  | some i =>
    if i.wellFormed && i.qField == qOf w then .ok i else .error (.illegalQ (opcOf w) (qOf w))

/-- Decode from bytes, the low byte first (R61); the rest of the bytes is handed back. -/
def decode : List Byte → Except DecodeError (Instr × List Byte)
  | lo :: hi :: rest =>
    match decodeWord (hi ++ lo) with
    | .ok i => .ok (i, rest)
    | .error e => .error e
  | _ => .error .truncated

/-- The operation word of an operation: OPC in bits 15:8, Q in bits 7:0 (R110, R111). -/
def encode (i : Instr) : BitVec 16 := i.opcField ++ i.qField

/-- The word as bytes, low byte first (R61). -/
def encodeBytes (i : Instr) : List Byte := [(encode i).extractLsb' 0 8, (encode i).extractLsb' 8 8]

/-- The operation the decoder reads from an opcode-table word `w` of `nbits` bits, bit 0 the least significant. -/
def decodeTableWord (nbits w : Nat) : Option Instr :=
  let v := w % 2 ^ min nbits 16
  match decode [BitVec.ofNat 8 v, BitVec.ofNat 8 (v / 256)] with
  | .ok (i, _) => some i
  | .error _ => none

/-- The text form of R113: `MNEMONIC`, and ` q=<n>` where the row has a Q. -/
def Instr.text (i : Instr) : String :=
  match i with
  | .poolInit q | .poolRefill q | .txSend q | .txReclaim q | .prioPack q | .prioUnpack q
  | .mdioRead q | .mdioWrite q => i.mnemonic ++ " q=" ++ toString q.toNat
  | _ => i.mnemonic

end Sys2Proof
end

