-- ==== Sys2Proof/Machine/Invoke.lean ====
section
/-! DEFINITION. What plays the part of an instruction fetch. The block has no program counter (10_state R21): the host
and the DMA agents invoke operations (00_scope R8, 60_exceptions R330), and the invocations they will make wait in
`State.pending`, the oldest first (log 7). -/

namespace Sys2Proof.Machine

/-- The invocation is accepted: its arguments are the ones passed beside the word (R110), its agent steps are the ones
that come between its host steps (R9), and no result is there yet. The agent steps that come before the operation are
taken by `nextInvocation`. -/
def State.accept (s : State) (v : Invocation) (rest : List Invocation) : State :=
  { s with pending := rest, args := v.args, between := v.between, result := .none }

/-- The invocation is refused and only taken from the queue (R112): `refused` is set and no other state changes. -/
def State.reject (s : State) (rest : List Invocation) : State := { s with pending := rest }.refuse

/-- Take the next invocation: `none` when there is none; else the operation its word decodes to, if any, and the state
in which it runs, after the agent steps that come before it (R9), or has been refused. -/
def nextInvocation (s : State) : Option (Option Instr × State) :=
  match s.pending with
  | [] => none
  | v :: rest =>
    match decodeWord v.word with
    | .ok i => some (some i, (s.accept v rest).agentSteps v.before)
    | .error _ => some (none, s.reject rest)

/-- The invocation of an opcode-table word with the arguments and agent steps that `s` holds (log 7). -/
def tableInvocation (s : State) (nbits w : Nat) : Invocation :=
  { word := BitVec.ofNat 16 (w % 2 ^ min nbits 16), args := s.args, between := s.between }

end Sys2Proof.Machine
end

