-- ==== Sys2Proof/Machine/Step.lean ====
section
/-! DEFINITION. One step: the next pending invocation runs (log 7). -/

namespace Sys2Proof.Machine

/-- One invocation: its operation runs, or its word is refused (R112). With nothing pending no agent has a step to
take, and the run ends (R16 "stuck"). -/
def step (s : State) : Host.Outcome State Fault Refusal :=
  match nextInvocation s with
  | none => .fault .noInvocation
  | some (none, t) => .next t
  | some (some i, t) => exec i t

/-- `s` with the invocation of an opcode-table word as the next one (log 7). -/
def State.withFetchWord (s : State) (nbits w : Nat) : State :=
  { s with pending := tableInvocation s nbits w :: s.pending }

end Sys2Proof.Machine
end

