-- ==== Sys2Proof/Safety.lean ====
section
/-! DEFINITION. What counts as a safe run, the invariants, and the terms the claims are stated in. -/

namespace Sys2Proof.Machine

/-- The run has stayed inside the behaviour the spec defines: no fault has been marked and no invocation refused
(10_state R55, R57; 60_exceptions R320, R321). -/
abbrev State.safe (s : State) : Prop := s.fault = none ∧ s.refused = false

/-! ## Invariants -/

/-- Every sparse table is in its canonical form; with the cache off no byte is dirty or stale (46_dma_agents R295). -/
structure State.Canonical (s : State) : Prop where
  mem : Memory.wf s.mem
  dirty : Tab.sorted s.cpuDirty
  stale : Tab.sorted s.cpuStale
  regs : Tab.sorted s.regs
  tdmaRp : Tab.sorted s.tdmaRp
  descRx : Tab.sorted s.descRx
  descTx : Tab.sorted s.descTx
  cbRx : Tab.sorted s.cbRx
  cbTx : Tab.sorted s.cbTx
  tx : Tab.sorted s.tx
  cacheOff : s.cfg.cacheEnabled = false → s.cpuDirty = [] ∧ s.cpuStale = []

/-- Every written control block holds its own index and lies in the pool (41_pool R142 (a)). -/
def State.PoolIdentity (s : State) : Prop :=
  ∀ (d : Dir) (i : Nat) (b : Cb), s.cb? d i = some b → b.descIndex = i ∧ i < nDesc

/-- The occupancy of every transmit ring (10_state R45), with the range of `free_bds` (R44). -/
def State.Occupancy (s : State) : Prop :=
  ∀ (q : Nat) (r : TxRing), Tab.get? s.tx q = some r →
    r.freeBds ≤ r.size ∧ r.size ≤ nDesc ∧ r.size - r.freeBds = pendingCount r.prodIndex r.cIndex

/-- A record of a transmit ring with the constants of its queue (R44) and its cursors where the indices put them
(70_reset_and_hazards R367). -/
abbrev TxRing.Placed (r : TxRing) (q : TxQueue) : Prop :=
  r.index = q.num ∧ r.queue = q.num ∧ r.cbBase = q.base ∧ r.size = q.size ∧ r.endPtr = q.base + q.size - 1 ∧
    r.writePtr = q.base + r.prodIndex.toNat % q.size ∧ r.cleanPtr = q.base + r.cIndex.toNat % q.size

/-- A record of the receive ring with its constants (R41) and its cursor where the index puts it (R367). -/
abbrev RxRing.Placed (r : RxRing) : Prop :=
  r.index = 16 ∧ r.cbBase = 0 ∧ r.size = rxSize ∧ r.initPtr = 0 ∧ r.endPtr = rxSize - 1 ∧
    r.readPtr = r.cIndex.toNat % rxSize

/-- Every ring record has its constants and its cursors in place (R41, R44, R367). -/
def State.Cursors (s : State) : Prop :=
  (∀ r, s.rx = some r → r.Placed) ∧
    ∀ (n : Nat) (r : TxRing), Tab.get? s.tx n = some r → ∃ q : TxQueue, q.num = n ∧ r.Placed q

/-! ## Terms of the claims -/

/-- The `k`-th draw from this state on: of the tape, or the free value once the tape is used up (00_scope R14; log 6). -/
def State.draw (s : State) (k : Nat) : Nat := (s.tape.drop k).headD (Config.freeNat (s.drawCount + k))

/-- What a byte of memory is after `CACHE_CLEAN` over a range (46_dma_agents R295). -/
def State.cleaned (s : State) (addr : Word) (len a : Nat) : Byte :=
  if s.cfg.cacheEnabled && inLines s.cfg addr len a then (Tab.get? s.cpuDirty a).getD (Memory.read s.mem a)
  else Memory.read s.mem a

/-- No fetch can see an older word of this descriptor (20_memory R69). -/
def State.Synced (s : State) (d : Dir) (i : Nat) : Prop := ∀ k, s.oldWords d i k = []

/-- Bytes `[0, n)` from `addr` on, as physical memory holds them (20_memory R60b). -/
def State.memBytes (s : State) (addr : Word) (n : Nat) : List Byte :=
  (List.range n).map fun k => s.memByte (byteAddr addr k)

/-- None of the bytes `[0, n)` from `addr` on is a descriptor's (20_memory R60b; log 12). -/
abbrev OffPools (c : Config) (addr : Word) (n : Nat) : Prop := ∀ k < n, poolByte? c (byteAddr addr k) = none

/-- A word that a fetch of a descriptor may see: the current one, or an older one that no barrier has ordered
(20_memory R69). -/
def State.MayFetch (s : State) (d : Dir) (i : Nat) (k : DescWord) (w : Word) : Prop :=
  w = (s.desc d i).word k ∨ w ∈ s.oldWords d i k

/-- From `s` to `t` a descriptor word that changed is remembered as one a fetch may still see, before those remembered of
it earlier, and of a word that kept its value nothing more is remembered (20_memory R69; log 13). -/
def State.Remembers (s t : State) : Prop :=
  ∀ d i k, t.oldWords d i k =
    if (t.desc d i).word k = (s.desc d i).word k then s.oldWords d i k else (s.desc d i).word k :: s.oldWords d i k

/-- The history after reads and writes of a register in turn that take it through the given words (00_scope R14). -/
def rmwEvents (r : RegId) : List Word → List Event → List Event
  | old :: new :: ws, h => rmwEvents r (new :: ws) (.mmioWrite r new :: .mmioRead r old :: h)
  | _, h => h

/-- The history after writes of registers in turn. -/
def writeEvents (ws : List (RegId × Word)) (h : List Event) : List Event :=
  (ws.map fun e => .mmioWrite e.1 e.2).reverse ++ h

/-- The command words that a part of a history writes to `MDIO_CMD`, newest first as the history is (45_link_negotiator
R260, R261). -/
def mdioCommands (es : List Event) : List Word :=
  es.filterMap fun e =>
    match e with
    | .mmioWrite .mdioCmd w => some w
    | _ => none

/-- The registers whose write has in 46_dma_agents R292 an effect on other state of the block. A write of `xDMA_CTRL`, of a
kick index or of a flush register has its effect through the word alone (log 28). -/
def RegId.sideEffect : RegId → Bool
  | .umacCmd | .mdioCmd | .intrl2 .. => true
  | .ring .rx q .writePtr => decide (q = defaultRing)
  | .ring .tx _ .readPtr => true
  | _ => false

/-- A register whose read counts nothing: any but `MDIO_CMD` (20_memory R65; 46_dma_agents R290). -/
def RegId.plainRead : RegId → Bool
  | .mdioCmd => false
  | _ => true

/-- The transmit queue's priority value in the three priority words (43_tx_ring_arbiter R190, R192). -/
def State.prioOf (s : State) (q : TxQueue) : Nat := prioUnpack q.num s.prio

/-- The state after its first `n` draws (00_scope R14). -/
def State.drew (s : State) (n : Nat) : State := { s with tape := s.tape.drop n, drawCount := s.drawCount + n }

/-- The arbiter draws `not_throttled(q)` for this queue (R191). -/
def State.drawsThrottle (s : State) (q : TxQueue) : Bool := s.ringLoaded q && s.mayThrottle q

/-- The queue is eligible: its `not_throttled(q)` is one of the next draws, taken in the order of the queues (R191). -/
def State.eligibleNow (s : State) (q : TxQueue) : Bool :=
  s.ringLoaded q &&
    (!s.mayThrottle q || s.draw ((txQueues.takeWhile (· ≠ q)).countP s.drawsThrottle) % 2 == 1)

/-- The arbiter serves this queue: under strict priority the eligible one of least priority value, of these the one of
least number; in another mode the eligible one that a further draw chooses (R192). -/
def State.Serves (s : State) (q : TxQueue) : Prop :=
  s.eligibleNow q = true ∧
    if s.strictPriority then
      ∀ q', s.eligibleNow q' = true → q' ≠ q → s.prioOf q < s.prioOf q' ∨ s.prioOf q = s.prioOf q' ∧ q.num < q'.num
    else
      let es := txQueues.filter s.eligibleNow
      es[s.draw (txQueues.countP s.drawsThrottle) % es.length]? = some q

/-- How many draws the arbiter takes (R191, R192). -/
def State.arbDraws (s : State) : Nat :=
  txQueues.countP s.drawsThrottle + if s.strictPriority || !txQueues.any s.eligibleNow then 0 else 1

/-- How many of the bytes `[0, n)` from `addr` on are dirty (20_memory R64). -/
def State.dirtyCount (s : State) (addr : Word) (n : Nat) : Nat :=
  (List.range n).countP fun k => (Tab.get? s.cpuDirty (byteAddr addr k)).isSome

/-- What a DMA read of `[0, n)` from `addr` on gets: the bytes of memory, and for each dirty one the old or the new value by
a draw, the first of them draw `m` (20_memory R64). -/
def State.dmaBytes (s : State) (addr : Word) (n m : Nat) : List Byte :=
  (List.range n).map fun k =>
    match Tab.get? s.cpuDirty (byteAddr addr k) with
    | none => s.memByte (byteAddr addr k)
    | some new => if s.draw (m + s.dirtyCount addr k) % 2 = 1 then new else s.memByte (byteAddr addr k)

/-- The words of 30_encoding R111 and R112, as numbers: OPC in bits 15:8 and Q in bits 7:0. -/
def LegalWord (w : BitVec 16) : Prop :=
  let opc := w.toNat / 256
  let q := w.toNat % 256
  (opc ∈ [0x01, 0x02, 0x20, 0x21, 0x30, 0x35, 0x40, 0x52, 0x60, 0x61, 0x62, 0x70, 0x71, 0x78, 0x79, 0x7A, 0x7B, 0x7C] ∧
      q = 0) ∨
    (opc ∈ [0x10, 0x11] ∧ q ≤ 1) ∨ (opc ∈ [0x31, 0x32] ∧ q ∈ [0, 1, 2, 3, 16]) ∨
    (opc ∈ [0x33, 0x34] ∧ q ≤ 17) ∨ (opc ∈ [0x50, 0x51] ∧ q ≤ 31)

end Sys2Proof.Machine
end

