-- ==== Sys2Proof/Certificates/Slice0/Obligations.lean ====
section
/-! DEFINITION. The statements for the provers. A premise `configOk s.cfg = true` says that the configuration meets
40_bus_address R132 and 43_tx_ring_arbiter R188; under any other every invocation is refused
(`Obligations.BusRoundTrip`). A premise
`s.between = []` says that no agent step comes between the host steps of the operation. -/

open Sys2Proof Sys2Proof.Machine

/-! ## Encoding -/

/-- Decoding the word of a well-formed operation gives the operation back, from the word and from bytes. -/
def Obligations.DecodeEncode : Prop :=
  ∀ i : Instr, i.wellFormed = true →
    decodeWord (encode i) = .ok i ∧ ∀ rest : List Byte, decode (encodeBytes i ++ rest) = .ok (i, rest)

/-- Every word that decodes is the word of the operation it decodes to, which is well formed. -/
def Obligations.EncodeDecode : Prop :=
  ∀ (w : BitVec 16) (i : Instr), decodeWord w = .ok i → encode i = w ∧ i.wellFormed = true

/-- R112: exactly the words of the map with an allowed Q are operations, and invoking any other word sets `refused` and
changes nothing else (but that the invocation is no longer pending, log 7). -/
def Obligations.IllegalWordsRefused : Prop :=
  ∀ w : BitVec 16, (LegalWord w ↔ ∃ i, decodeWord w = .ok i) ∧
    (¬ LegalWord w → ∀ (s : State) (v : Invocation) (rest : List Invocation), s.pending = v :: rest → v.word = w →
      step s = .next { s with pending := rest, refused := true })

/-- Words written out from R110 and R111. -/
def Obligations.DecodedWords : Prop :=
  decodeWord 0b00000001_00000000 = .ok .busXlate ∧ decodeWord 0b00010000_00000001 = .ok (.poolInit 1) ∧
  decodeWord 0b00100001_00000000 = .ok .rxRecv ∧ decodeWord 0b00110001_00010000 = .ok (.txSend 16) ∧
  decodeWord 0b01000000_00000000 = .ok .seqStep ∧ decodeWord 0b01010000_00011111 = .ok (.mdioRead 31) ∧
  decodeWord 0b01100010_00000000 = .ok .tdmaTransmit ∧ decodeWord 0b01110001_00000000 = .ok .regWrite ∧
  decodeWord 0b01111010_00000000 = .ok .cacheCleanInvalidate ∧
  decodeWord 0x0300 = .error (.reservedOpc 3) ∧ decodeWord 0x2001 = .error (.illegalQ 0x20 1)

/-- A step runs the operation of the next invocation's word, on that invocation's arguments, after the agent steps that
come before the operation and with those that come between its host steps (R9); with nothing pending the run ends
(log 7). -/
def Obligations.StepRunsDecoded : Prop :=
  (∀ (s : State) (v : Invocation) (rest : List Invocation) (i : Instr), s.pending = v :: rest →
    decodeWord v.word = .ok i →
    step s = exec i
      (State.agentSteps { s with pending := rest, args := v.args, between := v.between, result := .none } v.before)) ∧
  (∀ (s : State) (i : Instr), i.wellFormed = true →
    step (s.withFetchWord 16 (encode i).toNat) = exec i { s with result := .none }) ∧
  ∀ s : State, s.pending = [] → step s = .fault .noInvocation

/-! ## Reset and invariants -/

/-- The power-on values R340 names; what it calls unwritten is absent, and `START_BUSY` is 0. -/
def Obligations.ResetState : Prop :=
  State.reset.seq = .idle ∧ State.reset.seqPolls = none ∧ State.reset.seqLink = none ∧
  State.reset.flag .mdioCmd (·.mdioStartBusy) = false ∧ State.reset.mdioWait = .idle ∧
  (∀ d i, State.reset.cb? d i = none) ∧ State.reset.cpuDirty = [] ∧ State.reset.cpuStale = [] ∧
  State.reset.rx = none ∧ (∀ q, Tab.get? State.reset.tx q = none) ∧ State.reset.hist = [] ∧ State.reset.fault = none ∧
  State.reset.refused = false

/-- Every invariant stated below holds at power-on. -/
def Obligations.ResetMeetsInvariants : Prop :=
  State.reset.Canonical ∧ State.reset.PoolIdentity ∧ State.reset.Occupancy ∧ State.reset.Cursors ∧ State.reset.safe

/-- Every step keeps every table and the memory in canonical form. With the cache off it keeps that no byte is dirty
(R295), and that none is stale, which is the model's reading (log 15). -/
def Obligations.StepKeepsCanonical : Prop :=
  ∀ s t : State, step s = .next t → s.Canonical → t.Canonical

/-- R142 (a): every step keeps the identity of control blocks and descriptors. -/
def Obligations.StepKeepsPoolIdentity : Prop :=
  ∀ s t : State, step s = .next t → s.PoolIdentity → t.PoolIdentity

/-- R45: every step keeps `size - free_bds = (prod_index - c_index) mod 65536` on every transmit ring. -/
def Obligations.StepKeepsOccupancy : Prop :=
  ∀ s t : State, step s = .next t → s.Occupancy → t.Occupancy

/-- R367: every step keeps each ring cursor where its 16-bit index puts it. -/
def Obligations.StepKeepsCursors : Prop :=
  ∀ s t : State, step s = .next t → s.Cursors → t.Cursors

/-- R53, R55, R57, R31: a step only appends to the history, never clears or replaces a fault, never clears `refused`,
never changes `SYS_REV_CTRL`, and never changes the configuration (log 3). -/
def Obligations.StepKeepsMarks : Prop :=
  ∀ s t : State, step s = .next t →
    (∃ es, t.hist = es ++ s.hist) ∧ (∀ f, s.fault = some f → t.fault = some f) ∧
    (s.refused = true → t.refused = true) ∧ t.reg .sysRevCtrl = s.reg .sysRevCtrl ∧ t.cfg = s.cfg

/-- Only SEQ_STEP moves the sequencer (R22) and its records; only RX_RING_INIT, RX_RECV and SEQ_STEP write the receive
record; only TX_QUEUES_INIT, TX_SEND, TX_RECLAIM and SEQ_STEP write a transmit record. -/
def Obligations.WhoWritesRecords : Prop :=
  ∀ (i : Instr) (s t : State), exec i s = .next t →
    (i ≠ .seqStep → t.seq = s.seq ∧ t.macAddr = s.macAddr ∧ t.seqPolls = s.seqPolls ∧ t.seqLink = s.seqLink) ∧
    (i ∉ [.rxRingInit, .rxRecv, .seqStep] → t.rx = s.rx) ∧
    (i ∉ [.txQueuesInit, .seqStep] → (∀ q, i ≠ .txSend q ∧ i ≠ .txReclaim q) → t.tx = s.tx)

/-! ## Bus addresses and priorities -/

/-- BUS_XLATE (R130) and PHYS_XLATE (R131): the result, and nothing else changes; translating twice is translating once. -/
def Obligations.XlateResults : Prop :=
  ∀ s : State, configOk s.cfg = true →
    exec .busXlate s = .next { s with result := .word (s.args.phys ||| s.cfg.aliasTag) } ∧
    exec .physXlate s = .next { s with result := .word (s.args.bus &&& s.cfg.physMask) } ∧
    toBusAddress s.cfg (toBusAddress s.cfg s.args.phys) = toBusAddress s.cfg s.args.phys ∧
    (s.cfg = {} → s.args.phys = 0x00100000 → exec .busXlate s = .next { s with result := .word 0xC0100000 }) ∧
    (s.cfg = {} → s.args.bus = 0xC0100000 → exec .physXlate s = .next { s with result := .word 0x00100000 })

/-- R132: every valid physical address makes the round trip exactly when `ALIAS_TAG & PHYS_MASK = 0`; under a
configuration that breaks this, or R188, every operation is refused (R321) and nothing else changes. -/
def Obligations.BusRoundTrip : Prop :=
  ∀ c : Config,
    ((∀ a : Word, a &&& ~~~c.physMask = 0 → toPhysAddress c (toBusAddress c a) = a) ↔ c.aliasTag &&& c.physMask = 0) ∧
    (c.aliasTag &&& c.physMask ≠ 0 ∨ 15 < c.basePriority →
      ∀ (i : Instr) (s : State), s.cfg = c → exec i s = .next { s with refused := true })

/-- R189: PRIO_PACK replaces bits `[s + 4 : s]` of word `q / 6`, `s = (q mod 6) * 5`, by `p`; a queue above 17 or a
priority above 31 is refused. -/
def Obligations.PrioPackResult : Prop :=
  ∀ (q : BitVec 8) (s : State), configOk s.cfg = true →
    (q.toNat ≤ 17 ∧ s.args.p ≤ 31 →
      let sh := q.toNat % 6 * 5
      let word := fun (k : Nat) (w : Word) =>
        if q.toNat / 6 = k then (w &&& ~~~((0x1F : Word) <<< sh)) ||| (BitVec.ofNat 32 s.args.p <<< sh) else w
      exec (.prioPack q) s = .next { s with
        result := .prioRegs (word 0 s.args.regs0) (word 1 s.args.regs1) (word 2 s.args.regs2) }) ∧
    (17 < q.toNat ∨ 31 < s.args.p → exec (.prioPack q) s = .next { s with refused := true })

/-- R190: PRIO_UNPACK reads the field, another queue is refused; unpacking what was packed gives it back, and packing
one queue leaves every other queue's field. -/
def Obligations.PrioUnpackResult : Prop :=
  (∀ (q : BitVec 8) (s : State), configOk s.cfg = true →
    (q.toNat ≤ 17 →
      exec (.prioUnpack q) s = .next { s with
        result := .count (((s.args.prio.get (q.toNat / 6) >>> (q.toNat % 6 * 5)) &&& 0x1F).toNat) }) ∧
    (17 < q.toNat → exec (.prioUnpack q) s = .next { s with refused := true })) ∧
  ∀ (q q' p : Nat) (r : Prio), q ≤ 17 → q' ≤ 17 → p < 32 →
    prioUnpack q (prioPack q p r) = p ∧ (q' ≠ q → prioUnpack q' (prioPack q p r) = prioUnpack q' r)

/-! ## The arbiter and the DMA agents -/

/-- R191, R192: ARB_SELECT returns the ring it serves, or none where no ring is eligible. A ring is eligible if it is
enabled and loaded and, where its flow period may throttle it, its draw `not_throttled(q)` is true; strict priority serves
the eligible ring of least priority value, a tie going to the least number, and another mode the one that a further draw
chooses. Exactly these draws are taken, the rings' in number order (log 6), and nothing else changes. -/
def Obligations.ArbSelectEffect : Prop :=
  ∀ s : State, configOk s.cfg = true →
    ∃ o : Option TxQueue, exec .arbSelect s = .next { s.drew s.arbDraws with result := .queue o } ∧
      (∀ q, o = some q ↔ s.Serves q) ∧
      (o = none ↔ ∀ q, s.eligibleNow q = false) ∧
      (∀ q, o = some q → s.ringLoaded q = true) ∧
      (o = none → ∀ q, s.ringLoaded q = true → s.mayThrottle q = true) ∧
      (s.strictPriority = true → ∀ q, o = some q → ∀ q', s.ringLoaded q' = true → s.mayThrottle q' = false → q' ≠ q →
        s.prioOf q < s.prioOf q' ∨ s.prioOf q = s.prioOf q' ∧ q.num < q'.num) ∧
      ((∀ q, s.ringLoaded q = true → s.mayThrottle q = false) → s.strictPriority = true → s.arbDraws = 0)

/-- R286: TDMA_TRANSMIT of the ring the arbiter serves (R192), by its draws where rings may be throttled or the mode is not
strict priority. It reads the buffer its descriptor names, each dirty byte old or new by a draw (R64), and sends these
bytes, or drawn bytes of a drawn number where the descriptor has no length or lacks `SOP` or `EOP` (R94, log 37), with the
FCS where `APPEND_CRC` is set; then it moves the read pointer and last the consumer index (R287). Nothing else changes but
that exactly these draws are taken, in this order. It is the model's choice that a byte of a descriptor pool is read as its
current word (log 12), that the buffer goes on at address 0 past the top of memory (log 24), and that the read pointer
wraps over the record's extent (log 42). -/
def Obligations.TdmaTransmitEmits : Prop :=
  ∀ (s : State) (q : TxQueue) (r : TxRing) (cb : Nat) (b : Cb), configOk s.cfg = true →
    s.flag .umacCmd (·.txEn) = true → s.Serves q →
    Tab.get? s.tx q.num = some r → Tab.get? s.tdmaRp q.num = some cb → cb < nDesc → s.cb? .tx cb = some b →
    s.Synced .tx cb →
    let d := s.desc .tx cb
    let len := w0Len s.cfg.desc d.w0
    let addr := descPhys s.cfg d.w2 d.w1
    let read := s.dmaBytes addr len s.arbDraws
    let m := s.arbDraws + s.dirtyCount addr len
    let sound := w0Whole s.cfg.desc d.w0 = true ∧ len ≠ 0
    let bytes := if sound then read else (List.range (s.draw m)).map fun i => BitVec.ofNat 8 (s.draw (m + 1 + i))
    let frame := bytes ++ (if fieldOn s.cfg.desc.appendCrc d.w0 then fcs bytes else [])
    let rp := ringNext r.cbBase r.endPtr cb
    let cons := s.reg (.ring .tx q.ring .consIndex)
    exec .tdmaTransmit s = .next
      { ((s.drew (if sound then m else m + 1 + s.draw m)).setReg (.ring .tx q.ring .readPtr)
          (BitVec.ofNat 32 (3 * rp))).setReg (.ring .tx q.ring .consIndex) (withIndex cons (indexOf cons + 1)) with
        hist := .txFrame q frame :: .memRead .tdma addr read :: .memRead .tdma (descAddr s.cfg .tx cb) d.bytes :: s.hist
        tdmaRp := Tab.put s.tdmaRp q.num rp
        result := .stepped }

/-- R285: with `TX_EN` clear, or where the arbiter finds no ring eligible (R191), TDMA takes no step and only the arbiter's
draws are taken, none with `TX_EN` clear or with no ring loaded; where the ring the arbiter serves has no record, the step
is the fault `DmaBeforeInit`. -/
def Obligations.TdmaNotEnabled : Prop :=
  ∀ s : State, configOk s.cfg = true →
    (s.flag .umacCmd (·.txEn) = false → exec .tdmaTransmit s = .next { s with result := .notEnabled }) ∧
    ((∀ q, s.ringLoaded q = false) → exec .tdmaTransmit s = .next { s with result := .notEnabled }) ∧
    (s.flag .umacCmd (·.txEn) = true → (∀ q, s.eligibleNow q = false) →
      exec .tdmaTransmit s = .next { s.drew s.arbDraws with result := .notEnabled }) ∧
    (∀ q, s.flag .umacCmd (·.txEn) = true → s.Serves q → Tab.get? s.tx q.num = none →
      exec .tdmaTransmit s = .next ((s.drew s.arbDraws).mark .dmaBeforeInit))

/-- R281: RDMA_DELIVER of a frame that fits one buffer, off the descriptor pools. The stored bytes are the pad, the frame
(draws where the status has an error bit) and the forwarded FCS; they are the only bytes of memory written, and the only
ones that become stale for the CPU (R64), none with the cache off (log 15), each with the value stored and with the CPU's
view of it, also where it was stale or dirty before (log 14); then `w0`, then the write pointer and the producer index,
each by one descriptor, and the control block is the software's. Nothing else changes but the draws taken. -/
def Obligations.RdmaDeliverStores : Prop :=
  ∀ (s : State) (r : RxRing) (b : Cb), configOk s.cfg = true →
    let f := s.args.frame
    let st := s.args.st
    let cb := s.rdmaWp
    s.rdmaEnabled f = true → s.rx = some r → 0 < s.rdmaFree r → s.storedLen f.length ≤ bufLen → cb < nDesc →
    s.cb? .rx cb = some b → s.Synced .rx cb →
    let d := s.desc .rx cb
    let addr := descPhys s.cfg d.w2 d.w1
    OffPools s.cfg addr (s.storedLen f.length) →
    let prod := s.reg (.ring .rx defaultRing .prodIndex)
    let wp := ringNext r.cbBase r.endPtr cb
    ∃ (pad body tail : List Byte) (t : State), exec .rdmaDeliver s = .next t ∧
      pad.length = s.padLen ∧ tail.length = s.fcsFwdLen ∧ body.length = f.length ∧ (st.error = false → body = f) ∧
      (∀ a, (∀ k < (pad ++ body ++ tail).length, byteAddr addr k ≠ a) → Memory.read t.mem a = Memory.read s.mem a) ∧
      t.memBytes addr (pad ++ body ++ tail).length = pad ++ body ++ tail ∧
      (s.cfg.cacheEnabled = true → ∀ k < (pad ++ body ++ tail).length,
        Tab.get? t.cpuStale (byteAddr addr k) =
          some ⟨s.cpuView (byteAddr addr k), (pad ++ body ++ tail).getD k 0⟩) ∧
      (∀ a, (∀ k < (pad ++ body ++ tail).length, byteAddr addr k ≠ a) →
        Tab.get? t.cpuStale a = Tab.get? s.cpuStale a) ∧
      (s.cfg.cacheEnabled = false → t.cpuStale = s.cpuStale) ∧
      (∀ d' i, t.desc d' i =
        if d' = .rx ∧ i = cb then { d with w0 := rxW0 s.cfg.desc (pad ++ body ++ tail).length true true st }
        else s.desc d' i) ∧
      (∀ d' i, t.cb? d' i = if d' = .rx ∧ i = cb then some { b with owner := .sw } else s.cb? d' i) ∧
      t.rdmaWp = wp ∧
      (∀ x, t.reg x =
        if x = .ring .rx defaultRing .writePtr then BitVec.ofNat 32 (3 * wp)
        else if x = .ring .rx defaultRing .prodIndex then withIndex prod (indexOf prod + 1) else s.reg x) ∧
      t.hist = .rxFrame f st :: .memWrite .rdma (descAddr s.cfg .rx cb) (wordBytes (t.desc .rx cb).w0) ::
        .memWrite .rdma addr (pad ++ body ++ tail) :: .memRead .rdma (descAddr s.cfg .rx cb) d.bytes :: s.hist ∧
      t = { s with
        mem := t.mem, cpuStale := t.cpuStale, descRx := t.descRx, cbRx := t.cbRx, rdmaWp := t.rdmaWp, regs := t.regs
        hist := t.hist, tape := t.tape, drawCount := t.drawCount, result := .stepped }

/-- R282: RDMA_DELIVER of a frame of any stored length that fits the free descriptors of a ring with its constants in place
(R41), off the descriptor pools. It fills `k = ceil(stored / 2048)` consecutive descriptors from the write pointer on: the
`j`-th holds the length of its chunk, `SOP` on the first only, `EOP` and the status on the last only; its chunk, bytes
`j * 2048` on of the stored bytes (R281), is written to the address of the words `w1 j` and `w2 j` of its fetch, which are
words the fetch may see (R69), and is in memory where no later chunk lies on it. Each is handed to software; the write
pointer and then the producer index move by `k`. Every other descriptor, control block and register, every byte of memory
that no chunk is written to, and everything but the draws, is unchanged; with the cache off no byte becomes stale
(log 15). -/
def Obligations.RdmaDeliverMany : Prop :=
  ∀ (s : State) (r : RxRing), configOk s.cfg = true → s.rx = some r → r.Placed → s.PoolIdentity → s.rdmaWp < 256 →
    let f := s.args.frame
    let st := s.args.st
    let n := s.storedLen f.length
    let k := (n + 2047) / 2048
    let len := fun j => if j + 1 = k then n - j * 2048 else 2048
    let slot := fun j => (s.rdmaWp + j) % 256
    let addr := descPhys s.cfg
    let prod := s.reg (.ring .rx 16 .prodIndex)
    s.rdmaEnabled f = true → (k : Int) ≤ s.rdmaFree r → (∀ i < 256, ∃ b, s.cb? .rx i = some b) →
    (∀ j < k, ∀ w1 w2, s.MayFetch .rx (slot j) .w1 w1 → s.MayFetch .rx (slot j) .w2 w2 →
      OffPools s.cfg (addr w2 w1) (len j)) →
    ∃ (pad body tail : List Byte) (w1 w2 : Nat → Word) (t : State), exec .rdmaDeliver s = .next t ∧ 0 < k ∧ k ≤ 256 ∧
      (∀ j < k, s.MayFetch .rx (slot j) .w1 (w1 j) ∧ s.MayFetch .rx (slot j) .w2 (w2 j)) ∧
      pad.length = s.padLen ∧ tail.length = s.fcsFwdLen ∧ body.length = f.length ∧ (st.error = false → body = f) ∧
      (∀ j < k, t.desc .rx (slot j) = { s.desc .rx (slot j) with
        w0 := rxW0 s.cfg.desc (len j) (decide (j = 0)) (decide (j + 1 = k)) (if j + 1 = k then st else {}) }) ∧
      (∀ i, (∀ j < k, slot j ≠ i) → t.desc .rx i = s.desc .rx i ∧ t.cb? .rx i = s.cb? .rx i) ∧
      (∀ j < k, t.cb? .rx (slot j) = some { descIndex := slot j, owner := .sw }) ∧
      (∃ es, t.hist = .rxFrame f st :: es ++ s.hist ∧ ∀ j < k,
        .memWrite .rdma (addr (w2 j) (w1 j)) (((pad ++ body ++ tail).drop (j * 2048)).take 2048) ∈ es) ∧
      (∀ a, (∀ j < k, ∀ m < len j, byteAddr (addr (w2 j) (w1 j)) m ≠ a) →
        Memory.read t.mem a = Memory.read s.mem a ∧ Tab.get? t.cpuStale a = Tab.get? s.cpuStale a) ∧
      (∀ j < k, (∀ j', j < j' → j' < k → ∀ m < len j, ∀ m' < len j',
          byteAddr (addr (w2 j') (w1 j')) m' ≠ byteAddr (addr (w2 j) (w1 j)) m) →
        t.memBytes (addr (w2 j) (w1 j)) (len j) = ((pad ++ body ++ tail).drop (j * 2048)).take 2048) ∧
      (s.cfg.cacheEnabled = false → t.cpuStale = s.cpuStale) ∧
      t.rdmaWp = slot k ∧
      (∀ x, t.reg x =
        if x = .ring .rx 16 .writePtr then BitVec.ofNat 32 (3 * slot k)
        else if x = .ring .rx 16 .prodIndex then withIndex prod (indexOf prod + BitVec.ofNat 16 k) else s.reg x) ∧
      t = { s with
        mem := t.mem, cpuStale := t.cpuStale, descRx := t.descRx, cbRx := t.cbRx, rdmaWp := t.rdmaWp, regs := t.regs
        hist := t.hist, tape := t.tape, drawCount := t.drawCount, result := .stepped }

/-- R280, R284: with a DMA enable, a ring enable or `RX_EN` clear, or a frame that fails the filter, neither RDMA step
does anything; enabled before `RX_RING_INIT`, both are the fault `DmaBeforeInit`; RDMA_DELIVER waits for a free
descriptor. -/
def Obligations.RdmaNotEnabled : Prop :=
  ∀ s : State, configOk s.cfg = true →
    ((s.dmaEn .rx = false ∨ s.flag (.dmaCtrl .rx) (ringBufEnPos · .rx 16) = false ∨
        s.flag (.dmaRingCfg .rx) (ringEnPos · .rx 16) = false ∨ s.flag .umacCmd (·.rxEn) = false ∨
        s.passesFilter s.args.frame = false) →
      exec .rdmaDeliver s = .next { s with result := .notEnabled } ∧
      exec .rdmaDrop s = .next { s with result := .notEnabled }) ∧
    (s.rdmaEnabled s.args.frame = true → s.rx = none →
      exec .rdmaDeliver s = .next (s.mark .dmaBeforeInit) ∧ exec .rdmaDrop s = .next (s.mark .dmaBeforeInit)) ∧
    (∀ r, s.rx = some r → s.rdmaFree r ≤ 0 → exec .rdmaDeliver s = .next { s with result := .notEnabled })

/-- R283: with no free descriptor RDMA_DROP counts the frame in the discard counter, modulo 65536, and does nothing
else; so does either RDMA step for a frame that needs more descriptors than are free (R282). -/
def Obligations.RdmaDropCounts : Prop :=
  ∀ (s : State) (r : RxRing), configOk s.cfg = true → s.cfg.pos = {} → s.rdmaEnabled s.args.frame = true →
    s.rx = some r →
    let p := s.reg (.ring .rx defaultRing .prodIndex)
    let k := chunkCount (s.storedLen s.args.frame.length)
    let dropped := { s.setReg (.ring .rx defaultRing .prodIndex)
        ((p.extractLsb' 16 16 + 1 : BitVec 16) ++ (p.extractLsb' 0 16 : BitVec 16)) with
      hist := .rxDropped :: s.hist, result := .stepped }
    (s.rdmaFree r = 0 → exec .rdmaDrop s = .next dropped) ∧
    (0 < s.rdmaFree r → s.rdmaFree r < (k : Int) →
      exec .rdmaDrop s = .next dropped ∧ exec .rdmaDeliver s = .next dropped) ∧
    (0 < s.rdmaFree r → (k : Int) ≤ s.rdmaFree r → exec .rdmaDrop s = .next { s with result := .notEnabled })

/-! ## Registers -/

/-- R290, R67: REG_READ of a register, a write-only one of R33 among them (log 17), returns its word and appends the
event; nothing else changes, so that a value once drawn, one of `CPU_STATUS` or `xDMA_STATUS` too, stays until the next
write. Hardware writes these two in steps of its own (R364; log 18): of `CPU_STATUS` it sets bits by a draw (R315), to
`xDMA_STATUS` it writes a draw, and changes nothing else. A read of `MDIO_CMD` with no transaction counting changes nothing
either; while one counts, the read is one busy read of it (R65, R260), and the last one, which still reads the busy word,
completes it: `START_BUSY` clears, and but for a write `DATA` and `READ_FAIL` are the next two draws (log 19); the event of
a write has the data written and no failure (log 60). -/
def Obligations.RegReadReturns : Prop :=
  (∀ (s : State) (r : RegId), configOk s.cfg = true → s.args.width = 32 → s.args.off % 4 = 0 →
    regAt s.cfg s.args.off = some r →
    (r.plainRead = true ∨ r = .mdioCmd ∧ (s.mdioWait = .idle ∨ s.mdioWait = .forever) →
      exec .regRead s = .next { s with
        hist := .mmioRead r (s.reg r) :: s.hist, result := .word (s.reg r) }) ∧
    (∀ n, r = .mdioCmd → s.mdioWait = .busy (n + 1) →
      exec .regRead s = .next { s with
        mdioWait := .busy n, hist := .mmioRead r (s.reg r) :: s.hist, result := .word (s.reg r) }) ∧
    (r = .mdioCmd → s.mdioWait = .busy 0 → s.cfg.pos = {} → s.cfg.codes = {} →
      let w := s.reg r
      let op := w.extractLsb' 26 2
      let phyReg := (w.extractLsb' 16 5).toNat
      let data := BitVec.ofNat 16 (s.draw 0)
      let fail := s.draw 1 % 2 == 1
      ∃ t : State, exec .regRead s = .next t ∧
        (op = 1 → t = { s.setReg r (w &&& ~~~0x20000000) with
          mdioWait := .idle, result := .word w
          hist := .mdio .write phyReg (w.setWidth 16) false :: .mmioRead r w :: s.hist }) ∧
        (op ≠ 1 → t = { s.setReg r
            ((w &&& ~~~0x3000FFFF) ||| data.setWidth 32 ||| (if fail then 0x10000000 else 0)) with
          mdioWait := .idle, result := .word w, tape := t.tape, drawCount := s.drawCount + 2
          hist := .mdio (if op = 2 then .read else .other) phyReg data fail :: .mmioRead r w :: s.hist }))) ∧
    (∀ s d, agentMove s (.dmaStatus d) = (s.drew 1).setReg (.dmaStatus d) (BitVec.ofNat 32 (s.draw 0))) ∧
    (∀ s x, agentMove s (.interrupts x) = (s.drew 1).setReg (.intrl2 x .cpuStatus)
      (s.reg (.intrl2 x .cpuStatus) ||| fieldPlace (intrlPos s.cfg.pos x).cpuStatus (s.draw 0)))

/-- R291: REG_WRITE of a register that has no effect on other state and is not refused stores the word and appends the
event; every other register and everything else is unchanged. Among them are `xDMA_CTRL` and the kick indices, whose
effect is the word itself, the two flush registers, whose pulse has nothing to discard in this model (log 28), the ring
pointers that no agent's cursor follows, and the registers of unused rings, which the model has (log 23). -/
def Obligations.RegWriteStores : Prop :=
  ∀ (s : State) (r : RegId), configOk s.cfg = true → s.args.width = 32 → s.args.off % 4 = 0 →
    regAt s.cfg s.args.off = some r → r.readOnly = false → s.writeRefused r = false → r.sideEffect = false →
    ∃ t : State, exec .regWrite s = .next t ∧
      (∀ x, t.reg x = if x = r then s.args.v else s.reg x) ∧
      t = { s with regs := t.regs, hist := .mmioWrite r s.args.v :: s.hist, result := .ok }

/-- R62, R290, R291, R321: an access of another width, at an offset that is no multiple of 4, or where no register is, is
refused and changes nothing else. -/
def Obligations.RegAccessRefused : Prop :=
  ∀ s : State, configOk s.cfg = true →
    s.args.width ≠ 32 ∨ s.args.off % 4 ≠ 0 ∨ regAt s.cfg s.args.off = none →
    exec .regRead s = .next { s with refused := true } ∧ exec .regWrite s = .next { s with refused := true }

/-- R291: a write to `SYS_REV_CTRL`, `xDMA_STATUS`, `CPU_STATUS` or `CPU_MASK_STATUS` is ignored and only logged. -/
def Obligations.RegWriteReadOnlyIgnored : Prop :=
  ∀ (s : State) (r : RegId), configOk s.cfg = true → s.args.width = 32 → s.args.off % 4 = 0 →
    regAt s.cfg s.args.off = some r →
    (r = .sysRevCtrl ∨ (∃ d, r = .dmaStatus d) ∨ ∃ x, r = .intrl2 x .cpuStatus ∨ r = .intrl2 x .cpuMaskStatus) →
    exec .regWrite s = .next { s with hist := .mmioWrite r s.args.v :: s.hist, result := .ok }

/-- R292, R260: a host write to a register the hardware owns while its direction runs, or to `MDIO_CMD` while
`START_BUSY` is 1, is refused and changes nothing else. -/
def Obligations.RegWriteOwnedRefused : Prop :=
  ∀ (s : State) (r : RegId), configOk s.cfg = true → s.args.width = 32 → s.args.off % 4 = 0 →
    regAt s.cfg s.args.off = some r →
    (r = .ring .rx 16 .prodIndex ∧ s.dmaEn .rx = true ∨ (∃ q, r = .ring .tx q .consIndex) ∧ s.dmaEn .tx = true ∨
      (∃ d q x, r = .ring d q x ∧ x ∈ [.startAddr, .endAddr, .readPtr, .writePtr] ∧ s.dmaEn d = true) ∨
      r = .mdioCmd ∧ s.flag .mdioCmd (·.mdioStartBusy) = true) →
    exec .regWrite s = .next { s with refused := true }

/-- R292: the side effects of register writes. A write of the receive ring's `WRITE_PTR` moves `rdma_wp`, of a transmit
ring's `READ_PTR` its `tdma_rp`; `CPU_MASK_SET`, `CPU_MASK_CLEAR` and `CPU_CLEAR` set or clear exactly the bits of
the sources whose bits are 1 in the word, each register with its own position (R95, log 35), which with the default
positions are the bits of the word. A write of `UMAC_CMD` that takes `SW_RESET` from 1 to 0 may give any value to every other UMAC register
(R238, log 36); any other only stores. A write of `MDIO_CMD` with `START_BUSY` starts a transaction by one draw (R260): 0
for one that never completes, 1 for one that has completed at once, `n + 2` for one that stays busy for `n + 1` more
reads (log 19); without it the write only stores. -/
def Obligations.RegWriteSideEffects : Prop :=
  ∀ (s : State) (r : RegId), configOk s.cfg = true → s.args.width = 32 → s.args.off % 4 = 0 →
    regAt s.cfg s.args.off = some r →
    let v := s.args.v
    let sources := fun (x : IntrlId) (src dst : IntrlPos → FieldPos) =>
      fieldPlace (dst (intrlPos s.cfg.pos x)) (fieldGet (src (intrlPos s.cfg.pos x)) v)
    let t := { s.setReg r v with hist := .mmioWrite r v :: s.hist, result := .ok }
    (r = .ring .rx 16 .writePtr → s.dmaEn .rx = false →
      exec .regWrite s = .next { t with rdmaWp := v.toNat / 3 }) ∧
    (∀ q, r = .ring .tx q .readPtr → s.dmaEn .tx = false →
      exec .regWrite s = .next { t with tdmaRp := Tab.put s.tdmaRp q.val (v.toNat / 3) }) ∧
    (∀ x, r = .intrl2 x .cpuMaskSet → exec .regWrite s = .next (t.setReg (.intrl2 x .cpuMaskStatus)
      (s.reg (.intrl2 x .cpuMaskStatus) ||| sources x (·.cpuMaskSet) (·.cpuMaskStatus)))) ∧
    (∀ x, r = .intrl2 x .cpuMaskClear → exec .regWrite s = .next (t.setReg (.intrl2 x .cpuMaskStatus)
      (s.reg (.intrl2 x .cpuMaskStatus) &&& ~~~sources x (·.cpuMaskClear) (·.cpuMaskStatus)))) ∧
    (∀ x, r = .intrl2 x .cpuClear → exec .regWrite s = .next (t.setReg (.intrl2 x .cpuStatus)
      (s.reg (.intrl2 x .cpuStatus) &&& ~~~sources x (·.cpuClear) (·.cpuStatus)))) ∧
    (s.cfg.pos = {} → ∀ x, sources x (·.cpuMaskSet) (·.cpuMaskStatus) = v ∧
      sources x (·.cpuMaskClear) (·.cpuMaskStatus) = v ∧ sources x (·.cpuClear) (·.cpuStatus) = v) ∧
    (r = .umacCmd →
      let ends := fieldOn s.cfg.pos.swReset (s.reg .umacCmd) && !fieldOn s.cfg.pos.swReset v
      (ends = false → exec .regWrite s = .next t) ∧
      (ends = true → ∃ u : State, exec .regWrite s = .next u ∧ u.reg .umacCmd = v ∧
        (∀ x, x ≠ .umacCmd → x ∉ umacRegs s.cfg → u.reg x = s.reg x) ∧
        u = { t with regs := u.regs, tape := u.tape, drawCount := u.drawCount })) ∧
    (r = .mdioCmd → s.flag .mdioCmd (·.mdioStartBusy) = false →
      (fieldOn s.cfg.pos.mdioStartBusy v = false → exec .regWrite s = .next t) ∧
      (fieldOn s.cfg.pos.mdioStartBusy v = true → ∃ u : State, exec .regWrite s = .next u ∧
        (s.draw 0 = 0 → u = { t with mdioWait := .forever, tape := u.tape, drawCount := s.drawCount + 1 }) ∧
        (∀ n, s.draw 0 = n + 2 → u = { t with mdioWait := .busy n, tape := u.tape, drawCount := s.drawCount + 1 }) ∧
        (s.draw 0 = 1 → u.mdioWait = .idle ∧
          (s.cfg.pos = {} → u.flag .mdioCmd (·.mdioStartBusy) = false) ∧
          (∀ x, x ≠ .mdioCmd → u.reg x = s.reg x) ∧
          (∃ kind phyReg data fail, u.hist = .mdio kind phyReg data fail :: t.hist) ∧
          u = { t with
            regs := u.regs, mdioWait := .idle, tape := u.tape, drawCount := u.drawCount, hist := u.hist })))

/-! ## Cache, barrier, delay -/

/-- R295: CACHE_CLEAN gives memory the CPU's value of every dirty byte of the lines and leaves those bytes clean; every
other byte, and everything else, is unchanged: a byte that is stale as well keeps its stale view and its DMA-written value
(R64, R365; log 14). With the cache off, or with `len = 0`, only the event is left. -/
def Obligations.CacheCleanEffect : Prop :=
  ∀ s : State, configOk s.cfg = true → s.Canonical →
    ∃ t : State, exec .cacheClean s = .next t ∧
      (∀ a, Memory.read t.mem a = s.cleaned s.args.addr s.args.len a) ∧
      (∀ a, Tab.get? t.cpuDirty a =
        if s.cfg.cacheEnabled = true ∧ inLines s.cfg s.args.addr s.args.len a = true then none
        else Tab.get? s.cpuDirty a) ∧
      (s.cfg.cacheEnabled = false ∨ s.args.len = 0 → t.mem = s.mem ∧ t.cpuDirty = s.cpuDirty) ∧
      t = { s with
        mem := t.mem, cpuDirty := t.cpuDirty, hist := .clean s.args.addr s.args.len :: s.hist, result := .ok }

/-- R296: CACHE_INVALIDATE leaves no byte of the lines dirty or stale; memory keeps a byte that was not dirty and holds
the old or the CPU's value of one that was; every other byte, and everything else but the draws, is unchanged. -/
def Obligations.CacheInvalidateEffect : Prop :=
  ∀ s : State, configOk s.cfg = true → s.Canonical →
    let inside := fun a => s.cfg.cacheEnabled = true ∧ inLines s.cfg s.args.addr s.args.len a = true
    ∃ t : State, exec .cacheInvalidate s = .next t ∧
      (∀ a, inside a → Tab.get? t.cpuDirty a = none ∧ Tab.get? t.cpuStale a = none ∧
        (Tab.get? s.cpuDirty a = none → Memory.read t.mem a = Memory.read s.mem a) ∧
        ∀ v, Tab.get? s.cpuDirty a = some v →
          Memory.read t.mem a = v ∨ Memory.read t.mem a = Memory.read s.mem a) ∧
      (∀ a, ¬ inside a → Tab.get? t.cpuDirty a = Tab.get? s.cpuDirty a ∧
        Tab.get? t.cpuStale a = Tab.get? s.cpuStale a ∧ Memory.read t.mem a = Memory.read s.mem a) ∧
      t = { s with
        mem := t.mem, cpuDirty := t.cpuDirty, cpuStale := t.cpuStale, tape := t.tape, drawCount := t.drawCount
        hist := .invalidate s.args.addr s.args.len :: s.hist, result := .ok }

/-- R297: CACHE_CLEAN_INVALIDATE is the clean followed by the invalidate as one step: no byte of the range is left dirty
or stale, and no CPU write is lost; nothing outside the lines changes, and no draw is taken. -/
def Obligations.CacheCleanInvalidateEffect : Prop :=
  ∀ s : State, configOk s.cfg = true → s.Canonical →
    let inside := fun a => s.cfg.cacheEnabled = true ∧ inLines s.cfg s.args.addr s.args.len a = true
    ∃ t : State, exec .cacheCleanInvalidate s = .next t ∧
      (∀ a, Memory.read t.mem a = s.cleaned s.args.addr s.args.len a) ∧
      (∀ a, inside a → Tab.get? t.cpuDirty a = none ∧ Tab.get? t.cpuStale a = none) ∧
      (∀ a, ¬ inside a → Tab.get? t.cpuDirty a = Tab.get? s.cpuDirty a ∧
        Tab.get? t.cpuStale a = Tab.get? s.cpuStale a) ∧
      t = { s with
        mem := t.mem, cpuDirty := t.cpuDirty, cpuStale := t.cpuStale
        hist := .invalidate s.args.addr s.args.len :: .clean s.args.addr s.args.len :: s.hist, result := .ok }

/-- R298, R299: BARRIER only appends its event, and every earlier descriptor write is visible (R69); DELAY only appends
its event. -/
def Obligations.BarrierAndDelay : Prop :=
  ∀ s : State, configOk s.cfg = true →
    exec .barrier s = .next { s with unsynced := [], hist := .barrier :: s.hist, result := .ok } ∧
    exec .delay s = .next { s with hist := .delay s.args.name :: s.hist, result := .ok }

/-- R64, R69, R60: a DMA read of a byte gets memory's value, or for a dirty byte the old or the new value by a draw; a host
read gets the CPU's view, or for a stale byte the CPU's view or the DMA-written value by a draw, also where a clean has put
another value in memory since (R365, log 14); a descriptor word is fetched as it is, or as it was before a host write that no barrier has ordered yet (log 13). Byte `k` of descriptor `i` stands at
`DESC_BASE + 12 i + k` (R90); what either agent writes there is the descriptor's and leaves the cached memory as it is
(log 12). -/
def Obligations.CoherenceDraws : Prop :=
  ∀ (s : State) (a : Nat),
    (Tab.get? s.cpuDirty a = none → dmaReadByte a s = .ok (s.memByte a) s) ∧
    (∀ new, Tab.get? s.cpuDirty a = some new → ∃ t,
      dmaReadByte a s = .ok (if s.draw 0 % 2 = 1 then new else s.memByte a) t ∧
      t = { s with tape := t.tape, drawCount := s.drawCount + 1 }) ∧
    (Tab.get? s.cpuStale a = none → hostReadByte a s = .ok (s.cpuView a) s) ∧
    (∀ x, Tab.get? s.cpuStale a = some x → ∃ t,
      hostReadByte a s = .ok (if s.draw 0 % 2 = 1 then x.written else s.cpuView a) t ∧
      t = { s with tape := t.tape, drawCount := s.drawCount + 1 }) ∧
    (∀ d i k, s.oldWords d i k = [] → fetchWord d i k s = .ok ((s.desc d i).word k) s) ∧
    (∀ d i k, ∃ (w : Word) (t : State), fetchWord d i k s = .ok w t ∧
      s.MayFetch d i k w ∧ t = { s with tape := t.tape, drawCount := t.drawCount }) ∧
    (∀ d, ∀ i < 256, ∀ k < 12, poolByteOf s.cfg d (byteAddr (descAddr s.cfg d i) k) = some ⟨d, i, k⟩) ∧
    (poolByte? s.cfg a = none → s.memByte a = Memory.read s.mem a) ∧
    ∀ b v, poolByte? s.cfg a = some b →
      s.memByte a = (s.desc b.dir b.index).byte b.byte ∧
      (s.dmaWriteByte a v).memByte a = v ∧ (s.hostWriteByte a v).memByte a = v ∧
      s.dmaWriteByte a v = { s with
        descRx := (s.dmaWriteByte a v).descRx, descTx := (s.dmaWriteByte a v).descTx } ∧
      s.hostWriteByte a v = { s with
        descRx := (s.hostWriteByte a v).descRx, descTx := (s.hostWriteByte a v).descTx
        unsynced := (s.hostWriteByte a v).unsynced }

/-! ## Pool -/

/-- R140: POOL_INIT before construction has ended, with no control block of its direction the hardware's (R63), zeroes every
descriptor of its direction and writes every control block with its own index, owned by software; nothing else changes, and
until the next BARRIER a fetch may see what the zeros replaced (R69, log 13). -/
def Obligations.PoolInitEffect : Prop :=
  ∀ (q : BitVec 8) (d : Dir) (s : State), dirOfQ q = some d → configOk s.cfg = true → s.between = [] →
    s.seq ≠ .ready → (∀ e, s.seq ≠ .failed e) → s.args.count = 256 →
    (∀ i < 256, ∀ b, s.cb? d i = some b → b.owner = .sw) →
    ∃ t : State, exec (.poolInit q) s = .next t ∧
      (∀ d' i, t.desc d' i = if d' = d ∧ i < 256 then ⟨0, 0, 0⟩ else s.desc d' i) ∧
      (∀ d' i, t.cb? d' i =
        if d' = d ∧ i < 256 then some { descIndex := i, owner := .sw } else s.cb? d' i) ∧
      s.Remembers t ∧
      t = { s with
        descRx := t.descRx, descTx := t.descTx, cbRx := t.cbRx, cbTx := t.cbTx, unsynced := t.unsynced
        result := .ok }

/-- R141, R72: POOL_REFILL of a software-owned control block with a good buffer writes the buffer's bus address into `w1` and
`w2`, leaves `w0` and every other descriptor, and for the receive direction cleans and invalidates the buffer: memory
takes its dirty bytes, and no byte of its lines is dirty or stale. Every other byte keeps both, and nothing else
changes; until the next BARRIER a fetch may see a word that was replaced (R69, log 13). -/
def Obligations.PoolRefillEffect : Prop :=
  ∀ (q : BitVec 8) (d : Dir) (b : Cb) (s : State), dirOfQ q = some d → configOk s.cfg = true → s.between = [] →
    s.Canonical → s.PoolIdentity → s.cb? d s.args.cb = some b → b.owner = .sw →
    let i := s.args.cb
    let buf := cbBuf s.cfg d i
    buf ≠ 0 → (buf ||| s.cfg.aliasTag).toNat % s.cfg.bufAlign = 0 →
    ∃ t : State, exec (.poolRefill q) s = .next t ∧
      (∀ d' j, t.desc d' j =
        if d' = d ∧ j = i then ⟨(s.desc d i).w0, buf ||| s.cfg.aliasTag, 0⟩ else s.desc d' j) ∧
      (∀ a, Memory.read t.mem a = if d = .rx then s.cleaned buf 2048 a else Memory.read s.mem a) ∧
      t.hist = (if d = .rx then .invalidate buf 2048 :: .clean buf 2048 :: s.hist else s.hist) ∧
      (d = .tx → t.mem = s.mem ∧ t.cpuDirty = s.cpuDirty ∧ t.cpuStale = s.cpuStale) ∧
      (d = .rx → ∀ a, s.cfg.cacheEnabled = true → inLines s.cfg buf 2048 a = true →
        Tab.get? t.cpuDirty a = none ∧ Tab.get? t.cpuStale a = none) ∧
      (∀ a, (s.cfg.cacheEnabled = false ∨ inLines s.cfg buf 2048 a = false) →
        Tab.get? t.cpuDirty a = Tab.get? s.cpuDirty a ∧ Tab.get? t.cpuStale a = Tab.get? s.cpuStale a) ∧
      s.Remembers t ∧
      t = { s with
        descRx := t.descRx, descTx := t.descTx, unsynced := t.unsynced, mem := t.mem, cpuDirty := t.cpuDirty
        cpuStale := t.cpuStale, hist := t.hist, result := .ok }

/-- R140, R141, R62, R56, R63, R112, R321: before anything is written, POOL_INIT of another count is `Malformed`, and at
`Ready`, after a failure (R314) or with a Q that is no direction refused; at the first control block the hardware owns
it is the fault `OwnershipViolation`, with `w0` of that descriptor and all before it done (log 21). POOL_REFILL of an
unwritten control block is the fault `UnwrittenRead`, of a hardware-owned one the fault `OwnershipViolation`, with a null
or misaligned buffer `Unaligned`, and of a number outside the pool refused (log 39). -/
def Obligations.PoolRejects : Prop :=
  ∀ (q : BitVec 8) (s : State), configOk s.cfg = true →
    (q.toNat ≤ 1 → s.seq ≠ .ready → (∀ e, s.seq ≠ .failed e) → s.args.count ≠ 256 →
      exec (.poolInit q) s = .next { s with result := .err .malformed }) ∧
    (∀ d, dirOfQ q = some d → s.seq ≠ .ready → (∀ e, s.seq ≠ .failed e) → s.args.count = 256 → s.between = [] →
      ∀ i < 256, ∀ b, s.cb? d i = some b → b.owner = .hw → (∀ j < i, ∀ b', s.cb? d j = some b' → b'.owner = .sw) →
      ∃ t : State, exec (.poolInit q) s = .next t ∧
        (∀ d' j, t.desc d' j = if d' = d ∧ j < i then ⟨0, 0, 0⟩
          else if d' = d ∧ j = i then { s.desc d i with w0 := 0 } else s.desc d' j) ∧
        (∀ d' j, t.cb? d' j =
          if d' = d ∧ j < i then some { descIndex := j, owner := .sw } else s.cb? d' j) ∧
        s.Remembers t ∧
        t = { s with
          descRx := t.descRx, descTx := t.descTx, cbRx := t.cbRx, cbTx := t.cbTx, unsynced := t.unsynced
          fault := s.fault.or (some .ownershipViolation) }) ∧
    (1 < q.toNat ∨ s.seq = .ready ∨ (∃ e, s.seq = .failed e) → exec (.poolInit q) s = .next { s with refused := true }) ∧
    (1 < q.toNat ∨ 256 ≤ s.args.cb → exec (.poolRefill q) s = .next { s with refused := true }) ∧
    ∀ d, dirOfQ q = some d → s.args.cb < 256 →
      let buf := cbBuf s.cfg d s.args.cb
      (s.cb? d s.args.cb = none → exec (.poolRefill q) s = .next (s.mark .unwrittenRead)) ∧
      ∀ b, s.cb? d s.args.cb = some b →
        (b.owner = .hw → exec (.poolRefill q) s = .next (s.mark .ownershipViolation)) ∧
        (b.owner = .sw → (buf = 0 ∨ (buf ||| s.cfg.aliasTag).toNat % s.cfg.bufAlign ≠ 0) →
          exec (.poolRefill q) s = .next { s with result := .err .unaligned })

/-! ## Receive ring -/

/-- R150, R151: RX_RING_INIT writes the record, refills every receive control block and hands it to hardware, and
programs the ring's registers and its two enables; memory takes the CPU's dirty bytes of the buffers' lines, which are then
neither dirty nor stale. Until the next BARRIER a fetch may see a descriptor word that was replaced (R69, log 13). Every
other register and everything else is unchanged. -/
def Obligations.RxRingInitEffect : Prop :=
  ∀ s : State, configOk s.cfg = true → s.between = [] → s.Canonical → s.cfg.pos = {} → s.dmaEn .rx = false →
    (∀ i < 256, s.cb? .rx i = some { descIndex := i, owner := .sw }) →
    (∀ i < 256, badBuffer s.cfg (cbBuf s.cfg .rx i) = false) →
    let inside := fun a => s.cfg.cacheEnabled = true ∧ ∃ i < 256, inLines s.cfg (cbBuf s.cfg .rx i) 2048 a = true
    ∃ t : State, exec .rxRingInit s = .next t ∧
      t.rx = some { index := 16, cbBase := 0, size := 256, cIndex := 0, readPtr := 0, initPtr := 0, endPtr := 255
                    oldDiscards := 0 } ∧
      (∀ i, t.desc .rx i = if i < 256
        then ⟨(s.desc .rx i).w0, cbBuf s.cfg .rx i ||| s.cfg.aliasTag, 0⟩ else s.desc .rx i) ∧
      (∀ i, t.cb? .rx i = if i < 256 then some { descIndex := i, owner := .hw } else s.cb? .rx i) ∧
      (∀ r, t.reg r = match r with
        | .ring .rx 16 .prodIndex | .ring .rx 16 .consIndex | .ring .rx 16 .startAddr | .ring .rx 16 .readPtr
        | .ring .rx 16 .writePtr => 0
        | .ring .rx 16 .ringBufSize => 0x01000800
        | .ring .rx 16 .endAddr => 767
        | .rdmaXonXoff 16 =>
          (BitVec.ofNat 16 s.cfg.xoffThresh : BitVec 16) ++ (BitVec.ofNat 16 s.cfg.xonThresh : BitVec 16)
        | .dmaRingCfg .rx => s.reg (.dmaRingCfg .rx) ||| 0x00010000
        | .dmaCtrl .rx => s.reg (.dmaCtrl .rx) ||| 0x00020000
        | _ => s.reg r) ∧
      (∀ a, inside a → Memory.read t.mem a = (Tab.get? s.cpuDirty a).getD (Memory.read s.mem a) ∧
        Tab.get? t.cpuDirty a = none ∧ Tab.get? t.cpuStale a = none) ∧
      (∀ a, ¬ inside a → Memory.read t.mem a = Memory.read s.mem a ∧ Tab.get? t.cpuDirty a = Tab.get? s.cpuDirty a ∧
        Tab.get? t.cpuStale a = Tab.get? s.cpuStale a) ∧
      t.rdmaWp = 0 ∧ s.Remembers t ∧
      t = { s with
        rx := t.rx, descRx := t.descRx, cbRx := t.cbRx, regs := t.regs, rdmaWp := 0, unsynced := t.unsynced
        mem := t.mem, cpuDirty := t.cpuDirty, cpuStale := t.cpuStale, hist := t.hist, result := .ok }

/-- R321, R150, R152, R183, R185, R236, R237: RX_RING_INIT with RDMA enabled or before `POOL_INIT(RX)`, RX_RECV and TX_SEND
before `Ready` (after a failure as well), TX_QUEUES_INIT before `POOL_INIT(TX)` or outside step 11 (R180, log 22),
TX_RECLAIM before its ring is initialised, and SEQ_STEP at `Ready` or after a failure are refused and change nothing
else. -/
def Obligations.RefusedInState : Prop :=
  ∀ s : State, configOk s.cfg = true →
    (s.dmaEn .rx = true ∨ (∃ i < 256, s.cb? .rx i = none) → exec .rxRingInit s = .next { s with refused := true }) ∧
    (s.seq ≠ .ready → exec .rxRecv s = .next { s with refused := true }) ∧
    (∀ q, s.seq ≠ .ready → exec (.txSend q) s = .next { s with refused := true }) ∧
    (s.seq ≠ .step .s11 ∨ (∃ i < 256, s.cb? .tx i = none) → exec .txQueuesInit s = .next { s with refused := true }) ∧
    (∀ q k, queueOfQ q = some k → Tab.get? s.tx k.num = none →
      exec (.txReclaim q) s = .next { s with refused := true }) ∧
    (s.seq = .ready ∨ (∃ e, s.seq = .failed e) → exec .seqStep s = .next { s with refused := true })

/-- R153, R154, R155: the paths of RX_RECV that end before step 4. A small buffer is `Exhausted` before any register is
read; a moved discard counter is recorded and reported; an empty ring is `WouldBlock`; a pending count above the ring
size is the fault `IndexOutOfRange`. Nothing is advanced. -/
def Obligations.RxRecvReturnsEarly : Prop :=
  ∀ s : State, configOk s.cfg = true → s.seq = .ready →
    (s.args.dest.length < s.cfg.mtu → exec .rxRecv s = .next { s with result := .err .exhausted }) ∧
    (s.cfg.mtu ≤ s.args.dest.length → s.between = [] → s.cfg.pos = {} →
      let p := s.reg (.ring .rx 16 .prodIndex)
      let disc : Half := p.extractLsb' 16 16
      let pending := fun (r : RxRing) => (p.toNat % 65536 + 65536 - r.cIndex.toNat) % 65536
      let read := { s with hist := .mmioRead (.ring .rx 16 .prodIndex) p :: s.hist }
      (s.rx = none → exec .rxRecv s = .next (read.mark .unwrittenRead)) ∧
      ∀ r, s.rx = some r →
        (disc ≠ r.oldDiscards → exec .rxRecv s = .next { read with
          rx := some { r with oldDiscards := disc }
          result := .err (.dropped ((disc.toNat + 65536 - r.oldDiscards.toNat) % 65536)) }) ∧
        (disc = r.oldDiscards → pending r = 0 → exec .rxRecv s = .next { read with result := .wouldBlock }) ∧
        (disc = r.oldDiscards → r.size < pending r →
          exec .rxRecv s = .next (read.mark .indexOutOfRange)))

/-- R152, R156, R160 to R162: an RX_RECV that reaches step 4 examines the one descriptor at the read pointer and, whatever
it finds, refills it, advances the record once, hands the control block to hardware and acknowledges. On `Ok(len)` the
first `len` bytes of `dest` are the buffer's bytes past the pad, where no byte of the buffer is dirty; the rest of
`dest` is left. No byte outside the buffer's lines changes, and memory keeps every byte that was not dirty. The history
shows the barrier and the invalidate before the buffer is read, and the refill and a barrier before the acknowledgement
(R160), so that every fetch sees the refilled words. Nothing else changes. -/
def Obligations.RxRecvConsumes : Prop :=
  ∀ (s : State) (r : RxRing) (b : Cb), configOk s.cfg = true → s.between = [] → s.Canonical → s.PoolIdentity →
    s.seq = .ready → s.cfg.mtu ≤ s.args.dest.length → s.rx = some r →
    let p := s.reg (.ring .rx 16 .prodIndex)
    let i := r.readPtr
    let buf := cbBuf s.cfg .rx i
    discardsOf s.cfg p = r.oldDiscards → 0 < pendingCount (indexOf p) r.cIndex →
    pendingCount (indexOf p) r.cIndex ≤ r.size → s.cb? .rx i = some b → b.owner = .sw →
    badBuffer s.cfg buf = false →
    let verdict := rxVerdict s.cfg s.args.dest.length (s.desc .rx i).w0
    let inside := fun a => s.cfg.cacheEnabled = true ∧ inLines s.cfg buf 2048 a = true
    ∃ t : State, exec .rxRecv s = .next t ∧
      (∀ e, verdict = .error e → t.result = .err e ∧ t.args = s.args) ∧
      (∀ n, verdict = .ok n → t.result = .count n ∧ t.args.dest.length = s.args.dest.length ∧
        t.args.dest.drop n = s.args.dest.drop n ∧
        (buf.toNat + 2048 ≤ 2 ^ 32 → (∀ a, inLines s.cfg buf 2048 a = true → Tab.get? s.cpuDirty a = none) →
          t.args.dest.take n = s.memBytes (buf + 2) n)) ∧
      t.rx = some { r with readPtr := if r.readPtr = r.endPtr then r.cbBase else r.readPtr + 1
                           cIndex := r.cIndex + 1 } ∧
      (∀ d' j, t.cb? d' j = if d' = .rx ∧ j = i then some { b with owner := .hw } else s.cb? d' j) ∧
      (∀ d' j, t.desc d' j = if d' = .rx ∧ j = i then ⟨(s.desc .rx i).w0, buf ||| s.cfg.aliasTag, 0⟩
        else s.desc d' j) ∧
      (∀ x, t.reg x = if x = .ring .rx 16 .consIndex then (r.cIndex + 1).setWidth 32 else s.reg x) ∧
      (∀ a, inside a → Tab.get? t.cpuDirty a = none ∧ Tab.get? t.cpuStale a = none ∧
        (Tab.get? s.cpuDirty a = none → Memory.read t.mem a = Memory.read s.mem a) ∧
        ∀ v, Tab.get? s.cpuDirty a = some v → Memory.read t.mem a = v ∨ Memory.read t.mem a = Memory.read s.mem a) ∧
      (∀ a, ¬ inside a → Tab.get? t.cpuDirty a = Tab.get? s.cpuDirty a ∧ Tab.get? t.cpuStale a = Tab.get? s.cpuStale a ∧
        Memory.read t.mem a = Memory.read s.mem a) ∧
      t.hist = .mmioWrite (.ring .rx 16 .consIndex) ((r.cIndex + 1).setWidth 32) :: .barrier :: .invalidate buf 2048 ::
        .clean buf 2048 :: .invalidate buf 2048 :: .barrier :: .mmioRead (.ring .rx 16 .prodIndex) p :: s.hist ∧
      t = { s with
        rx := t.rx, cbRx := t.cbRx, descRx := t.descRx, regs := t.regs, mem := t.mem, cpuDirty := t.cpuDirty
        cpuStale := t.cpuStale, unsynced := [], hist := t.hist, tape := t.tape, drawCount := t.drawCount
        args := { s.args with dest := t.args.dest }, result := t.result }

/-- R157 to R159, in the order of R312: without both `SOP` and `EOP` the descriptor is `Fragmented`; with an error bit
it is `HwError`; a length above the buffer or a payload of no byte is `Malformed`; a payload longer than `dest` is
`Exhausted`; else the payload length is `dma_len - 2`, less the FCS where it is forwarded. -/
def Obligations.RxVerdictRule : Prop :=
  ∀ (c : Config) (n : Nat) (w0 : Word), c.desc = {} →
    let dmaLen := w0.toNat / 65536 % 4096
    let len : Int := (dmaLen : Int) - 2 - (if c.crcFwd then c.fcsLen else 0)
    rxVerdict c n w0 =
      if w0.getLsbD 13 = false ∨ w0.getLsbD 14 = false then .error .fragmented
      else if w0 &&& 0x1F ≠ 0 then .error .hwError
      else if 2048 < dmaLen ∨ len ≤ 0 then .error .malformed
      else if (n : Int) < len then .error .exhausted
      else .ok len.toNat

/-! ## Transmit rings -/

/-- R180 to R182: TX_QUEUES_INIT at step 11 writes a fresh record and the registers of each of the five rings, gives every
control block to software, and sets strict priority, the three priority words whole, the ring enables and the buffer
enables, with `EN` as it was; every other register and everything else is unchanged. -/
def Obligations.TxQueuesInitEffect : Prop :=
  ∀ s : State, configOk s.cfg = true → s.between = [] → s.cfg.pos = {} → s.cfg.codes = {} →
    s.seq = .step .s11 → (∀ i < 256, s.cb? .tx i ≠ none) →
    let base := s.cfg.basePriority
    ∃ t : State, exec .txQueuesInit s = .next t ∧
      (∀ q : TxQueue, Tab.get? t.tx q.num = some
        { index := q.num, queue := q.num, cbBase := q.base, size := q.size, endPtr := q.base + q.size - 1
          cleanPtr := q.base, cIndex := 0, freeBds := q.size, writePtr := q.base, prodIndex := 0 }) ∧
      (∀ i, t.cb? .tx i = if i < 256 then (s.cb? .tx i).map ({ · with owner := .sw }) else s.cb? .tx i) ∧
      (∀ q : TxQueue, ∀ x : RingReg, t.reg (.ring .tx q.ring x) = match x with
        | .prodIndex | .consIndex => 0
        | .ringBufSize => (BitVec.ofNat 16 q.size : BitVec 16) ++ (2048 : BitVec 16)
        | .startAddr | .readPtr | .writePtr => BitVec.ofNat 32 (3 * q.base)
        | .endAddr => BitVec.ofNat 32 (3 * (q.base + q.size) - 1)) ∧
      (∀ q : TxQueue, t.reg (.tdmaFlowPeriod q.ring) =
        if q = .q16 then 0 else (BitVec.ofNat 16 s.cfg.mtu : BitVec 16) ++ (0 : BitVec 16)) ∧
      t.reg .tdmaArbCtrl = (s.reg .tdmaArbCtrl &&& ~~~3) ||| 2 ∧
      (∀ q : TxQueue, t.prioOf q = base + q.num) ∧
      (∀ k, t.reg (.tdmaPriority k) = match k with
        | 0 => BitVec.ofNat 32 (base + (base + 1) * 32 + (base + 2) * 1024 + (base + 3) * 32768)
        | 1 => 0
        | 2 => BitVec.ofNat 32 ((base + 16) * 1048576)) ∧
      t.reg (.dmaRingCfg .tx) = 0x0001000F ∧
      t.reg (.dmaCtrl .tx) = (s.reg (.dmaCtrl .tx) &&& 1) ||| 0x0002001E ∧
      (∀ q : TxQueue, Tab.get? t.tdmaRp q.num = some q.base) ∧
      (∀ n, (∀ q : TxQueue, q.num ≠ n) →
        Tab.get? t.tdmaRp n = Tab.get? s.tdmaRp n ∧ Tab.get? t.tx n = Tab.get? s.tx n) ∧
      (∀ r, (∀ (q : TxQueue) (x : RingReg), r ≠ .ring .tx q.ring x ∧ r ≠ .tdmaFlowPeriod q.ring) →
        (∀ k, r ≠ .tdmaPriority k) → r ≠ .tdmaArbCtrl → r ≠ .dmaRingCfg .tx → r ≠ .dmaCtrl .tx →
        t.reg r = s.reg r) ∧
      t = { s with
        tx := t.tx, cbTx := t.cbTx, regs := t.regs, tdmaRp := t.tdmaRp, hist := t.hist, result := .ok }

/-- R185: TX_RECLAIM of `n` completions, no more than are outstanding, gives the `n` control blocks from the clean pointer
on to software, moves the clean pointer past them, and counts them free; with `n = 0` the record is as it was. Nothing
else changes but the register read and the barrier. -/
def Obligations.TxReclaimEffect : Prop :=
  ∀ (q : BitVec 8) (k : TxQueue) (r : TxRing) (s : State), queueOfQ q = some k → configOk s.cfg = true →
    s.between = [] → Tab.get? s.tx k.num = some r →
    let cons := s.reg (.ring .tx k.ring .consIndex)
    let n := (cons.toNat % 65536 + 65536 - r.cIndex.toNat) % 65536
    let next := ringNext r.cbBase r.endPtr
    n + r.freeBds ≤ r.size →
    ∃ t : State, exec (.txReclaim q) s = .next t ∧
      Tab.get? t.tx k.num = some
        { r with cleanPtr := next^[n] r.cleanPtr, freeBds := r.freeBds + n, cIndex := cons.setWidth 16 } ∧
      (∀ j, j ≠ k.num → Tab.get? t.tx j = Tab.get? s.tx j) ∧
      (∀ j < n, t.cb? .tx (next^[j] r.cleanPtr) = (s.cb? .tx (next^[j] r.cleanPtr)).map ({ · with owner := .sw })) ∧
      (∀ i, (∀ j < n, next^[j] r.cleanPtr ≠ i) → t.cb? .tx i = s.cb? .tx i) ∧
      t = { s with
        tx := t.tx, cbTx := t.cbTx, unsynced := []
        hist := .barrier :: .mmioRead (.ring .tx k.ring .consIndex) cons :: s.hist, result := .count n }

/-- R185, R112: a consumer index that claims more completions than are outstanding is `HwError` and changes no record; a
Q that is no transmit queue is refused, for TX_SEND as well. -/
def Obligations.TxReclaimRejects : Prop :=
  ∀ (q : BitVec 8) (s : State), configOk s.cfg = true →
    (queueOfQ q = none →
      exec (.txReclaim q) s = .next { s with refused := true } ∧ exec (.txSend q) s = .next { s with refused := true }) ∧
    (∀ k r, queueOfQ q = some k → s.between = [] → Tab.get? s.tx k.num = some r →
      let cons := s.reg (.ring .tx k.ring .consIndex)
      r.size < (cons.toNat % 65536 + 65536 - r.cIndex.toNat) % 65536 + r.freeBds →
      exec (.txReclaim q) s = .next { s with
        hist := .mmioRead (.ring .tx k.ring .consIndex) cons :: s.hist, result := .err .hwError })

/-- R183: TX_SEND, after its reclaim of `n` completions, which gives `n` control blocks to software, the one at the write
pointer perhaps among them (R184), puts the payload into the buffer at the write pointer, off the descriptor pools, and
cleans it to memory, writes the descriptor, hands the control block over, moves the record by one, and last writes the
producer index behind a barrier. Every other register and everything else is unchanged. -/
def Obligations.TxSendEffect : Prop :=
  ∀ (q : BitVec 8) (k : TxQueue) (r : TxRing) (b : Cb) (s : State), queueOfQ q = some k → configOk s.cfg = true →
    s.between = [] → s.Canonical → s.PoolIdentity → s.cfg.desc = {} → s.seq = .ready →
    Tab.get? s.tx k.num = some r →
    let cons := s.reg (.ring .tx k.ring .consIndex)
    let n := (cons.toNat % 65536 + 65536 - r.cIndex.toNat) % 65536
    let next := ringNext r.cbBase r.endPtr
    let payload := s.args.payload
    let i := r.writePtr
    let buf := cbBuf s.cfg .tx i
    n + r.freeBds ≤ r.size → 0 < n + r.freeBds → payload ≠ [] → payload.length ≤ s.cfg.mtu → payload.length ≤ 2048 →
    s.cb? .tx i = some b → (b.owner = .sw ∨ ∃ m < n, next^[m] r.cleanPtr = i) → badBuffer s.cfg buf = false →
    buf.toNat + 2048 ≤ 2 ^ 32 → OffPools s.cfg buf payload.length →
    ∃ t : State, exec (.txSend q) s = .next t ∧
      Tab.get? t.tx k.num = some
        { r with cleanPtr := next^[n] r.cleanPtr, cIndex := cons.setWidth 16, writePtr := next i
                 freeBds := r.freeBds + n - 1, prodIndex := r.prodIndex + 1 } ∧
      (∀ j, j ≠ k.num → Tab.get? t.tx j = Tab.get? s.tx j) ∧
      (∀ d' j, t.desc d' j = if d' = .tx ∧ j = i
        then ⟨BitVec.ofNat 32 (payload.length * 65536) ||| 0x6000 ||| (if s.cfg.txAppendCrc then 0x40 else 0),
          buf ||| s.cfg.aliasTag, 0⟩
        else s.desc d' j) ∧
      (t.cb? .tx i = some { b with owner := .hw }) ∧
      (∀ m < n, next^[m] r.cleanPtr ≠ i →
        t.cb? .tx (next^[m] r.cleanPtr) = (s.cb? .tx (next^[m] r.cleanPtr)).map ({ · with owner := .sw })) ∧
      (∀ j, j ≠ i → (∀ m < n, next^[m] r.cleanPtr ≠ j) → t.cb? .tx j = s.cb? .tx j) ∧
      t.memBytes buf payload.length = payload ∧
      (∀ a, (∀ m < payload.length, byteAddr buf m ≠ a) →
        Memory.read t.mem a = s.cleaned buf payload.length a) ∧
      (∀ a, s.cfg.cacheEnabled = true → Tab.get? t.cpuDirty a =
        if inLines s.cfg buf payload.length a = true then none else Tab.get? s.cpuDirty a) ∧
      (s.cfg.cacheEnabled = false → t.cpuDirty = s.cpuDirty ∧ t.cpuStale = s.cpuStale) ∧
      (∀ a, (∀ m < payload.length, byteAddr buf m ≠ a) → Tab.get? t.cpuStale a = Tab.get? s.cpuStale a) ∧
      (∀ x, t.reg x = if x = .ring .tx k.ring .prodIndex then (r.prodIndex + 1).setWidth 32 else s.reg x) ∧
      t = { s with
        tx := t.tx, cbTx := t.cbTx, descTx := t.descTx, regs := t.regs, mem := t.mem, cpuDirty := t.cpuDirty
        cpuStale := t.cpuStale, unsynced := []
        hist := .mmioWrite (.ring .tx k.ring .prodIndex) ((r.prodIndex + 1).setWidth 32) :: .barrier ::
          .clean buf payload.length :: .barrier :: .mmioRead (.ring .tx k.ring .consIndex) cons :: s.hist
        result := .ok }

/-- R313, R184 (a), R187: the first failing check of a TX_SEND names its error: `HwError` of the reclaim, `Malformed` for
an empty payload, `Exhausted` for one too long, `Exhausted` with no free descriptor, `Unaligned` for a bad buffer. No
register, descriptor or byte is written. With `HwError` no record or control block is either; else the reclaim's writes
stay (R185) and no other: the record with its clean pointer past the `n` completions, counted free, and their control
blocks the software's. -/
def Obligations.TxSendRejects : Prop :=
  ∀ (q : BitVec 8) (k : TxQueue) (r : TxRing) (s : State), queueOfQ q = some k → configOk s.cfg = true →
    s.between = [] → s.seq = .ready → Tab.get? s.tx k.num = some r →
    let cons := s.reg (.ring .tx k.ring .consIndex)
    let n := (cons.toNat % 65536 + 65536 - r.cIndex.toNat) % 65536
    let next := ringNext r.cbBase r.endPtr
    let len := s.args.payload.length
    let i := r.writePtr
    let owned := fun b : Cb => b.owner = .sw ∨ ∃ m < n, next^[m] r.cleanPtr = i
    let read := Event.mmioRead (.ring .tx k.ring .consIndex) cons :: s.hist
    (r.size < n + r.freeBds →
      exec (.txSend q) s = .next { s with hist := read, result := .err .hwError }) ∧
    (n + r.freeBds ≤ r.size → ∀ e,
      ((len = 0 ∧ e = .malformed) ∨
        (0 < len ∧ (s.cfg.mtu < len ∨ 2048 < len) ∧ e = .exhausted) ∨
        (0 < len ∧ len ≤ s.cfg.mtu ∧ len ≤ 2048 ∧ n + r.freeBds = 0 ∧ e = .exhausted) ∨
        (0 < len ∧ len ≤ s.cfg.mtu ∧ len ≤ 2048 ∧ 0 < n + r.freeBds ∧ (∃ b, s.cb? .tx i = some b ∧ owned b) ∧
          badBuffer s.cfg (cbBuf s.cfg .tx i) = true ∧ e = .unaligned)) →
      ∃ t : State, exec (.txSend q) s = .next t ∧
        Tab.get? t.tx k.num = some
          { r with cleanPtr := next^[n] r.cleanPtr, freeBds := r.freeBds + n, cIndex := cons.setWidth 16 } ∧
        (∀ j, j ≠ k.num → Tab.get? t.tx j = Tab.get? s.tx j) ∧
        (∀ m < n, t.cb? .tx (next^[m] r.cleanPtr) =
          (s.cb? .tx (next^[m] r.cleanPtr)).map ({ · with owner := .sw })) ∧
        (∀ j, (∀ m < n, next^[m] r.cleanPtr ≠ j) → t.cb? .tx j = s.cb? .tx j) ∧
        t = { s with
          tx := t.tx, cbTx := t.cbTx, unsynced := [], hist := .barrier :: read, result := .err e })

/-! ## MDIO and the link negotiator -/

/-- R260: MDIO_READ with the default position table writes the command of R100 and polls. The first draw is the busy
count (0 for never, `n + 1` for `n` busy reads): with fewer than `MDIO_POLL_LIMIT` busy reads the operation returns the
second draw as its data, or `HwError` where the third says that the read failed; else it is `TimedOut`. No other
register changes. -/
def Obligations.MdioReadEffect : Prop :=
  ∀ (q : BitVec 8) (s : State), q.toNat ≤ 31 → configOk s.cfg = true → s.between = [] → s.cfg.pos = {} →
    s.cfg.codes = {} → s.flag .mdioCmd (·.mdioStartBusy) = false → 1 ≤ s.cfg.mdioPollLimit →
    let cmd : Word := 0x28000000 ||| BitVec.ofNat 32 (s.cfg.phyAddr % 32 * 2097152) ||| BitVec.ofNat 32 (q.toNat * 65536)
    let inTime := 0 < s.draw 0 ∧ s.draw 0 - 1 < s.cfg.mdioPollLimit
    ∃ t : State, exec (.mdioRead q) s = .next t ∧
      (inTime → t.result =
          (if s.draw 2 % 2 = 1 then .err .hwError else .half (BitVec.ofNat 16 (s.draw 1))) ∧
        t.flag .mdioCmd (·.mdioStartBusy) = false ∧ t.mdioWait = .idle ∧ t.drawCount = s.drawCount + 3) ∧
      (¬ inTime → t.result = .err .timedOut) ∧
      (∃ es, t.hist = es ++ s.hist ∧ .mmioWrite .mdioCmd cmd ∈ es) ∧
      (∀ r, r ≠ .mdioCmd → t.reg r = s.reg r) ∧
      t = { s with
        regs := t.regs, mdioWait := t.mdioWait, tape := t.tape, drawCount := t.drawCount, hist := t.hist
        result := t.result }

/-- R261: MDIO_WRITE with the default position table writes the command of R100 with its data and polls as MDIO_READ
does; it is `Ok(())`, or `TimedOut` after `MDIO_POLL_LIMIT` busy reads. No other register changes. -/
def Obligations.MdioWriteEffect : Prop :=
  ∀ (q : BitVec 8) (s : State), q.toNat ≤ 31 → configOk s.cfg = true → s.between = [] → s.cfg.pos = {} →
    s.cfg.codes = {} → s.flag .mdioCmd (·.mdioStartBusy) = false → 1 ≤ s.cfg.mdioPollLimit →
    let cmd : Word := 0x24000000 ||| BitVec.ofNat 32 (s.cfg.phyAddr % 32 * 2097152) |||
      BitVec.ofNat 32 (q.toNat * 65536) ||| s.args.data.setWidth 32
    let inTime := 0 < s.draw 0 ∧ s.draw 0 - 1 < s.cfg.mdioPollLimit
    ∃ t : State, exec (.mdioWrite q) s = .next t ∧
      (inTime → t.result = .ok ∧ t.reg .mdioCmd = cmd &&& ~~~0x20000000 ∧ t.mdioWait = .idle) ∧
      (¬ inTime → t.result = .err .timedOut) ∧
      (∃ es, t.hist = es ++ s.hist ∧ .mmioWrite .mdioCmd cmd ∈ es) ∧
      (∀ r, r ≠ .mdioCmd → t.reg r = s.reg r) ∧
      t = { s with
        regs := t.regs, mdioWait := t.mdioWait, tape := t.tape, drawCount := t.drawCount, hist := t.hist
        result := t.result }

/-- R262, R263, R267, R314: LINK_READ_STATUS. Read `n` takes the draws `3 n` to `3 n + 2`: the busy count, the data, the
failure (R260; log 19), and is asked for by the command word of R100 with the `n`-th PHY register of R267: `BMSR` 1,
`STAT1000` 10, `CTRL1000` 9, `LPA` 5, `ADVERTISE` 4 (R107, log 5). `asked t m` says that the history gains the first `m` of
these commands, in that order, and no other. Where the first read answers in time without a failure, with the link bit
clear, only `BMSR` is read and the result is link down. With the link bit set it is resolved from all five reads, or is
`HwError` after three on a master/slave failure. The first read that does not answer in time, or that fails, ends the
operation with its error before any later read (R314). No register but `MDIO_CMD` changes. -/
def Obligations.LinkReadStatusEffect : Prop :=
  ∀ s : State, configOk s.cfg = true → s.between = [] → s.cfg.pos = {} → s.cfg.codes = {} → s.cfg.phy = {} →
    s.flag .mdioCmd (·.mdioStartBusy) = false → 1 ≤ s.cfg.mdioPollLimit →
    let inTime := fun k => 0 < s.draw (3 * k) ∧ s.draw (3 * k) - 1 < s.cfg.mdioPollLimit
    let fails := fun k => s.draw (3 * k + 2) % 2 = 1
    let reg := fun k => BitVec.ofNat 16 (s.draw (3 * k + 1))
    let reached := fun n => (∀ k < n, inTime k ∧ ¬ fails k) ∧ (0 < n → (reg 0).getLsbD 2 = true) ∧
      (2 < n → (reg 1).getLsbD 15 = false)
    let cmd := fun n => (0x28000000 : Word) ||| BitVec.ofNat 32 (s.cfg.phyAddr % 32 * 2097152) |||
      BitVec.ofNat 32 ([1, 10, 9, 5, 4].getD n 0 * 65536)
    let asked := fun (t : State) m => ∃ es, t.hist = es ++ s.hist ∧ mdioCommands es = ((List.range m).map cmd).reverse
    ∃ t : State, exec .linkReadStatus s = .next t ∧
      (inTime 0 → ¬ fails 0 → (reg 0).getLsbD 2 = false → asked t 1 ∧ t.drawCount = s.drawCount + 3 ∧
        t.result = .link { linkUp := false, speed := .s0, fullDuplex := false, pause := false }) ∧
      ((∀ k < 3, inTime k ∧ ¬ fails k) → (reg 0).getLsbD 2 = true → (reg 1).getLsbD 15 = true →
        asked t 3 ∧ t.drawCount = s.drawCount + 9 ∧ t.result = .err .hwError) ∧
      (reached 5 → asked t 5 ∧ t.drawCount = s.drawCount + 15 ∧
        t.result = .link (resolveLink {} (reg 1) (reg 2) (reg 3) (reg 4))) ∧
      (∀ n < 5, reached n → ¬ inTime n → asked t (n + 1) ∧ t.result = .err .timedOut ∧
        t.drawCount = s.drawCount + 3 * n + (if s.draw (3 * n) = s.cfg.mdioPollLimit + 1 then 3 else 1)) ∧
      (∀ n < 5, reached n → inTime n → fails n → asked t (n + 1) ∧ t.drawCount = s.drawCount + 3 * n + 3 ∧
        t.result = .err .hwError) ∧
      (∀ r, r ≠ .mdioCmd → t.reg r = s.reg r) ∧
      t = { s with
        regs := t.regs, mdioWait := t.mdioWait, tape := t.tape, drawCount := t.drawCount, hist := t.hist
        result := t.result }

/-- R262, R264 to R266, with the PHY bits of R107 that the spec takes from general knowledge (log 5): the common masks are
the partner's ability with the local control two bits below it, and with the local advertisement; the speed is the first
of 1000, 100 and 10 whose common ability is there; the duplex is the full-duplex bit of that speed's mask, the spec's own
decision D10; pause is the partner's pause bit at full duplex and false at half. -/
def Obligations.LinkResolutionRule : Prop :=
  ∀ stat1000 ctrl1000 lpa adv : Half,
    let gbFull := stat1000.getLsbD 11 && ctrl1000.getLsbD 9
    let gbHalf := stat1000.getLsbD 10 && ctrl1000.getLsbD 8
    let both := fun n => lpa.getLsbD n && adv.getLsbD n
    let l := resolveLink {} stat1000 ctrl1000 lpa adv
    l.linkUp = true ∧
    l.speed = (if gbFull || gbHalf then .s1000 else if both 8 || both 7 then .s100 else .s10) ∧
    l.fullDuplex = (if gbFull || gbHalf then gbFull else if both 8 || both 7 then both 8 else both 6) ∧
    l.pause = (l.fullDuplex && lpa.getLsbD 10)

/-! ## The sequencer -/

/-- R220: step 0 takes the station address, initialises both pools, of which the hardware owns no block (R63), and moves to
`Step(1)`; with a receive descriptor memory of another length construction fails with `Malformed` and no register or pool
is written. Until the next BARRIER a fetch may see a descriptor word that was replaced (R69, log 13). -/
def Obligations.SeqStepStart : Prop :=
  ∀ s : State, configOk s.cfg = true → s.between = [] → s.seq = .idle →
    (s.args.rxDescLen = 256 → (∀ d, ∀ i < 256, ∀ b, s.cb? d i = some b → b.owner = .sw) →
      ∃ t : State, exec .seqStep s = .next t ∧
      (∀ d i, t.desc d i = if i < 256 then ⟨0, 0, 0⟩ else s.desc d i) ∧
      (∀ d i, t.cb? d i = if i < 256 then some { descIndex := i, owner := .sw } else s.cb? d i) ∧
      s.Remembers t ∧
      t = { s with
        macAddr := s.args.mac, seqPolls := some 0, seq := .step .s1, descRx := t.descRx, descTx := t.descTx
        cbRx := t.cbRx, cbTx := t.cbTx, unsynced := t.unsynced, result := .ok }) ∧
    (s.args.rxDescLen ≠ 256 → exec .seqStep s = .next
      { s with macAddr := s.args.mac, seq := .failed .malformed, result := .err .malformed })

/-- R221: step 1 reads `SYS_REV_CTRL` and goes on only if all three revision fields match; else construction fails with
`HwVersionNotSupported`. Nothing else changes. -/
def Obligations.SeqRevisionCheck : Prop :=
  ∀ s : State, configOk s.cfg = true → s.between = [] → s.seq = .step .s1 →
    let rev := s.reg .sysRevCtrl
    let read := { s with hist := .mmioRead .sysRevCtrl rev :: s.hist }
    let c := s.cfg
    exec .seqStep s = .next
      (if fieldGet c.pos.revMajor rev = c.revMajor ∧ fieldGet c.pos.revMinor rev = c.revMinor ∧
          fieldGet c.pos.revEphy rev = c.revEphy
        then { read with seq := .step .s2, result := .ok }
        else { read with seq := .failed .hwVersionNotSupported, result := .err .hwVersionNotSupported })

/-- R223, R226, R238, R342: steps 3 and 6 leave `UMAC_CMD` 0 and may give any value to the other UMAC registers; every
other register, the pools, the buffers and the records keep their values. -/
def Obligations.SeqSoftResetEffect : Prop :=
  ∀ (s : State) (k : StepNo), configOk s.cfg = true → s.between = [] → k = .s3 ∨ k = .s6 → s.seq = .step k →
    ∃ t : State, exec .seqStep s = .next t ∧
      t.reg .umacCmd = 0 ∧ (∀ r, r ≠ .umacCmd → r ∉ umacRegs s.cfg → t.reg r = s.reg r) ∧
      t = { s with
        regs := t.regs, tape := t.tape, drawCount := t.drawCount, seq := k.next, result := .ok
        hist := .mmioWrite .umacCmd 0 :: .delay .tSwresetHold ::
          .mmioWrite .umacCmd (fieldPlace s.cfg.pos.swReset 1 ||| fieldPlace s.cfg.pos.lclLoopEn 1) ::
          .mmioWrite .umacCmd 0 :: s.hist }

/-- R228 (step 8) and R229 (step 9) with the default layouts of R98 and R99: the station address in two registers; then
promiscuous mode off, and the broadcast and the station address in filter slots 0 and 1, the only ones enabled. Every
other register and everything else is unchanged. The history shows the even register of a slot written before the odd one,
the model's own order (log 62). -/
def Obligations.SeqAddressSteps : Prop :=
  ∀ s : State, configOk s.cfg = true → s.between = [] → s.cfg.codes = {} → s.cfg.pos = {} → s.cfg.mdfSlots = 17 →
    let m := s.macAddr
    (s.seq = .step .s8 → ∃ t : State, exec .seqStep s = .next t ∧
      (∀ r, t.reg r = match r with
        | .umacMac0 => m.b0 ++ m.b1 ++ m.b2 ++ m.b3
        | .umacMac1 => (0 : BitVec 16) ++ m.b4 ++ m.b5
        | _ => s.reg r) ∧
      t.hist = writeEvents [(.umacMac0, t.reg .umacMac0), (.umacMac1, t.reg .umacMac1)] s.hist ∧
      t = { s with regs := t.regs, hist := t.hist, seq := .step .s9, result := .ok }) ∧
    (s.seq = .step .s9 → ∃ t : State, exec .seqStep s = .next t ∧
      (∀ r, t.reg r = match r with
        | .umacCmd => s.reg .umacCmd &&& ~~~0x10
        | .umacMdfAddr 0 => 0x0000FFFF
        | .umacMdfAddr 1 => 0xFFFFFFFF
        | .umacMdfAddr 2 => (0 : BitVec 16) ++ m.b0 ++ m.b1
        | .umacMdfAddr 3 => m.b2 ++ m.b3 ++ m.b4 ++ m.b5
        | .umacMdfCtrl => 0x00018000
        | _ => s.reg r) ∧
      t.hist = writeEvents ([.umacMdfAddr 0, .umacMdfAddr 1, .umacMdfAddr 2, .umacMdfAddr 3, .umacMdfCtrl].map fun r =>
        (r, t.reg r)) (rmwEvents .umacCmd [s.reg .umacCmd, t.reg .umacCmd] s.hist) ∧
      t = { s with regs := t.regs, hist := t.hist, seq := .step .s10, result := .ok })

/-- R222, R224, R225, R227, R230: steps 2, 4, 5, 7 and 10 with the default positions. Step 2 sets the port mode and the RGMII
enable; step 4 writes the MDIO command that reads `BMSR` and discards whatever comes; step 5 and step 10 pulse their flush
bit with the hold delay between, step 10 after it has cleared both DMA enables; step 7 programs the counters, the frame
length, the pad and the masks. No other register, and nothing else, changes. -/
def Obligations.SeqRegisterSteps : Prop :=
  ∀ s : State, configOk s.cfg = true → s.between = [] → s.cfg.pos = {} → s.cfg.codes = {} →
    let flush := s.reg .sysRbufFlushCtrl
    let txFlush := s.reg .umacTxFlush
    let rd := s.reg (.dmaCtrl .rx)
    let td := s.reg (.dmaCtrl .tx)
    (s.seq = .step .s2 → ∃ t : State, exec .seqStep s = .next t ∧
      (∀ r, t.reg r = match r with
        | .sysPortCtrl => (s.reg r &&& ~~~7) ||| 3
        | .extRgmiiOobCtrl => s.reg r ||| 0x40
        | _ => s.reg r) ∧
      t.hist = rmwEvents .extRgmiiOobCtrl [s.reg .extRgmiiOobCtrl, t.reg .extRgmiiOobCtrl]
        (rmwEvents .sysPortCtrl [s.reg .sysPortCtrl, t.reg .sysPortCtrl] s.hist) ∧
      t = { s with regs := t.regs, hist := t.hist, seq := .step .s3, result := .ok }) ∧
    (s.seq = .step .s4 → s.flag .mdioCmd (·.mdioStartBusy) = false → ∃ t : State, exec .seqStep s = .next t ∧
      (∃ es, t.hist = es ++ .mmioWrite .mdioCmd (0x28000000 ||| BitVec.ofNat 32 (s.cfg.phyAddr % 32 * 2097152) |||
        BitVec.ofNat 32 (s.cfg.phy.bmsr % 32 * 65536)) :: s.hist) ∧
      (∀ r, r ≠ .mdioCmd → t.reg r = s.reg r) ∧
      t = { s with
        regs := t.regs, mdioWait := t.mdioWait, tape := t.tape, drawCount := t.drawCount, hist := t.hist
        seq := .step .s5, result := .ok }) ∧
    (s.seq = .step .s5 → ∃ t : State, exec .seqStep s = .next t ∧
      (∀ r, t.reg r = match r with | .sysRbufFlushCtrl => s.reg r &&& ~~~2 | _ => s.reg r) ∧
      t.hist = .mmioWrite .sysRbufFlushCtrl (flush &&& ~~~2) :: .mmioRead .sysRbufFlushCtrl (flush ||| 2) ::
        .delay .tFlushHold :: .mmioWrite .sysRbufFlushCtrl (flush ||| 2) :: .mmioRead .sysRbufFlushCtrl flush ::
        s.hist ∧
      t = { s with regs := t.regs, hist := t.hist, seq := .step .s6, result := .ok }) ∧
    (s.seq = .step .s7 → ∃ t : State, exec .seqStep s = .next t ∧
      (∀ r, t.reg r = match r with
        | .umacMibCtrl => 0
        | .umacMaxFrameLen => BitVec.ofNat 32 s.cfg.mtu
        | .rbufCtrl => s.reg r ||| 2
        | .intrl2 _ .cpuMaskSet | .intrl2 _ .cpuClear | .intrl2 _ .cpuMaskStatus => 0xFFFFFFFF
        | .intrl2 _ .cpuStatus => 0
        | _ => s.reg r) ∧
      t.hist = writeEvents [(.intrl2 .c0 .cpuMaskSet, 0xFFFFFFFF), (.intrl2 .c0 .cpuClear, 0xFFFFFFFF),
          (.intrl2 .c1 .cpuMaskSet, 0xFFFFFFFF), (.intrl2 .c1 .cpuClear, 0xFFFFFFFF)]
        (rmwEvents .rbufCtrl [s.reg .rbufCtrl, t.reg .rbufCtrl]
          (writeEvents [(.umacMibCtrl, 7), (.umacMibCtrl, 0), (.umacMaxFrameLen, t.reg .umacMaxFrameLen)] s.hist)) ∧
      t = { s with regs := t.regs, hist := t.hist, seq := .step .s8, result := .ok }) ∧
    (s.seq = .step .s10 → ∃ t : State, exec .seqStep s = .next t ∧
      (∀ r, t.reg r = match r with
        | .dmaCtrl _ | .umacTxFlush => s.reg r &&& ~~~1
        | _ => s.reg r) ∧
      t.hist = .mmioWrite .umacTxFlush (txFlush &&& ~~~1) :: .mmioRead .umacTxFlush (txFlush ||| 1) ::
        .delay .tFlushHold :: .mmioWrite .umacTxFlush (txFlush ||| 1) :: .mmioRead .umacTxFlush txFlush ::
        .mmioWrite (.dmaCtrl .tx) (td &&& ~~~1) :: .mmioRead (.dmaCtrl .tx) td ::
        .mmioWrite (.dmaCtrl .rx) (rd &&& ~~~1) :: .mmioRead (.dmaCtrl .rx) rd :: s.hist ∧
      t = { s with regs := t.regs, hist := t.hist, seq := .step .s11, result := .ok })

/-- R234: step 14 with the default positions and codes sets the speed, half duplex, the two pause bits and the FCS bit of
`UMAC_CMD`, and the RGMII bits, from the link that step 13 kept, each field by a read and a write in R234's order; no
other field or register, and nothing else, changes.
Without a kept link it is the fault `UnwrittenRead` (R56). -/
def Obligations.SeqLinkProgram : Prop :=
  ∀ s : State, configOk s.cfg = true → s.between = [] → s.cfg.pos = {} → s.cfg.codes = {} → s.seq = .step .s14 →
    (s.seqLink = none → exec .seqStep s = .next (s.mark .unwrittenRead)) ∧
    ∀ l, s.seqLink = some l → l.speed ≠ .s0 → ∃ t : State, exec .seqStep s = .next t ∧
      (∀ r, t.reg r = match r with
        | .umacCmd => (s.reg r &&& ~~~0x1000054C) |||
            (match l.speed with | .s1000 => 0x8 | .s100 => 0x4 | _ => 0) |||
            (if l.fullDuplex then 0 else 0x400) ||| (if l.pause then 0 else 0x10000100) |||
            (if s.cfg.crcFwd then 0x40 else 0)
        | .extRgmiiOobCtrl => (s.reg r &&& ~~~0x20) ||| 0x50
        | _ => s.reg r) ∧
      (let c := s.reg .umacCmd
       let speed := (c &&& ~~~0xC) ||| (match l.speed with | .s1000 => 0x8 | .s100 => 0x4 | _ => 0)
       let duplex := (speed &&& ~~~0x400) ||| (if l.fullDuplex then 0 else 0x400)
       let rxPause := (duplex &&& ~~~0x100) ||| (if l.pause then 0 else 0x100)
       let txPause := (rxPause &&& ~~~0x10000000) ||| (if l.pause then 0 else 0x10000000)
       let e := s.reg .extRgmiiOobCtrl
       t.hist = rmwEvents .extRgmiiOobCtrl [e, e &&& ~~~0x20, (e &&& ~~~0x20) ||| 0x10, t.reg .extRgmiiOobCtrl]
         (rmwEvents .umacCmd [c, speed, duplex, rxPause, txPause, t.reg .umacCmd] s.hist)) ∧
      t = { s with regs := t.regs, hist := t.hist, seq := .step .s15, result := .ok }

/-- R231 (step 11): where RX_RING_INIT and then TX_QUEUES_INIT complete, the step leaves the state those two leave (see
`Obligations.RxRingInitEffect` and `Obligations.TxQueuesInitEffect`) at `Step(12)`. R232 (step 12) and R235 (step 15): the
DMA enables, then the MAC enables, are set by a read and a write for each, receive before transmit in step 12 and transmit
before receive in step 15, and no other field or register changes. -/
def Obligations.SeqEnableSteps : Prop :=
  ∀ s : State, configOk s.cfg = true → s.between = [] → s.cfg.pos = {} →
    (s.seq = .step .s11 → s.Canonical → s.cfg.codes = {} → s.dmaEn .rx = false →
      (∀ i < 256, s.cb? .rx i = some { descIndex := i, owner := .sw }) →
      (∀ i < 256, badBuffer s.cfg (cbBuf s.cfg .rx i) = false) → (∀ i < 256, s.cb? .tx i ≠ none) →
      ∃ u t : State, exec .rxRingInit s = .next { u with result := .ok } ∧
        exec .txQueuesInit u = .next { t with result := .ok } ∧ u.refused = s.refused ∧ t.refused = s.refused ∧
        exec .seqStep s = .next { t with seq := .step .s12, result := .ok }) ∧
    (s.seq = .step .s12 → ∃ t : State, exec .seqStep s = .next t ∧
      (∀ r, t.reg r = match r with | .dmaCtrl _ => s.reg r ||| 1 | _ => s.reg r) ∧
      t.hist = rmwEvents (.dmaCtrl .tx) [s.reg (.dmaCtrl .tx), t.reg (.dmaCtrl .tx)]
        (rmwEvents (.dmaCtrl .rx) [s.reg (.dmaCtrl .rx), t.reg (.dmaCtrl .rx)] s.hist) ∧
      t = { s with regs := t.regs, hist := t.hist, seq := .step .s13, result := .ok }) ∧
    (s.seq = .step .s15 → ∃ t : State, exec .seqStep s = .next t ∧
      (∀ r, t.reg r = match r with | .umacCmd => s.reg r ||| 3 | _ => s.reg r) ∧
      t.hist = rmwEvents .umacCmd [s.reg .umacCmd, s.reg .umacCmd ||| 1, t.reg .umacCmd] s.hist ∧
      t = { s with regs := t.regs, hist := t.hist, seq := .ready, result := .ok })

/-- R233, R361: one poll of step 13 per SEQ_STEP. A link that is up is kept and the sequencer goes on; anything else
counts as a failed poll, and the poll that reaches `LINK_POLL_LIMIT` ends construction with `TimedOut`. What the poll
itself leaves is the state `u` of LINK_READ_STATUS. -/
def Obligations.SeqLinkPoll : Prop :=
  ∀ (s u : State) (n : Nat), configOk s.cfg = true → s.seq = .step .s13 → s.seqPolls = some n →
    let failed := if s.cfg.linkPollLimit ≤ n + 1
      then { u with seqPolls := some (n + 1), seq := .failed .timedOut, result := .err .timedOut }
      else { u with seqPolls := some (n + 1), result := .ok }
    (∀ l, linkReadStatus s = .ok l u → l.linkUp = true →
      exec .seqStep s = .next { u with seqLink := some l, seq := .step .s14, result := .ok }) ∧
    (∀ l, linkReadStatus s = .ok l u → l.linkUp = false → exec .seqStep s = .next failed) ∧
    (∀ e, linkReadStatus s = .error (.err e) u → exec .seqStep s = .next failed)
end

