-- ==== Sys2Proof/Laws/Tab.lean ====
section
/-! SUPPORT. Laws of the sparse tables and of the byte memory: a read after a write, the frame of a write, and the
canonical form, which every operation keeps. -/

namespace Sys2Proof.Machine

variable {α : Type}

@[simp] theorem Tab.get?_nil (k : Nat) : Tab.get? ([] : Tab α) k = none := rfl

theorem Tab.get?_cons (a : Nat) (v : α) (t : Tab α) (k : Nat) :
    Tab.get? ((a, v) :: t) k = if a = k then some v else Tab.get? t k := rfl

@[simp] theorem Tab.get?_put_same (t : Tab α) (k : Nat) (v : α) : Tab.get? (Tab.put t k v) k = some v := by
  induction t with
  | nil => simp [Tab.put, Tab.get?]
  | cons e t ih =>
    obtain ⟨a, w⟩ := e
    simp only [Tab.put]
    split
    · simp [Tab.get?]
    · split
      · simp [Tab.get?]
      · simp [Tab.get?, *]

theorem Tab.get?_put_ne (t : Tab α) {k k' : Nat} (v : α) (h : k ≠ k') :
    Tab.get? (Tab.put t k v) k' = Tab.get? t k' := by
  induction t with
  | nil => simp [Tab.put, Tab.get?, h]
  | cons e t ih =>
    obtain ⟨a, w⟩ := e
    simp only [Tab.put]
    split
    · simp [Tab.get?, h]
    · split
      · next hak => simp [Tab.get?, h, hak]
      · simp [Tab.get?, ih]

/-- A read after a write. -/
theorem Tab.get?_put (t : Tab α) (k k' : Nat) (v : α) :
    Tab.get? (Tab.put t k v) k' = if k = k' then some v else Tab.get? t k' := by
  by_cases h : k = k'
  · subst h; simp
  · simp [h, Tab.get?_put_ne]

theorem Tab.get?_filter (p : Nat → Bool) (t : Tab α) (k : Nat) :
    Tab.get? (t.filter fun e => p e.1) k = if p k then Tab.get? t k else none := by
  induction t with
  | nil => simp
  | cons e t ih =>
    obtain ⟨a, v⟩ := e
    by_cases ha : p a
    · by_cases hk : a = k
      · subst hk; simp [ha, Tab.get?]
      · simp [ha, Tab.get?, hk, ih]
    · by_cases hk : a = k
      · subst hk; simp [ha, ih]
      · simp [ha, Tab.get?, hk, ih]

theorem Tab.get?_erase (t : Tab α) (k k' : Nat) :
    Tab.get? (Tab.erase t k) k' = if k = k' then none else Tab.get? t k' := by
  rw [Tab.erase, Tab.get?_filter (fun a => !(a == k))]
  by_cases h : k = k'
  · simp [h]
  · simp [h, Ne.symm h]

/-- In a sorted table a listed pair is what is read. -/
theorem Tab.get?_of_mem {t : Tab α} (ht : Tab.sorted t) {k : Nat} {v : α} (h : (k, v) ∈ t) : Tab.get? t k = some v := by
  induction t with
  | nil => simp at h
  | cons e t ih =>
    obtain ⟨a, w⟩ := e
    have ht' := List.pairwise_cons.mp ht
    rcases List.mem_cons.mp h with h | h
    · cases h; simp [Tab.get?]
    · have := ht'.1 _ h
      have hne : a ≠ k := by simp at this; omega
      simp [Tab.get?, hne, ih ht'.2 h]

/-- What is read is a listed pair. -/
theorem Tab.mem_of_get? {t : Tab α} {k : Nat} {v : α} (h : Tab.get? t k = some v) : (k, v) ∈ t := by
  induction t with
  | nil => simp at h
  | cons e t ih =>
    obtain ⟨a, w⟩ := e
    simp only [Tab.get?] at h
    split at h
    · cases h; subst_vars; simp
    · exact List.mem_cons_of_mem _ (ih h)

theorem Tab.mem_put {t : Tab α} {k : Nat} {v : α} {e : Nat × α} (h : e ∈ Tab.put t k v) : e = (k, v) ∨ e ∈ t := by
  induction t with
  | nil => simpa [Tab.put] using h
  | cons x t ih =>
    obtain ⟨a, w⟩ := x
    simp only [Tab.put] at h
    split at h
    · simpa using h
    · split at h
      · rcases List.mem_cons.mp h with h | h
        · exact .inl h
        · exact .inr (List.mem_cons_of_mem _ h)
      · rcases List.mem_cons.mp h with h | h
        · exact .inr (h ▸ List.mem_cons_self)
        · rcases ih h with h | h
          · exact .inl h
          · exact .inr (List.mem_cons_of_mem _ h)

theorem Tab.sorted_nil : Tab.sorted ([] : Tab α) := List.Pairwise.nil

theorem Tab.sorted_put {t : Tab α} (ht : Tab.sorted t) (k : Nat) (v : α) : Tab.sorted (Tab.put t k v) := by
  induction t with
  | nil => exact List.pairwise_singleton ..
  | cons x t ih =>
    obtain ⟨a, w⟩ := x
    have h' := List.pairwise_cons.mp ht
    simp only [Tab.put]
    split
    · next hk =>
      refine List.pairwise_cons.mpr ⟨fun e he => ?_, ht⟩
      rcases List.mem_cons.mp he with rfl | he
      · exact hk
      · exact Nat.lt_trans hk (h'.1 e he)
    · split
      · next hk => subst hk; exact List.pairwise_cons.mpr ⟨h'.1, h'.2⟩
      · refine List.pairwise_cons.mpr ⟨fun e he => ?_, ih h'.2⟩
        rcases Tab.mem_put he with rfl | he
        · simp only; omega
        · exact h'.1 e he

theorem Tab.sorted_filter {t : Tab α} (ht : Tab.sorted t) (p : Nat × α → Bool) : Tab.sorted (t.filter p) :=
  List.Pairwise.filter _ ht

theorem Tab.sorted_erase {t : Tab α} (ht : Tab.sorted t) (k : Nat) : Tab.sorted (Tab.erase t k) :=
  Tab.sorted_filter ht _

/-! ## Byte memory -/

@[simp] theorem Memory.read_write_same (m : List Host.Cell) (a : Nat) (v : Byte) :
    Memory.read (Memory.write m a v) a = v := by
  unfold Memory.read Memory.write
  split
  · next h => simp [Tab.get?_erase, h]
  · simp

theorem Memory.read_write_ne (m : List Host.Cell) {a b : Nat} (v : Byte) (h : a ≠ b) :
    Memory.read (Memory.write m a v) b = Memory.read m b := by
  unfold Memory.read Memory.write
  split
  · simp [Tab.get?_erase, h]
  · simp [Tab.get?_put_ne, h]

/-- A read after a write of a byte. -/
theorem Memory.read_write (m : List Host.Cell) (a b : Nat) (v : Byte) :
    Memory.read (Memory.write m a v) b = if a = b then v else Memory.read m b := by
  by_cases h : a = b
  · subst h; simp
  · simp [h, Memory.read_write_ne]

theorem Memory.wf_nil : Memory.wf [] := ⟨Tab.sorted_nil, by simp⟩

/-- A write keeps the canonical form. -/
theorem Memory.wf_write {m : List Host.Cell} (h : Memory.wf m) (a : Nat) (v : Byte) : Memory.wf (Memory.write m a v) := by
  unfold Memory.write
  split
  · exact ⟨Tab.sorted_erase h.1 _, fun c hc => h.2 c (List.mem_filter.mp hc).1⟩
  · next hv =>
    refine ⟨Tab.sorted_put h.1 _ _, fun c hc => ?_⟩
    rcases Tab.mem_put hc with rfl | hc
    · exact hv
    · exact h.2 c hc

/-- Two canonical memories that read the same everywhere are the same list. -/
theorem Memory.ext {m n : List Host.Cell} (hm : Memory.wf m) (hn : Memory.wf n)
    (h : ∀ a, Memory.read m a = Memory.read n a) : m = n := by
  have key : ∀ {x y : List Host.Cell}, Memory.wf x → Memory.wf y → (∀ a, Memory.read x a = Memory.read y a) →
      ∀ c ∈ x, c ∈ y := by
    intro x y hx hy hxy c hc
    have hg := Tab.get?_of_mem hx.1 (k := c.1) (v := c.2) hc
    have hr := hxy c.1
    simp only [Memory.read, hg, Option.getD_some] at hr
    cases hy' : Tab.get? y c.1 with
    | none => simp only [hy', Option.getD_none] at hr; exact absurd hr (hx.2 c hc)
    | some w =>
      simp only [hy', Option.getD_some] at hr
      have := Tab.mem_of_get? hy'
      rwa [← hr] at this
  have perm : m.Perm n := by
    rw [List.perm_ext_iff_of_nodup]
    · exact fun c => ⟨key hm hn h c, key hn hm (fun a => (h a).symm) c⟩
    · exact hm.1.imp (fun {a b} hab he => by subst he; exact absurd hab (Nat.lt_irrefl _))
    · exact hn.1.imp (fun {a b} hab he => by subst he; exact absurd hab (Nat.lt_irrefl _))
  refine perm.eq_of_pairwise (fun a b _ _ hab hba => ?_) hm.1 hn.1
  omega

end Sys2Proof.Machine
end

