-- ==== Sys2Proof/Laws/State.lean ====
section
/-! SUPPORT. Laws of the state: one lemma per field per update, and what a register, a descriptor or a control block
holds after one of them is written. -/

namespace Sys2Proof.Machine

/-! ### `setReg` -/

@[simp] theorem State.setReg_cfg (s : State) (r : RegId) (v : Word) : (s.setReg r v).cfg = s.cfg := rfl
@[simp] theorem State.setReg_seq (s : State) (r : RegId) (v : Word) : (s.setReg r v).seq = s.seq := rfl
@[simp] theorem State.setReg_seqPolls (s : State) (r : RegId) (v : Word) : (s.setReg r v).seqPolls = s.seqPolls := rfl
@[simp] theorem State.setReg_seqLink (s : State) (r : RegId) (v : Word) : (s.setReg r v).seqLink = s.seqLink := rfl
@[simp] theorem State.setReg_macAddr (s : State) (r : RegId) (v : Word) : (s.setReg r v).macAddr = s.macAddr := rfl
@[simp] theorem State.setReg_mdioWait (s : State) (r : RegId) (v : Word) : (s.setReg r v).mdioWait = s.mdioWait := rfl
@[simp] theorem State.setReg_rdmaWp (s : State) (r : RegId) (v : Word) : (s.setReg r v).rdmaWp = s.rdmaWp := rfl
@[simp] theorem State.setReg_tdmaRp (s : State) (r : RegId) (v : Word) : (s.setReg r v).tdmaRp = s.tdmaRp := rfl
@[simp] theorem State.setReg_mem (s : State) (r : RegId) (v : Word) : (s.setReg r v).mem = s.mem := rfl
@[simp] theorem State.setReg_cpuDirty (s : State) (r : RegId) (v : Word) : (s.setReg r v).cpuDirty = s.cpuDirty := rfl
@[simp] theorem State.setReg_cpuStale (s : State) (r : RegId) (v : Word) : (s.setReg r v).cpuStale = s.cpuStale := rfl
@[simp] theorem State.setReg_descRx (s : State) (r : RegId) (v : Word) : (s.setReg r v).descRx = s.descRx := rfl
@[simp] theorem State.setReg_descTx (s : State) (r : RegId) (v : Word) : (s.setReg r v).descTx = s.descTx := rfl
@[simp] theorem State.setReg_unsynced (s : State) (r : RegId) (v : Word) : (s.setReg r v).unsynced = s.unsynced := rfl
@[simp] theorem State.setReg_cbRx (s : State) (r : RegId) (v : Word) : (s.setReg r v).cbRx = s.cbRx := rfl
@[simp] theorem State.setReg_cbTx (s : State) (r : RegId) (v : Word) : (s.setReg r v).cbTx = s.cbTx := rfl
@[simp] theorem State.setReg_rx (s : State) (r : RegId) (v : Word) : (s.setReg r v).rx = s.rx := rfl
@[simp] theorem State.setReg_tx (s : State) (r : RegId) (v : Word) : (s.setReg r v).tx = s.tx := rfl
@[simp] theorem State.setReg_hist (s : State) (r : RegId) (v : Word) : (s.setReg r v).hist = s.hist := rfl
@[simp] theorem State.setReg_fault (s : State) (r : RegId) (v : Word) : (s.setReg r v).fault = s.fault := rfl
@[simp] theorem State.setReg_refused (s : State) (r : RegId) (v : Word) : (s.setReg r v).refused = s.refused := rfl
@[simp] theorem State.setReg_pending (s : State) (r : RegId) (v : Word) : (s.setReg r v).pending = s.pending := rfl
@[simp] theorem State.setReg_args (s : State) (r : RegId) (v : Word) : (s.setReg r v).args = s.args := rfl
@[simp] theorem State.setReg_between (s : State) (r : RegId) (v : Word) : (s.setReg r v).between = s.between := rfl
@[simp] theorem State.setReg_result (s : State) (r : RegId) (v : Word) : (s.setReg r v).result = s.result := rfl
@[simp] theorem State.setReg_tape (s : State) (r : RegId) (v : Word) : (s.setReg r v).tape = s.tape := rfl
@[simp] theorem State.setReg_drawCount (s : State) (r : RegId) (v : Word) : (s.setReg r v).drawCount = s.drawCount := rfl

/-! ### `mark` -/

@[simp] theorem State.mark_cfg (s : State) (f : FaultReason) : (s.mark f).cfg = s.cfg := rfl
@[simp] theorem State.mark_seq (s : State) (f : FaultReason) : (s.mark f).seq = s.seq := rfl
@[simp] theorem State.mark_seqPolls (s : State) (f : FaultReason) : (s.mark f).seqPolls = s.seqPolls := rfl
@[simp] theorem State.mark_seqLink (s : State) (f : FaultReason) : (s.mark f).seqLink = s.seqLink := rfl
@[simp] theorem State.mark_macAddr (s : State) (f : FaultReason) : (s.mark f).macAddr = s.macAddr := rfl
@[simp] theorem State.mark_regs (s : State) (f : FaultReason) : (s.mark f).regs = s.regs := rfl
@[simp] theorem State.mark_mdioWait (s : State) (f : FaultReason) : (s.mark f).mdioWait = s.mdioWait := rfl
@[simp] theorem State.mark_rdmaWp (s : State) (f : FaultReason) : (s.mark f).rdmaWp = s.rdmaWp := rfl
@[simp] theorem State.mark_tdmaRp (s : State) (f : FaultReason) : (s.mark f).tdmaRp = s.tdmaRp := rfl
@[simp] theorem State.mark_mem (s : State) (f : FaultReason) : (s.mark f).mem = s.mem := rfl
@[simp] theorem State.mark_cpuDirty (s : State) (f : FaultReason) : (s.mark f).cpuDirty = s.cpuDirty := rfl
@[simp] theorem State.mark_cpuStale (s : State) (f : FaultReason) : (s.mark f).cpuStale = s.cpuStale := rfl
@[simp] theorem State.mark_descRx (s : State) (f : FaultReason) : (s.mark f).descRx = s.descRx := rfl
@[simp] theorem State.mark_descTx (s : State) (f : FaultReason) : (s.mark f).descTx = s.descTx := rfl
@[simp] theorem State.mark_unsynced (s : State) (f : FaultReason) : (s.mark f).unsynced = s.unsynced := rfl
@[simp] theorem State.mark_cbRx (s : State) (f : FaultReason) : (s.mark f).cbRx = s.cbRx := rfl
@[simp] theorem State.mark_cbTx (s : State) (f : FaultReason) : (s.mark f).cbTx = s.cbTx := rfl
@[simp] theorem State.mark_rx (s : State) (f : FaultReason) : (s.mark f).rx = s.rx := rfl
@[simp] theorem State.mark_tx (s : State) (f : FaultReason) : (s.mark f).tx = s.tx := rfl
@[simp] theorem State.mark_hist (s : State) (f : FaultReason) : (s.mark f).hist = s.hist := rfl
@[simp] theorem State.mark_refused (s : State) (f : FaultReason) : (s.mark f).refused = s.refused := rfl
@[simp] theorem State.mark_pending (s : State) (f : FaultReason) : (s.mark f).pending = s.pending := rfl
@[simp] theorem State.mark_args (s : State) (f : FaultReason) : (s.mark f).args = s.args := rfl
@[simp] theorem State.mark_between (s : State) (f : FaultReason) : (s.mark f).between = s.between := rfl
@[simp] theorem State.mark_result (s : State) (f : FaultReason) : (s.mark f).result = s.result := rfl
@[simp] theorem State.mark_tape (s : State) (f : FaultReason) : (s.mark f).tape = s.tape := rfl
@[simp] theorem State.mark_drawCount (s : State) (f : FaultReason) : (s.mark f).drawCount = s.drawCount := rfl

/-! ### `refuse` -/

@[simp] theorem State.refuse_cfg (s : State) : (s.refuse).cfg = s.cfg := rfl
@[simp] theorem State.refuse_seq (s : State) : (s.refuse).seq = s.seq := rfl
@[simp] theorem State.refuse_seqPolls (s : State) : (s.refuse).seqPolls = s.seqPolls := rfl
@[simp] theorem State.refuse_seqLink (s : State) : (s.refuse).seqLink = s.seqLink := rfl
@[simp] theorem State.refuse_macAddr (s : State) : (s.refuse).macAddr = s.macAddr := rfl
@[simp] theorem State.refuse_regs (s : State) : (s.refuse).regs = s.regs := rfl
@[simp] theorem State.refuse_mdioWait (s : State) : (s.refuse).mdioWait = s.mdioWait := rfl
@[simp] theorem State.refuse_rdmaWp (s : State) : (s.refuse).rdmaWp = s.rdmaWp := rfl
@[simp] theorem State.refuse_tdmaRp (s : State) : (s.refuse).tdmaRp = s.tdmaRp := rfl
@[simp] theorem State.refuse_mem (s : State) : (s.refuse).mem = s.mem := rfl
@[simp] theorem State.refuse_cpuDirty (s : State) : (s.refuse).cpuDirty = s.cpuDirty := rfl
@[simp] theorem State.refuse_cpuStale (s : State) : (s.refuse).cpuStale = s.cpuStale := rfl
@[simp] theorem State.refuse_descRx (s : State) : (s.refuse).descRx = s.descRx := rfl
@[simp] theorem State.refuse_descTx (s : State) : (s.refuse).descTx = s.descTx := rfl
@[simp] theorem State.refuse_unsynced (s : State) : (s.refuse).unsynced = s.unsynced := rfl
@[simp] theorem State.refuse_cbRx (s : State) : (s.refuse).cbRx = s.cbRx := rfl
@[simp] theorem State.refuse_cbTx (s : State) : (s.refuse).cbTx = s.cbTx := rfl
@[simp] theorem State.refuse_rx (s : State) : (s.refuse).rx = s.rx := rfl
@[simp] theorem State.refuse_tx (s : State) : (s.refuse).tx = s.tx := rfl
@[simp] theorem State.refuse_hist (s : State) : (s.refuse).hist = s.hist := rfl
@[simp] theorem State.refuse_fault (s : State) : (s.refuse).fault = s.fault := rfl
@[simp] theorem State.refuse_pending (s : State) : (s.refuse).pending = s.pending := rfl
@[simp] theorem State.refuse_args (s : State) : (s.refuse).args = s.args := rfl
@[simp] theorem State.refuse_between (s : State) : (s.refuse).between = s.between := rfl
@[simp] theorem State.refuse_result (s : State) : (s.refuse).result = s.result := rfl
@[simp] theorem State.refuse_tape (s : State) : (s.refuse).tape = s.tape := rfl
@[simp] theorem State.refuse_drawCount (s : State) : (s.refuse).drawCount = s.drawCount := rfl

/-! ### `setDesc` -/

@[simp] theorem State.setDesc_cfg (s : State) (d : Dir) (i : Nat) (x : Desc) : (s.setDesc d i x).cfg = s.cfg := by cases d <;> rfl
@[simp] theorem State.setDesc_seq (s : State) (d : Dir) (i : Nat) (x : Desc) : (s.setDesc d i x).seq = s.seq := by cases d <;> rfl
@[simp] theorem State.setDesc_seqPolls (s : State) (d : Dir) (i : Nat) (x : Desc) : (s.setDesc d i x).seqPolls = s.seqPolls := by cases d <;> rfl
@[simp] theorem State.setDesc_seqLink (s : State) (d : Dir) (i : Nat) (x : Desc) : (s.setDesc d i x).seqLink = s.seqLink := by cases d <;> rfl
@[simp] theorem State.setDesc_macAddr (s : State) (d : Dir) (i : Nat) (x : Desc) : (s.setDesc d i x).macAddr = s.macAddr := by cases d <;> rfl
@[simp] theorem State.setDesc_regs (s : State) (d : Dir) (i : Nat) (x : Desc) : (s.setDesc d i x).regs = s.regs := by cases d <;> rfl
@[simp] theorem State.setDesc_mdioWait (s : State) (d : Dir) (i : Nat) (x : Desc) : (s.setDesc d i x).mdioWait = s.mdioWait := by cases d <;> rfl
@[simp] theorem State.setDesc_rdmaWp (s : State) (d : Dir) (i : Nat) (x : Desc) : (s.setDesc d i x).rdmaWp = s.rdmaWp := by cases d <;> rfl
@[simp] theorem State.setDesc_tdmaRp (s : State) (d : Dir) (i : Nat) (x : Desc) : (s.setDesc d i x).tdmaRp = s.tdmaRp := by cases d <;> rfl
@[simp] theorem State.setDesc_mem (s : State) (d : Dir) (i : Nat) (x : Desc) : (s.setDesc d i x).mem = s.mem := by cases d <;> rfl
@[simp] theorem State.setDesc_cpuDirty (s : State) (d : Dir) (i : Nat) (x : Desc) : (s.setDesc d i x).cpuDirty = s.cpuDirty := by cases d <;> rfl
@[simp] theorem State.setDesc_cpuStale (s : State) (d : Dir) (i : Nat) (x : Desc) : (s.setDesc d i x).cpuStale = s.cpuStale := by cases d <;> rfl
@[simp] theorem State.setDesc_unsynced (s : State) (d : Dir) (i : Nat) (x : Desc) : (s.setDesc d i x).unsynced = s.unsynced := by cases d <;> rfl
@[simp] theorem State.setDesc_cbRx (s : State) (d : Dir) (i : Nat) (x : Desc) : (s.setDesc d i x).cbRx = s.cbRx := by cases d <;> rfl
@[simp] theorem State.setDesc_cbTx (s : State) (d : Dir) (i : Nat) (x : Desc) : (s.setDesc d i x).cbTx = s.cbTx := by cases d <;> rfl
@[simp] theorem State.setDesc_rx (s : State) (d : Dir) (i : Nat) (x : Desc) : (s.setDesc d i x).rx = s.rx := by cases d <;> rfl
@[simp] theorem State.setDesc_tx (s : State) (d : Dir) (i : Nat) (x : Desc) : (s.setDesc d i x).tx = s.tx := by cases d <;> rfl
@[simp] theorem State.setDesc_hist (s : State) (d : Dir) (i : Nat) (x : Desc) : (s.setDesc d i x).hist = s.hist := by cases d <;> rfl
@[simp] theorem State.setDesc_fault (s : State) (d : Dir) (i : Nat) (x : Desc) : (s.setDesc d i x).fault = s.fault := by cases d <;> rfl
@[simp] theorem State.setDesc_refused (s : State) (d : Dir) (i : Nat) (x : Desc) : (s.setDesc d i x).refused = s.refused := by cases d <;> rfl
@[simp] theorem State.setDesc_pending (s : State) (d : Dir) (i : Nat) (x : Desc) : (s.setDesc d i x).pending = s.pending := by cases d <;> rfl
@[simp] theorem State.setDesc_args (s : State) (d : Dir) (i : Nat) (x : Desc) : (s.setDesc d i x).args = s.args := by cases d <;> rfl
@[simp] theorem State.setDesc_between (s : State) (d : Dir) (i : Nat) (x : Desc) : (s.setDesc d i x).between = s.between := by cases d <;> rfl
@[simp] theorem State.setDesc_result (s : State) (d : Dir) (i : Nat) (x : Desc) : (s.setDesc d i x).result = s.result := by cases d <;> rfl
@[simp] theorem State.setDesc_tape (s : State) (d : Dir) (i : Nat) (x : Desc) : (s.setDesc d i x).tape = s.tape := by cases d <;> rfl
@[simp] theorem State.setDesc_drawCount (s : State) (d : Dir) (i : Nat) (x : Desc) : (s.setDesc d i x).drawCount = s.drawCount := by cases d <;> rfl

/-! ### `setCb` -/

@[simp] theorem State.setCb_cfg (s : State) (d : Dir) (i : Nat) (b : Cb) : (s.setCb d i b).cfg = s.cfg := by cases d <;> rfl
@[simp] theorem State.setCb_seq (s : State) (d : Dir) (i : Nat) (b : Cb) : (s.setCb d i b).seq = s.seq := by cases d <;> rfl
@[simp] theorem State.setCb_seqPolls (s : State) (d : Dir) (i : Nat) (b : Cb) : (s.setCb d i b).seqPolls = s.seqPolls := by cases d <;> rfl
@[simp] theorem State.setCb_seqLink (s : State) (d : Dir) (i : Nat) (b : Cb) : (s.setCb d i b).seqLink = s.seqLink := by cases d <;> rfl
@[simp] theorem State.setCb_macAddr (s : State) (d : Dir) (i : Nat) (b : Cb) : (s.setCb d i b).macAddr = s.macAddr := by cases d <;> rfl
@[simp] theorem State.setCb_regs (s : State) (d : Dir) (i : Nat) (b : Cb) : (s.setCb d i b).regs = s.regs := by cases d <;> rfl
@[simp] theorem State.setCb_mdioWait (s : State) (d : Dir) (i : Nat) (b : Cb) : (s.setCb d i b).mdioWait = s.mdioWait := by cases d <;> rfl
@[simp] theorem State.setCb_rdmaWp (s : State) (d : Dir) (i : Nat) (b : Cb) : (s.setCb d i b).rdmaWp = s.rdmaWp := by cases d <;> rfl
@[simp] theorem State.setCb_tdmaRp (s : State) (d : Dir) (i : Nat) (b : Cb) : (s.setCb d i b).tdmaRp = s.tdmaRp := by cases d <;> rfl
@[simp] theorem State.setCb_mem (s : State) (d : Dir) (i : Nat) (b : Cb) : (s.setCb d i b).mem = s.mem := by cases d <;> rfl
@[simp] theorem State.setCb_cpuDirty (s : State) (d : Dir) (i : Nat) (b : Cb) : (s.setCb d i b).cpuDirty = s.cpuDirty := by cases d <;> rfl
@[simp] theorem State.setCb_cpuStale (s : State) (d : Dir) (i : Nat) (b : Cb) : (s.setCb d i b).cpuStale = s.cpuStale := by cases d <;> rfl
@[simp] theorem State.setCb_descRx (s : State) (d : Dir) (i : Nat) (b : Cb) : (s.setCb d i b).descRx = s.descRx := by cases d <;> rfl
@[simp] theorem State.setCb_descTx (s : State) (d : Dir) (i : Nat) (b : Cb) : (s.setCb d i b).descTx = s.descTx := by cases d <;> rfl
@[simp] theorem State.setCb_unsynced (s : State) (d : Dir) (i : Nat) (b : Cb) : (s.setCb d i b).unsynced = s.unsynced := by cases d <;> rfl
@[simp] theorem State.setCb_rx (s : State) (d : Dir) (i : Nat) (b : Cb) : (s.setCb d i b).rx = s.rx := by cases d <;> rfl
@[simp] theorem State.setCb_tx (s : State) (d : Dir) (i : Nat) (b : Cb) : (s.setCb d i b).tx = s.tx := by cases d <;> rfl
@[simp] theorem State.setCb_hist (s : State) (d : Dir) (i : Nat) (b : Cb) : (s.setCb d i b).hist = s.hist := by cases d <;> rfl
@[simp] theorem State.setCb_fault (s : State) (d : Dir) (i : Nat) (b : Cb) : (s.setCb d i b).fault = s.fault := by cases d <;> rfl
@[simp] theorem State.setCb_refused (s : State) (d : Dir) (i : Nat) (b : Cb) : (s.setCb d i b).refused = s.refused := by cases d <;> rfl
@[simp] theorem State.setCb_pending (s : State) (d : Dir) (i : Nat) (b : Cb) : (s.setCb d i b).pending = s.pending := by cases d <;> rfl
@[simp] theorem State.setCb_args (s : State) (d : Dir) (i : Nat) (b : Cb) : (s.setCb d i b).args = s.args := by cases d <;> rfl
@[simp] theorem State.setCb_between (s : State) (d : Dir) (i : Nat) (b : Cb) : (s.setCb d i b).between = s.between := by cases d <;> rfl
@[simp] theorem State.setCb_result (s : State) (d : Dir) (i : Nat) (b : Cb) : (s.setCb d i b).result = s.result := by cases d <;> rfl
@[simp] theorem State.setCb_tape (s : State) (d : Dir) (i : Nat) (b : Cb) : (s.setCb d i b).tape = s.tape := by cases d <;> rfl
@[simp] theorem State.setCb_drawCount (s : State) (d : Dir) (i : Nat) (b : Cb) : (s.setCb d i b).drawCount = s.drawCount := by cases d <;> rfl

/-! ### `setOwner` -/

@[simp] theorem State.setOwner_cfg (s : State) (d : Dir) (i : Nat) (o : Owner) : (s.setOwner d i o).cfg = s.cfg := by unfold State.setOwner; split <;> simp
@[simp] theorem State.setOwner_seq (s : State) (d : Dir) (i : Nat) (o : Owner) : (s.setOwner d i o).seq = s.seq := by unfold State.setOwner; split <;> simp
@[simp] theorem State.setOwner_seqPolls (s : State) (d : Dir) (i : Nat) (o : Owner) : (s.setOwner d i o).seqPolls = s.seqPolls := by unfold State.setOwner; split <;> simp
@[simp] theorem State.setOwner_seqLink (s : State) (d : Dir) (i : Nat) (o : Owner) : (s.setOwner d i o).seqLink = s.seqLink := by unfold State.setOwner; split <;> simp
@[simp] theorem State.setOwner_macAddr (s : State) (d : Dir) (i : Nat) (o : Owner) : (s.setOwner d i o).macAddr = s.macAddr := by unfold State.setOwner; split <;> simp
@[simp] theorem State.setOwner_regs (s : State) (d : Dir) (i : Nat) (o : Owner) : (s.setOwner d i o).regs = s.regs := by unfold State.setOwner; split <;> simp
@[simp] theorem State.setOwner_mdioWait (s : State) (d : Dir) (i : Nat) (o : Owner) : (s.setOwner d i o).mdioWait = s.mdioWait := by unfold State.setOwner; split <;> simp
@[simp] theorem State.setOwner_rdmaWp (s : State) (d : Dir) (i : Nat) (o : Owner) : (s.setOwner d i o).rdmaWp = s.rdmaWp := by unfold State.setOwner; split <;> simp
@[simp] theorem State.setOwner_tdmaRp (s : State) (d : Dir) (i : Nat) (o : Owner) : (s.setOwner d i o).tdmaRp = s.tdmaRp := by unfold State.setOwner; split <;> simp
@[simp] theorem State.setOwner_mem (s : State) (d : Dir) (i : Nat) (o : Owner) : (s.setOwner d i o).mem = s.mem := by unfold State.setOwner; split <;> simp
@[simp] theorem State.setOwner_cpuDirty (s : State) (d : Dir) (i : Nat) (o : Owner) : (s.setOwner d i o).cpuDirty = s.cpuDirty := by unfold State.setOwner; split <;> simp
@[simp] theorem State.setOwner_cpuStale (s : State) (d : Dir) (i : Nat) (o : Owner) : (s.setOwner d i o).cpuStale = s.cpuStale := by unfold State.setOwner; split <;> simp
@[simp] theorem State.setOwner_descRx (s : State) (d : Dir) (i : Nat) (o : Owner) : (s.setOwner d i o).descRx = s.descRx := by unfold State.setOwner; split <;> simp
@[simp] theorem State.setOwner_descTx (s : State) (d : Dir) (i : Nat) (o : Owner) : (s.setOwner d i o).descTx = s.descTx := by unfold State.setOwner; split <;> simp
@[simp] theorem State.setOwner_unsynced (s : State) (d : Dir) (i : Nat) (o : Owner) : (s.setOwner d i o).unsynced = s.unsynced := by unfold State.setOwner; split <;> simp
@[simp] theorem State.setOwner_rx (s : State) (d : Dir) (i : Nat) (o : Owner) : (s.setOwner d i o).rx = s.rx := by unfold State.setOwner; split <;> simp
@[simp] theorem State.setOwner_tx (s : State) (d : Dir) (i : Nat) (o : Owner) : (s.setOwner d i o).tx = s.tx := by unfold State.setOwner; split <;> simp
@[simp] theorem State.setOwner_hist (s : State) (d : Dir) (i : Nat) (o : Owner) : (s.setOwner d i o).hist = s.hist := by unfold State.setOwner; split <;> simp
@[simp] theorem State.setOwner_fault (s : State) (d : Dir) (i : Nat) (o : Owner) : (s.setOwner d i o).fault = s.fault := by unfold State.setOwner; split <;> simp
@[simp] theorem State.setOwner_refused (s : State) (d : Dir) (i : Nat) (o : Owner) : (s.setOwner d i o).refused = s.refused := by unfold State.setOwner; split <;> simp
@[simp] theorem State.setOwner_pending (s : State) (d : Dir) (i : Nat) (o : Owner) : (s.setOwner d i o).pending = s.pending := by unfold State.setOwner; split <;> simp
@[simp] theorem State.setOwner_args (s : State) (d : Dir) (i : Nat) (o : Owner) : (s.setOwner d i o).args = s.args := by unfold State.setOwner; split <;> simp
@[simp] theorem State.setOwner_between (s : State) (d : Dir) (i : Nat) (o : Owner) : (s.setOwner d i o).between = s.between := by unfold State.setOwner; split <;> simp
@[simp] theorem State.setOwner_result (s : State) (d : Dir) (i : Nat) (o : Owner) : (s.setOwner d i o).result = s.result := by unfold State.setOwner; split <;> simp
@[simp] theorem State.setOwner_tape (s : State) (d : Dir) (i : Nat) (o : Owner) : (s.setOwner d i o).tape = s.tape := by unfold State.setOwner; split <;> simp
@[simp] theorem State.setOwner_drawCount (s : State) (d : Dir) (i : Nat) (o : Owner) : (s.setOwner d i o).drawCount = s.drawCount := by unfold State.setOwner; split <;> simp

/-! ### `dmaStoreByte` -/

@[simp] theorem State.dmaStoreByte_cfg (s : State) (a : Nat) (v : Byte) : (s.dmaStoreByte a v).cfg = s.cfg := rfl
@[simp] theorem State.dmaStoreByte_seq (s : State) (a : Nat) (v : Byte) : (s.dmaStoreByte a v).seq = s.seq := rfl
@[simp] theorem State.dmaStoreByte_seqPolls (s : State) (a : Nat) (v : Byte) : (s.dmaStoreByte a v).seqPolls = s.seqPolls := rfl
@[simp] theorem State.dmaStoreByte_seqLink (s : State) (a : Nat) (v : Byte) : (s.dmaStoreByte a v).seqLink = s.seqLink := rfl
@[simp] theorem State.dmaStoreByte_macAddr (s : State) (a : Nat) (v : Byte) : (s.dmaStoreByte a v).macAddr = s.macAddr := rfl
@[simp] theorem State.dmaStoreByte_regs (s : State) (a : Nat) (v : Byte) : (s.dmaStoreByte a v).regs = s.regs := rfl
@[simp] theorem State.dmaStoreByte_mdioWait (s : State) (a : Nat) (v : Byte) : (s.dmaStoreByte a v).mdioWait = s.mdioWait := rfl
@[simp] theorem State.dmaStoreByte_rdmaWp (s : State) (a : Nat) (v : Byte) : (s.dmaStoreByte a v).rdmaWp = s.rdmaWp := rfl
@[simp] theorem State.dmaStoreByte_tdmaRp (s : State) (a : Nat) (v : Byte) : (s.dmaStoreByte a v).tdmaRp = s.tdmaRp := rfl
@[simp] theorem State.dmaStoreByte_cpuDirty (s : State) (a : Nat) (v : Byte) : (s.dmaStoreByte a v).cpuDirty = s.cpuDirty := rfl
@[simp] theorem State.dmaStoreByte_descRx (s : State) (a : Nat) (v : Byte) : (s.dmaStoreByte a v).descRx = s.descRx := rfl
@[simp] theorem State.dmaStoreByte_descTx (s : State) (a : Nat) (v : Byte) : (s.dmaStoreByte a v).descTx = s.descTx := rfl
@[simp] theorem State.dmaStoreByte_unsynced (s : State) (a : Nat) (v : Byte) : (s.dmaStoreByte a v).unsynced = s.unsynced := rfl
@[simp] theorem State.dmaStoreByte_cbRx (s : State) (a : Nat) (v : Byte) : (s.dmaStoreByte a v).cbRx = s.cbRx := rfl
@[simp] theorem State.dmaStoreByte_cbTx (s : State) (a : Nat) (v : Byte) : (s.dmaStoreByte a v).cbTx = s.cbTx := rfl
@[simp] theorem State.dmaStoreByte_rx (s : State) (a : Nat) (v : Byte) : (s.dmaStoreByte a v).rx = s.rx := rfl
@[simp] theorem State.dmaStoreByte_tx (s : State) (a : Nat) (v : Byte) : (s.dmaStoreByte a v).tx = s.tx := rfl
@[simp] theorem State.dmaStoreByte_hist (s : State) (a : Nat) (v : Byte) : (s.dmaStoreByte a v).hist = s.hist := rfl
@[simp] theorem State.dmaStoreByte_fault (s : State) (a : Nat) (v : Byte) : (s.dmaStoreByte a v).fault = s.fault := rfl
@[simp] theorem State.dmaStoreByte_refused (s : State) (a : Nat) (v : Byte) : (s.dmaStoreByte a v).refused = s.refused := rfl
@[simp] theorem State.dmaStoreByte_pending (s : State) (a : Nat) (v : Byte) : (s.dmaStoreByte a v).pending = s.pending := rfl
@[simp] theorem State.dmaStoreByte_args (s : State) (a : Nat) (v : Byte) : (s.dmaStoreByte a v).args = s.args := rfl
@[simp] theorem State.dmaStoreByte_between (s : State) (a : Nat) (v : Byte) : (s.dmaStoreByte a v).between = s.between := rfl
@[simp] theorem State.dmaStoreByte_result (s : State) (a : Nat) (v : Byte) : (s.dmaStoreByte a v).result = s.result := rfl
@[simp] theorem State.dmaStoreByte_tape (s : State) (a : Nat) (v : Byte) : (s.dmaStoreByte a v).tape = s.tape := rfl
@[simp] theorem State.dmaStoreByte_drawCount (s : State) (a : Nat) (v : Byte) : (s.dmaStoreByte a v).drawCount = s.drawCount := rfl

/-! ### `hostStoreByte` -/

@[simp] theorem State.hostStoreByte_cfg (s : State) (a : Nat) (v : Byte) : (s.hostStoreByte a v).cfg = s.cfg := by unfold State.hostStoreByte; split <;> rfl
@[simp] theorem State.hostStoreByte_seq (s : State) (a : Nat) (v : Byte) : (s.hostStoreByte a v).seq = s.seq := by unfold State.hostStoreByte; split <;> rfl
@[simp] theorem State.hostStoreByte_seqPolls (s : State) (a : Nat) (v : Byte) : (s.hostStoreByte a v).seqPolls = s.seqPolls := by unfold State.hostStoreByte; split <;> rfl
@[simp] theorem State.hostStoreByte_seqLink (s : State) (a : Nat) (v : Byte) : (s.hostStoreByte a v).seqLink = s.seqLink := by unfold State.hostStoreByte; split <;> rfl
@[simp] theorem State.hostStoreByte_macAddr (s : State) (a : Nat) (v : Byte) : (s.hostStoreByte a v).macAddr = s.macAddr := by unfold State.hostStoreByte; split <;> rfl
@[simp] theorem State.hostStoreByte_regs (s : State) (a : Nat) (v : Byte) : (s.hostStoreByte a v).regs = s.regs := by unfold State.hostStoreByte; split <;> rfl
@[simp] theorem State.hostStoreByte_mdioWait (s : State) (a : Nat) (v : Byte) : (s.hostStoreByte a v).mdioWait = s.mdioWait := by unfold State.hostStoreByte; split <;> rfl
@[simp] theorem State.hostStoreByte_rdmaWp (s : State) (a : Nat) (v : Byte) : (s.hostStoreByte a v).rdmaWp = s.rdmaWp := by unfold State.hostStoreByte; split <;> rfl
@[simp] theorem State.hostStoreByte_tdmaRp (s : State) (a : Nat) (v : Byte) : (s.hostStoreByte a v).tdmaRp = s.tdmaRp := by unfold State.hostStoreByte; split <;> rfl
@[simp] theorem State.hostStoreByte_descRx (s : State) (a : Nat) (v : Byte) : (s.hostStoreByte a v).descRx = s.descRx := by unfold State.hostStoreByte; split <;> rfl
@[simp] theorem State.hostStoreByte_descTx (s : State) (a : Nat) (v : Byte) : (s.hostStoreByte a v).descTx = s.descTx := by unfold State.hostStoreByte; split <;> rfl
@[simp] theorem State.hostStoreByte_unsynced (s : State) (a : Nat) (v : Byte) : (s.hostStoreByte a v).unsynced = s.unsynced := by unfold State.hostStoreByte; split <;> rfl
@[simp] theorem State.hostStoreByte_cbRx (s : State) (a : Nat) (v : Byte) : (s.hostStoreByte a v).cbRx = s.cbRx := by unfold State.hostStoreByte; split <;> rfl
@[simp] theorem State.hostStoreByte_cbTx (s : State) (a : Nat) (v : Byte) : (s.hostStoreByte a v).cbTx = s.cbTx := by unfold State.hostStoreByte; split <;> rfl
@[simp] theorem State.hostStoreByte_rx (s : State) (a : Nat) (v : Byte) : (s.hostStoreByte a v).rx = s.rx := by unfold State.hostStoreByte; split <;> rfl
@[simp] theorem State.hostStoreByte_tx (s : State) (a : Nat) (v : Byte) : (s.hostStoreByte a v).tx = s.tx := by unfold State.hostStoreByte; split <;> rfl
@[simp] theorem State.hostStoreByte_hist (s : State) (a : Nat) (v : Byte) : (s.hostStoreByte a v).hist = s.hist := by unfold State.hostStoreByte; split <;> rfl
@[simp] theorem State.hostStoreByte_fault (s : State) (a : Nat) (v : Byte) : (s.hostStoreByte a v).fault = s.fault := by unfold State.hostStoreByte; split <;> rfl
@[simp] theorem State.hostStoreByte_refused (s : State) (a : Nat) (v : Byte) : (s.hostStoreByte a v).refused = s.refused := by unfold State.hostStoreByte; split <;> rfl
@[simp] theorem State.hostStoreByte_pending (s : State) (a : Nat) (v : Byte) : (s.hostStoreByte a v).pending = s.pending := by unfold State.hostStoreByte; split <;> rfl
@[simp] theorem State.hostStoreByte_args (s : State) (a : Nat) (v : Byte) : (s.hostStoreByte a v).args = s.args := by unfold State.hostStoreByte; split <;> rfl
@[simp] theorem State.hostStoreByte_between (s : State) (a : Nat) (v : Byte) : (s.hostStoreByte a v).between = s.between := by unfold State.hostStoreByte; split <;> rfl
@[simp] theorem State.hostStoreByte_result (s : State) (a : Nat) (v : Byte) : (s.hostStoreByte a v).result = s.result := by unfold State.hostStoreByte; split <;> rfl
@[simp] theorem State.hostStoreByte_tape (s : State) (a : Nat) (v : Byte) : (s.hostStoreByte a v).tape = s.tape := by unfold State.hostStoreByte; split <;> rfl
@[simp] theorem State.hostStoreByte_drawCount (s : State) (a : Nat) (v : Byte) : (s.hostStoreByte a v).drawCount = s.drawCount := by unfold State.hostStoreByte; split <;> rfl

/-! ### The marks -/

@[simp] theorem State.refuse_refused (s : State) : s.refuse.refused = true := rfl

@[simp] theorem State.mark_fault (s : State) (f : FaultReason) : (s.mark f).fault = s.fault.or (some f) := rfl

/-- The first fault stays (R55). -/
theorem State.mark_fault_of_some {s : State} {g : FaultReason} (h : s.fault = some g) (f : FaultReason) :
    (s.mark f).fault = some g := by simp [h]

/-! ### Registers -/

theorem Dir.num_inj {d d' : Dir} (h : d.num = d'.num) : d = d' := by cases d <;> cases d' <;> first | rfl | cases h
theorem IntrlId.num_inj {d d' : IntrlId} (h : d.num = d'.num) : d = d' := by
  cases d <;> cases d' <;> first | rfl | cases h
theorem IntrlReg.num_inj {d d' : IntrlReg} (h : d.num = d'.num) : d = d' := by
  cases d <;> cases d' <;> first | rfl | cases h
theorem RingReg.num_inj {d d' : RingReg} (h : d.num = d'.num) : d = d' := by
  cases d <;> cases d' <;> first | rfl | cases h
theorem Dir.num_lt (d : Dir) : d.num < 2 := by cases d <;> decide
theorem IntrlId.num_lt (d : IntrlId) : d.num < 2 := by cases d <;> decide
theorem IntrlReg.num_lt (d : IntrlReg) : d.num < 5 := by cases d <;> decide
theorem RingReg.num_lt (d : RingReg) : d.num < 7 := by cases d <;> decide

/-- The range of keys a parametric register's key lies in. -/
theorem RegId.key_range (r : RegId) :
    match r with
    | .intrl2 .. => 10 ≤ r.key ∧ r.key < 20
    | .dmaRingCfg _ => 30 ≤ r.key ∧ r.key < 32
    | .dmaCtrl _ => 32 ≤ r.key ∧ r.key < 34
    | .dmaStatus _ => 34 ≤ r.key ∧ r.key < 36
    | .tdmaPriority _ => 37 ≤ r.key ∧ r.key < 40
    | .ring .. => 100 ≤ r.key ∧ r.key < 500
    | .rdmaXonXoff _ => 500 ≤ r.key ∧ r.key < 517
    | .tdmaFlowPeriod _ => 520 ≤ r.key ∧ r.key < 537
    | .umacMdfAddr _ => 600 ≤ r.key
    | _ => True := by
  cases r with
  | intrl2 x y => have := x.num_lt; have := y.num_lt; simp only [RegId.key]; omega
  | dmaRingCfg d => have := d.num_lt; simp only [RegId.key]; omega
  | dmaCtrl d => have := d.num_lt; simp only [RegId.key]; omega
  | dmaStatus d => have := d.num_lt; simp only [RegId.key]; omega
  | tdmaPriority k => have := k.isLt; simp only [RegId.key]; omega
  | ring d q x => have := d.num_lt; have := x.num_lt; have := q.isLt; simp only [RegId.key]; omega
  | rdmaXonXoff q => have := q.isLt; simp only [RegId.key]; omega
  | tdmaFlowPeriod q => have := q.isLt; simp only [RegId.key]; omega
  | umacMdfAddr j => simp only [RegId.key]; omega
  | _ => trivial

/-- No two registers share a key. -/
theorem RegId.key_inj {r r' : RegId} (h : r.key = r'.key) : r = r' := by
  have hr := r.key_range
  have hr' := r'.key_range
  rw [h] at hr
  cases r <;> cases r' <;> simp only [RegId.key] at h hr hr' <;> first
    | rfl
    | omega
    | (congr 1; first | exact Dir.num_inj (by omega) | (ext; omega) | omega)
    | skip
  · rename_i x y x' y'
    have := x.num_lt; have := y.num_lt; have := x'.num_lt; have := y'.num_lt
    rw [IntrlId.num_inj (d := x) (d' := x') (by omega), IntrlReg.num_inj (d := y) (d' := y') (by omega)]
  · rename_i d q x d' q' x'
    have := d.num_lt; have := x.num_lt; have := q.isLt; have := d'.num_lt; have := x'.num_lt; have := q'.isLt
    rw [Dir.num_inj (d := d) (d' := d') (by omega), RingReg.num_inj (d := x) (d' := x') (by omega),
      Fin.ext (a := q) (b := q') (by omega)]

@[simp] theorem State.reg_setReg_same (s : State) (r : RegId) (v : Word) : (s.setReg r v).reg r = v := by
  simp [State.reg, State.setReg]

theorem State.reg_setReg_ne (s : State) {r r' : RegId} (v : Word) (h : r ≠ r') :
    (s.setReg r v).reg r' = s.reg r' := by
  simp [State.reg, State.setReg, Tab.get?_put_ne _ _ (fun hk => h (RegId.key_inj hk))]

/-- A register after one is written. -/
theorem State.reg_setReg (s : State) (r r' : RegId) (v : Word) :
    (s.setReg r v).reg r' = if r = r' then v else s.reg r' := by
  by_cases h : r = r'
  · subst h; simp
  · simp [h, State.reg_setReg_ne]

/-- A register depends on the register table only. -/
theorem State.reg_congr {s t : State} (h : t.regs = s.regs) (r : RegId) : t.reg r = s.reg r := by
  simp [State.reg, h]

theorem State.flag_congr {s t : State} (hr : t.regs = s.regs) (hc : t.cfg = s.cfg) (r : RegId)
    (p : RegPos → FieldPos) : t.flag r p = s.flag r p := by
  simp [State.flag, State.reg, hr, hc]

@[simp] theorem State.setReg_regs (s : State) (r : RegId) (v : Word) :
    (s.setReg r v).regs = Tab.put s.regs r.key v := rfl

/-! ### Descriptors -/

theorem putDesc_get? (t : Tab Desc) (i j : Nat) (x : Desc) :
    (Tab.get? (putDesc t i x) j).getD ⟨0, 0, 0⟩ = if i = j then x else (Tab.get? t j).getD ⟨0, 0, 0⟩ := by
  unfold putDesc
  split
  · next h => by_cases hij : i = j <;> simp [Tab.get?_erase, hij, h]
  · by_cases hij : i = j <;> simp [Tab.get?_put, hij]

/-- A descriptor after one is written. -/
theorem State.desc_setDesc (s : State) (d d' : Dir) (i j : Nat) (x : Desc) :
    (s.setDesc d i x).desc d' j = if d = d' ∧ i = j then x else s.desc d' j := by
  cases d <;> cases d' <;>
    simp only [State.desc, State.setDesc, true_and, false_and, if_false, reduceCtorEq]
  · exact putDesc_get? ..
  · exact putDesc_get? ..

@[simp] theorem State.desc_setDesc_same (s : State) (d : Dir) (i : Nat) (x : Desc) :
    (s.setDesc d i x).desc d i = x := by simp [State.desc_setDesc]

theorem State.desc_congr {s t : State} (hr : t.descRx = s.descRx) (ht : t.descTx = s.descTx) (d : Dir) (i : Nat) :
    t.desc d i = s.desc d i := by cases d <;> simp [State.desc, hr, ht]

@[simp] theorem Desc.word_setWord_same (x : Desc) (k : DescWord) (v : Word) : (x.setWord k v).word k = v := by
  cases k <;> rfl

theorem Desc.word_setWord (x : Desc) (k k' : DescWord) (v : Word) :
    (x.setWord k v).word k' = if k = k' then v else x.word k' := by
  cases k <;> cases k' <;> rfl

/-- The all-zero descriptor is not listed. -/
theorem putDesc_sorted {t : Tab Desc} (h : Tab.sorted t) (i : Nat) (x : Desc) : Tab.sorted (putDesc t i x) := by
  unfold putDesc
  split
  · exact Tab.sorted_erase h i
  · exact Tab.sorted_put h i x

/-! ### Control blocks -/

/-- A control block after one is written. -/
theorem State.cb?_setCb (s : State) (d d' : Dir) (i j : Nat) (b : Cb) :
    (s.setCb d i b).cb? d' j = if d = d' ∧ i = j then some b else s.cb? d' j := by
  cases d <;> cases d' <;> simp [State.cb?, State.setCb, Tab.get?_put]

theorem State.cb?_congr {s t : State} (hr : t.cbRx = s.cbRx) (ht : t.cbTx = s.cbTx) (d : Dir) (i : Nat) :
    t.cb? d i = s.cb? d i := by cases d <;> simp [State.cb?, hr, ht]

/-- A control block after an owner is set: only its owner changes, and an unwritten one stays unwritten. -/
theorem State.cb?_setOwner (s : State) (d d' : Dir) (i j : Nat) (o : Owner) :
    (s.setOwner d i o).cb? d' j =
      if d = d' ∧ i = j then (s.cb? d' j).map (fun b => { b with owner := o }) else s.cb? d' j := by
  unfold State.setOwner
  split
  · next b hb =>
    rw [State.cb?_setCb]
    by_cases h : d = d' ∧ i = j
    · obtain ⟨rfl, rfl⟩ := h; simp [hb]
    · simp [h]
  · next hb =>
    by_cases h : d = d' ∧ i = j
    · obtain ⟨rfl, rfl⟩ := h; simp [hb]
    · simp [h]

/-! ### Reads that an update does not touch -/

@[simp] theorem State.setDesc_reg (s : State) (d : Dir) (i : Nat) (x : Desc) (r : RegId) :
    (s.setDesc d i x).reg r = s.reg r := State.reg_congr (by simp) r
@[simp] theorem State.setCb_reg (s : State) (d : Dir) (i : Nat) (b : Cb) (r : RegId) :
    (s.setCb d i b).reg r = s.reg r := State.reg_congr (by simp) r
@[simp] theorem State.setOwner_reg (s : State) (d : Dir) (i : Nat) (o : Owner) (r : RegId) :
    (s.setOwner d i o).reg r = s.reg r := State.reg_congr (by simp) r
@[simp] theorem State.setReg_desc (s : State) (r : RegId) (v : Word) (d : Dir) (i : Nat) :
    (s.setReg r v).desc d i = s.desc d i := rfl
@[simp] theorem State.setCb_desc (s : State) (d : Dir) (i : Nat) (b : Cb) (d' : Dir) (j : Nat) :
    (s.setCb d i b).desc d' j = s.desc d' j := State.desc_congr (by simp) (by simp) d' j
@[simp] theorem State.setOwner_desc (s : State) (d : Dir) (i : Nat) (o : Owner) (d' : Dir) (j : Nat) :
    (s.setOwner d i o).desc d' j = s.desc d' j := State.desc_congr (by simp) (by simp) d' j
@[simp] theorem State.setReg_cb? (s : State) (r : RegId) (v : Word) (d : Dir) (i : Nat) :
    (s.setReg r v).cb? d i = s.cb? d i := rfl
@[simp] theorem State.setDesc_cb? (s : State) (d : Dir) (i : Nat) (x : Desc) (d' : Dir) (j : Nat) :
    (s.setDesc d i x).cb? d' j = s.cb? d' j := State.cb?_congr (by simp) (by simp) d' j

/-! ### Bytes -/

/-- The memory copy of a byte after a DMA agent writes one. -/
theorem State.read_dmaStoreByte (s : State) (a b : Nat) (v : Byte) :
    Memory.read (s.dmaStoreByte a v).mem b = if a = b then v else Memory.read s.mem b :=
  Memory.read_write s.mem a b v

/-- A byte written by a DMA agent is stale when there is a cache, with the CPU's view and the value written (R64). -/
theorem State.stale_dmaStoreByte (s : State) (a b : Nat) (v : Byte) (h : s.cfg.cacheEnabled = true) :
    Tab.get? (s.dmaStoreByte a v).cpuStale b = if a = b then some ⟨s.cpuView a, v⟩ else Tab.get? s.cpuStale b := by
  simp [State.dmaStoreByte, h, Tab.get?_put]

/-- A host write changes the CPU's view of a stale byte and keeps its DMA-written value (R64; log 14). -/
theorem State.stale_hostStoreByte (s : State) (a b : Nat) (v : Byte) :
    Tab.get? (s.hostStoreByte a v).cpuStale b =
      if s.cfg.cacheEnabled = true ∧ a = b then (Tab.get? s.cpuStale b).map ({ · with view := v })
      else Tab.get? s.cpuStale b := by
  unfold State.hostStoreByte
  cases h : s.cfg.cacheEnabled
  · simp
  · by_cases hab : a = b
    · subst hab
      cases hg : Tab.get? s.cpuStale a <;> simp [hg]
    · cases Tab.get? s.cpuStale a <;> simp [Tab.get?_put, hab]

/-- The host sees the byte it wrote (R67). -/
theorem State.cpuView_hostStoreByte (s : State) (a : Nat) (v : Byte) (hp : poolByte? s.cfg a = none)
    (hd : s.cfg.cacheEnabled = false → s.cpuDirty = [] ∧ s.cpuStale = []) :
    (s.hostStoreByte a v).cpuView a = v := by
  unfold State.hostStoreByte State.cpuView
  cases h : s.cfg.cacheEnabled
  · simp [hd h, State.memByte, hp]
  · simp

/-! ### Descriptor bytes in physical memory -/

/-- A byte outside the pools is the memory copy's (R60b). -/
theorem State.memByte_off {s : State} {a : Nat} (h : poolByte? s.cfg a = none) : s.memByte a = Memory.read s.mem a := by
  simp [State.memByte, h]

/-- A byte of a pool is the descriptor's (R60b). -/
theorem State.memByte_pool {s : State} {a : Nat} {b : PoolByte} (h : poolByte? s.cfg a = some b) :
    s.memByte a = (s.desc b.dir b.index).byte b.byte := by simp [State.memByte, h]

theorem poolByteOf_bounds {c : Config} {d : Dir} {a : Nat} {b : PoolByte} (h : poolByteOf c d a = some b) :
    b.index < nDesc ∧ b.byte < 12 := by
  simp only [poolByteOf] at h
  split at h
  · next hk =>
    cases h
    simp only [poolBytes, descWords, nDesc] at hk ⊢
    exact ⟨by omega, by omega⟩
  · cases h

/-- A descriptor byte that stands in memory is of a descriptor of its pool (R39). -/
theorem poolByte?_bounds {c : Config} {a : Nat} {b : PoolByte} (h : poolByte? c a = some b) :
    b.index < nDesc ∧ b.byte < 12 := by
  unfold poolByte? at h
  cases hr : poolByteOf c .rx a with
  | some x => rw [hr] at h; cases h; exact poolByteOf_bounds hr
  | none => rw [hr] at h; exact poolByteOf_bounds h

/-- Off the pools a DMA agent's byte goes to cacheable memory. -/
theorem State.dmaWriteByte_off {s : State} {a : Nat} (h : poolByte? s.cfg a = none) (v : Byte) :
    s.dmaWriteByte a v = s.dmaStoreByte a v := by simp [State.dmaWriteByte, h]

/-- Off the pools a host byte goes to cacheable memory. -/
theorem State.hostWriteByte_off {s : State} {a : Nat} (h : poolByte? s.cfg a = none) (v : Byte) :
    s.hostWriteByte a v = s.hostStoreByte a v := by simp [State.hostWriteByte, h]

/-- What a host write of a descriptor word leaves: the word, and at most one more old word to see (R69). -/
theorem State.writeDesc_eq (s : State) (d : Dir) (i : Nat) (k : DescWord) (v : Word) :
    ∃ us : List UnsyncedWrite, s.writeDesc d i k v = { s.setDesc d i ((s.desc d i).setWord k v) with unsynced := us } := by
  by_cases hv : (s.desc d i).word k = v
  · exact ⟨s.unsynced, by cases d <;> simp [State.writeDesc, hv, State.setDesc]⟩
  · exact ⟨⟨d, i, k, (s.desc d i).word k⟩ :: s.unsynced, by cases d <;> simp [State.writeDesc, hv, State.setDesc]⟩

/-- A control block that is the software's, or unwritten, is not the hardware's (R63). -/
theorem State.hwOwned_of_sw {s : State} {d : Dir} {i : Nat} {b : Cb} (h : s.cb? d i = some b) (ho : b.owner = .sw) :
    s.hwOwned d i = false := by simp [State.hwOwned, h, ho]

theorem State.hwOwned_congr {s t : State} (h : ∀ d i, t.cb? d i = s.cb? d i) (d : Dir) (i : Nat) :
    t.hwOwned d i = s.hwOwned d i := by simp [State.hwOwned, h]

end Sys2Proof.Machine
end

