-- ==== Sys2Proof/Laws/Ops.lean ====
section
/-! SUPPORT. How an operation runs: the value or end, and the state, of each way to put operations together and of each
named operation of Machine/Ops.lean. The provers run an operation with these, without unfolding the monad. -/

namespace Sys2Proof.Machine

variable {α β : Type}

/-! ### Putting operations together -/

@[simp] theorem op_pure (a : α) (s : State) : (pure a : Op α) s = .ok a s := rfl

@[simp] theorem op_bind (x : Op α) (f : α → Op β) (s : State) :
    (x >>= f) s = match x s with
      | .ok a t => f a t
      | .error e t => .error e t := by
  change EStateM.bind x f s = _
  unfold EStateM.bind
  cases x s <;> rfl

@[simp] theorem op_map (x : Op α) (f : α → β) (s : State) :
    (f <$> x) s = match x s with
      | .ok a t => .ok (f a) t
      | .error e t => .error e t := by
  change EStateM.map f x s = _
  unfold EStateM.map
  cases x s <;> rfl

@[simp] theorem gets_run (f : State → α) (s : State) : gets f s = .ok (f s) s := rfl
@[simp] theorem upd_run (f : State → State) (s : State) : upd f s = .ok () (f s) := rfl
@[simp] theorem halt_run (h : Halt) (s : State) : (halt h : Op α) s = .error h s := rfl
@[simp] theorem haltIf_run (c : Bool) (h : Halt) (s : State) :
    haltIf c h s = if c then .error h s else .ok () s := rfl
@[simp] theorem orHalt_some (a : α) (h : Halt) (s : State) : orHalt (some a) h s = .ok a s := rfl
@[simp] theorem orHalt_none (h : Halt) (s : State) : (orHalt none h : Op α) s = .error h s := rfl
@[simp] theorem each_nil (f : α → Op Unit) (s : State) : each [] f s = .ok () s := rfl
@[simp] theorem each_cons (x : α) (xs : List α) (f : α → Op Unit) (s : State) :
    each (x :: xs) f s = match f x s with
      | .ok _ t => each xs f t
      | .error e t => .error e t := by
  rw [each, op_bind]
  cases f x s <;> rfl
@[simp] theorem op_ite (c : Prop) [Decidable c] (x y : Op α) (s : State) :
    (if c then x else y) s = if c then x s else y s := by split <;> rfl

/-- Running over two lists is running over the first and then over the second. -/
theorem each_append (xs ys : List α) (f : α → Op Unit) (s : State) :
    each (xs ++ ys) f s = match each xs f s with
      | .ok _ t => each ys f t
      | .error e t => .error e t := by
  induction xs generalizing s with
  | nil => rfl
  | cons x xs ih =>
    simp only [List.cons_append, each_cons]
    cases f x s with
    | ok _ t => exact ih t
    | error e t => rfl

/-- A loop whose every round succeeds and takes the state by `g`. -/
theorem each_run {f : α → Op Unit} {g : α → State → State} {P : State → Prop} (xs : List α)
    (h : ∀ x ∈ xs, ∀ s, P s → f x s = .ok () (g x s) ∧ P (g x s)) (s : State) (hs : P s) :
    each xs f s = .ok () (xs.foldl (fun t x => g x t) s) ∧ P (xs.foldl (fun t x => g x t) s) := by
  induction xs generalizing s with
  | nil => exact ⟨rfl, hs⟩
  | cons x xs ih =>
    obtain ⟨hx, hp⟩ := h x (by simp) s hs
    simp only [each_cons, hx, List.foldl_cons]
    exact ih (fun y hy => h y (by simp [hy])) _ hp

theorem attempt_run (x : Op α) (s : State) :
    attempt x s = match x s with
      | .ok a t => .ok (.ok a) t
      | .error (.err e) t => .ok (.error e) t
      | .error h t => .error h t := rfl

@[simp] theorem emit_run (e : Event) (s : State) : emit e s = .ok () { s with hist := e :: s.hist } := rfl
@[simp] theorem setReg_run (r : RegId) (v : Word) (s : State) : setReg r v s = .ok () (s.setReg r v) := rfl

/-! ### The end of an operation as a state -/

@[simp] theorem settle_ok (r : Result) (s : State) : settle (.ok r s) = { s with result := r } := rfl
@[simp] theorem settle_err (e : Err) (s : State) : settle (.error (.err e) s) = { s with result := .err e } := rfl
@[simp] theorem settle_fault (f : FaultReason) (s : State) : settle (.error (.fault f) s) = s.mark f := rfl
@[simp] theorem settle_refused (s : State) : settle (.error .refused s) = s.refuse := rfl

/-- Every invocation answers a next state; a bad configuration refuses it (R321). -/
theorem runOp_run (op : Op Result) (s : State) :
    runOp op s = .next (if configOk s.cfg then settle (op s) else s.refuse) := rfl

theorem runOp_of_ok {op : Op Result} {s t : State} {r : Result} (hc : configOk s.cfg = true) (h : op s = .ok r t) :
    runOp op s = .next { t with result := r } := by simp [runOp_run, hc, h]

theorem runOp_of_err {op : Op Result} {s t : State} {e : Err} (hc : configOk s.cfg = true)
    (h : op s = .error (.err e) t) : runOp op s = .next { t with result := .err e } := by simp [runOp_run, hc, h]

theorem runOp_of_fault {op : Op Result} {s t : State} {f : FaultReason} (hc : configOk s.cfg = true)
    (h : op s = .error (.fault f) t) : runOp op s = .next (t.mark f) := by simp [runOp_run, hc, h]

theorem runOp_of_refused {op : Op Result} {s t : State} (hc : configOk s.cfg = true)
    (h : op s = .error .refused t) : runOp op s = .next t.refuse := by simp [runOp_run, hc, h]

theorem runOp_of_badConfig {op : Op Result} {s : State} (hc : configOk s.cfg = false) :
    runOp op s = .next s.refuse := by simp [runOp_run, hc]

/-! ### Draws -/

/-- A draw from a tape that holds a value. -/
theorem drawNat_cons {s : State} {n : Nat} {rest : List Nat} (h : s.tape = n :: rest) :
    drawNat s = .ok n { s with tape := rest, drawCount := s.drawCount + 1 } := by simp [drawNat, h]

/-- Every draw answers, and moves only the tape and the counter. -/
theorem drawNat_run (s : State) :
    drawNat s = .ok (s.tape.headD (Config.freeNat s.drawCount))
      { s with tape := s.tape.tail, drawCount := s.drawCount + 1 } := rfl

/-- `draw bytes(n)` gives `n` bytes, and moves only the tape and the counter. -/
theorem drawBytes_run (n : Nat) (s : State) :
    ∃ bs, bs.length = n ∧ ∃ tp, drawBytes n s = .ok bs { s with tape := tp, drawCount := s.drawCount + n } := by
  induction n generalizing s with
  | zero => exact ⟨[], rfl, s.tape, rfl⟩
  | succ n ih =>
    obtain ⟨bs, hl, tp, h⟩ := ih { s with tape := s.tape.tail, drawCount := s.drawCount + 1 }
    refine ⟨BitVec.ofNat 8 (s.tape.headD (Config.freeNat s.drawCount)) :: bs, by simp [hl], tp, ?_⟩
    simp only [drawBytes, drawByte, drawNat_run, op_bind, op_pure, h]
    simp [Nat.add_assoc, Nat.add_comm 1 n]

@[simp] theorem drawBytes_zero (s : State) : drawBytes 0 s = .ok [] s := rfl

/-! ### Host steps -/

/-- With no agent step scheduled a host step is its access. -/
theorem hostStep_of_nil {act : Op α} {s : State} (h : s.between = []) : hostStep act s = act s := by
  simp [hostStep, runGap, h]

/-! ### Fields -/

/-- A value placed in a field that is the whole word (R95). -/
theorem fieldPlace_whole (n : Nat) : fieldPlace ⟨31, 0⟩ n = BitVec.ofNat 32 n := by
  apply BitVec.eq_of_toNat_eq
  simp [fieldPlace, fieldWidth]

/-- With the default positions the sources of a word are its bits (R95, R292). -/
theorem moveField_whole (w : Word) : moveField ⟨31, 0⟩ ⟨31, 0⟩ w = w := by
  apply BitVec.eq_of_toNat_eq
  simp [moveField, fieldPlace_whole, fieldGet, fieldWidth, w.isLt]

/-! ### Register accesses -/

/-- A read of a register other than `MDIO_CMD` is its word and its event (R290). -/
theorem mmioRead_run {r : RegId} (hm : r ≠ .mdioCmd) (s : State) :
    mmioRead r s = .ok (s.reg r) { s with hist := .mmioRead r (s.reg r) :: s.hist } := by
  have h2 : readEffect r = pure () := by
    unfold readEffect
    split
    · exact absurd rfl hm
    · rfl
  simp [mmioRead, h2]

/-- A write to a read-only register is only its event (R291). -/
theorem mmioWrite_readOnly {r : RegId} (h : r.readOnly = true) (v : Word) (s : State) :
    mmioWrite r v s = .ok () { s with hist := .mmioWrite r v :: s.hist } := by simp [mmioWrite, h]

/-- A write of R292's refused list is refused. -/
theorem mmioWrite_refused {r : RegId} {s : State} (h : r.readOnly = false) (hw : s.writeRefused r = true) (v : Word) :
    mmioWrite r v s = .error .refused s := by simp [mmioWrite, h, hw]

/-- Any other write stores the word, appends its event and has its side effect (R291, R292). -/
theorem mmioWrite_run {r : RegId} {s : State} (h : r.readOnly = false) (hw : s.writeRefused r = false) (v : Word) :
    mmioWrite r v s =
      writeEffect r (s.reg r) v { s.setReg r v with hist := .mmioWrite r v :: s.hist } := by
  simp [mmioWrite, h, hw]

/-- A write with no side effect. -/
theorem mmioWrite_plain {r : RegId} {s : State} (h : r.readOnly = false) (hw : s.writeRefused r = false)
    (he : r.sideEffect = false) (v : Word) :
    mmioWrite r v s = .ok () { s.setReg r v with hist := .mmioWrite r v :: s.hist } := by
  rw [mmioWrite_run h hw]
  unfold writeEffect
  simp only [op_bind, gets_run]
  split <;> simp_all [RegId.sideEffect]

/-- A write of a register to which no direction's enable applies is never refused. -/
theorem writeRefused_of_unowned {r : RegId} (hm : r ≠ .mdioCmd) (ho : r.ownedBy = none) (s : State) :
    s.writeRefused r = false := by
  unfold State.writeRefused
  split
  · exact absurd rfl hm
  · simp [ho]

/-- A register of the hardware's may be written while its direction is off (R292). -/
theorem writeRefused_of_off {r : RegId} {d : Dir} {s : State} (hm : r ≠ .mdioCmd) (ho : r.ownedBy = some d) :
    s.writeRefused r = s.dmaEn d := by
  unfold State.writeRefused
  split
  · exact absurd rfl hm
  · simp [ho]

/-! ### Buffer bytes -/

/-- Consecutive byte writes, last one first. -/
theorem writeBytes_append (f : State → Nat → Byte → State) (a : Word) (k : Nat) (xs ys : List Byte) (s : State) :
    writeBytes f a k (xs ++ ys) s = writeBytes f a (k + xs.length) ys (writeBytes f a k xs s) := by
  induction xs generalizing k s with
  | nil => rfl
  | cons x xs ih => simp [writeBytes, ih, Nat.add_assoc, Nat.add_comm 1]

/-- What holds of a state and is kept by the write of one byte is kept by the write of many. -/
theorem writeBytes_keeps {P : State → Prop} {f : State → Nat → Byte → State} (hf : ∀ s a v, P s → P (f s a v))
    (a : Word) (k : Nat) (bs : List Byte) (s : State) (h : P s) : P (writeBytes f a k bs s) := by
  induction bs generalizing k s with
  | nil => exact h
  | cons b bs ih => exact ih (k + 1) _ (hf _ _ _ h)

/-- Off the pools, and where the writes keep the configuration, the write of many bytes is that of the inner one. -/
theorem writeBytes_off {f g : State → Nat → Byte → State}
    (hfg : ∀ (s : State) a v, poolByte? s.cfg a = none → f s a v = g s a v) (hc : ∀ (s : State) a v, (g s a v).cfg = s.cfg)
    {a : Word} {k : Nat} {bs : List Byte} {s : State} (h : ∀ j < bs.length, poolByte? s.cfg (byteAddr a (k + j)) = none) :
    writeBytes f a k bs s = writeBytes g a k bs s := by
  induction bs generalizing k s with
  | nil => rfl
  | cons b bs ih =>
    rw [writeBytes, writeBytes, hfg _ _ _ (by simpa using h 0 (by simp)), ih]
    intro j hj
    rw [hc]
    have := h (j + 1) (by simpa using hj)
    rwa [Nat.add_assoc, Nat.add_comm 1 j]

/-- A DMA write off the pools (R60b, R64). -/
theorem writeBytes_dma_off {a : Word} {bs : List Byte} {s : State} (h : OffPools s.cfg a bs.length) :
    writeBytes State.dmaWriteByte a 0 bs s = writeBytes State.dmaStoreByte a 0 bs s :=
  writeBytes_off (fun _ _ v hp => State.dmaWriteByte_off hp v) (fun _ _ _ => rfl) fun j hj => by
    rw [Nat.zero_add]; exact h j hj

/-- A host copy off the pools writes no descriptor's address words (R60b, R63, R134), and goes to cacheable memory (R64). -/
theorem hitsAddrWord_off {c : Config} {a : Word} {n : Nat} (h : OffPools c a n) (p : Dir → Nat → Bool) :
    hitsAddrWord c p a n = false := by
  unfold hitsAddrWord
  rw [List.any_eq_false]
  intro k hk
  simp [h k (List.mem_range.1 hk)]

theorem hitsOwned_off {a : Word} {n : Nat} {s : State} (h : OffPools s.cfg a n) : s.hitsOwned a n = false :=
  hitsAddrWord_off h _

theorem hitsRaw_off {a : Word} {n : Nat} {s : State} (h : OffPools s.cfg a n) : s.hitsRaw a n = false :=
  hitsAddrWord_off h _

theorem writeBytes_host_off {a : Word} {bs : List Byte} {s : State} (h : OffPools s.cfg a bs.length) :
    writeBytes State.hostWriteByte a 0 bs s = writeBytes State.hostStoreByte a 0 bs s :=
  writeBytes_off (fun _ _ v hp => State.hostWriteByte_off hp v) (fun _ _ _ => State.hostStoreByte_cfg ..) fun j hj => by
    rw [Nat.zero_add]; exact h j hj

/-- An address no byte of the write falls on reads as before. -/
theorem read_writeBytes_dma_ne {a : Word} {x k : Nat} {bs : List Byte} {s : State}
    (h : ∀ j, j < bs.length → byteAddr a (k + j) ≠ x) :
    Memory.read (writeBytes State.dmaStoreByte a k bs s).mem x = Memory.read s.mem x := by
  induction bs generalizing k s with
  | nil => rfl
  | cons b bs ih =>
    rw [writeBytes, ih (fun j hj => by have := h (j + 1) (by simpa using hj); rwa [Nat.add_assoc, Nat.add_comm 1 j]),
      State.read_dmaStoreByte, if_neg (by simpa using h 0 (by simp))]

/-- Byte addresses less than 2^32 apart differ. -/
theorem byteAddr_ne (a : Word) {j k : Nat} (h : j ≠ k) (hj : j < 2 ^ 32) (hk : k < 2 ^ 32) :
    byteAddr a j ≠ byteAddr a k := by
  have := a.isLt
  unfold byteAddr
  omega

/-- Every byte of a DMA write is in memory afterwards (R281). -/
theorem read_writeBytes_dma {a : Word} {k j : Nat} {bs : List Byte} {s : State} (hj : j < bs.length)
    (hl : k + bs.length ≤ 2 ^ 32) :
    Memory.read (writeBytes State.dmaStoreByte a k bs s).mem (byteAddr a (k + j)) = bs[j] := by
  induction bs generalizing k j s with
  | nil => simp at hj
  | cons b bs ih =>
    simp only [List.length_cons] at hj hl
    cases j with
    | zero =>
      rw [writeBytes, read_writeBytes_dma_ne (fun i hi => byteAddr_ne a (by omega) (by omega) (by omega)),
        State.read_dmaStoreByte]
      simp
    | succ j =>
      rw [writeBytes, show k + (j + 1) = k + 1 + j by omega, ih (by omega) (by omega)]
      simp

end Sys2Proof.Machine
end

