-- ==== Sys2Proof/Laws/Micro.lean ====
section
/-! SUPPORT. What any operation can do, said once: its effect is a chain of the single updates listed in `Micro`. An
invariant, or a relation between the state before and after, is then proved by one case per single update
(`Chain.keeps`, `Chain.rel`), and holds of every operation, of every agent step and of every step. -/

namespace Sys2Proof.Machine

variable {α β : Type}

/-- Which records an operation may write: the sequencer's (R22), the receive ring's (R41), the transmit rings' (R44). -/
structure Allow where
  seq : Bool := false
  rx : Bool := false
  tx : Bool := false

/-- No record is written. -/
def Allow.none : Allow := {}

/-- Every record may be written. -/
def Allow.all : Allow := ⟨true, true, true⟩

/-- What the second allows covers what the first allows. -/
def Allow.le (a b : Allow) : Prop :=
  (a.seq = true → b.seq = true) ∧ (a.rx = true → b.rx = true) ∧ (a.tx = true → b.tx = true)

theorem Allow.le_all (a : Allow) : a.le .all := ⟨fun _ => rfl, fun _ => rfl, fun _ => rfl⟩
theorem Allow.none_le (a : Allow) : Allow.none.le a := ⟨by simp [Allow.none], by simp [Allow.none], by simp [Allow.none]⟩
theorem Allow.le_refl (a : Allow) : a.le a := ⟨id, id, id⟩


/-- `n` advances of a transmit cursor (R42). -/
def TxRing.nextN (r : TxRing) : Nat → Nat → Nat
  | 0, p => p
  | n + 1, p => r.nextN n (ringNext r.cbBase r.endPtr p)

/-- A transmit record after a reclaim that sees the consumer index `hwC` (R185). -/
def TxRing.reclaimed (r : TxRing) (hwC : Half) : TxRing :=
  { r with
    cleanPtr := r.nextN (pendingCount hwC r.cIndex) r.cleanPtr
    freeBds := r.freeBds + pendingCount hwC r.cIndex
    cIndex := hwC }

/-- The single updates. -/
inductive Micro (a : Allow) : State → State → Prop where
  | emit (s e) : Micro a s { s with hist := e :: s.hist }
  | draw (s) : Micro a s { s with tape := s.tape.tail, drawCount := s.drawCount + 1 }
  | setReg (s r v) (h : r ≠ .sysRevCtrl) : Micro a s (s.setReg r v)
  | mdioWait (s w) : Micro a s { s with mdioWait := w }
  | unsyncedSub (s us) (h : us.Sublist s.unsynced) : Micro a s { s with unsynced := us }
  | unsyncedCons (s u) : Micro a s { s with unsynced := u :: s.unsynced }
  | rdmaWp (s n) : Micro a s { s with rdmaWp := n }
  | tdmaRp (s) (q : Fin 17) (n) : Micro a s { s with tdmaRp := Tab.put s.tdmaRp q.val n }
  | hostByte (s b v) : Micro a s (s.hostStoreByte b v)
  | dmaByte (s b v) : Micro a s (s.dmaStoreByte b v)
  | memByte (s b v) : Micro a s { s with mem := Memory.write s.mem b v }
  | dirtyFilter (s) (p : Host.Cell → Bool) : Micro a s { s with cpuDirty := s.cpuDirty.filter p }
  | staleFilter (s) (p : Nat × StaleByte → Bool) : Micro a s { s with cpuStale := s.cpuStale.filter p }
  | setDesc (s d i x) (h : i < nDesc) : Micro a s (s.setDesc d i x)
  | initCb (s d i) (h : i < nDesc) : Micro a s (s.setCb d i { descIndex := i, owner := .sw })
  | setOwner (s d i o) : Micro a s (s.setOwner d i o)
  | dest (s bs) : Micro a s { s with args := { s.args with dest := bs } }
  | between (s gs) : Micro a s { s with between := gs }
  | mark (s f) : Micro a s (s.mark f)
  | refuse (s) : Micro a s s.refuse
  | result (s r) : Micro a s { s with result := r }
  | rxInit (s) (h : a.rx = true) : Micro a s { s with rx := some freshRx }
  | rxDrops (s r n) (h : a.rx = true) (hr : s.rx = some r) : Micro a s { s with rx := some { r with oldDiscards := n } }
  | rxAdvance (s r) (h : a.rx = true) (hr : s.rx = some r) : Micro a s { s with rx := some r.advance }
  | txInit (s) (q : TxQueue) (h : a.tx = true) : Micro a s { s with tx := Tab.put s.tx q.num (freshTx q) }
  | txReclaim (s) (q : TxQueue) (r) (hwC : Half) (h : a.tx = true) (hr : Tab.get? s.tx q.num = some r)
      (hn : (pendingCount hwC r.cIndex : Int) ≤ (r.size : Int) - r.freeBds) :
      Micro a s { s with tx := Tab.put s.tx q.num (r.reclaimed hwC) }
  | txHandOver (s) (q : TxQueue) (r) (h : a.tx = true) (hr : Tab.get? s.tx q.num = some r) (hf : r.freeBds ≠ 0) :
      Micro a s { s with tx := Tab.put s.tx q.num r.handOver }
  | seq (s x) (h : a.seq = true) : Micro a s { s with seq := x }
  | macAddr (s m) (h : a.seq = true) : Micro a s { s with macAddr := m }
  | seqPolls (s n) (h : a.seq = true) : Micro a s { s with seqPolls := some n }
  | seqLink (s l) (h : a.seq = true) : Micro a s { s with seqLink := some l }
  | take (s v rest) (h : s.pending = v :: rest) (ha : a.seq = true) : Micro a s (s.accept v rest)
  | drop (s v rest) (h : s.pending = v :: rest) (ha : a.seq = true) : Micro a s { s with pending := rest }

/-- A chain of single updates. -/
abbrev Chain (a : Allow) : State → State → Prop := Relation.ReflTransGen (Micro a)

theorem Micro.mono {a b : Allow} (h : a.le b) {s t : State} (m : Micro a s t) : Micro b s t := by
  cases m with
  | emit => exact .emit ..
  | draw => exact .draw ..
  | setReg _ _ hr => exact .setReg _ _ _ hr
  | mdioWait => exact .mdioWait ..
  | unsyncedSub _ hu => exact .unsyncedSub _ _ hu
  | unsyncedCons => exact .unsyncedCons ..
  | rdmaWp => exact .rdmaWp ..
  | tdmaRp => exact .tdmaRp ..
  | hostByte => exact .hostByte ..
  | dmaByte => exact .dmaByte ..
  | memByte => exact .memByte ..
  | dirtyFilter => exact .dirtyFilter ..
  | staleFilter => exact .staleFilter ..
  | setDesc _ _ _ hi => exact .setDesc _ _ _ _ hi
  | initCb _ _ hi => exact .initCb _ _ _ hi
  | setOwner => exact .setOwner ..
  | dest => exact .dest ..
  | between => exact .between ..
  | mark => exact .mark ..
  | refuse => exact .refuse ..
  | result => exact .result ..
  | rxInit ha => exact .rxInit _ (h.2.1 ha)
  | rxDrops _ _ ha hr => exact .rxDrops _ _ _ (h.2.1 ha) hr
  | rxAdvance _ ha hr => exact .rxAdvance _ _ (h.2.1 ha) hr
  | txInit _ ha => exact .txInit _ _ (h.2.2 ha)
  | txReclaim _ _ _ ha hr hn => exact .txReclaim _ _ _ _ (h.2.2 ha) hr hn
  | txHandOver _ _ ha hr hf => exact .txHandOver _ _ _ (h.2.2 ha) hr hf
  | seq _ ha => exact .seq _ _ (h.1 ha)
  | macAddr _ ha => exact .macAddr _ _ (h.1 ha)
  | seqPolls _ ha => exact .seqPolls _ _ (h.1 ha)
  | seqLink _ ha => exact .seqLink _ _ (h.1 ha)
  | take _ _ hp ha => exact .take _ _ _ hp (h.1 ha)
  | drop v _ hp ha => exact .drop _ v _ hp (h.1 ha)

theorem Chain.mono {a b : Allow} (h : a.le b) {s t : State} (m : Chain a s t) : Chain b s t := by
  induction m with
  | refl => exact .refl
  | tail _ hm ih => exact .tail ih (hm.mono h)

/-- What every single update keeps, a chain keeps. -/
theorem Chain.keeps {a : Allow} {P : State → Prop} (h : ∀ s t, Micro a s t → P s → P t) {s t : State}
    (m : Chain a s t) (hs : P s) : P t := by
  induction m with
  | refl => exact hs
  | tail _ hm ih => exact h _ _ hm ih

/-- A reflexive and transitive relation that holds across every single update holds across a chain. -/
theorem Chain.rel {a : Allow} {R : State → State → Prop} (hr : ∀ s, R s s) (ht : ∀ s t u, R s t → R t u → R s u)
    (h : ∀ s t, Micro a s t → R s t) {s t : State} (m : Chain a s t) : R s t := by
  induction m with
  | refl => exact hr s
  | tail _ hm ih => exact ht _ _ _ ih (h _ _ hm)

/-- A field that no single update moves is not moved by a chain. -/
theorem Chain.same {a : Allow} {f : State → β} (h : ∀ s t, Micro a s t → f t = f s) {s t : State} (m : Chain a s t) :
    f t = f s :=
  Chain.rel (R := fun s t => f t = f s) (fun _ => rfl) (fun _ _ _ h1 h2 => h2.trans h1) h m

theorem Micro.same_rx {a : Allow} (h : a.rx = false) {s t : State} (m : Micro a s t) : t.rx = s.rx := by
  cases m <;> first | rfl | (simp; done) | simp_all

theorem Micro.same_tx {a : Allow} (h : a.tx = false) {s t : State} (m : Micro a s t) : t.tx = s.tx := by
  cases m <;> first | rfl | (simp; done) | simp_all

theorem Micro.same_seq {a : Allow} (h : a.seq = false) {s t : State} (m : Micro a s t) :
    (t.seq, t.macAddr, t.seqPolls, t.seqLink) = (s.seq, s.macAddr, s.seqPolls, s.seqLink) := by
  cases m <;> first | rfl | (simp; done) | simp_all

/-- The configuration never changes (log 3). -/
theorem Micro.same_cfg {a : Allow} {s t : State} (m : Micro a s t) : t.cfg = s.cfg := by
  cases m <;> first | rfl | simp

theorem Chain.same_rx {a : Allow} (h : a.rx = false) {s t : State} (m : Chain a s t) : t.rx = s.rx :=
  Chain.same (f := State.rx) (fun _ _ => Micro.same_rx h) m
theorem Chain.same_tx {a : Allow} (h : a.tx = false) {s t : State} (m : Chain a s t) : t.tx = s.tx :=
  Chain.same (f := State.tx) (fun _ _ => Micro.same_tx h) m
theorem Chain.same_seq {a : Allow} (h : a.seq = false) {s t : State} (m : Chain a s t) : t.seq = s.seq :=
  congrArg Prod.fst (Chain.same (f := fun s => (s.seq, s.macAddr, s.seqPolls, s.seqLink))
    (fun _ _ => Micro.same_seq h) m)
theorem Chain.same_cfg {a : Allow} {s t : State} (m : Chain a s t) : t.cfg = s.cfg :=
  Chain.same (f := State.cfg) (fun _ _ => Micro.same_cfg) m

/-! ### Operations as chains -/

/-- The state an operation leaves. -/
def stateOf : EStateM.Result Halt State α → State
  | .ok _ t => t
  | .error _ t => t

/-- Run from `s`, the operation is a chain. -/
def MovesAt (a : Allow) (x : Op α) (s : State) : Prop := Chain a s (stateOf (x s))

/-- Run from any state, the operation is a chain. -/
def Moves (a : Allow) (x : Op α) : Prop := ∀ s, MovesAt a x s

theorem MovesAt.bind {a : Allow} {x : Op α} {f : α → Op β} {s : State} (hx : MovesAt a x s)
    (hf : ∀ v t, x s = .ok v t → Chain a s t → MovesAt a (f v) t) : MovesAt a (x >>= f) s := by
  unfold MovesAt at *
  rw [op_bind]
  cases h : x s with
  | ok v t => rw [h] at hx; exact Relation.ReflTransGen.trans hx (hf v t h hx)
  | error e t => rw [h] at hx; exact hx

theorem Moves.bind {a : Allow} {x : Op α} {f : α → Op β} (hx : Moves a x) (hf : ∀ v, Moves a (f v)) :
    Moves a (x >>= f) := fun s => (hx s).bind fun v t _ _ => hf v t

theorem MovesAt.gets_bind {a : Allow} {g : State → α} {f : α → Op β} {s : State} (h : MovesAt a (f (g s)) s) :
    MovesAt a (Sys2Proof.Machine.gets g >>= f) s := h

theorem Moves.mono {a b : Allow} (h : a.le b) {x : Op α} (hx : Moves a x) : Moves b x := fun s => Chain.mono h (hx s)

theorem Moves.pure {a : Allow} (v : α) : Moves a (pure v : Op α) := fun _ => .refl
theorem Moves.gets {a : Allow} (f : State → α) : Moves a (gets f) := fun _ => .refl
theorem Moves.halt {a : Allow} (h : Halt) : Moves a (halt h : Op α) := fun _ => .refl
theorem Moves.haltIf {a : Allow} (c : Bool) (h : Halt) : Moves a (haltIf c h) := fun s => by
  unfold MovesAt; rw [haltIf_run]; split <;> exact .refl
theorem Moves.orHalt {a : Allow} (v : Option α) (h : Halt) : Moves a (orHalt v h) := fun s => by
  cases v <;> exact .refl
theorem Moves.upd {a : Allow} {f : State → State} (h : ∀ s, Chain a s (f s)) : Moves a (upd f) := h
theorem Moves.upd1 {a : Allow} {f : State → State} (h : ∀ s, Micro a s (f s)) : Moves a (Sys2Proof.Machine.upd f) :=
  fun s => .single (h s)
theorem Moves.ite {a : Allow} {c : Prop} [Decidable c] {x y : Op α} (hx : Moves a x) (hy : Moves a y) :
    Moves a (if c then x else y) := by split <;> assumption
theorem Moves.each {a : Allow} {f : β → Op Unit} (xs : List β) (h : ∀ x ∈ xs, Moves a (f x)) : Moves a (each xs f) := by
  induction xs with
  | nil => exact .pure ()
  | cons x xs ih => exact (h x (by simp)).bind fun _ => ih fun y hy => h y (by simp [hy])
theorem Moves.attempt {a : Allow} {x : Op α} (h : Moves a x) : Moves a (attempt x) := fun s => by
  have := h s
  unfold MovesAt at *
  rw [attempt_run]
  split <;> rename_i heq <;> rw [heq] at this <;> exact this

theorem emit_moves (a : Allow) (e : Event) : Moves a (emit e) := Moves.upd1 fun s => .emit s e
theorem drawNat_moves (a : Allow) : Moves a drawNat := fun s => .single (.draw s)
theorem drawBool_moves (a : Allow) : Moves a drawBool := (drawNat_moves a).bind fun _ => .pure _
theorem drawByte_moves (a : Allow) : Moves a drawByte := (drawNat_moves a).bind fun _ => .pure _
theorem drawHalf_moves (a : Allow) : Moves a drawHalf := (drawNat_moves a).bind fun _ => .pure _
theorem drawWord_moves (a : Allow) : Moves a drawWord := (drawNat_moves a).bind fun _ => .pure _
theorem drawBytes_moves (a : Allow) (n : Nat) : Moves a (drawBytes n) := by
  induction n with
  | zero => exact .pure _
  | succ n ih => exact (drawByte_moves a).bind fun _ => ih.bind fun _ => .pure _
theorem drawFrom_moves (a : Allow) (x : α) (xs : List α) : Moves a (drawFrom x xs) :=
  (drawNat_moves a).bind fun _ => .pure _

/-! ### Register accesses -/

theorem setReg_moves (a : Allow) {r : RegId} (h : r ≠ .sysRevCtrl) (v : Word) : Moves a (setReg r v) :=
  Moves.upd1 fun s => .setReg s r v h

theorem mdioComplete_moves (a : Allow) : Moves a mdioComplete :=
  (Moves.gets _).bind fun c => (Moves.gets _).bind fun w => by
    dsimp only
    split
    · exact (setReg_moves a (by simp) _).bind fun _ =>
        (Moves.upd1 fun s => .mdioWait s _).bind fun _ => emit_moves a _
    · exact (drawHalf_moves a).bind fun _ => (drawBool_moves a).bind fun _ =>
        (setReg_moves a (by simp) _).bind fun _ => (Moves.upd1 fun s => .mdioWait s _).bind fun _ => emit_moves a _

theorem mdioStart_moves (a : Allow) : Moves a mdioStart := (drawNat_moves a).bind fun n => by
  split
  · exact Moves.upd1 fun s => .mdioWait s _
  · exact mdioComplete_moves a
  · exact Moves.upd1 fun s => .mdioWait s _

theorem mdioCount_moves (a : Allow) : Moves a mdioCount := (Moves.gets _).bind fun w => by
  split
  · exact mdioComplete_moves a
  · exact Moves.upd1 fun s => .mdioWait s _
  · exact .pure _
  · exact .pure _

theorem setPending_moves (a : Allow) (x : IntrlId) : Moves a (setPending x) :=
  (drawNat_moves a).bind fun _ => Moves.upd1 fun s => .setReg s _ _ (by simp)
theorem setDmaStatus_moves (a : Allow) (d : Dir) : Moves a (setDmaStatus d) :=
  (drawWord_moves a).bind fun _ => setReg_moves a (by simp) _

theorem readEffect_moves (a : Allow) (r : RegId) : Moves a (readEffect r) := by
  unfold readEffect
  split
  · exact mdioCount_moves a
  · exact .pure _

theorem mmioRead_moves (a : Allow) (r : RegId) : Moves a (mmioRead r) :=
  (Moves.gets _).bind fun _ => (emit_moves a _).bind fun _ =>
    (readEffect_moves a r).bind fun _ => .pure _

/-- No filter register or other soft-reset register is `SYS_REV_CTRL` (R342). -/
theorem sysRev_not_umac (c : Config) : ∀ r ∈ umacRegs c, r ≠ .sysRevCtrl := by
  intro r hr
  simp only [umacRegs, mdfAddrRegs, List.mem_cons, List.mem_map, List.mem_range] at hr
  rcases hr with rfl | rfl | rfl | rfl | rfl | rfl | ⟨j, -, rfl⟩ <;> simp

theorem umacSoftReset_moves (a : Allow) : Moves a umacSoftReset := (Moves.gets _).bind fun c =>
  Moves.each _ fun r hr => (drawWord_moves a).bind fun _ => setReg_moves a (sysRev_not_umac c r hr) _

theorem writeEffect_moves (a : Allow) (r : RegId) (old v : Word) : Moves a (writeEffect r old v) :=
  (Moves.gets _).bind fun c => by
    split
    · exact .ite (umacSoftReset_moves a) (.pure _)
    · exact .ite (mdioStart_moves a) (.pure _)
    · exact Moves.upd1 fun s => .setReg s _ _ (by simp)
    · exact Moves.upd1 fun s => .setReg s _ _ (by simp)
    · exact Moves.upd1 fun s => .setReg s _ _ (by simp)
    · exact .ite (Moves.upd1 fun s => .rdmaWp s _) (.pure _)
    · exact Moves.upd1 fun s => .tdmaRp s _ _
    · exact .pure _

theorem mmioWrite_moves (a : Allow) (r : RegId) (v : Word) : Moves a (mmioWrite r v) := by
  unfold mmioWrite
  split
  · exact emit_moves a _
  · next h =>
    have hr : r ≠ .sysRevCtrl := by rintro rfl; exact h rfl
    exact (Moves.gets _).bind fun _ => (Moves.haltIf _ _).bind fun _ => (Moves.gets _).bind fun _ =>
      (setReg_moves a hr v).bind fun _ => (emit_moves a _).bind fun _ => writeEffect_moves a r _ v

/-! ### Memory and cache -/

/-- A host write of a descriptor word (R69). -/
theorem writeDesc_chain (a : Allow) (s : State) (d : Dir) {i : Nat} (hi : i < nDesc) (k : DescWord) (v : Word) :
    Chain a s (s.writeDesc d i k v) := by
  unfold State.writeDesc
  simp only
  split
  · exact .single (.setDesc s d i _ hi)
  · exact .tail (.single (.setDesc s d i _ hi))
      (by simpa using Micro.unsyncedCons (a := a) (s.setDesc d i ((s.desc d i).setWord k v)) _)

theorem hostWriteByte_chain (a : Allow) (s : State) (b : Nat) (v : Byte) : Chain a s (s.hostWriteByte b v) := by
  unfold State.hostWriteByte
  split
  · next h => exact writeDesc_chain a s _ (poolByte?_bounds h).1 _ _
  · exact .single (.hostByte s b v)

theorem dmaWriteByte_chain (a : Allow) (s : State) (b : Nat) (v : Byte) : Chain a s (s.dmaWriteByte b v) := by
  unfold State.dmaWriteByte
  split
  · next h => exact .single (.setDesc s _ _ _ (poolByte?_bounds h).1)
  · exact .single (.dmaByte s b v)

theorem writeBytes_chain {a : Allow} {f : State → Nat → Byte → State} (hf : ∀ s b v, Chain a s (f s b v)) (p : Word)
    (k : Nat) (bs : List Byte) (s : State) : Chain a s (writeBytes f p k bs s) := by
  induction bs generalizing k s with
  | nil => exact .refl
  | cons b bs ih => exact .trans (hf s _ b) (ih _ _)

theorem dmaReadByte_moves (a : Allow) (b : Nat) : Moves a (dmaReadByte b) :=
  (Moves.gets _).bind fun _ => (Moves.gets _).bind fun d => by
    split
    · exact .pure _
    · exact (drawBool_moves a).bind fun _ => .pure _

theorem hostReadByte_moves (a : Allow) (b : Nat) : Moves a (hostReadByte b) :=
  (Moves.gets _).bind fun _ => (Moves.gets _).bind fun d => by
    split
    · exact .pure _
    · exact (drawBool_moves a).bind fun _ => .pure _

theorem readBytes_moves {a : Allow} {f : Nat → Op Byte} (hf : ∀ b, Moves a (f b)) (p : Word) (k n : Nat) :
    Moves a (readBytes f p k n) := by
  induction n generalizing k with
  | zero => exact .pure _
  | succ n ih => exact (hf _).bind fun _ => (ih _).bind fun _ => .pure _

theorem hostWrite_moves (a : Allow) (p : Word) (bs : List Byte) : Moves a (hostWrite p bs) :=
  (Moves.gets _).bind fun _ => (Moves.haltIf _ _).bind fun _ =>
    (Moves.upd fun s => writeBytes_chain (hostWriteByte_chain a) p 0 bs s).bind fun _ =>
      (Moves.gets _).bind fun _ => .haltIf _ _
theorem hostRead_moves (a : Allow) (p : Word) (n : Nat) : Moves a (hostRead p n) :=
  readBytes_moves (hostReadByte_moves a) p 0 n
theorem dmaWrite_moves (a : Allow) (g : Agent) (p : Word) (bs : List Byte) : Moves a (dmaWrite g p bs) :=
  (Moves.upd fun s => writeBytes_chain (dmaWriteByte_chain a) p 0 bs s).bind fun _ => emit_moves a _
theorem dmaRead_moves (a : Allow) (g : Agent) (p : Word) (n : Nat) : Moves a (dmaRead g p n) :=
  (readBytes_moves (dmaReadByte_moves a) p 0 n).bind fun _ => (emit_moves a _).bind fun _ => .pure _

theorem Moves.whenCached {a : Allow} {x : Op Unit} (h : Moves a x) : Moves a (whenCached x) := fun s => by
  have := h s
  unfold MovesAt Sys2Proof.Machine.whenCached at *
  split
  · exact this
  · exact .refl

theorem cleanBytes_chain {a : Allow} (bs m : List Host.Cell) (s : State) :
    Chain a { s with mem := m } { s with mem := cleanBytes m bs } := by
  induction bs generalizing m with
  | nil => exact .refl
  | cons e bs ih => exact .trans (.single (.memByte { s with mem := m } e.1 e.2)) (ih _)

theorem writeBackLines_moves (a : Allow) (p : Word) (n : Nat) : Moves a (writeBackLines p n) := Moves.upd fun s =>
  .tail (cleanBytes_chain (s.dirtyIn p n) s.mem s) (.dirtyFilter { s with mem := cleanBytes s.mem (s.dirtyIn p n) } _)

theorem cacheClean_moves (a : Allow) (p : Word) (n : Nat) : Moves a (cacheClean p n) :=
  (writeBackLines_moves a p n).whenCached.bind fun _ => emit_moves a _

theorem discardBytes_moves (a : Allow) (bs : List Host.Cell) : Moves a (discardBytes bs) := by
  induction bs with
  | nil => exact .pure _
  | cons e bs ih =>
    exact (drawBool_moves a).bind fun b => (Moves.upd fun s => by
      split
      · exact .single (.memByte s _ _)
      · exact .refl).bind fun _ => ih

theorem dropLines_moves (a : Allow) (p : Word) (n : Nat) : Moves a (dropLines p n) :=
  (Moves.gets _).bind fun _ => (discardBytes_moves a _).bind fun _ => Moves.upd fun s =>
    .tail (.single (.dirtyFilter s _)) (.staleFilter { s with cpuDirty := s.dirtyOut p n } _)

theorem cacheInvalidate_moves (a : Allow) (p : Word) (n : Nat) : Moves a (cacheInvalidate p n) :=
  (dropLines_moves a p n).whenCached.bind fun _ => emit_moves a _
theorem cacheCleanInvalidate_moves (a : Allow) (p : Word) (n : Nat) : Moves a (cacheCleanInvalidate p n) :=
  (cacheClean_moves a p n).bind fun _ => cacheInvalidate_moves a p n
theorem barrier_moves (a : Allow) : Moves a barrier :=
  (Moves.upd1 fun s => .unsyncedSub s _ (List.nil_sublist _)).bind fun _ => emit_moves a _
theorem delay_moves (a : Allow) (n : DelayName) : Moves a (delay n) := emit_moves a _

/-! ### Descriptors and control blocks -/

theorem readCb_moves (a : Allow) (d : Dir) (i : Nat) : Moves a (readCb d i) := (Moves.gets _).bind fun _ => .orHalt _ _
theorem setOwner_moves (a : Allow) (d : Dir) (i : Nat) (o : Owner) : Moves a (setOwner d i o) :=
  Moves.upd1 fun s => .setOwner s d i o
theorem inPool_moves (a : Allow) (i : Nat) : Moves a (inPool i) := .haltIf _ _

/-- What runs after `inPool i` runs with `i` in the pool. -/
theorem MovesAt.inPool_bind {a : Allow} {i : Nat} {f : Unit → Op β} {s : State}
    (h : i < nDesc → MovesAt a (f ()) s) : MovesAt a (inPool i >>= f) s := by
  refine MovesAt.bind (inPool_moves a i s) fun v t hv _ => ?_
  unfold inPool at hv
  rw [haltIf_run] at hv
  split at hv
  · cases hv
  · next hi => cases hv; exact h (by simpa using hi)

theorem hostReadDesc_moves (a : Allow) (d : Dir) (i : Nat) (k : DescWord) : Moves a (hostReadDesc d i k) :=
  (inPool_moves a i).bind fun _ => .gets _

theorem hostWriteDesc_moves (a : Allow) (d : Dir) (i : Nat) (k : DescWord) (v : Word) :
    Moves a (hostWriteDesc d i k v) := fun s => MovesAt.inPool_bind fun hi =>
  (show Moves a _ from (Moves.gets _).bind fun _ => (Moves.haltIf _ _).bind fun _ =>
    Moves.upd fun s => writeDesc_chain a s d hi k v) s

theorem checkAlias_moves (a : Allow) (w2 w1 : Word) : Moves a (checkAlias w2 w1) :=
  (Moves.gets _).bind fun _ => .haltIf _ _

theorem fetchWord_moves (a : Allow) (d : Dir) (i : Nat) (k : DescWord) : Moves a (fetchWord d i k) :=
  (Moves.gets _).bind fun _ => (Moves.gets _).bind fun _ => by
    split
    · exact .pure _
    · exact drawFrom_moves a _ _

theorem fetchDesc_moves (a : Allow) (g : Agent) (d : Dir) (i : Nat) : Moves a (fetchDesc g d i) :=
  (inPool_moves a i).bind fun _ => (readCb_moves a d i).bind fun _ => (fetchWord_moves a d i _).bind fun _ =>
    (fetchWord_moves a d i _).bind fun _ => (fetchWord_moves a d i _).bind fun _ => (Moves.gets _).bind fun _ =>
      (emit_moves a _).bind fun _ => .pure _

/-! ### DMA agents -/

theorem storedBytes_moves (a : Allow) (f : List Byte) (st : RxStatus) : Moves a (storedBytes f st) :=
  (Moves.gets _).bind fun _ => (drawBytes_moves a _).bind fun _ =>
    (show Moves a (storedBody f st) from .ite (drawBytes_moves a _) (.pure _)).bind fun _ =>
      (Moves.gets _).bind fun _ => (drawBytes_moves a _).bind fun _ => .pure _

theorem advanceWp_moves (a : Allow) (r : RxRing) (cb : Nat) : Moves a (advanceWp r cb) := Moves.upd fun s =>
  .tail (.single (.rdmaWp s (ringNext r.cbBase r.endPtr cb)))
    (.setReg { s with rdmaWp := ringNext r.cbBase r.endPtr cb } _ _ (by simp))

theorem fillOne_moves (a : Allow) (r : RxRing) (c : List Byte) (x y : Bool) (st : RxStatus) :
    Moves a (fillOne r c x y st) := fun s => MovesAt.gets_bind (MovesAt.bind (fetchDesc_moves a _ _ _ s)
  fun d t hd _ => by
    have hi : s.rdmaWp < nDesc := by
      by_contra hn
      have : fetchDesc .rdma .rx s.rdmaWp s = .error (.fault .descriptorOutsidePool) s := by
        simp [fetchDesc, inPool, Nat.not_lt.mp hn]
      rw [this] at hd; cases hd
    exact (show Moves a _ from (Moves.gets _).bind fun _ => (dmaWrite_moves a _ _ _).bind fun _ =>
      (Moves.upd1 fun s => .setDesc s _ _ _ hi).bind fun _ => (emit_moves a _).bind fun _ =>
        (advanceWp_moves a r _).bind fun _ => setOwner_moves a _ _ _) t)

theorem fillAll_moves (a : Allow) (r : RxRing) (st : RxStatus) (first : Bool) (cs : List (List Byte)) :
    Moves a (fillAll r st first cs) := by
  induction cs generalizing first with
  | nil => exact .pure _
  | cons c cs ih =>
    cases cs with
    | nil => exact fillOne_moves a r c _ _ st
    | cons c' cs => exact (fillOne_moves a r c _ _ _).bind fun _ => ih false

theorem bumpIndex_moves (a : Allow) {r : RegId} (h : r ≠ .sysRevCtrl) (n : Nat) : Moves a (bumpIndex r n) :=
  Moves.upd1 fun s => .setReg s r _ h

theorem rdmaFill_moves (a : Allow) (r : RxRing) (f : List Byte) (st : RxStatus) : Moves a (rdmaFill r f st) :=
  (storedBytes_moves a f st).bind fun _ => (fillAll_moves a r st _ _).bind fun _ =>
    (bumpIndex_moves a (by simp) _).bind fun _ => emit_moves a _

theorem rdmaDiscard_moves (a : Allow) : Moves a rdmaDiscard :=
  (Moves.upd1 fun s => .setReg s _ _ (by simp)).bind fun _ => emit_moves a _

theorem rdmaDeliver_moves (a : Allow) (f : List Byte) (st : RxStatus) : Moves a (rdmaDeliver f st) :=
  (Moves.gets _).bind fun _ => .ite (.pure _) ((Moves.gets _).bind fun o => by
    cases o with
    | none => exact .halt _
    | some r =>
      exact (Moves.gets _).bind fun _ => (Moves.gets _).bind fun _ => .ite (.pure _)
        (.ite ((rdmaDiscard_moves a).bind fun _ => .pure _) ((rdmaFill_moves a r f st).bind fun _ => .pure _)))

theorem rdmaDrop_moves (a : Allow) (f : List Byte) : Moves a (rdmaDrop f) :=
  (Moves.gets _).bind fun _ => .ite (.pure _) ((Moves.gets _).bind fun o => by
    cases o with
    | none => exact .halt _
    | some r =>
      exact (Moves.gets _).bind fun _ => (Moves.gets _).bind fun _ =>
        .ite ((rdmaDiscard_moves a).bind fun _ => .pure _) (.pure _))

theorem eligible_moves (a : Allow) (q : TxQueue) : Moves a (eligible q) :=
  (Moves.gets _).bind fun _ => .ite (.pure _) ((Moves.gets _).bind fun _ => .ite (drawBool_moves a) (.pure _))

theorem eligibleOf_moves (a : Allow) (qs : List TxQueue) : Moves a (eligibleOf qs) := by
  induction qs with
  | nil => exact .pure _
  | cons q qs ih => exact (eligible_moves a q).bind fun _ => ih.bind fun _ => .pure _

theorem arbSelect_moves (a : Allow) : Moves a arbSelect := (eligibleOf_moves a _).bind fun l => by
  cases l with
  | nil => exact .pure _
  | cons q qs =>
    exact (Moves.gets _).bind fun _ =>
      .ite ((Moves.gets _).bind fun _ => .pure _) ((drawFrom_moves a _ _).bind fun _ => .pure _)

theorem txBytes_moves (a : Allow) (c : Config) (w0 : Word) (bs : List Byte) : Moves a (txBytes c w0 bs) :=
  .ite ((drawNat_moves a).bind fun _ => drawBytes_moves a _) (.pure _)

theorem tdmaSend_moves (a : Allow) (q : TxQueue) (r : TxRing) : Moves a (tdmaSend q r) :=
  (Moves.gets _).bind fun cb => (fetchDesc_moves a _ _ _).bind fun _ => (Moves.gets _).bind fun _ =>
    (dmaRead_moves a _ _ _).bind fun _ => (txBytes_moves a _ _ _).bind fun _ => (emit_moves a _).bind fun _ =>
      (Moves.upd fun s => .tail (.single (.tdmaRp s q.ring (ringNext r.cbBase r.endPtr cb)))
        (.setReg { s with tdmaRp := Tab.put s.tdmaRp q.num (ringNext r.cbBase r.endPtr cb) } _ _ (by simp))).bind
          fun _ => bumpIndex_moves a (by simp) 1

theorem tdmaTransmit_moves (a : Allow) : Moves a tdmaTransmit :=
  (Moves.gets _).bind fun _ => .ite (.pure _) ((arbSelect_moves a).bind fun o => by
    cases o with
    | none => exact .pure _
    | some q =>
      exact (Moves.gets _).bind fun o => by
        cases o with
        | none => exact .halt _
        | some r => exact (tdmaSend_moves a q r).bind fun _ => .pure _)

theorem agentOp_moves (a : Allow) (x : AgentStep) : Moves a (agentOp x) := by
  cases x with
  | deliver f st => exact rdmaDeliver_moves a f st
  | drop f => exact rdmaDrop_moves a f
  | transmit => exact tdmaTransmit_moves a
  | phy => exact (Moves.gets _).bind fun _ => .ite (.pure _) ((mdioComplete_moves a).bind fun _ => .pure _)
  | interrupts x => exact (setPending_moves a x).bind fun _ => .pure _
  | dmaStatus d => exact (setDmaStatus_moves a d).bind fun _ => .pure _

theorem agentMove_chain (a : Allow) (s : State) (x : AgentStep) : Chain a s (agentMove s x) := by
  have := agentOp_moves a x s
  unfold MovesAt at this
  unfold agentMove
  split <;> rename_i heq <;> rw [heq] at this
  · exact this
  · exact .tail this (.mark _ _)
  · exact this

theorem agentMoves_chain (a : Allow) (gap : List AgentStep) (s : State) : Chain a s (gap.foldl agentMove s) := by
  induction gap generalizing s with
  | nil => exact .refl
  | cons x xs ih => exact .trans (agentMove_chain a s x) (ih _)

theorem agentSteps_chain (a : Allow) (gap : List AgentStep) (s : State) : Chain a s (s.agentSteps gap) := by
  unfold State.agentSteps
  split
  · exact agentMoves_chain a gap s
  · exact .refl

theorem runGap_chain (a : Allow) (s : State) : Chain a s (runGap s) := by
  unfold runGap
  split
  · exact .refl
  · next gap rest _ => exact .trans (.single (.between s rest)) (agentMoves_chain a gap _)

theorem Moves.hostStep {a : Allow} {x : Op α} (h : Moves a x) : Moves a (hostStep x) := fun s =>
  Relation.ReflTransGen.trans (runGap_chain a s) (h (runGap s))

/-! ### Host steps -/

theorem hRead_moves (a : Allow) (r : RegId) : Moves a (hRead r) := (mmioRead_moves a r).hostStep
theorem hWrite_moves (a : Allow) (r : RegId) (v : Word) : Moves a (hWrite r v) := (mmioWrite_moves a r v).hostStep
theorem hField_moves (a : Allow) (r : RegId) (p : RegPos → FieldPos) (v : Nat) : Moves a (hField r p v) :=
  (Moves.gets _).bind fun _ => (hRead_moves a r).bind fun _ => hWrite_moves a r _
theorem hDescRead_moves (a : Allow) (d : Dir) (i : Nat) (k : DescWord) : Moves a (hDescRead d i k) :=
  (hostReadDesc_moves a d i k).hostStep
theorem hDescWrite_moves (a : Allow) (d : Dir) (i : Nat) (k : DescWord) (v : Word) : Moves a (hDescWrite d i k v) :=
  (hostWriteDesc_moves a d i k v).hostStep
theorem hDescAddr_moves (a : Allow) (d : Dir) (i : Nat) (w2 w1 : Word) : Moves a (hDescAddr d i w2 w1) :=
  (hDescWrite_moves a d i _ _).bind fun _ => (hDescWrite_moves a d i _ _).bind fun _ => checkAlias_moves a _ _
theorem hCopyOut_moves (a : Allow) (p : Word) (bs : List Byte) : Moves a (hCopyOut p bs) :=
  (hostWrite_moves a p bs).hostStep
theorem hCopyIn_moves (a : Allow) (p : Word) (n : Nat) : Moves a (hCopyIn p n) := (hostRead_moves a p n).hostStep
theorem hClean_moves (a : Allow) (p : Word) (n : Nat) : Moves a (hClean p n) := (cacheClean_moves a p n).hostStep
theorem hInvalidate_moves (a : Allow) (p : Word) (n : Nat) : Moves a (hInvalidate p n) :=
  (cacheInvalidate_moves a p n).hostStep
theorem hCleanInvalidate_moves (a : Allow) (p : Word) (n : Nat) : Moves a (hCleanInvalidate p n) :=
  (cacheCleanInvalidate_moves a p n).hostStep
theorem hBarrier_moves (a : Allow) : Moves a hBarrier := (barrier_moves a).hostStep
theorem hDelay_moves (a : Allow) (n : DelayName) : Moves a (hDelay n) := (delay_moves a n).hostStep

/-! ### Pool -/

theorem poolInit_moves (a : Allow) (d : Dir) (n : Nat) : Moves a (poolInit d n) :=
  (Moves.gets _).bind fun _ => (Moves.haltIf _ _).bind fun _ => (Moves.haltIf _ _).bind fun _ =>
    Moves.each _ fun i hi => (hDescWrite_moves a d i _ _).bind fun _ => (hDescWrite_moves a d i _ _).bind fun _ =>
      (hDescWrite_moves a d i _ _).bind fun _ => Moves.upd1 fun s => .initCb s d i (List.mem_range.mp hi)

theorem writeBufAddr_moves (a : Allow) (d : Dir) (i : Nat) (b : Word) : Moves a (writeBufAddr d i b) :=
  (Moves.gets _).bind fun _ => hDescAddr_moves a d i _ _

theorem poolRefill_moves (a : Allow) (d : Dir) (i : Nat) : Moves a (poolRefill d i) :=
  (readCb_moves a d i).bind fun _ => (Moves.haltIf _ _).bind fun _ => (Moves.gets _).bind fun _ =>
    (Moves.haltIf _ _).bind fun _ => (show Moves a (refillCache d _) by
      cases d
      · exact hCleanInvalidate_moves a _ _
      · exact .pure _).bind fun _ => writeBufAddr_moves a d _ _

/-! ### Receive ring -/

theorem rxRingInit_moves {a : Allow} (h : a.rx = true) : Moves a rxRingInit :=
  (Moves.gets _).bind fun _ => (Moves.gets _).bind fun _ => (Moves.haltIf _ _).bind fun _ => (Moves.gets _).bind fun _ =>
    (Moves.upd1 fun s => .rxInit s h).bind fun _ =>
      (Moves.each _ fun i _ => (poolRefill_moves a .rx i).bind fun _ => setOwner_moves a _ _ _).bind fun _ =>
      (hWrite_moves a _ _).bind fun _ => (hWrite_moves a _ _).bind fun _ => (hWrite_moves a _ _).bind fun _ =>
      (hWrite_moves a _ _).bind fun _ => (hWrite_moves a _ _).bind fun _ => (hWrite_moves a _ _).bind fun _ =>
      (hWrite_moves a _ _).bind fun _ => (hWrite_moves a _ _).bind fun _ => (hField_moves a _ _ _).bind fun _ =>
      hField_moves a _ _ _

theorem rxCopy_moves (a : Allow) (v : Except Err Nat) (dest : List Byte) (buf : Word) : Moves a (rxCopy v dest buf) := by
  cases v with
  | error e => exact .pure _
  | ok n => exact (hCopyIn_moves a _ _).bind fun _ => (Moves.upd1 fun s => .dest s _).bind fun _ => .pure _

/-- Before its advance RX_RECV does not write the ring record, so the record it advances is the one it read. -/
theorem rxTake_movesAt {a : Allow} (h : a.rx = true) (r : RxRing) (dest : List Byte) {s : State} (hs : s.rx = some r) :
    MovesAt a (rxTake r dest) s := by
  have head : Moves Allow.none (do
      hBarrier
      let b ← readCb .rx r.readPtr
      let c ← gets (·.cfg)
      hInvalidate (cbBuf c .rx r.readPtr) bufLen
      let w0 ← hDescRead .rx b.descIndex .w0
      let result ← rxCopy (rxVerdict c dest.length w0) dest (cbBuf c .rx r.readPtr)
      poolRefill .rx r.readPtr
      return result : Op Result) :=
    (hBarrier_moves _).bind fun _ => (readCb_moves _ _ _).bind fun _ => (Moves.gets _).bind fun _ =>
      (hInvalidate_moves _ _ _).bind fun _ => (hDescRead_moves _ _ _ _).bind fun _ =>
        (rxCopy_moves _ _ _ _).bind fun _ => (poolRefill_moves _ _ _).bind fun _ => .pure _
  have split : rxTake r dest = (do
      let result ← (do
        hBarrier
        let b ← readCb .rx r.readPtr
        let c ← gets (·.cfg)
        hInvalidate (cbBuf c .rx r.readPtr) bufLen
        let w0 ← hDescRead .rx b.descIndex .w0
        let result ← rxCopy (rxVerdict c dest.length w0) dest (cbBuf c .rx r.readPtr)
        poolRefill .rx r.readPtr
        return result : Op Result)
      upd fun s => { s with rx := some r.advance }
      setOwner .rx r.readPtr .hw
      hBarrier
      hWrite (rxReg .consIndex) (indexWord r.advance.cIndex)
      return result) := by
    funext u
    simp only [rxTake, op_bind]
    repeat' (first | rfl | split)
  rw [split]
  refine MovesAt.bind (Chain.mono (Allow.none_le a) (head s)) fun v t hv _ => ?_
  have ht : t.rx = some r := by
    have := Chain.same_rx rfl (head s)
    rw [hv] at this
    exact this.trans hs
  refine MovesAt.bind (.single (.rxAdvance t r h ht)) fun _ u _ _ => ?_
  exact ((setOwner_moves a _ _ _).bind fun _ => (hBarrier_moves a).bind fun _ => (hWrite_moves a _ _).bind fun _ =>
    .pure _) u

theorem rxRecv_moves {a : Allow} (h : a.rx = true) (dest : List Byte) : Moves a (rxRecv dest) := by
  refine (Moves.gets _).bind fun _ => (Moves.haltIf _ _).bind fun _ => (Moves.gets _).bind fun c =>
    (Moves.haltIf _ _).bind fun _ => (hRead_moves a _).bind fun p s => ?_
  refine MovesAt.bind ((show Moves a readRx from (Moves.gets _).bind fun _ => .orHalt _ _) s) fun r t hr _ => ?_
  have ht : t.rx = some r := by
    simp only [readRx, op_bind, gets_run] at hr
    cases hs : s.rx with
    | none => rw [hs] at hr; cases hr
    | some r' => rw [hs] at hr; cases hr; exact hs
  refine MovesAt.bind ?_ fun _ u hu _ => ?_
  · unfold surfaceDrops
    split
    · refine MovesAt.bind (.single (.rxDrops t r _ h ht)) fun _ u _ _ => ?_
      exact Moves.halt _ u
    · exact Moves.pure _ t
  · have hu' : u = t := by
      unfold surfaceDrops at hu
      split at hu
      · simp at hu
      · simp only [op_pure] at hu; cases hu; rfl
    subst hu'
    split
    · exact Moves.pure _ u
    · refine MovesAt.bind (Moves.haltIf _ _ u) fun _ v hv _ => ?_
      have hv' : v = u := by
        rw [haltIf_run] at hv
        split at hv <;> cases hv
        rfl
      subst hv'
      exact rxTake_movesAt h r dest ht

/-! ### Transmit rings -/

theorem initTxQueue_moves {a : Allow} (h : a.tx = true) (q : TxQueue) : Moves a (initTxQueue q) :=
  (show Moves a (initTxRing q) from (Moves.gets _).bind fun _ => (Moves.upd1 fun s => .txInit s q h).bind fun _ =>
    (Moves.each _ fun _ _ => setOwner_moves a _ _ _).bind fun _ =>
    (hWrite_moves a _ _).bind fun _ => (hWrite_moves a _ _).bind fun _ => (hWrite_moves a _ _).bind fun _ =>
    (hWrite_moves a _ _).bind fun _ => (hWrite_moves a _ _).bind fun _ => (hWrite_moves a _ _).bind fun _ =>
    hWrite_moves a _ _).bind fun _ => (Moves.gets _).bind fun _ => hWrite_moves a _ _

theorem txQueuesInit_moves {a : Allow} (h : a.tx = true) : Moves a txQueuesInit :=
  (Moves.gets _).bind fun _ => (Moves.gets _).bind fun _ => (Moves.haltIf _ _).bind fun _ => (Moves.gets _).bind fun _ =>
    (hRead_moves a _).bind fun _ => (hWrite_moves a _ _).bind fun _ => (hField_moves a _ _ _).bind fun _ =>
    (Moves.each _ fun q _ => initTxQueue_moves h q).bind fun _ =>
    (hWrite_moves a _ _).bind fun _ => (hWrite_moves a _ _).bind fun _ => (hWrite_moves a _ _).bind fun _ =>
    (hWrite_moves a _ _).bind fun _ => hWrite_moves a _ _

theorem releaseBds_moves (a : Allow) (r : TxRing) (n p : Nat) : Moves a (releaseBds r n p) := by
  induction n generalizing p with
  | zero => exact .pure _
  | succ n ih => exact (setOwner_moves a _ _ _).bind fun _ => ih _

/-- Releasing `n` control blocks ends at the cursor `n` advances on (R185, R42). -/
theorem releaseBds_run (r : TxRing) (n p : Nat) (s : State) : ∃ t, releaseBds r n p s = .ok (r.nextN n p) t := by
  induction n generalizing p s with
  | zero => exact ⟨s, rfl⟩
  | succ n ih => exact ih _ _

theorem txReclaim_moves {a : Allow} (h : a.tx = true) (q : TxQueue) : Moves a (txReclaim q) := fun s => by
  refine MovesAt.gets_bind ?_
  cases hr : Tab.get? s.tx q.num with
  | none => exact .refl
  | some r =>
    refine MovesAt.bind (Moves.orHalt _ _ s) fun r' t ht _ => ?_
    cases ht
    refine MovesAt.bind (hRead_moves a _ s) fun w t ht _ => ?_
    have h1 : t.tx = s.tx := by
      have := Chain.same_tx rfl (hRead_moves Allow.none (txReg q .consIndex) s)
      rw [ht] at this
      exact this
    refine MovesAt.bind (Moves.haltIf _ _ t) fun _ t' ht' _ => ?_
    rw [haltIf_run] at ht'
    split at ht'
    · cases ht'
    next hn =>
    cases ht'
    refine MovesAt.bind (hBarrier_moves a t) fun _ u hu _ => ?_
    have h2 : u.tx = t.tx := by
      have := Chain.same_tx rfl (hBarrier_moves Allow.none t)
      rw [hu] at this
      exact this
    refine MovesAt.bind (releaseBds_moves a r _ _ u) fun p v hv _ => ?_
    have h3 : v.tx = u.tx := by
      have := Chain.same_tx rfl (releaseBds_moves Allow.none r (pendingCount (indexOf w) r.cIndex) r.cleanPtr u)
      rw [hv] at this
      exact this
    obtain ⟨v', hv'⟩ := releaseBds_run r (pendingCount (indexOf w) r.cIndex) r.cleanPtr u
    rw [hv'] at hv
    cases hv
    refine MovesAt.bind (.single (.txReclaim v q r (indexOf w) h (by rw [h3, h2, h1, hr]) (by simpa using hn)))
      fun _ y _ _ => ?_
    exact Moves.pure _ y

theorem txFill_movesAt {a : Allow} (h : a.tx = true) (q : TxQueue) (r : TxRing) (i : Nat) (bs : List Byte) {s : State}
    (hs : Tab.get? s.tx q.num = some r) (hf : r.freeBds ≠ 0) : MovesAt a (txFill q r i bs) s := by
  have head : Moves Allow.none (do
      let c ← gets (·.cfg)
      hCopyOut (cbBuf c .tx r.writePtr) bs
      hClean (cbBuf c .tx r.writePtr) bs.length
      writeBufAddr .tx i (cbBuf c .tx r.writePtr)
      hDescWrite .tx i .w0 (txW0 c bs.length)
      setOwner .tx r.writePtr .hw : Op Unit) :=
    (Moves.gets _).bind fun _ => (hCopyOut_moves _ _ _).bind fun _ => (hClean_moves _ _ _).bind fun _ =>
      (writeBufAddr_moves _ _ _ _).bind fun _ => (hDescWrite_moves _ _ _ _ _).bind fun _ => setOwner_moves _ _ _ _
  have split : txFill q r i bs = (do
      (do
        let c ← gets (·.cfg)
        hCopyOut (cbBuf c .tx r.writePtr) bs
        hClean (cbBuf c .tx r.writePtr) bs.length
        writeBufAddr .tx i (cbBuf c .tx r.writePtr)
        hDescWrite .tx i .w0 (txW0 c bs.length)
        setOwner .tx r.writePtr .hw : Op Unit)
      setTx q r.handOver
      hBarrier
      hWrite (txReg q .prodIndex) (indexWord r.handOver.prodIndex)) := by
    funext u
    simp only [txFill, op_bind]
    repeat' (first | rfl | split)
  rw [split]
  refine MovesAt.bind (Chain.mono (Allow.none_le a) (head s)) fun v t hv _ => ?_
  have ht : t.tx = s.tx := by
    have := Chain.same_tx rfl (head s)
    rw [hv] at this
    exact this
  refine MovesAt.bind (.single (.txHandOver t q r h (by rw [ht, hs]) hf)) fun _ u _ _ => ?_
  exact ((hBarrier_moves a).bind fun _ => hWrite_moves a _ _) u

theorem readTx_run {q : TxQueue} {s t : State} {r : TxRing} (h : readTx q s = .ok r t) :
    t = s ∧ Tab.get? s.tx q.num = some r := by
  simp only [readTx, op_bind, gets_run] at h
  cases hs : Tab.get? s.tx q.num with
  | none => rw [hs] at h; cases h
  | some r' => rw [hs] at h; cases h; exact ⟨rfl, rfl⟩

theorem readTx_moves (a : Allow) (q : TxQueue) : Moves a (readTx q) := (Moves.gets _).bind fun _ => .orHalt _ _

theorem checkPayload_run {c : Config} {r : TxRing} {n : Nat} {s t : State} (h : checkPayload c r n s = .ok () t) :
    t = s ∧ n ≠ 0 ∧ n ≤ min c.mtu bufLen ∧ r.freeBds ≠ 0 := by
  simp only [checkPayload, op_bind, haltIf_run, decide_eq_true_eq] at h
  by_cases h0 : n = 0
  · simp [h0] at h
  by_cases h1 : min c.mtu bufLen < n
  · simp [h0, h1] at h
  by_cases h2 : r.freeBds = 0
  · simp [h0, h1, h2] at h
  simp only [h0, h1, h2, if_false] at h
  cases h
  exact ⟨rfl, h0, Nat.not_lt.mp h1, h2⟩

theorem txSend_moves {a : Allow} (h : a.tx = true) (q : TxQueue) (bs : List Byte) : Moves a (txSend q bs) := by
  refine (Moves.gets _).bind fun _ => (Moves.haltIf _ _).bind fun _ => (readTx_moves a q).bind fun _ =>
    (txReclaim_moves h q).bind fun _ s => ?_
  refine MovesAt.bind (readTx_moves a q s) fun r t hr _ => ?_
  obtain ⟨rfl, hr⟩ := readTx_run hr
  refine MovesAt.gets_bind (MovesAt.bind ?_ fun _ u hu _ => ?_)
  · exact (show Moves a (checkPayload _ r _) from (Moves.haltIf _ _).bind fun _ => (Moves.haltIf _ _).bind fun _ =>
      .haltIf _ _) t
  obtain ⟨rfl, -, -, hf⟩ := checkPayload_run hu
  refine MovesAt.bind (readCb_moves a _ _ u) fun b v hv _ => ?_
  have hv' : v = u := by
    simp only [readCb, op_bind, gets_run] at hv
    cases hs : u.cb? .tx r.writePtr with
    | none => rw [hs] at hv; cases hv
    | some b' => rw [hs] at hv; cases hv; rfl
  subst hv'
  refine MovesAt.bind (Moves.haltIf _ _ v) fun _ w hw _ => ?_
  have hw' : w = v := by rw [haltIf_run] at hw; split at hw <;> cases hw; rfl
  subst hw'
  refine MovesAt.bind (Moves.haltIf _ _ w) fun _ x hx _ => ?_
  have hx' : x = w := by rw [haltIf_run] at hx; split at hx <;> cases hx; rfl
  subst hx'
  exact txFill_movesAt h q r _ bs hr hf

/-! ### MDIO and link -/

theorem mdioPoll_moves (a : Allow) (c : Config) (n : Nat) : Moves a (mdioPoll c n) := by
  induction n with
  | zero => exact (hRead_moves a _).bind fun _ => (Moves.haltIf _ _).bind fun _ => .pure _
  | succ n ih => exact (hRead_moves a _).bind fun _ => .ite ih (.pure _)

theorem mdioRead_moves (a : Allow) (k : Nat) : Moves a (mdioRead k) :=
  (Moves.gets _).bind fun _ => (hWrite_moves a _ _).bind fun _ => (mdioPoll_moves a _ _).bind fun _ =>
    (Moves.haltIf _ _).bind fun _ => .pure _
theorem mdioWrite_moves (a : Allow) (k : Nat) (v : Half) : Moves a (mdioWrite k v) :=
  (Moves.gets _).bind fun _ => (hWrite_moves a _ _).bind fun _ => (mdioPoll_moves a _ _).bind fun _ => .pure _
theorem linkResolve_moves (a : Allow) (m : PhyMap) : Moves a (linkResolve m) :=
  (mdioRead_moves a _).bind fun _ => (mdioRead_moves a _).bind fun _ => (Moves.haltIf _ _).bind fun _ =>
    (mdioRead_moves a _).bind fun _ => (mdioRead_moves a _).bind fun _ => .pure _
theorem linkReadStatus_moves (a : Allow) : Moves a linkReadStatus :=
  (Moves.gets _).bind fun _ => (mdioRead_moves a _).bind fun _ => .ite (linkResolve_moves a _) (.pure _)

/-! ### Sequencer -/

theorem setSeq_moves {a : Allow} (h : a.seq = true) (x : Seq) : Moves a (setSeq x) := Moves.upd1 fun s => .seq s x h

theorem seqStart_moves {a : Allow} (h : a.seq = true) (m : MacAddr) (n : Nat) : Moves a (seqStart m n) :=
  (Moves.upd1 fun s => .macAddr s m h).bind fun _ => (poolInit_moves a _ _).bind fun _ =>
    (poolInit_moves a _ _).bind fun _ => (Moves.upd1 fun s => .seqPolls s 0 h).bind fun _ => setSeq_moves h _

theorem hPulse_moves (a : Allow) (r : RegId) (p : RegPos → FieldPos) (n : DelayName) : Moves a (hPulse r p n) :=
  (hField_moves a _ _ _).bind fun _ => (hDelay_moves a _).bind fun _ => hField_moves a _ _ _

theorem seqRevision_moves (a : Allow) : Moves a seqRevision :=
  (Moves.gets _).bind fun _ => (hRead_moves a _).bind fun _ => .haltIf _ _
theorem seqPortMode_moves (a : Allow) : Moves a seqPortMode :=
  (Moves.gets _).bind fun _ => (hField_moves a _ _ _).bind fun _ => hField_moves a _ _ _
theorem seqSoftReset_moves (a : Allow) : Moves a seqSoftReset :=
  (Moves.gets _).bind fun _ => (hWrite_moves a _ _).bind fun _ => (hWrite_moves a _ _).bind fun _ =>
    (hDelay_moves a _).bind fun _ => hWrite_moves a _ _
theorem seqThrowaway_moves (a : Allow) : Moves a seqThrowaway :=
  (Moves.gets _).bind fun _ => (mdioRead_moves a _).attempt.bind fun _ => .pure _
theorem maskAll_moves (a : Allow) (x : IntrlId) : Moves a (maskAll x) :=
  (hWrite_moves a _ _).bind fun _ => hWrite_moves a _ _
theorem seqCounters_moves (a : Allow) : Moves a seqCounters :=
  (Moves.gets _).bind fun _ => (hWrite_moves a _ _).bind fun _ => (hWrite_moves a _ _).bind fun _ =>
    (hWrite_moves a _ _).bind fun _ => (hField_moves a _ _ _).bind fun _ => (maskAll_moves a _).bind fun _ =>
      maskAll_moves a _
theorem seqStationAddr_moves (a : Allow) : Moves a seqStationAddr :=
  (Moves.gets _).bind fun _ => (Moves.gets _).bind fun _ => (hWrite_moves a _ _).bind fun _ => hWrite_moves a _ _
theorem mdfWrite_moves (a : Allow) (j : Nat) (m : MacAddr) : Moves a (mdfWrite j m) :=
  (Moves.gets _).bind fun _ => (hWrite_moves a _ _).bind fun _ => hWrite_moves a _ _
theorem seqFilter_moves (a : Allow) : Moves a seqFilter :=
  (Moves.gets _).bind fun _ => (hField_moves a _ _ _).bind fun _ => (mdfWrite_moves a _ _).bind fun _ =>
    (Moves.gets _).bind fun _ => (mdfWrite_moves a _ _).bind fun _ => hWrite_moves a _ _
theorem seqQuiesce_moves (a : Allow) : Moves a seqQuiesce :=
  (hField_moves a _ _ _).bind fun _ => (hField_moves a _ _ _).bind fun _ => hPulse_moves a _ _ _
theorem seqRings_moves {a : Allow} (hr : a.rx = true) (ht : a.tx = true) : Moves a seqRings :=
  (rxRingInit_moves hr).bind fun _ => txQueuesInit_moves ht
theorem seqDmaEnable_moves (a : Allow) : Moves a seqDmaEnable :=
  (hField_moves a _ _ _).bind fun _ => hField_moves a _ _ _
theorem seqPollFailed_moves {a : Allow} (h : a.seq = true) : Moves a seqPollFailed :=
  (Moves.gets _).bind fun _ => (Moves.gets _).bind fun _ => (Moves.orHalt _ _).bind fun _ =>
    (Moves.upd1 fun s => .seqPolls s _ h).bind fun _ => .haltIf _ _
theorem seqLinkPoll_moves {a : Allow} (h : a.seq = true) : Moves a seqLinkPoll :=
  (linkReadStatus_moves a).attempt.bind fun e => by
    cases e with
    | error _ => exact seqPollFailed_moves h
    | ok l =>
      exact .ite ((Moves.upd1 fun s => .seqLink s l h).bind fun _ => setSeq_moves h _) (seqPollFailed_moves h)
theorem codeOfSpeed_moves (a : Allow) (c : Config) (x : LinkSpeed) : Moves a (codeOfSpeed c x) := by
  unfold codeOfSpeed
  split
  · exact .pure _
  · exact drawNat_moves a
theorem seqLinkProgram_moves (a : Allow) : Moves a seqLinkProgram :=
  (Moves.gets _).bind fun _ => (Moves.gets _).bind fun _ => (Moves.orHalt _ _).bind fun _ =>
    (codeOfSpeed_moves a _ _).bind fun _ => (hField_moves a _ _ _).bind fun _ => (hField_moves a _ _ _).bind fun _ =>
    (hField_moves a _ _ _).bind fun _ => (hField_moves a _ _ _).bind fun _ => (hField_moves a _ _ _).bind fun _ =>
    (hField_moves a _ _ _).bind fun _ => (hField_moves a _ _ _).bind fun _ => hField_moves a _ _ _
theorem seqMacEnable_moves (a : Allow) : Moves a seqMacEnable :=
  (hField_moves a _ _ _).bind fun _ => hField_moves a _ _ _

theorem andNext_moves {a : Allow} (h : a.seq = true) (k : StepNo) {x : Op Unit} (hx : Moves a x) :
    Moves a (andNext k x) := hx.bind fun _ => setSeq_moves h _

theorem seqRun_moves (k : StepNo) : Moves Allow.all (seqRun k) := by
  cases k with
  | s1 => exact andNext_moves rfl _ (seqRevision_moves _)
  | s2 => exact andNext_moves rfl _ (seqPortMode_moves _)
  | s3 => exact andNext_moves rfl _ (seqSoftReset_moves _)
  | s4 => exact andNext_moves rfl _ (seqThrowaway_moves _)
  | s5 => exact andNext_moves rfl _ (hPulse_moves _ _ _ _)
  | s6 => exact andNext_moves rfl _ (seqSoftReset_moves _)
  | s7 => exact andNext_moves rfl _ (seqCounters_moves _)
  | s8 => exact andNext_moves rfl _ (seqStationAddr_moves _)
  | s9 => exact andNext_moves rfl _ (seqFilter_moves _)
  | s10 => exact andNext_moves rfl _ (seqQuiesce_moves _)
  | s11 => exact andNext_moves rfl _ (seqRings_moves rfl rfl)
  | s12 => exact andNext_moves rfl _ (seqDmaEnable_moves _)
  | s13 => exact seqLinkPoll_moves rfl
  | s14 => exact andNext_moves rfl _ (seqLinkProgram_moves _)
  | s15 => exact andNext_moves rfl _ (seqMacEnable_moves _)

theorem failing_moves {a : Allow} (h : a.seq = true) {x : Op Unit} (hx : Moves a x) : Moves a (failing x) := fun s => by
  have := hx s
  unfold MovesAt failing at *
  split
  · next e t heq => rw [heq] at this; exact .tail this (.seq t _ h)
  · exact this

theorem seqStep_moves (m : MacAddr) (n : Nat) : Moves Allow.all (seqStep m n) := (Moves.gets _).bind fun x => by
  cases x with
  | idle => exact failing_moves rfl (seqStart_moves rfl m n)
  | step k => exact failing_moves rfl (seqRun_moves k)
  | ready => exact .halt _
  | failed e => exact .halt _

end Sys2Proof.Machine
end

