-- ==== Sys2Proof/Laws/Memory.lean ====
section
/-! SUPPORT. Laws of the byte memory and of the cache: every operation keeps the canonical form of memory, and what each
cache operation leaves in memory, in `cpu_dirty` and in `cpu_stale` (20_memory R64; 46_dma_agents R295 to R297). -/

namespace Sys2Proof.Machine

/-! ### The canonical form -/

theorem State.reset_mem_wf : Memory.wf State.reset.mem := Memory.wf_nil

theorem State.hostStoreByte_wf {s : State} (h : Memory.wf s.mem) (a : Nat) (v : Byte) :
    Memory.wf (s.hostStoreByte a v).mem := by
  unfold State.hostStoreByte
  split
  · exact h
  · exact Memory.wf_write h _ _

theorem State.dmaStoreByte_wf {s : State} (h : Memory.wf s.mem) (a : Nat) (v : Byte) :
    Memory.wf (s.dmaStoreByte a v).mem := Memory.wf_write h _ _

theorem cleanBytes_wf {m : List Host.Cell} (h : Memory.wf m) (l : List Host.Cell) : Memory.wf (cleanBytes m l) := by
  induction l generalizing m with
  | nil => exact h
  | cons e l ih => exact ih (Memory.wf_write h _ _)

/-- Every single update keeps memory in canonical form. -/
theorem Micro.mem_wf {a : Allow} {s t : State} (m : Micro a s t) (h : Memory.wf s.mem) : Memory.wf t.mem := by
  cases m with
  | hostByte b v => exact State.hostStoreByte_wf h b v
  | dmaByte b v => exact State.dmaStoreByte_wf h b v
  | memByte b v => exact Memory.wf_write h b v
  | setDesc d i x => rw [State.setDesc_mem]; exact h
  | initCb d i => rw [State.setCb_mem]; exact h
  | setOwner d i o => rw [State.setOwner_mem]; exact h
  | _ => exact h

/-- Every operation built from single updates keeps memory in canonical form. -/
theorem Chain.mem_wf {a : Allow} {s t : State} (m : Chain a s t) (h : Memory.wf s.mem) : Memory.wf t.mem :=
  Chain.keeps (fun _ _ => Micro.mem_wf) m h

/-! ### Reads -/

/-- A byte that is not dirty is read as memory holds it (R64). -/
theorem dmaReadByte_run {a : Nat} {s : State} (h : Tab.get? s.cpuDirty a = none) :
    dmaReadByte a s = .ok (s.memByte a) s := by
  simp [dmaReadByte, h]

/-- A byte that is not stale is read as the CPU sees it (R64). -/
theorem hostReadByte_run {a : Nat} {s : State} (h : Tab.get? s.cpuStale a = none) :
    hostReadByte a s = .ok (s.cpuView a) s := by
  simp [hostReadByte, h]

/-- A stale byte is read as the CPU sees it or as the DMA agent wrote it, by a draw (R64). -/
theorem hostReadByte_stale {a : Nat} {s : State} {x : StaleByte} (h : Tab.get? s.cpuStale a = some x) :
    hostReadByte a s =
      .ok (if s.tape.headD (Config.freeNat s.drawCount) % 2 = 1 then x.written else s.cpuView a)
        { s with tape := s.tape.tail, drawCount := s.drawCount + 1 } := by
  simp [hostReadByte, h, drawBool, drawNat_run]

/-- Reading bytes that are each a pure value of the state. -/
theorem readBytes_run {f : Nat → Op Byte} {g : Nat → Byte} {a : Word} {s : State} (k n : Nat)
    (h : ∀ j < n, f (byteAddr a (k + j)) s = .ok (g (byteAddr a (k + j))) s) :
    readBytes f a k n s = .ok ((List.range' k n).map fun j => g (byteAddr a j)) s := by
  induction n generalizing k with
  | zero => rfl
  | succ n ih =>
    have h0 := h 0 (by omega)
    have hs := ih (k + 1) fun j hj => by
      have := h (j + 1) (by omega)
      rwa [show k + (j + 1) = k + 1 + j by omega] at this
    simp only [Nat.add_zero] at h0
    simp [readBytes, h0, hs, List.range'_succ]

/-! ### Cache operations -/

/-- Memory after the write-back of a list of dirty bytes, which is sorted. -/
theorem read_cleanBytes {m l : List Host.Cell} (hl : Tab.sorted l) (a : Nat) :
    Memory.read (cleanBytes m l) a = (Tab.get? l a).getD (Memory.read m a) := by
  induction l generalizing m with
  | nil => rfl
  | cons e l ih =>
    obtain ⟨b, v⟩ := e
    have hb : ∀ x ∈ l, b < x.1 := (List.pairwise_cons.1 hl).1
    rw [cleanBytes, ih (List.pairwise_cons.1 hl).2, Memory.read_write, Tab.get?_cons]
    split
    · next h =>
      subst h
      have : Tab.get? l b = none := by
        cases hg : Tab.get? l b with
        | none => rfl
        | some w => exact absurd (hb _ (Tab.mem_of_get? hg)) (Nat.lt_irrefl b)
      simp [this]
    · rfl

/-- The dirty bytes of the lines of a range. -/
theorem State.get?_dirtyIn (s : State) (addr : Word) (len a : Nat) :
    Tab.get? (s.dirtyIn addr len) a = if inLines s.cfg addr len a then Tab.get? s.cpuDirty a else none :=
  Tab.get?_filter (fun k => inLines s.cfg addr len k) s.cpuDirty a

/-- The dirty bytes outside the lines of a range. -/
theorem State.get?_dirtyOut (s : State) (addr : Word) (len a : Nat) :
    Tab.get? (s.dirtyOut addr len) a = if inLines s.cfg addr len a then none else Tab.get? s.cpuDirty a := by
  unfold State.dirtyOut
  rw [Tab.get?_filter (fun k => !inLines s.cfg addr len k)]
  cases inLines s.cfg addr len a <;> rfl

/-- CACHE_CLEAN with the cache on (R295). -/
theorem cacheClean_on {s : State} (h : s.cfg.cacheEnabled = true) (addr : Word) (len : Nat) :
    cacheClean addr len s = .ok () { s with
      mem := cleanBytes s.mem (s.dirtyIn addr len), cpuDirty := s.dirtyOut addr len
      hist := .clean addr len :: s.hist } := by
  simp [cacheClean, whenCached, writeBackLines, h, State.dirtyIn, State.dirtyOut]

/-- CACHE_CLEAN with the cache off is its event (R295). -/
theorem cacheClean_off {s : State} (h : s.cfg.cacheEnabled = false) (addr : Word) (len : Nat) :
    cacheClean addr len s = .ok () { s with hist := .clean addr len :: s.hist } := by
  simp [cacheClean, whenCached, h]

/-- CACHE_INVALIDATE with the cache off is its event (R296, R295). -/
theorem cacheInvalidate_off {s : State} (h : s.cfg.cacheEnabled = false) (addr : Word) (len : Nat) :
    cacheInvalidate addr len s = .ok () { s with hist := .invalidate addr len :: s.hist } := by
  simp [cacheInvalidate, whenCached, h]

/-- The bytes of a discarded list: each is memory's value or the CPU's, by draws; only memory and draws move (R296). -/
theorem discardBytes_run {l : List Host.Cell} (hl : Tab.sorted l) (s : State) :
    ∃ (m : List Host.Cell) (tp : List Nat) (n : Nat),
      discardBytes l s = .ok () { s with mem := m, tape := tp, drawCount := n } ∧
      (Memory.wf s.mem → Memory.wf m) ∧
      ∀ a, Memory.read m a = Memory.read s.mem a ∨ Tab.get? l a = some (Memory.read m a) := by
  induction l generalizing s with
  | nil => exact ⟨s.mem, s.tape, s.drawCount, rfl, id, fun a => .inl rfl⟩
  | cons e l ih =>
    obtain ⟨b, v⟩ := e
    have hb : ∀ x ∈ l, b < x.1 := (List.pairwise_cons.1 hl).1
    have hn : Tab.get? l b = none := by
      cases hg : Tab.get? l b with
      | none => rfl
      | some w => exact absurd (hb _ (Tab.mem_of_get? hg)) (Nat.lt_irrefl b)
    obtain ⟨m, tp, n, hr, hw, hv⟩ := ih (List.pairwise_cons.1 hl).2 (if (s.tape.headD (Config.freeNat s.drawCount) % 2 == 1)
      then { s with tape := s.tape.tail, drawCount := s.drawCount + 1, mem := Memory.write s.mem b v }
      else { s with tape := s.tape.tail, drawCount := s.drawCount + 1 })
    refine ⟨m, tp, n, ?_, ?_, ?_⟩
    · simp only [discardBytes, drawBool, op_bind, drawNat_run, op_pure, upd_run]
      split at hr <;> simp_all
    · intro h
      apply hw
      split
      · exact Memory.wf_write h _ _
      · exact h
    · intro a
      rw [Tab.get?_cons]
      by_cases hab : b = a
      · subst hab
        rw [if_pos rfl]
        rcases hv b with h | h
        · rw [h]
          split
          · right; simp
          · left; rfl
        · rw [hn] at h; cases h
      · rw [if_neg hab]
        rcases hv a with h | h
        · left
          rw [h]
          split
          · exact Memory.read_write_ne _ _ hab
          · rfl
        · exact .inr h

/-- Everything CACHE_INVALIDATE with the cache on can do (R296). -/
theorem cacheInvalidate_on {s : State} (h : s.cfg.cacheEnabled = true) (hd : Tab.sorted s.cpuDirty) (addr : Word)
    (len : Nat) :
    ∃ (m : List Host.Cell) (tp : List Nat) (n : Nat),
      cacheInvalidate addr len s = .ok () { s with
        mem := m, tape := tp, drawCount := n, cpuDirty := s.dirtyOut addr len
        cpuStale := s.cpuStale.filter fun e => !inLines s.cfg addr len e.1, hist := .invalidate addr len :: s.hist } ∧
      ∀ a, Memory.read m a = Memory.read s.mem a ∨ Tab.get? (s.dirtyIn addr len) a = some (Memory.read m a) := by
  obtain ⟨m, tp, n, hr, -, hv⟩ := discardBytes_run (l := s.dirtyIn addr len) (Tab.sorted_filter hd _) s
  refine ⟨m, tp, n, ?_, hv⟩
  simp [cacheInvalidate, whenCached, h, dropLines, hr, State.dirtyOut]

/-- CACHE_INVALIDATE where no byte of the lines is dirty only forgets the stale bytes and takes no draw (R296). -/
theorem cacheInvalidate_clean {s : State} (h : s.cfg.cacheEnabled = true) (addr : Word) (len : Nat)
    (hn : s.dirtyIn addr len = []) :
    cacheInvalidate addr len s = .ok () { s with
      cpuDirty := s.dirtyOut addr len, cpuStale := s.cpuStale.filter fun e => !inLines s.cfg addr len e.1
      hist := .invalidate addr len :: s.hist } := by
  simp [cacheInvalidate, whenCached, h, dropLines, hn, discardBytes, State.dirtyOut]

/-- After the dirty bytes of a range have been taken out, none is left in it. -/
theorem State.dirtyIn_out {s t : State} {addr : Word} {len : Nat} (hc : t.cfg = s.cfg)
    (hd : t.cpuDirty = s.dirtyOut addr len) : t.dirtyIn addr len = [] := by
  unfold State.dirtyIn
  rw [hc, hd, State.dirtyOut, List.filter_filter]
  simp

theorem State.dirtyOut_out {s t : State} {addr : Word} {len : Nat} (hc : t.cfg = s.cfg)
    (hd : t.cpuDirty = s.dirtyOut addr len) : t.dirtyOut addr len = s.dirtyOut addr len := by
  unfold State.dirtyOut at *
  rw [hc, hd, List.filter_filter]
  simp

/-- CACHE_CLEAN_INVALIDATE with the cache on writes the dirty bytes back, forgets the stale ones and takes no draw
(R297). -/
theorem cacheCleanInvalidate_on {s : State} (h : s.cfg.cacheEnabled = true) (addr : Word) (len : Nat) :
    cacheCleanInvalidate addr len s = .ok () { s with
      mem := cleanBytes s.mem (s.dirtyIn addr len), cpuDirty := s.dirtyOut addr len
      cpuStale := s.cpuStale.filter fun e => !inLines s.cfg addr len e.1
      hist := .invalidate addr len :: .clean addr len :: s.hist } := by
  simp only [cacheCleanInvalidate, op_bind, cacheClean_on h]
  let u : State := { s with
    mem := cleanBytes s.mem (s.dirtyIn addr len), cpuDirty := s.dirtyOut addr len, hist := .clean addr len :: s.hist }
  have hu := cacheInvalidate_clean (s := u) h addr len (State.dirtyIn_out (s := s) rfl rfl)
  rw [State.dirtyOut_out (s := s) (t := u) rfl rfl] at hu
  exact hu

theorem cacheCleanInvalidate_off {s : State} (h : s.cfg.cacheEnabled = false) (addr : Word) (len : Nat) :
    cacheCleanInvalidate addr len s = .ok () { s with hist := .invalidate addr len :: .clean addr len :: s.hist } := by
  simp only [cacheCleanInvalidate, op_bind, cacheClean_off h]
  exact cacheInvalidate_off (s := { s with hist := .clean addr len :: s.hist }) h addr len

end Sys2Proof.Machine
end

