-- ==== Sys2Proof/Laws/PerInstr.lean ====
section
/-! SUPPORT. Statements made for every operation, one lemma each. `QField`: a well-formed operation's word carries its OPC in
bits 15:8 and its operand in bits 7:0, which is at most 31, and 0 where the row has no Q (30_encoding R110, R112). -/

namespace Sys2Proof.Laws.QField

/-- The word of a well-formed operation has its OPC in bits 15:8 and a Q of at most 31 in bits 7:0. -/
def Statement (i : Instr) : Prop :=
  i.wellFormed = true → opcOf (encode i) = i.opcField ∧ qOf (encode i) = i.qField ∧ i.qField.toNat ≤ 31

/-- The two fields of a word put together from its bytes. -/
theorem fields (o q : BitVec 8) : opcOf (o ++ q) = o ∧ qOf (o ++ q) = q := by
  constructor <;> apply BitVec.eq_of_getLsbD_eq <;> intro k hk
  · have h := @BitVec.getLsbD_append 8 8 (8 + k) o q
    simp only [opcOf, BitVec.getLsbD_extractLsb']
    simp_all
  · have h := @BitVec.getLsbD_append 8 8 k o q
    simp only [qOf, BitVec.getLsbD_extractLsb']
    simp_all

/-- An operation whose operand is at most 31. -/
theorem of_le {i : Instr} (h : i.wellFormed = true → i.qField.toNat ≤ 31) : Statement i := fun hw =>
  ⟨(fields _ _).1, (fields _ _).2, h hw⟩

theorem busXlate : Statement .busXlate := of_le fun _ => by decide
theorem physXlate : Statement .physXlate := of_le fun _ => by decide
theorem poolInit (q : BitVec 8) : Statement (.poolInit q) := of_le fun h => by
  simp [Instr.wellFormed, legalDirQ] at h
  simp only [Instr.qField]
  omega
theorem poolRefill (q : BitVec 8) : Statement (.poolRefill q) := of_le fun h => by
  simp [Instr.wellFormed, legalDirQ] at h
  simp only [Instr.qField]
  omega
theorem rxRingInit : Statement .rxRingInit := of_le fun _ => by decide
theorem rxRecv : Statement .rxRecv := of_le fun _ => by decide
theorem txQueuesInit : Statement .txQueuesInit := of_le fun _ => by decide
theorem txSend (q : BitVec 8) : Statement (.txSend q) := of_le fun h => by
  simp [Instr.wellFormed, legalQueueQ] at h
  simp only [Instr.qField]
  omega
theorem txReclaim (q : BitVec 8) : Statement (.txReclaim q) := of_le fun h => by
  simp [Instr.wellFormed, legalQueueQ] at h
  simp only [Instr.qField]
  omega
theorem prioPack (q : BitVec 8) : Statement (.prioPack q) := of_le fun h => by
  simp [Instr.wellFormed, legalPrioQ] at h
  simp only [Instr.qField]
  omega
theorem prioUnpack (q : BitVec 8) : Statement (.prioUnpack q) := of_le fun h => by
  simp [Instr.wellFormed, legalPrioQ] at h
  simp only [Instr.qField]
  omega
theorem arbSelect : Statement .arbSelect := of_le fun _ => by decide
theorem seqStep : Statement .seqStep := of_le fun _ => by decide
theorem mdioRead (q : BitVec 8) : Statement (.mdioRead q) := of_le fun h => by
  simp [Instr.wellFormed, legalPhyQ] at h
  simp only [Instr.qField]
  omega
theorem mdioWrite (q : BitVec 8) : Statement (.mdioWrite q) := of_le fun h => by
  simp [Instr.wellFormed, legalPhyQ] at h
  simp only [Instr.qField]
  omega
theorem linkReadStatus : Statement .linkReadStatus := of_le fun _ => by decide
theorem rdmaDeliver : Statement .rdmaDeliver := of_le fun _ => by decide
theorem rdmaDrop : Statement .rdmaDrop := of_le fun _ => by decide
theorem tdmaTransmit : Statement .tdmaTransmit := of_le fun _ => by decide
theorem regRead : Statement .regRead := of_le fun _ => by decide
theorem regWrite : Statement .regWrite := of_le fun _ => by decide
theorem cacheClean : Statement .cacheClean := of_le fun _ => by decide
theorem cacheInvalidate : Statement .cacheInvalidate := of_le fun _ => by decide
theorem cacheCleanInvalidate : Statement .cacheCleanInvalidate := of_le fun _ => by decide
theorem barrier : Statement .barrier := of_le fun _ => by decide
theorem delay : Statement .delay := of_le fun _ => by decide

end Sys2Proof.Laws.QField
end

