-- ==== Sys2Proof/Laws/Run.lean ====
section
/-! SUPPORT. How the host steps run with no agent step between them (`s.between = []`): register, field and descriptor
writes, barriers, and the operations of the pool and of the transmit rings that are built from them. -/

namespace Sys2Proof.Machine

/-- The command words of a history in two parts (R260, R261). -/
theorem mdioCommands_append (es fs : List Event) : mdioCommands (es ++ fs) = mdioCommands es ++ mdioCommands fs :=
  List.filterMap_append

/-! ### Host steps -/

theorem hRead_eq {s : State} (h : s.between = []) (r : RegId) : hRead r s = mmioRead r s := hostStep_of_nil h
theorem hWrite_eq {s : State} (h : s.between = []) (r : RegId) (v : Word) : hWrite r v s = mmioWrite r v s :=
  hostStep_of_nil h
theorem hDescRead_eq {s : State} (h : s.between = []) (d : Dir) (i : Nat) (k : DescWord) :
    hDescRead d i k s = hostReadDesc d i k s := hostStep_of_nil h
theorem hDescWrite_eq {s : State} (h : s.between = []) (d : Dir) (i : Nat) (k : DescWord) (v : Word) :
    hDescWrite d i k v s = hostWriteDesc d i k v s := hostStep_of_nil h
theorem hCopyOut_run {s : State} (h : s.between = []) (a : Word) (bs : List Byte) :
    hCopyOut a bs s = if s.hitsOwned a bs.length then .error (.fault .ownershipViolation) s
      else
        let t := writeBytes State.hostWriteByte a 0 bs s
        if t.hitsRaw a bs.length then .error (.fault .untranslatedAddress) t else .ok () t := by
  simp only [hCopyOut, hostStep_of_nil h, hostWrite, op_bind, gets_run, haltIf_run]
  cases s.hitsOwned a bs.length <;> rfl
theorem hCopyIn_eq {s : State} (h : s.between = []) (a : Word) (n : Nat) : hCopyIn a n s = hostRead a n s :=
  hostStep_of_nil h
theorem hClean_eq {s : State} (h : s.between = []) (a : Word) (n : Nat) : hClean a n s = cacheClean a n s :=
  hostStep_of_nil h
theorem hInvalidate_eq {s : State} (h : s.between = []) (a : Word) (n : Nat) :
    hInvalidate a n s = cacheInvalidate a n s := hostStep_of_nil h
theorem hCleanInvalidate_eq {s : State} (h : s.between = []) (a : Word) (n : Nat) :
    hCleanInvalidate a n s = cacheCleanInvalidate a n s := hostStep_of_nil h
theorem hBarrier_run {s : State} (h : s.between = []) :
    hBarrier s = .ok () { s with unsynced := [], hist := .barrier :: s.hist } := hostStep_of_nil h
theorem hDelay_run {s : State} (h : s.between = []) (n : DelayName) :
    hDelay n s = .ok () { s with hist := .delay n :: s.hist } := hostStep_of_nil h

/-! ### Registers -/

/-- A register whose read is its word and nothing more (R290). -/
theorem mmioRead_plain {r : RegId} (hp : r.plainRead = true) (s : State) :
    mmioRead r s = .ok (s.reg r) { s with hist := .mmioRead r (s.reg r) :: s.hist } := by
  have hm : r ≠ .mdioCmd := by rintro rfl; cases hp
  exact mmioRead_run hm s

theorem hRead_plain {r : RegId} {s : State} (h : s.between = []) (hp : r.plainRead = true) :
    hRead r s = .ok (s.reg r) { s with hist := .mmioRead r (s.reg r) :: s.hist } := by
  rw [hRead_eq h, mmioRead_plain hp]

theorem hWrite_plain {r : RegId} {s : State} (h : s.between = []) (hr : r.readOnly = false)
    (hw : s.writeRefused r = false) (he : r.sideEffect = false) (v : Word) :
    hWrite r v s = .ok () { s.setReg r v with hist := .mmioWrite r v :: s.hist } := by
  rw [hWrite_eq h, mmioWrite_plain hr hw he]

/-- A write of `UMAC_CMD` that does not end a soft reset (R292, R238). -/
theorem mmioWrite_umacCmd {s : State} {v : Word}
    (h : fieldOn s.cfg.pos.swReset (s.reg .umacCmd) = false ∨ fieldOn s.cfg.pos.swReset v = true) :
    mmioWrite .umacCmd v s = .ok () { s.setReg .umacCmd v with hist := .mmioWrite .umacCmd v :: s.hist } := by
  rw [mmioWrite_run rfl (writeRefused_of_unowned (by simp) rfl s)]
  rcases h with h | h <;> simp [writeEffect, h]

/-- A field write of a register with no side effect (R14, R76). -/
theorem hField_plain {r : RegId} {s : State} (h : s.between = []) (hp : r.plainRead = true)
    (hr : r.readOnly = false) (ho : s.writeRefused r = false) (he : r.sideEffect = false) (p : RegPos → FieldPos)
    (v : Nat) :
    hField r p v s = .ok () { s.setReg r (fieldSet (p s.cfg.pos) v (s.reg r)) with
      hist := .mmioWrite r (fieldSet (p s.cfg.pos) v (s.reg r)) :: .mmioRead r (s.reg r) :: s.hist } := by
  have hx : State.writeRefused { s with hist := Event.mmioRead r (s.reg r) :: s.hist } r = false := ho
  simp only [hField, op_bind, gets_run, hRead_plain h hp]
  exact hWrite_plain (s := { s with hist := Event.mmioRead r (s.reg r) :: s.hist }) h hr hx he _

/-- A field write of `UMAC_CMD` that does not end a soft reset. -/
theorem hField_umacCmd {s : State} (h : s.between = []) (p : RegPos → FieldPos) (v : Nat)
    (hk : fieldOn s.cfg.pos.swReset (s.reg .umacCmd) = false ∨
      fieldOn s.cfg.pos.swReset (fieldSet (p s.cfg.pos) v (s.reg .umacCmd)) = true) :
    hField .umacCmd p v s = .ok () { s.setReg .umacCmd (fieldSet (p s.cfg.pos) v (s.reg .umacCmd)) with
      hist := .mmioWrite .umacCmd (fieldSet (p s.cfg.pos) v (s.reg .umacCmd)) :: .mmioRead .umacCmd (s.reg .umacCmd) ::
        s.hist } := by
  simp only [hField, op_bind, gets_run, hRead_plain h (r := .umacCmd) rfl]
  refine (hWrite_eq (s := { s with hist := Event.mmioRead .umacCmd (s.reg .umacCmd) :: s.hist }) h _ _).trans ?_
  exact mmioWrite_umacCmd (s := { s with hist := Event.mmioRead .umacCmd (s.reg .umacCmd) :: s.hist }) hk

/-! ### Descriptors and the pool -/

/-- A host write of a descriptor word that R63 allows (R39, R69). -/
theorem hostWriteDesc_run {i : Nat} (hi : i < nDesc) {d : Dir} {k : DescWord} {s : State}
    (ho : k.isAddr = true → s.hwOwned d i = false) (v : Word) :
    hostWriteDesc d i k v s = .ok () (s.writeDesc d i k v) := by
  have hn : ¬ nDesc ≤ i := by omega
  have hb : (k.isAddr && s.hwOwned d i) = false := by
    cases hk : k.isAddr
    · rfl
    · simp [ho hk]
  simp [hostWriteDesc, inPool, hn, hb]

/-- A host write of a descriptor word, as what it leaves. -/
theorem hDescWrite_spec {i : Nat} (hi : i < nDesc) {s : State} (h : s.between = []) {d : Dir} {k : DescWord}
    (ho : k.isAddr = true → s.hwOwned d i = false) (v : Word) :
    ∃ t : State, hDescWrite d i k v s = .ok () t ∧
      t = { s with descRx := t.descRx, descTx := t.descTx, unsynced := t.unsynced } ∧
      ∀ d' j, t.desc d' j = if d' = d ∧ j = i then (s.desc d i).setWord k v else s.desc d' j := by
  obtain ⟨us, hu⟩ := s.writeDesc_eq d i k v
  refine ⟨_, (hDescWrite_eq h d i k v).trans ((hostWriteDesc_run hi ho v).trans (by rw [hu])), by cases d <;> rfl,
    fun d' j => ?_⟩
  refine (State.desc_congr (s := s.setDesc d i ((s.desc d i).setWord k v)) rfl rfl d' j).trans ?_
  rw [State.desc_setDesc]
  simp only [eq_comm]

/-- The bus address of any buffer carries the coherent alias (R130, R134). -/
theorem aliasTagged_bus (c : Config) (buf : Word) : aliasTagged c 0 (toBusAddress c buf) = true := by
  apply decide_eq_true
  apply BitVec.eq_of_getLsbD_eq
  intro k hk
  simp only [addrPair, toBusAddress, BitVec.getLsbD_and, BitVec.getLsbD_append, BitVec.getLsbD_setWidth,
    BitVec.getLsbD_or]
  by_cases h : k < 32
  · simp only [h, hk, decide_true, Bool.true_and, if_true]
    cases buf.getLsbD k <;> cases c.aliasTag.getLsbD k <;> rfl
  · simp [h, BitVec.getLsbD_of_ge _ _ (Nat.not_lt.1 h)]

/-- A descriptor address write: both words are written, and then the pair is the fault `UntranslatedAddress` unless it
carries the coherent alias (R134). -/
theorem hDescAddr_spec {i : Nat} (hi : i < nDesc) {s : State} (h : s.between = []) {d : Dir}
    (ho : s.hwOwned d i = false) (w2 w1 : Word) :
    ∃ t : State, hDescAddr d i w2 w1 s =
        (if aliasTagged s.cfg w2 w1 then .ok () t else .error (.fault .untranslatedAddress) t) ∧
      t = { s with descRx := t.descRx, descTx := t.descTx, unsynced := t.unsynced } ∧
      ∀ d' j, t.desc d' j = if d' = d ∧ j = i then { s.desc d i with w1 := w1, w2 := w2 } else s.desc d' j := by
  obtain ⟨t1, e1, f1, g1⟩ := hDescWrite_spec hi h (k := .w1) (fun _ => ho) w1
  have hb1 : t1.between = [] := by rw [f1]; exact h
  have ho1 : t1.hwOwned d i = false := by rw [f1]; exact ho
  obtain ⟨t2, e2, f2, g2⟩ := hDescWrite_spec hi hb1 (k := .w2) (fun _ => ho1) w2
  have hc : t2.cfg = s.cfg := by rw [f2]; show t1.cfg = _; rw [f1]
  have hd : t2.desc d i = { s.desc d i with w1 := w1, w2 := w2 } := by
    rw [g2, if_pos ⟨rfl, rfl⟩, g1, if_pos ⟨rfl, rfl⟩]; rfl
  refine ⟨t2, ?_, ?_, fun d' j => ?_⟩
  · simp only [hDescAddr, op_bind, gets_run, e1, e2, checkAlias, haltIf_run, hc]
    cases aliasTagged s.cfg w2 w1 <;> rfl
  · apply State.ext <;> first | rfl | (rw [f2]; exact by rw [f1])
  · by_cases hx : d' = d ∧ j = i
    · rw [if_pos hx, hx.1, hx.2, hd]
    · rw [if_neg hx, g2, if_neg hx, g1, if_neg hx]

/-- Writing a buffer's bus address into a descriptor never raises `UntranslatedAddress` (R134, R141, R183). -/
theorem writeBufAddr_spec {i : Nat} (hi : i < nDesc) {s : State} (h : s.between = []) {d : Dir}
    (ho : s.hwOwned d i = false) (buf : Word) :
    ∃ t : State, writeBufAddr d i buf s = .ok () t ∧
      t = { s with descRx := t.descRx, descTx := t.descTx, unsynced := t.unsynced } ∧
      ∀ d' j, t.desc d' j =
        if d' = d ∧ j = i then { s.desc d i with w1 := toBusAddress s.cfg buf, w2 := 0 } else s.desc d' j := by
  obtain ⟨t, e, f, g⟩ := hDescAddr_spec hi h ho 0 (toBusAddress s.cfg buf)
  rw [aliasTagged_bus, if_pos rfl] at e
  exact ⟨t, e, f, g⟩

/-- One round of POOL_INIT (R140). -/
theorem poolInitOne_spec {i : Nat} (hi : i < nDesc) {s : State} (h : s.between = []) {d : Dir}
    (ho : s.hwOwned d i = false) :
    ∃ t : State, poolInitOne d i s = .ok () t ∧
      t = { s with descRx := t.descRx, descTx := t.descTx, cbRx := t.cbRx, cbTx := t.cbTx, unsynced := t.unsynced } ∧
      (∀ d' j, t.desc d' j = if d' = d ∧ j = i then ⟨0, 0, 0⟩ else s.desc d' j) ∧
      ∀ d' j, t.cb? d' j = if d' = d ∧ j = i then some { descIndex := i, owner := .sw } else s.cb? d' j := by
  obtain ⟨t1, e1, f1, g1⟩ := hDescWrite_spec hi h (d := d) (k := .w0) (fun h => by cases h) 0
  have b1 : t1.between = [] := by rw [f1]; exact h
  have o1 : t1.hwOwned d i = false := by rw [f1]; exact ho
  obtain ⟨t2, e2, f2, g2⟩ := hDescWrite_spec hi b1 (k := .w1) (fun _ => o1) 0
  have b2 : t2.between = [] := by rw [f2]; exact b1
  have o2 : t2.hwOwned d i = false := by rw [f2]; exact o1
  obtain ⟨t3, e3, f3, g3⟩ := hDescWrite_spec hi b2 (k := .w2) (fun _ => o2) 0
  have hc : ∀ d' j, t3.cb? d' j = s.cb? d' j := fun d' j =>
    State.cb?_congr (by rw [f3]; exact by rw [f2]; exact by rw [f1]) (by rw [f3]; exact by rw [f2]; exact by rw [f1]) d' j
  refine ⟨t3.setCb d i { descIndex := i, owner := .sw }, ?_, ?_, fun d' j => ?_, fun d' j => ?_⟩
  · simp only [poolInitOne, op_bind, e1, e2, e3, upd_run]
  · cases d <;> apply State.ext <;>
      first | rfl | (simp only [State.setCb]; rw [f3]; exact by rw [f2]; exact by rw [f1])
  · rw [State.setCb_desc, g3, g2, g2, g1, g1]
    by_cases hx : d' = d ∧ j = i
    · simp [hx.1, hx.2, Desc.setWord]
    · simp [hx]
  · rw [State.cb?_setCb, hc]
    simp only [eq_comm]

/-- POOL_REFILL once its checks have passed (R141). -/
theorem poolRefill_run {i : Nat} {s : State} {d : Dir} {b : Cb} (hb : s.cb? d i = some b) (ho : b.owner = .sw)
    (hg : badBuffer s.cfg (cbBuf s.cfg d i) = false) :
    poolRefill d i s = (do
      refillCache d (cbBuf s.cfg d i)
      writeBufAddr d b.descIndex (cbBuf s.cfg d i) : Op Unit) s := by
  simp [poolRefill, readCb, hb, ho, hg]

/-- Releasing control blocks from `p` on: each of the `n` passed is the software's, and the pointer has moved `n` times
(R185). -/
theorem releaseBds_spec (r : TxRing) (n p : Nat) (s : State) :
    ∃ t : State, releaseBds r n p s = .ok (r.nextN n p) t ∧ t = { s with cbTx := t.cbTx } ∧
      ∀ i, t.cb? .tx i =
        if ∃ j < n, r.nextN j p = i then (s.cb? .tx i).map ({ · with owner := .sw }) else s.cb? .tx i := by
  induction n generalizing p s with
  | zero => exact ⟨s, rfl, rfl, fun i => by simp⟩
  | succ n ih =>
    obtain ⟨t, e, f, g⟩ := ih (ringNext r.cbBase r.endPtr p) (s.setOwner .tx p .sw)
    refine ⟨t, ?_, ?_, fun i => ?_⟩
    · simp only [releaseBds, setOwner, op_bind, upd_run, e, TxRing.nextN]
    · have hs : s.setOwner .tx p .sw = { s with cbTx := (s.setOwner .tx p .sw).cbTx } := by
        unfold State.setOwner; split <;> rfl
      rw [f, hs]
    · have hj : (∃ j < n + 1, r.nextN j p = i) ↔ p = i ∨ ∃ j < n, r.nextN j (ringNext r.cbBase r.endPtr p) = i := by
        constructor
        · rintro ⟨j, hj, hx⟩
          cases j with
          | zero => exact .inl hx
          | succ j => exact .inr ⟨j, by omega, hx⟩
        · rintro (hx | ⟨j, hj, hx⟩)
          · exact ⟨0, by omega, hx⟩
          · exact ⟨j + 1, by omega, hx⟩
      rw [g, State.cb?_setOwner]
      simp only [hj]
      by_cases hp : p = i <;> by_cases hq : ∃ j < n, r.nextN j (ringNext r.cbBase r.endPtr p) = i <;>
        cases s.cb? .tx i <;> simp [hp, hq]

end Sys2Proof.Machine
end

