-- ==== Sys2Proof/Laws/Step.lean ====
section
/-! SUPPORT. Laws of one operation and of one step: every operation answers a next state, and that state is reached by a
chain of single updates (`Micro`). Every invariant of the machine goes through `step_chain`, every frame that holds for
all operations through `exec_chain`. -/

namespace Sys2Proof.Machine

/-- Every operation answers a next state (log 9). -/
theorem exec_next (i : Instr) (s : State) : ∃ t, exec i s = .next t := by cases i <;> exact ⟨_, rfl⟩

theorem settle_chain {a : Allow} {s : State} {x : EStateM.Result Halt State Result} (h : Chain a s (stateOf x)) :
    Chain a s (settle x) := by
  cases x with
  | ok r t => exact .tail h (.result t r)
  | error e t =>
    cases e with
    | err e => exact .tail h (.result t _)
    | fault f => exact .tail h (.mark t f)
    | refused => exact .tail h (.refuse t)

/-- An invocation is a chain of what its operation may write. -/
theorem runOp_chain {a : Allow} {x : Op Result} (hx : Moves a x) {s t : State} (h : runOp x s = .next t) :
    Chain a s t := by
  rw [runOp_run] at h
  cases h
  split
  · exact settle_chain (hx s)
  · exact .single (.refuse s)

/-- The records an operation may write. -/
def allowOf : Instr → Allow
  | .rxRingInit | .rxRecv => { rx := true }
  | .txQueuesInit | .txSend _ | .txReclaim _ => { tx := true }
  | .seqStep => .all
  | .busXlate | .physXlate | .poolInit _ | .poolRefill _ | .prioPack _ | .prioUnpack _ | .arbSelect
  | .mdioRead _ | .mdioWrite _ | .linkReadStatus | .rdmaDeliver | .rdmaDrop | .tdmaTransmit | .regRead | .regWrite
  | .cacheClean | .cacheInvalidate | .cacheCleanInvalidate | .barrier | .delay => .none

theorem okAfter_moves {a : Allow} {x : Op Unit} (h : Moves a x) : Moves a (okAfter x) := h.bind fun _ => .pure _

theorem accessReg_moves (a : Allow) (off width : Nat) : Moves a (accessReg off width) :=
  (Moves.haltIf _ _).bind fun _ => (Moves.gets _).bind fun _ => .orHalt _ _

/-- What every operation can do (R16). -/
theorem exec_chain {i : Instr} {s t : State} (h : exec i s = .next t) : Chain (allowOf i) s t := by
  cases i with
  | busXlate => exact runOp_chain ((Moves.gets _).bind fun _ => .pure _) h
  | physXlate => exact runOp_chain ((Moves.gets _).bind fun _ => .pure _) h
  | poolInit q =>
    exact runOp_chain ((Moves.orHalt _ _).bind fun d => (poolInit_moves _ d _).bind fun _ => .pure _) h
  | poolRefill q =>
    exact runOp_chain ((Moves.orHalt _ _).bind fun d => (Moves.haltIf _ _).bind fun _ =>
      (poolRefill_moves _ d _).bind fun _ => .pure _) h
  | rxRingInit => exact runOp_chain (okAfter_moves (rxRingInit_moves rfl)) h
  | rxRecv => exact runOp_chain (rxRecv_moves rfl _) h
  | txQueuesInit => exact runOp_chain (okAfter_moves (txQueuesInit_moves rfl)) h
  | txSend q =>
    exact runOp_chain ((Moves.orHalt _ _).bind fun k => (txSend_moves rfl k _).bind fun _ => .pure _) h
  | txReclaim q =>
    exact runOp_chain ((Moves.orHalt _ _).bind fun k => (txReclaim_moves rfl k).bind fun _ => .pure _) h
  | prioPack q => exact runOp_chain ((Moves.haltIf _ _).bind fun _ => .pure _) h
  | prioUnpack q => exact runOp_chain ((Moves.haltIf _ _).bind fun _ => .pure _) h
  | arbSelect => exact runOp_chain ((arbSelect_moves _).bind fun _ => .pure _) h
  | seqStep => exact runOp_chain (okAfter_moves (seqStep_moves _ _)) h
  | mdioRead q => exact runOp_chain ((Moves.haltIf _ _).bind fun _ => (mdioRead_moves _ _).bind fun _ => .pure _) h
  | mdioWrite q =>
    exact runOp_chain ((Moves.haltIf _ _).bind fun _ => (mdioWrite_moves _ _ _).bind fun _ => .pure _) h
  | linkReadStatus => exact runOp_chain ((linkReadStatus_moves _).bind fun _ => .pure _) h
  | rdmaDeliver => exact runOp_chain (rdmaDeliver_moves _ _ _) h
  | rdmaDrop => exact runOp_chain (rdmaDrop_moves _ _) h
  | tdmaTransmit => exact runOp_chain (tdmaTransmit_moves _) h
  | regRead => exact runOp_chain ((accessReg_moves _ _ _).bind fun r => (mmioRead_moves _ r).bind fun _ => .pure _) h
  | regWrite =>
    exact runOp_chain ((accessReg_moves _ _ _).bind fun r => (mmioWrite_moves _ r _).bind fun _ => .pure _) h
  | cacheClean => exact runOp_chain (okAfter_moves (cacheClean_moves _ _ _)) h
  | cacheInvalidate => exact runOp_chain (okAfter_moves (cacheInvalidate_moves _ _ _)) h
  | cacheCleanInvalidate => exact runOp_chain (okAfter_moves (cacheCleanInvalidate_moves _ _ _)) h
  | barrier => exact runOp_chain (okAfter_moves (barrier_moves _)) h
  | delay => exact runOp_chain (okAfter_moves (delay_moves _ _)) h

/-- The cases of taking the next invocation. -/
theorem nextInvocation_cases (s : State) :
    (s.pending = [] ∧ nextInvocation s = none) ∨
    (∃ v rest i, s.pending = v :: rest ∧ decodeWord v.word = .ok i ∧ nextInvocation s = some (some i, (s.accept v rest).agentSteps v.before)) ∨
    (∃ v rest e, s.pending = v :: rest ∧ decodeWord v.word = .error e ∧ nextInvocation s = some (none, s.reject rest)) := by
  unfold nextInvocation
  cases hp : s.pending with
  | nil => exact .inl ⟨rfl, rfl⟩
  | cons v rest =>
    cases hd : decodeWord v.word with
    | ok i => exact .inr (.inl ⟨v, rest, i, rfl, hd, by simp [hd]⟩)
    | error e => exact .inr (.inr ⟨v, rest, e, rfl, hd, by simp [hd]⟩)

/-- What a step can do: run the next invocation's operation after the agent steps that come before it, or refuse its
word. -/
theorem step_cases {s t : State} (h : step s = .next t) :
    (∃ v rest i, s.pending = v :: rest ∧ decodeWord v.word = .ok i ∧
      exec i ((s.accept v rest).agentSteps v.before) = .next t) ∨
    (∃ v rest e, s.pending = v :: rest ∧ decodeWord v.word = .error e ∧ t = s.reject rest) := by
  unfold step at h
  rcases nextInvocation_cases s with ⟨-, hn⟩ | ⟨v, rest, i, hp, hd, hn⟩ | ⟨v, rest, e, hp, hd, hn⟩ <;> rw [hn] at h
  · cases h
  · exact .inl ⟨v, rest, i, hp, hd, h⟩
  · cases h; exact .inr ⟨v, rest, e, hp, hd, rfl⟩

/-- Every step is a chain of single updates. -/
theorem step_chain {s t : State} (h : step s = .next t) : Chain .all s t := by
  rcases step_cases h with ⟨v, rest, i, hp, -, he⟩ | ⟨v, rest, e, hp, -, rfl⟩
  · exact .head (.take s v rest hp rfl) (.trans (agentSteps_chain .all v.before _)
      (Chain.mono (Allow.le_all _) (exec_chain he)))
  · exact .head (.drop s v rest hp rfl) (.single (.refuse _))

end Sys2Proof.Machine
end

