-- ==== Sys2Proof/Machine/Pseudo.lean ====
section
/-! DEFINITION. The pseudo-operations of 30_encoding R114, each the run of operations it expands to. They have no word of
their own. -/

namespace Sys2Proof.Machine

/-- One invocation of an expansion, with no result there yet: the operation runs and its end becomes state, as for an
operation word. -/
def invoke (op : Op Result) (s : State) : State :=
  if configOk s.cfg then settle (op { s with result := .none }) else s.refuse

/-- `SEQ_STEP` repeated, at most `n` times, until construction has ended. -/
def seqSteps (mac : MacAddr) (rxDescLen : Nat) : Nat → State → State
  | 0, s => s
  | n + 1, s =>
    if s.constructed then s else seqSteps mac rxDescLen n (invoke (okAfter (seqStep mac rxDescLen)) s)

/-- What ETH_NEW returns (R220): `Ok(())` at `Ready`, the error at `Failed(kind)`, and nothing where its steps were
refused or faulted and construction has not ended. -/
def State.constructionResult (s : State) : Result :=
  match s.seq with
  | .ready => .ok
  | .failed e => .err e
  | .idle | .step _ => .none

/-- `ETH_NEW mac, rx_desc_len` (R220): step 0, the fifteen steps, and at most `LINK_POLL_LIMIT` polls in step 13. Where
construction has ended before, no SEQ_STEP runs (R114; DEDUCED, log 43). Where a SEQ_STEP is refused or faults and `seq`
stays (log 20), the repetition of R114 has no end, and the model's ends after `16 + LINK_POLL_LIMIT` SEQ_STEPs (DESIGN
CHOICE, log 46). -/
def ethNew (mac : MacAddr) (rxDescLen : Nat) (s : State) : State :=
  let t := seqSteps mac rxDescLen (16 + s.cfg.linkPollLimit) s
  { t with result := t.constructionResult }

/-- The word REG_SET writes (R114): `(old & ~mask(field)) | (v << lo(field))`, `v` not cut to the field. -/
def setWord (p : FieldPos) (v : Nat) (old : Word) : Word := (old &&& ~~~fieldMask p) ||| (BitVec.ofNat 32 v <<< p.lo)

/-- `REG_SET off, field, v`: `REG_READ` and then `REG_WRITE`, each a host step before which agents may step (R9). Where the
read is refused there is no old word: the write and the agent steps before it are left out (DESIGN CHOICE, log 61). -/
def regSet (off : Nat) (p : FieldPos) (v : Nat) (s : State) : State :=
  let t := invoke (hostStep (regRead off 32)) s
  match t.result with
  | .word old => invoke (hostStep (regWrite off 32 (setWord p v old))) t
  | _ => t

/-- `REG_PULSE off, field, name`: set, hold, clear; agents may step before each host step and in the hold (R9, R299).
It goes on through the hold and the second `REG_SET` also where the first one's read is refused (DESIGN CHOICE, log 61). -/
def regPulse (off : Nat) (p : FieldPos) (name : DelayName) (s : State) : State :=
  regSet off p 0 (invoke (okAfter (hDelay name)) (regSet off p 1 s))

/-- The last result is a link that is up. -/
def State.linkIsUp (s : State) : Bool :=
  match s.result with
  | .link l => l.linkUp
  | _ => false

/-- `LINK_READ_STATUS` repeated, at most `n` times, until the link is up. A poll that ends in an error, a refusal or a fault
has failed, and the result of the last poll is the one left (R114; DESIGN CHOICE, log 50). -/
def linkReads : Nat → State → State
  | 0, s => s
  | n + 1, s =>
    let t := invoke (do return .link (← linkReadStatus)) s
    if t.linkIsUp then t else linkReads n t

/-- `LINK_WAIT`: until `link_up`, or until `LINK_POLL_LIMIT` polls have failed. -/
def linkWait (s : State) : State := linkReads s.cfg.linkPollLimit s

/-- `RX_POLL n`: `RX_RECV` repeated at most `n` times, stopping at the first result other than `WouldBlock`. An
`RX_RECV` that is refused or faults, which returns no result, stops it too (DESIGN CHOICE, log 55). -/
def rxPoll (dest : List Byte) : Nat → State → State
  | 0, s => s
  | n + 1, s =>
    let t := invoke (rxRecv dest) s
    if t.result = .wouldBlock then rxPoll dest n t else t

end Sys2Proof.Machine
end

