-- ==== Sys2Proof/Tests/Slice0.lean ====
section
/-! SUPPORT. The model's own tests: the decoder on words written out from 30_encoding R110 and R111, the well-formedness
checks, vectors of 95_test_vectors (expected results from the spec, one step each), and for every obligation with
hypotheses a state and operands that meet them. -/

namespace Sys2Proof.Machine.Tests

open Sys2Proof Sys2Proof.Machine

-- one theorem after the other: each kernel evaluation otherwise waits in a thread of its own
set_option Elab.async false

/-! ### Well-formedness: one ill-formed term for each check of R112 -/

theorem test_wf_refuses :
    (Instr.poolInit 2).wellFormed = false ∧ (Instr.poolRefill 255).wellFormed = false ∧
    (Instr.txSend 4).wellFormed = false ∧ (Instr.txReclaim 17).wellFormed = false ∧
    (Instr.prioPack 18).wellFormed = false ∧ (Instr.prioUnpack 255).wellFormed = false ∧
    (Instr.mdioRead 32).wellFormed = false ∧ (Instr.mdioWrite 32).wellFormed = false := by decide

theorem test_wf_accepts :
    (Instr.poolInit 1).wellFormed = true ∧ (Instr.txSend 3).wellFormed = true ∧ (Instr.txReclaim 16).wellFormed = true ∧
    (Instr.prioPack 17).wellFormed = true ∧ (Instr.mdioWrite 31).wellFormed = true := by decide

/-! ### Decoding: OPC in bits 15:8, Q in bits 7:0 (R110), one word of every row of R111 -/

theorem test_decode_bus :
    decodeWord 0b00000001_00000000 = .ok .busXlate ∧ decodeWord 0b00000010_00000000 = .ok .physXlate := by decide
theorem test_decode_pool :
    decodeWord 0b00010000_00000001 = .ok (.poolInit 1) ∧ decodeWord 0b00010001_00000000 = .ok (.poolRefill 0) := by decide
theorem test_decode_rx :
    decodeWord 0b00100000_00000000 = .ok .rxRingInit ∧ decodeWord 0b00100001_00000000 = .ok .rxRecv := by decide
theorem test_decode_tx :
    decodeWord 0b00110000_00000000 = .ok .txQueuesInit ∧ decodeWord 0b00110001_00010000 = .ok (.txSend 16) ∧
    decodeWord 0b00110010_00000011 = .ok (.txReclaim 3) := by decide
theorem test_decode_prio :
    decodeWord 0b00110011_00010001 = .ok (.prioPack 17) ∧ decodeWord 0b00110100_00000110 = .ok (.prioUnpack 6) ∧
    decodeWord 0b00110101_00000000 = .ok .arbSelect := by decide
theorem test_decode_seq : decodeWord 0b01000000_00000000 = .ok .seqStep := by decide
theorem test_decode_link :
    decodeWord 0b01010000_00000001 = .ok (.mdioRead 1) ∧ decodeWord 0b01010001_00011111 = .ok (.mdioWrite 31) ∧
    decodeWord 0b01010010_00000000 = .ok .linkReadStatus := by decide
theorem test_decode_dma :
    decodeWord 0b01100000_00000000 = .ok .rdmaDeliver ∧ decodeWord 0b01100001_00000000 = .ok .rdmaDrop ∧
    decodeWord 0b01100010_00000000 = .ok .tdmaTransmit := by decide
theorem test_decode_reg :
    decodeWord 0b01110000_00000000 = .ok .regRead ∧ decodeWord 0b01110001_00000000 = .ok .regWrite := by decide
theorem test_decode_cache :
    decodeWord 0b01111000_00000000 = .ok .cacheClean ∧ decodeWord 0b01111001_00000000 = .ok .cacheInvalidate ∧
    decodeWord 0b01111010_00000000 = .ok .cacheCleanInvalidate := by decide
theorem test_decode_barrier_delay :
    decodeWord 0b01111011_00000000 = .ok .barrier ∧ decodeWord 0b01111100_00000000 = .ok .delay := by decide

/-- Reserved OPCs and illegal Qs (R112, POOL-10, TX-10). -/
theorem test_decode_refuses :
    decodeWord 0x0000 = .error (.reservedOpc 0) ∧ decodeWord 0xFFFF = .error (.reservedOpc 255) ∧
    decodeWord 0x7D00 = .error (.reservedOpc 0x7D) ∧ decodeWord 0x0101 = .error (.illegalQ 1 1) ∧
    decodeWord 0x1102 = .error (.illegalQ 0x11 2) ∧ decodeWord 0x3104 = .error (.illegalQ 0x31 4) ∧
    decodeWord 0x3312 = .error (.illegalQ 0x33 18) ∧ decodeWord 0x5020 = .error (.illegalQ 0x50 32) := by decide

/-- Bytes are little-endian (R61); a table word is laid out so. -/
theorem test_decode_bytes :
    decode [0x10, 0x31, 0xAA] = .ok (.txSend 16, [0xAA]) ∧ decode [0x00] = .error .truncated ∧
    decodeTableWord 16 0x3110 = some (.txSend 16) ∧ decodeTableWord 16 0x0300 = none := by decide

/-- The text form of R113. -/
theorem test_text : (Instr.txSend 16).text = "TX_SEND q=16" ∧ Instr.rxRecv.text = "RX_RECV" := by decide +kernel

/-! ### Small states -/

/-- Every control block of a pool, with one owner. -/
def blocks (o : Owner) : Tab Cb := (List.range 256).map fun i => (i, { descIndex := i, owner := o })

/-- After both `POOL_INIT`s, with every control block owned by `o`. -/
def pool (o : Owner) : State := { State.reset with cbRx := blocks o, cbTx := blocks o }

/-- Registers set to the given words. -/
def withRegs (s : State) (l : List (RegId × Word)) : State := l.foldl (fun s e => s.setReg e.1 e.2) s

/-- With one argument record. -/
def withArgs (s : State) (a : Args) : State := { s with args := a }

/-- Reset with one argument record. -/
def args (a : Args) : State := withArgs State.reset a

/-- The receive ring enabled, everything accepted, one descriptor per frame, `n` frames filled and not acknowledged. -/
def rxOn (n : Word) (s : State) : State :=
  withRegs { s with rx := some freshRx } [(.dmaCtrl .rx, 0x20001), (.dmaRingCfg .rx, 0x10000), (.umacCmd, 0x12),
    (.ring .rx 16 .prodIndex, n)]

/-- A receive state for one frame: control block 0 with the buffer at `0x00100000`. -/
def rxOne (n : Word) (a : Args) : State :=
  rxOn n { State.reset with cbRx := [(0, ⟨0, .hw⟩)], descRx := [(0, ⟨0, 0xC0100000, 0⟩)], args := a }

/-- Transmit ring 0 enabled with one frame of the bytes 1, 2 handed over, strict priority, no flow period. -/
def txOne : State :=
  withRegs { State.reset with
      tx := [(0, freshTx .q0)], tdmaRp := [(0, 0)], cbTx := [(0, ⟨0, .hw⟩)]
      descTx := [(0, ⟨0x00026000, 0xC0180000, 0⟩)], mem := [(0x180000, 1), (0x180001, 2)] }
    [(.umacCmd, 1), (.dmaCtrl .tx, 3), (.dmaRingCfg .tx, 1), (.ring .tx 0 .prodIndex, 1), (.tdmaArbCtrl, 2)]

/-- A `Ready` state with a fresh receive ring, a written descriptor `w0` at the read pointer, and `PROD_INDEX`. -/
def recv (prod w0 : Word) (dest : Nat) : State :=
  withRegs { State.reset with
      seq := .ready, rx := some freshRx, cbRx := [(0, ⟨0, .sw⟩)], descRx := [(0, ⟨w0, 0xC0100000, 0⟩)]
      mem := [(0x100002, 7)], args := { dest := List.replicate dest 9 } }
    [(.ring .rx 16 .prodIndex, prod)]

/-- A `Ready` state with transmit ring `q` fresh but for what `f` changes, its control blocks the software's. -/
def send (q : TxQueue) (f : TxRing → TxRing) (cons : Word) (payload : Nat) : State :=
  withRegs { State.reset with
      seq := .ready, tx := [(q.num, f (freshTx q))], cbTx := blocks .sw
      args := { payload := List.replicate payload 5 } }
    [(.ring .tx q.ring .consIndex, cons)]

/-- Three descriptors of ring 0 outstanding (RC-1). -/
def three (r : TxRing) : TxRing := { r with writePtr := 3, freeBds := 29, prodIndex := 3 }

/-- Idle MDIO block and a tape of draws. -/
def phy (tape : List Nat) : State := { State.reset with tape := tape }

/-- The PHY answers of one LINK_READ_STATUS, each after no busy read and with no failure. -/
def answers (l : List Nat) : List Nat := l.flatMap fun v => [1, v, 0]

/-- A state at a step of the sequencer. -/
def seqAt (k : StepNo) : State := { State.reset with seq := .step k, macAddr := ⟨1, 2, 3, 4, 5, 6⟩ }

/-- The state an outcome carries, if it is a next state. -/
def nextOf (o : Host.Outcome State Fault Refusal) : Option State :=
  match o with
  | .next t => some t
  | _ => none

/-- A property of the next state. -/
def After (o : Host.Outcome State Fault Refusal) (p : State → Bool) : Prop := (nextOf o).any p = true

/-! ### Vectors of 95_test_vectors -/

theorem test_bus_xlate_keeps_tag_bits :  -- BUS-3
    After (exec .busXlate (args { phys := 0x80001000 })) fun t => t.result = .word 0xC0001000 := by
  unfold After; decide +kernel
theorem test_phys_xlate_other_alias :  -- BUS-5
    After (exec .physXlate (args { bus := 0x40100000 })) fun t => t.result = .word 0x00100000 := by
  unfold After; decide +kernel
theorem test_raw_descriptor_address :  -- BUS-8
    (match hDescAddr .rx 0 0 0x00100000 State.reset with
      | .error (.fault f) t => f = .untranslatedAddress && t.desc .rx 0 = ⟨0, 0x00100000, 0⟩
      | _ => false) = true := by decide +kernel
/-- A copy of twelve bytes onto the first receive descriptor, which is raw, and of its `w0` alone (R134, R60b). -/
theorem test_raw_copy :
    let s : State := { send .q0 id 0 12 with cfg := { descBaseRx := 0x00180000 } }
    After (exec (.txSend 0) s) (fun t =>
      t.fault = some .untranslatedAddress && t.desc .rx 0 = ⟨0x05050505, 0x05050505, 0x05050505⟩) ∧
    After (exec (.txSend 0) (withArgs s { payload := [1, 2, 3, 4] })) (fun t => t.fault = none && t.result = .ok) := by
  unfold After; decide +kernel
theorem test_config_refused :  -- BUS-7, TXI-3
    After (exec .busXlate { State.reset with cfg := { aliasTag := 0x60000000 } }) (fun t => t.refused) ∧
    After (exec .busXlate { State.reset with cfg := { basePriority := 16 } }) (fun t => t.refused) := by
  unfold After; decide +kernel

theorem test_pool_init_count :  -- POOL-2
    After (exec (.poolInit 0) (args { count := 255 })) fun t => t.result = .err .malformed && t.cb? .rx 0 = none := by
  unfold After; decide +kernel
theorem test_pool_init_failed :  -- R321, R314
    After (exec (.poolInit 0) (withArgs { State.reset with seq := .failed .timedOut } { count := 256 })) fun t =>
      t.refused && t.cbRx = [] := by
  unfold After; decide +kernel
theorem test_pool_init_owned :  -- R63
    After (exec (.poolInit 0) (withArgs (pool .hw) { count := 256 })) fun t =>
      t.fault = some .ownershipViolation && t.cb? .rx 0 = some ⟨0, .hw⟩ := by
  unfold After; decide +kernel
/-- One round of POOL_INIT's loop, the last (POOL-1). -/
theorem test_pool_init_round : (match poolInitOne .rx 255 { State.reset with descRx := [(255, ⟨1, 2, 3⟩)] } with
    | .ok _ t => t.cb? .rx 255 = some ⟨255, .sw⟩ && t.descRx = []
    | .error _ _ => false) = true := by decide +kernel
theorem test_pool_refill_rx :  -- POOL-4
    After (exec (.poolRefill 0) (withArgs (pool .sw) { cb := 3 })) fun t =>
      t.desc .rx 3 = ⟨0, 0xC0101800, 0⟩ && t.hist = [.invalidate 0x00101800 2048, .clean 0x00101800 2048] := by
  unfold After; decide +kernel
theorem test_pool_refill_owned :  -- POOL-6
    After (exec (.poolRefill 0) (withArgs (pool .hw) { cb := 3 })) fun t => t.fault = some .ownershipViolation := by
  unfold After; decide +kernel

theorem test_rx_ring_init_refused :  -- RXI-2
    After (exec .rxRingInit (withRegs (pool .sw) [(.dmaCtrl .rx, 1)])) fun t => t.refused && t.hist = [] := by
  unfold After; decide +kernel
/-- The words of RXI-1 and of one round of `alloc_rx_buffers`, the last. -/
theorem test_rx_ring_init_words :
    ringBufSizeWord {} .rx rxSize = 0x01000800 ∧ xonXoffWord {} = 0x00050010 ∧ ptrWord (freshRx.endPtr + 1) - 1 = 767 ∧
    (match allocRxBuffer 255 { State.reset with cbRx := [(255, ⟨255, .sw⟩)] } with
      | .ok _ t => t.cb? .rx 255 = some ⟨255, .hw⟩ && t.desc .rx 255 = ⟨0, 0xC017F800, 0⟩
      | .error _ _ => false) = true := by decide +kernel
theorem test_rx_recv_ok :  -- RX-1
    After (exec .rxRecv (recv 1 0x00406000 1536)) fun t =>
      t.result = .count 62 && t.args.dest.take 2 = [7, 0] && t.args.dest.drop 62 = List.replicate 1474 9 &&
      t.reg (.ring .rx 16 .consIndex) = 1 && t.rx = some { freshRx with cIndex := 1, readPtr := 1 } := by
  unfold After; decide +kernel
theorem test_rx_recv_dropped :  -- RX-4
    After (exec .rxRecv (recv 0x00030000 0 1536)) fun t =>
      t.result = .err (.dropped 3) && t.rx = some { freshRx with oldDiscards := 3 } := by
  unfold After; decide +kernel

theorem test_tx_queues_init_refused :  -- R321, R180: before POOL_INIT(TX), and outside step 11
    After (exec .txQueuesInit (seqAt .s11)) (fun t => t.refused && t.hist = []) ∧
    After (exec .txQueuesInit (pool .sw)) (fun t => t.refused && t.hist = []) := by
  unfold After; decide +kernel
/-- The words of TXI-1 and TXI-2, and one round of the loop. -/
theorem test_tx_queues_init_words :
    initialPrio 0 = ⟨0x00018820, 0, 0x01000000⟩ ∧ initialPrio 3 = ⟨0x00031483, 0, 0x01300000⟩ ∧
    tdmaRingMask {} = 0x0001000F ∧ tdmaBufEnMask {} = 0x0002001E ∧
    (match initTxQueue .q3 { State.reset with cbTx := [(96, ⟨96, .hw⟩), (127, ⟨127, .hw⟩)] } with
      | .ok _ t => t.reg (.ring .tx 3 .endAddr) = 383 && t.reg (.ring .tx 3 .startAddr) = 288 &&
          t.reg (.tdmaFlowPeriod 3) = 0x06000000 && t.cbTx = [(96, ⟨96, .sw⟩), (127, ⟨127, .sw⟩)] &&
          Tab.get? t.tdmaRp 3 = some 96
      | .error _ _ => false) = true := by decide +kernel
theorem test_tx_send :  -- TX-8
    After (exec (.txSend 16) (send .q16 id 0 60)) fun t =>
      t.desc .tx 128 = ⟨0x003C6040, 0xC01C0000, 0⟩ && t.reg (.ring .tx 16 .prodIndex) = 1 &&
      t.cb? .tx 128 = some ⟨128, .hw⟩ && t.memBytes 0x001C0000 61 = List.replicate 60 5 ++ [0] := by
  unfold After; decide +kernel
theorem test_tx_send_full :  -- TX-7
    After (exec (.txSend 0) (send .q0 ({ · with freeBds := 0, prodIndex := 32 }) 0 60)) fun t =>
      t.result = .err .exhausted := by
  unfold After; decide +kernel
theorem test_tx_reclaim_wraps :  -- RC-5
    After (exec (.txReclaim 0)
      (send .q0 ({ · with cIndex := 65535, cleanPtr := 31, writePtr := 1, freeBds := 30, prodIndex := 1 }) 1 0)) fun t =>
      t.result = .count 2 && (Tab.get? t.tx 0).map (·.cleanPtr) = some 1 := by
  unfold After; decide +kernel
theorem test_tx_reclaim_too_many :  -- RC-4
    After (exec (.txReclaim 0) (send .q0 three 4 0)) fun t => t.result = .err .hwError := by
  unfold After; decide +kernel

theorem test_prio_pack :  -- W-4
    After (exec (.prioPack 6) (args { p := 7 })) fun t => t.result = .prioRegs 0 7 0 := by
  unfold After; decide +kernel
theorem test_prio_unpack :  -- R190 example
    After (exec (.prioUnpack 16) (args { regs0 := 0x18820, regs2 := 0x01000000 })) fun t => t.result = .count 16 := by
  unfold After; decide +kernel
theorem test_arb_select : After (exec .arbSelect txOne) fun t => t.result = .queue (some .q0) && t.hist = [] := by  -- R192
  unfold After; decide +kernel

theorem test_tdma_transmit :  -- R286
    After (exec .tdmaTransmit txOne) fun t =>
      t.hist.head? = some (.txFrame .q0 [1, 2]) && t.reg (.ring .tx 0 .consIndex) = 1 &&
      t.reg (.ring .tx 0 .readPtr) = 3 := by
  unfold After; decide +kernel
theorem test_rdma_deliver :  -- R281
    After (exec .rdmaDeliver (rxOne 0 { frame := [1, 2, 3], st := { mult := true } })) fun t =>
      t.desc .rx 0 = ⟨0x00036020, 0xC0100000, 0⟩ && t.memBytes 0x00100000 4 = [1, 2, 3, 0] && t.rdmaWp = 1 &&
      t.reg (.ring .rx 16 .prodIndex) = 1 && t.cb? .rx 0 = some ⟨0, .sw⟩ := by
  unfold After; decide +kernel
theorem test_rdma_drop :  -- R283, with the counter at its top
    After (exec .rdmaDrop (rxOne 0xFFFF0100 { frame := [1] })) fun t => t.reg (.ring .rx 16 .prodIndex) = 0x00000100 := by
  unfold After; decide +kernel

/-- The first word of descriptor 1 of the receive pool stands at `DESC_BASE + 12` (R90). -/
theorem test_pool_bytes :
    poolByte? {} 0x0020000C = some ⟨.rx, 1, 0⟩ ∧ poolByte? {} 0x00200BFF = some ⟨.rx, 255, 11⟩ ∧
    poolByte? {} 0x00200C04 = some ⟨.tx, 0, 4⟩ ∧ poolByte? {} 0x001FFFFF = none ∧ poolByte? {} 0x00201800 = none ∧
    (State.reset.dmaWriteByte 0x00200C06 0xC1).desc .tx 0 = ⟨0, 0x00C10000, 0⟩ ∧
    ({ State.reset with descRx := [(1, ⟨0x11223344, 0, 0⟩)] }.memByte 0x0020000D) = 0x33 := by decide +kernel

/-- A register with an offset of its own (R12, R96). -/
theorem test_moved_offset :
    regAt { off := { moved := [((RegId.ring .tx 16 .ringBufSize).key, 0x6000)] } } 0x6000 = some (.ring .tx 16 .ringBufSize) ∧
    regAt { off := { moved := [((RegId.ring .tx 16 .ringBufSize).key, 0x6000)] } } 0x3010 = some (.ring .rx 16 .ringBufSize) := by
  decide +kernel

/-- RDMA and TDMA, and the registers of an interrupt controller, have positions of their own (R95, R292): `EN` of RDMA_CTRL
at bit 5, and pending bits 15:0 cleared by the bits 31:16 of CPU_CLEAR. -/
theorem test_own_positions :
    let c : Config := { pos := { rdma := { en := ⟨5, 5⟩ }, intrl0 := { cpuStatus := ⟨15, 0⟩, cpuClear := ⟨31, 16⟩ } } }
    let s := withRegs { State.reset with cfg := c }
      [(.dmaCtrl .rx, 0x20), (.dmaCtrl .tx, 0x20), (.intrl2 .c0 .cpuStatus, 7)]
    s.dmaEn .rx = true ∧ s.dmaEn .tx = false ∧
    After (exec .regWrite { s with args := { off := 0x0208, v := 0x00050002 } })
      (fun t => t.reg (.intrl2 .c0 .cpuStatus) = 2) := by
  unfold After; decide +kernel

theorem test_phy_step :  -- R9, R260: the PHY answers before the next operation
    After (step { withRegs (phy [7, 0]) [(.mdioCmd, 0x28210000)] with
      mdioWait := .busy 2, pending := [{ word := 0x7000, args := { off := 0x0E14 }, before := [.phy] }] }) fun t =>
      t.result = .word 0x08210007 && t.mdioWait = .idle := by
  unfold After; decide +kernel
theorem test_status_step :  -- R290, R364: hardware sets bits before the read; the value is the one the register keeps
    After (step { withRegs (phy [6, 9]) [(.intrl2 .c0 .cpuStatus, 1)] with
      pending := [{ word := 0x7000, args := { off := 0x0200 }, before := [.interrupts .c0] }] }) fun t =>
      t.result = .word 7 && t.reg (.intrl2 .c0 .cpuStatus) = 7 && t.tape = [9] := by
  unfold After; decide +kernel
theorem test_mdio_read :  -- R260
    After (exec (.mdioRead 1) (phy [2, 0x796D, 0])) fun t =>
      t.result = .half 0x796D && t.hist.contains (.mmioWrite .mdioCmd 0x28210000) := by
  unfold After; decide +kernel
theorem test_mdio_read_timeout :  -- R260
    After (exec (.mdioRead 1) (phy [0])) fun t => t.result = .err .timedOut := by
  unfold After; decide +kernel
theorem test_mdio_write :  -- R261
    After (exec (.mdioWrite 0) (withArgs (phy [1]) { data := 0x8000 })) fun t =>
      t.result = .ok && t.hist.contains (.mmioWrite .mdioCmd 0x24208000) := by
  unfold After; decide +kernel
theorem test_link_1000_full :  -- LINK-1, W-5
    After (exec .linkReadStatus (phy (answers [0x796D, 0x0800, 0x0200, 0x0500, 0x01E1]))) fun t =>
      t.result = .link ⟨true, .s1000, true, true⟩ := by
  unfold After; decide +kernel
theorem test_link_ms_failure :  -- W-7
    After (exec .linkReadStatus (phy (answers [0x796D, 0x8000, 0x0200]))) fun t => t.result = .err .hwError := by
  unfold After; decide +kernel

theorem test_seq_filter :  -- R229
    After (exec .seqStep (seqAt .s9)) fun t =>
      t.reg .umacMdfCtrl = 0x18000 && t.reg (.umacMdfAddr 2) = 0x0102 && t.reg (.umacMdfAddr 3) = 0x03040506 &&
      t.seq = .step .s10 := by
  unfold After; decide +kernel
theorem test_seq_revision :  -- R221
    After (exec .seqStep (withRegs (seqAt .s1) [(.sysRevCtrl, 0x06000000)])) fun t =>
      t.seq = .failed .hwVersionNotSupported := by
  unfold After; decide +kernel

theorem test_reg_write_mask :  -- R292
    After (exec .regWrite (withArgs (withRegs State.reset [(.intrl2 .c0 .cpuMaskStatus, 0xF0)]) { off := 0x0210, v := 0x3 }))
      fun t => t.reg (.intrl2 .c0 .cpuMaskStatus) = 0xF3 := by
  unfold After; decide +kernel
theorem test_reg_write_owned :  -- R292
    After (exec .regWrite (withArgs (withRegs State.reset [(.dmaCtrl .tx, 1)]) { off := 0x4C08, v := 3 })) fun t =>
      t.refused && t.reg (.ring .tx 0 .consIndex) = 0 := by
  unfold After; decide +kernel
theorem test_reg_read :  -- R290
    After (exec .regRead (withArgs (withRegs State.reset [(.umacCmd, 0x12)]) { off := 0x0808 })) fun t =>
      t.result = .word 0x12 && t.hist = [.mmioRead .umacCmd 0x12] := by
  unfold After; decide +kernel
theorem test_reg_read_width :  -- R62
    After (exec .regRead (args { off := 0x0808, width := 16 })) fun t => t.refused := by
  unfold After; decide +kernel

theorem test_cache_clean :  -- R295
    After (exec .cacheClean { State.reset with cpuDirty := [(63, 5), (64, 6)], args := { addr := 64, len := 1 } })
      fun t => t.mem = [(64, 6)] && t.cpuDirty = [(63, 5)] := by
  unfold After; decide +kernel
theorem test_cache_clean_keeps_stale :  -- R64, R295, R365: memory takes the CPU's 9, a host read draws 9 or the written 7
    After (exec .cacheClean { State.reset with
      mem := [(64, 7)], cpuDirty := [(64, 9)], cpuStale := [(64, ⟨5, 7⟩)], args := { addr := 64, len := 1 } })
      fun t => t.mem = [(64, 9)] && t.cpuDirty = [] && t.cpuStale = [(64, ⟨5, 7⟩)] := by
  unfold After; decide +kernel
theorem test_cache_invalidate :  -- R296
    After (exec .cacheInvalidate
      { State.reset with cpuStale := [(0, ⟨5, 7⟩), (128, ⟨6, 8⟩)], tape := [0], cpuDirty := [(1, 9)], args := { addr := 0, len := 65 } })
      fun t => t.cpuStale = [(128, ⟨6, 8⟩)] && t.cpuDirty = [] && t.mem = [] := by
  unfold After; decide +kernel
theorem test_cache_clean_invalidate :  -- R297
    After (exec .cacheCleanInvalidate
      { State.reset with cpuStale := [(0, ⟨5, 7⟩)], cpuDirty := [(1, 9)], args := { addr := 0, len := 1 } })
      fun t => t.mem = [(1, 9)] && t.cpuStale = [] && t.cpuDirty = [] := by
  unfold After; decide +kernel
theorem test_barrier :  -- R298
    After (exec .barrier { State.reset with unsynced := [⟨.rx, 0, .w1, 0⟩] }) fun t =>
      t.hist = [.barrier] && t.unsynced = [] := by
  unfold After; decide +kernel
theorem test_delay :  -- R299
    After (exec .delay (args { name := .tFlushHold })) fun t => t.hist = [.delay .tFlushHold] := by
  unfold After; decide +kernel

/-- The FCS of the nine bytes "123456789" is the check value 0xCBF43926 of CRC-32 (log 26). -/
theorem test_fcs : fcs [0x31, 0x32, 0x33, 0x34, 0x35, 0x36, 0x37, 0x38, 0x39] = [0x26, 0x39, 0xF4, 0xCB] := by decide +kernel

/-- `step` runs the placed word first, and with nothing pending the run ends (log 7). -/
theorem test_step_runs_placed_word :
    After (step ((args { phys := 0x00100000 }).withFetchWord 16 0x0100)) (fun t => t.result = .word 0xC0100000) ∧
    nextOf (step State.reset) = none := by
  unfold After; decide +kernel

/-! ### Witnesses: a state and operands that meet the hypotheses of each obligation -/

theorem blocks_get {o : Owner} {i : Nat} {b : Cb} (h : Tab.get? (blocks o) i = some b) : b.descIndex = i ∧ i < 256 := by
  have := Tab.mem_of_get? h
  simp only [blocks, List.mem_map, List.mem_range, Prod.mk.injEq] at this
  obtain ⟨j, hj, rfl, rfl⟩ := this
  exact ⟨rfl, hj⟩

theorem blocks_owner {o : Owner} {i : Nat} {b : Cb} (h : Tab.get? (blocks o) i = some b) : b.owner = o := by
  have := Tab.mem_of_get? h
  simp only [blocks, List.mem_map, List.mem_range, Prod.mk.injEq] at this
  obtain ⟨j, -, -, rfl⟩ := this
  rfl

theorem pool_identity (o : Owner) : (pool o).PoolIdentity := by
  intro d i b h
  cases d <;> exact blocks_get h

theorem blocks_sorted (o : Owner) : Tab.sorted (blocks o) := by
  unfold blocks Tab.sorted
  rw [List.pairwise_map]
  exact List.pairwise_lt_range

theorem pool_canonical (o : Owner) : (pool o).Canonical :=
  ⟨⟨Tab.sorted_nil, by simp [pool, State.reset]⟩, Tab.sorted_nil, Tab.sorted_nil, Tab.sorted_nil, Tab.sorted_nil,
    Tab.sorted_nil, Tab.sorted_nil, blocks_sorted o, blocks_sorted o, Tab.sorted_nil, fun _ => ⟨rfl, rfl⟩⟩

theorem test_witness_config : configOk State.reset.cfg = true ∧ configOk (pool .sw).cfg = true := by decide

theorem test_witness_DecodeEncode : (Instr.txSend 16).wellFormed = true ∧ (Instr.mdioRead 31).wellFormed = true := by
  decide
theorem test_witness_EncodeDecode : decodeWord 0x3410 = .ok (.prioUnpack 16) := by decide
theorem test_witness_IllegalWordsRefused :
    ¬ LegalWord 0x0300 ∧ ¬ LegalWord 0x2001 ∧ ¬ LegalWord 0x3312 ∧
    ∃ s : State, s.pending = [{ word := 0x0300 }] :=
  ⟨by unfold LegalWord; decide, by unfold LegalWord; decide, by unfold LegalWord; decide,
    ⟨{ State.reset with pending := [{ word := 0x0300 }] }, rfl⟩⟩
theorem test_witness_StepRunsDecoded :
    (∃ s : State, s.pending = [{ word := 0x7B00 }] ∧ decodeWord 0x7B00 = .ok .barrier) ∧
    (Instr.txSend 16).wellFormed = true ∧ State.reset.pending = [] :=
  ⟨⟨{ State.reset with pending := [{ word := 0x7B00 }] }, rfl, by decide⟩, by decide, rfl⟩

/-- A state that steps, with each invariant, a fault and a refusal already marked, and records that are written. -/
def stepping : State :=
  { pool .hw with
      pending := [{ word := 0x7B00 }], fault := some .unwrittenRead, refused := true, rx := some freshRx
      tx := [(0, freshTx .q0)] }

theorem test_witness_step : ∃ t, step stepping = .next t := ⟨_, rfl⟩
theorem test_witness_StepKeepsMarks : stepping.fault = some .unwrittenRead ∧ stepping.refused = true := ⟨rfl, rfl⟩
theorem test_witness_StepKeepsPoolIdentity : stepping.PoolIdentity ∧ stepping.cb? .rx 255 = some ⟨255, .hw⟩ :=
  ⟨pool_identity .hw, by decide +kernel⟩
theorem test_witness_StepKeepsCanonical : stepping.Canonical :=
  let h := pool_canonical .hw
  ⟨h.mem, h.dirty, h.stale, h.regs, h.tdmaRp, h.descRx, h.descTx, h.cbRx, h.cbTx, by decide, fun _ => ⟨rfl, rfl⟩⟩
theorem test_witness_StepKeepsOccupancy : stepping.Occupancy := by
  intro q r h
  have := Tab.mem_of_get? h
  simp only [stepping, List.mem_cons, List.not_mem_nil, or_false, Prod.mk.injEq] at this
  obtain ⟨-, rfl⟩ := this
  decide
theorem test_witness_StepKeepsCursors : stepping.Cursors := by
  refine ⟨fun r h => ?_, fun n r h => ?_⟩
  · cases h; decide
  · have := Tab.mem_of_get? h
    simp only [stepping, List.mem_cons, List.not_mem_nil, or_false, Prod.mk.injEq] at this
    obtain ⟨rfl, rfl⟩ := this
    exact ⟨.q0, rfl, by decide⟩
theorem test_witness_WhoWritesRecords :
    (∃ t, exec .barrier stepping = .next t) ∧ Instr.barrier ≠ .seqStep ∧ Instr.barrier ∉ [.rxRingInit, .rxRecv, .seqStep] ∧
    Instr.barrier ∉ [.txQueuesInit, .seqStep] ∧ ∀ q, Instr.barrier ≠ .txSend q ∧ Instr.barrier ≠ .txReclaim q :=
  ⟨⟨_, rfl⟩, by decide, by decide, by decide, fun q => ⟨by simp, by simp⟩⟩

theorem test_witness_XlateResults :
    State.reset.cfg = {} ∧ (args { phys := 0x00100000 }).args.phys = 0x00100000 ∧
    (args { bus := 0xC0100000 }).args.bus = 0xC0100000 := by decide
theorem test_witness_BusRoundTrip :
    (0x3FFFFFFF : Word) &&& ~~~({} : Config).physMask = 0 ∧ ({} : Config).aliasTag &&& ({} : Config).physMask = 0 ∧
    ({ aliasTag := 0x60000000 } : Config).aliasTag &&& ({ aliasTag := 0x60000000 } : Config).physMask ≠ 0 ∧
    15 < ({ basePriority := 16 } : Config).basePriority := by decide
theorem test_witness_PrioPackResult :
    (17 : BitVec 8).toNat ≤ 17 ∧ (args { p := 31 }).args.p ≤ 31 ∧ 17 < (18 : BitVec 8).toNat ∧
    31 < (args { p := 32 }).args.p := by decide
theorem test_witness_PrioUnpackResult :
    (0 : BitVec 8).toNat ≤ 17 ∧ 17 < (18 : BitVec 8).toNat ∧ 17 ≤ 17 ∧ 5 ≠ 6 ∧ 31 < 32 := by decide
/-- Two loaded rings: ring 0 throttled by its draw unless `d` is odd, and ring 1, which is never throttled. -/
def twoLoaded (mode : Word) (d : Nat) : State :=
  withRegs { txOne with tape := [d, 1] } [(.dmaCtrl .tx, 7), (.dmaRingCfg .tx, 3), (.ring .tx 1 .prodIndex, 1),
    (.tdmaFlowPeriod 0, 0x06000000), (.tdmaPriority 0, 0x8820), (.tdmaArbCtrl, mode)]
theorem test_witness_ArbSelectEffect :
    txOne.strictPriority = true ∧ txOne.ringLoaded .q0 = true ∧ txOne.mayThrottle .q0 = false ∧
    State.reset.strictPriority = false ∧ (twoLoaded 2 1).mayThrottle .q0 = true ∧
    (twoLoaded 2 1).eligibleNow .q0 = true ∧ (twoLoaded 2 0).eligibleNow .q0 = false ∧ (twoLoaded 2 0).arbDraws = 1 ∧
    (twoLoaded 0 1).arbDraws = 2 := by decide +kernel
/-- By the draw ring 0 goes first or is passed over (R191); in another mode a draw chooses (R192). -/
theorem test_arbiter_draws :
    After (exec .arbSelect (twoLoaded 2 1)) (fun t => t.result = .queue (some .q0) && t.tape = [1]) ∧
    After (exec .arbSelect (twoLoaded 2 0)) (fun t => t.result = .queue (some .q1) && t.tape = [1]) ∧
    After (exec .arbSelect (twoLoaded 0 1)) (fun t => t.result = .queue (some .q1) && t.tape = []) := by
  unfold After; decide +kernel
theorem txOne_serves : txOne.Serves .q0 :=
  ⟨by decide +kernel, by
    rw [if_pos (by decide +kernel)]
    intro q
    cases q <;> decide +kernel⟩
theorem test_witness_TdmaTransmitEmits :
    configOk txOne.cfg = true ∧ txOne.flag .umacCmd (·.txEn) = true ∧ txOne.Serves .q0 ∧ (twoLoaded 0 1).Serves .q1 ∧
    Tab.get? txOne.tx TxQueue.q0.num = some (freshTx .q0) ∧ Tab.get? txOne.tdmaRp TxQueue.q0.num = some 0 ∧
    txOne.cb? .tx 0 = some ⟨0, .hw⟩ ∧ txOne.Synced .tx 0 ∧
    w0Whole txOne.cfg.desc (txOne.desc .tx 0).w0 = true ∧ w0Len txOne.cfg.desc (txOne.desc .tx 0).w0 ≠ 0 ∧
    w0Whole txOne.cfg.desc 0x00022000 = false ∧ { txOne with cpuDirty := [(0x180001, 9)] }.dirtyCount 0x180000 2 = 1 := by
  refine ⟨by decide, by decide +kernel, txOne_serves, ⟨by decide +kernel, ?_⟩, by decide +kernel, by decide +kernel,
    by decide +kernel, fun k => ?_, by decide +kernel, by decide +kernel, by decide +kernel, by decide +kernel⟩
  · rw [if_neg (by decide +kernel)]
    decide +kernel
  · cases k <;> rfl
theorem test_witness_TdmaNotEnabled :
    State.reset.flag .umacCmd (·.txEn) = false ∧ (∀ q, State.reset.ringLoaded q = false) ∧
    Tab.get? { txOne with tx := [] }.tx TxQueue.q0.num = none ∧ { txOne with tx := [] }.Serves .q0 ∧
    ∀ q, (withRegs (twoLoaded 2 0) [(.dmaRingCfg .tx, 1)]).eligibleNow q = false := by
  refine ⟨by decide +kernel, fun q => ?_, rfl, txOne_serves, fun q => ?_⟩ <;> cases q <;> decide +kernel

/-- A frame whose stored bytes fill one buffer exactly. -/
def full : State := rxOne 255 { frame := List.replicate 2048 1 }
theorem test_witness_RdmaDeliverStores :
    configOk full.cfg = true ∧ full.rdmaEnabled full.args.frame = true ∧ full.rx = some freshRx ∧
    full.storedLen full.args.frame.length = bufLen ∧ 0 < full.rdmaFree freshRx ∧ full.rdmaWp < nDesc ∧
    full.cb? .rx 0 = some ⟨0, .hw⟩ ∧ full.Synced .rx 0 ∧ full.args.st.error = false ∧
    OffPools full.cfg 0x00100000 (full.storedLen full.args.frame.length) := by
  refine ⟨by decide, by decide +kernel, rfl, by decide +kernel, by decide +kernel, by decide, by decide +kernel, fun k => ?_,
    by decide, by decide +kernel⟩
  cases k <;> rfl

/-- A frame one byte longer, in a ring with exactly two free descriptors, from the last control block on. -/
def wrapping : State := rxOn 254 { pool .hw with rdmaWp := 255, args := { frame := List.replicate 2049 1 } }
theorem test_witness_RdmaDeliverMany :
    configOk wrapping.cfg = true ∧ wrapping.rx = some freshRx ∧ freshRx.Placed ∧ wrapping.PoolIdentity ∧
    wrapping.rdmaWp < 256 ∧ wrapping.rdmaEnabled wrapping.args.frame = true ∧
    ((wrapping.storedLen wrapping.args.frame.length + 2047) / 2048 : Nat) = 2 ∧ wrapping.rdmaFree freshRx = 2 ∧
    (∀ i < 256, (wrapping.cb? .rx i).isSome) ∧ wrapping.Synced .rx 255 ∧ wrapping.Synced .rx 0 ∧
    (∀ j < 2, ∀ w1 w2, wrapping.MayFetch .rx ((wrapping.rdmaWp + j) % 256) .w1 w1 →
      wrapping.MayFetch .rx ((wrapping.rdmaWp + j) % 256) .w2 w2 → OffPools wrapping.cfg (descPhys wrapping.cfg w2 w1) 2048) ∧
    ∀ m < 2048, ∀ m' < 1, byteAddr (0x00100000 : Word) m' ≠ byteAddr (0x00180000 : Word) m := by
  refine ⟨by decide, rfl, by decide, pool_identity .hw, by decide, by decide +kernel, by decide +kernel, by decide +kernel,
    by decide +kernel, fun k => ?_, fun k => ?_, fun j _ w1 w2 h1 h2 => ?_, by decide +kernel⟩
  · cases k <;> rfl
  · cases k <;> rfl
  · have e1 : w1 = 0 := h1.elim id fun h => nomatch h
    have e2 : w2 = 0 := h2.elim id fun h => nomatch h
    rw [e1, e2]
    decide +kernel
theorem test_witness_RdmaNotEnabled :
    State.reset.dmaEn .rx = false ∧ (withRegs full [(.umacCmd, 0x10)]).flag .umacCmd (·.rxEn) = false ∧
    (withRegs full [(.dmaRingCfg .rx, 0)]).flag (.dmaRingCfg .rx) (ringEnPos · .rx 16) = false ∧
    (withRegs full [(.dmaCtrl .rx, 1)]).flag (.dmaCtrl .rx) (ringBufEnPos · .rx 16) = false ∧
    (withRegs full [(.umacCmd, 2)]).passesFilter full.args.frame = false ∧
    { full with rx := none }.rdmaEnabled full.args.frame = true ∧
    (rxOne 256 { frame := [1] }).rdmaFree freshRx ≤ 0 ∧ (rxOne 257 { frame := [1] }).rdmaFree freshRx ≤ 0 := by
  decide +kernel
theorem test_witness_RdmaDropCounts :
    (rxOne 256 { frame := [1] }).rdmaEnabled [1] = true ∧ (rxOne 256 { frame := [1] }).cfg.pos = {} ∧
    (rxOne 256 { frame := [1] }).rdmaFree freshRx = 0 ∧ (rxOne 255 { frame := [1] }).rdmaFree freshRx = 1 ∧
    chunkCount ((rxOne 255 { frame := [1] }).storedLen 2049) = 2 ∧ chunkCount ((rxOne 255 { frame := [1] }).storedLen 1) = 1 := by
  decide +kernel

/-- The offsets of the registers that the clauses name are theirs (R96). -/
theorem test_witness_RegReadReturns :
    regAt {} 0 = some .sysRevCtrl ∧ regAt {} 0x0E14 = some .mdioCmd ∧ regAt {} 0x3048 = some (.dmaStatus .rx) ∧
    regAt {} 0x0200 = some (.intrl2 .c0 .cpuStatus) ∧ regAt {} 0x0210 = some (.intrl2 .c0 .cpuMaskSet) ∧
    RegId.sysRevCtrl.plainRead = true ∧ State.reset.mdioWait = .idle ∧ (RegId.intrl2 .c0 .cpuMaskSet).plainRead = true ∧
    (RegId.intrl2 .c0 .cpuStatus).plainRead = true ∧ (RegId.dmaStatus .rx).plainRead = true ∧
    (args { off := 0x3048 }).args.width = 32 ∧ { State.reset with mdioWait := .busy 1 }.mdioWait = .busy (0 + 1) ∧
    { State.reset with mdioWait := .busy 0 }.mdioWait = .busy 0 ∧ (0x24201200 : Word).extractLsb' 26 2 = 1 ∧
    (0x28210000 : Word).extractLsb' 26 2 ≠ 1 := by decide +kernel
/-- The last busy read of a read transaction: the word before, then data and failure from the tape (R260). -/
theorem test_mdio_cmd_read :
    After (exec .regRead { withRegs (args { off := 0x0E14 }) [(.mdioCmd, 0x28210000)] with
      mdioWait := .busy 0, tape := [0x796D, 1] })
      (fun t => t.result = .word 0x28210000 && t.reg .mdioCmd = 0x1821796D && t.mdioWait = .idle) := by
  unfold After; decide +kernel
theorem test_witness_RegWriteStores :
    regAt {} 0x0004 = some .sysPortCtrl ∧ RegId.sysPortCtrl.readOnly = false ∧ State.reset.writeRefused .sysPortCtrl = false ∧
    RegId.sysPortCtrl.sideEffect = false ∧ regAt {} 0x3044 = some (.dmaCtrl .rx) ∧ (RegId.dmaCtrl .rx).sideEffect = false ∧
    regAt {} 0x302C = some (.ring .rx 16 .readPtr) ∧ (RegId.ring .rx 16 .readPtr).sideEffect = false ∧
    State.reset.writeRefused (.ring .rx 16 .readPtr) = false ∧ regAt {} 0x2C00 = some (.ring .rx 0 .writePtr) ∧
    (RegId.ring .rx 0 .writePtr).sideEffect = false ∧ regAt {} 0x4C2C = some (.ring .tx 0 .writePtr) ∧
    (RegId.ring .tx 0 .writePtr).sideEffect = false := by decide +kernel
theorem test_witness_RegAccessRefused :
    (args { width := 16 }).args.width ≠ 32 ∧ (args { off := 3 }).args.off % 4 ≠ 0 ∧ regAt {} 0x0010 = none := by
  decide +kernel
theorem test_witness_RegWriteReadOnlyIgnored :
    regAt {} 0 = some .sysRevCtrl ∧ regAt {} 0x5048 = some (.dmaStatus .tx) ∧
    regAt {} 0x0240 = some (.intrl2 .c1 .cpuStatus) ∧ regAt {} 0x024C = some (.intrl2 .c1 .cpuMaskStatus) := by
  decide +kernel
theorem test_witness_RegWriteOwnedRefused :
    regAt {} 0x3008 = some (.ring .rx 16 .prodIndex) ∧ full.dmaEn .rx = true ∧
    regAt {} 0x5008 = some (.ring .tx 16 .consIndex) ∧ txOne.dmaEn .tx = true ∧
    regAt {} 0x2C2C = some (.ring .rx 0 .readPtr) ∧
    (withRegs State.reset [(.mdioCmd, 0x20000000)]).flag .mdioCmd (·.mdioStartBusy) = true := by decide +kernel
theorem test_witness_RegWriteSideEffects :
    regAt {} 0x3000 = some (.ring .rx 16 .writePtr) ∧ State.reset.dmaEn .rx = false ∧
    regAt {} 0x4C00 = some (.ring .tx 0 .readPtr) ∧ State.reset.dmaEn .tx = false ∧
    regAt {} 0x0250 = some (.intrl2 .c1 .cpuMaskSet) ∧ regAt {} 0x0254 = some (.intrl2 .c1 .cpuMaskClear) ∧
    regAt {} 0x0248 = some (.intrl2 .c1 .cpuClear) ∧ regAt {} 0x0808 = some .umacCmd ∧ regAt {} 0x0E14 = some .mdioCmd ∧
    fieldOn ({} : RegPos).swReset 0x2000 = true ∧ fieldOn ({} : RegPos).swReset 0 = false ∧
    State.reset.flag .mdioCmd (·.mdioStartBusy) = false ∧ fieldOn ({} : RegPos).mdioStartBusy 0x28210000 = true ∧
    fieldOn ({} : RegPos).mdioStartBusy 0 = false ∧ (phy [0]).draw 0 = 0 ∧ (phy [1]).draw 0 = 1 ∧
    (phy [2]).draw 0 = 0 + 2 := by decide +kernel

/-- One dirty and one stale byte. -/
def cached : State := { State.reset with cpuDirty := [(64, 1)], cpuStale := [(65, ⟨2, 3⟩)], args := { addr := 127, len := 1 } }
theorem test_witness_cache :
    cached.Canonical ∧ cached.cfg.cacheEnabled = true ∧ inLines cached.cfg cached.args.addr cached.args.len 64 = true ∧
    inLines cached.cfg cached.args.addr cached.args.len 63 = false ∧ Tab.get? cached.cpuDirty 64 = some 1 ∧
    Tab.get? cached.cpuDirty 65 = none ∧ State.reset.args.len = 0 :=
  ⟨⟨by decide, by decide, by decide, by decide, by decide, by decide, by decide, by decide, by decide, by decide,
    fun h => by cases h⟩, by decide, by decide, by decide, by decide, by decide, by decide⟩
theorem test_witness_CoherenceDraws :
    Tab.get? cached.cpuDirty 65 = none ∧ Tab.get? cached.cpuDirty 64 = some 1 ∧ Tab.get? cached.cpuStale 64 = none ∧
    Tab.get? cached.cpuStale 65 = some ⟨2, 3⟩ ∧ cached.oldWords .rx 0 .w0 = [] ∧ poolByte? cached.cfg 64 = none ∧
    poolByte? cached.cfg 0x00200C00 = some ⟨.tx, 0, 0⟩ := by decide +kernel

theorem test_witness_PoolInitEffect :
    dirOfQ 0 = some .rx ∧ dirOfQ 1 = some .tx ∧ State.reset.between = [] ∧ State.reset.seq ≠ .ready ∧
    (args { count := 256 }).args.count = 256 ∧ (∀ e, State.reset.seq ≠ .failed e) ∧
    (∀ i < 256, ∀ b, (pool .sw).cb? .rx i = some b → b.owner = .sw) := by
  exact ⟨by decide, by decide, rfl, by decide, rfl, fun e h => (by cases h), fun i _ b h => blocks_owner h⟩
theorem test_witness_PoolRefillEffect :
    (withArgs (pool .sw) { cb := 255 }).cb? .tx 255 = some ⟨255, .sw⟩ ∧ (pool .sw).Canonical ∧ (pool .sw).PoolIdentity ∧
    cbBuf {} .tx 255 ≠ 0 ∧ (cbBuf {} .tx 255 ||| ({} : Config).aliasTag).toNat % ({} : Config).bufAlign = 0 :=
  ⟨by decide +kernel, pool_canonical .sw, pool_identity .sw, by decide, by decide⟩
theorem test_witness_PoolRejects :
    (1 : BitVec 8).toNat ≤ 1 ∧ (args { count := 255 }).args.count ≠ 256 ∧ 1 < (2 : BitVec 8).toNat ∧
    { State.reset with seq := .ready }.seq = .ready ∧ { State.reset with seq := .failed .timedOut }.seq = .failed .timedOut ∧
    256 ≤ (args { cb := 256 }).args.cb ∧
    State.reset.cb? .rx 0 = none ∧ (pool .hw).cb? .rx 255 = some ⟨255, .hw⟩ ∧ (pool .sw).cb? .tx 0 = some ⟨0, .sw⟩ ∧
    cbBuf { bufBase := 0 } .rx 0 = 0 ∧
    (cbBuf { bufBase := 0x00100020 } .rx 1 ||| ({} : Config).aliasTag).toNat % ({} : Config).bufAlign ≠ 0 := by
  decide +kernel

theorem test_witness_RxRingInitEffect :
    (pool .sw).Canonical ∧ (pool .sw).cfg.pos = {} ∧ (pool .sw).dmaEn .rx = false ∧
    (∀ i < 256, (pool .sw).cb? .rx i = some { descIndex := i, owner := .sw }) ∧
    (∀ i < 256, badBuffer (pool .sw).cfg (cbBuf (pool .sw).cfg .rx i) = false) :=
  ⟨pool_canonical .sw, by decide, by decide, by decide +kernel, by decide +kernel⟩
theorem test_witness_RefusedInState :
    full.dmaEn .rx = true ∧ State.reset.cb? .rx 0 = none ∧ State.reset.seq ≠ .ready ∧ State.reset.cb? .tx 255 = none ∧
    queueOfQ 16 = some .q16 ∧ Tab.get? State.reset.tx TxQueue.q16.num = none ∧
    { State.reset with seq := .ready }.seq = .ready ∧ { State.reset with seq := .failed .timedOut }.seq = .failed .timedOut := by
  decide +kernel
theorem test_witness_RxRecvReturnsEarly :
    (recv 0 0 1535).seq = .ready ∧ (recv 0 0 1535).args.dest.length < (recv 0 0 1535).cfg.mtu ∧
    (recv 0 0 1536).cfg.mtu ≤ (recv 0 0 1536).args.dest.length ∧ { recv 0 0 1536 with rx := none }.rx = none ∧
    (recv 0 0 1536).rx = some freshRx ∧ (0x00030000 : Word).extractLsb' 16 16 ≠ freshRx.oldDiscards ∧
    (0x00000101 : Word).extractLsb' 16 16 = freshRx.oldDiscards ∧
    freshRx.size < ((0x101 : Word).toNat % 65536 + 65536 - freshRx.cIndex.toNat) % 65536 ∧
    ((0 : Word).toNat % 65536 + 65536 - freshRx.cIndex.toNat) % 65536 = 0 := by decide +kernel

/-- A frame to receive, and one descriptor with an error bit. -/
def good : State := recv 0x100 0x00406000 1536
def bad : State := recv 1 0x00406002 1536
theorem test_witness_RxRecvConsumes :
    configOk good.cfg = true ∧ good.PoolIdentity ∧ good.seq = .ready ∧ good.cfg.mtu ≤ good.args.dest.length ∧
    good.rx = some freshRx ∧ discardsOf good.cfg (good.reg (.ring .rx 16 .prodIndex)) = freshRx.oldDiscards ∧
    pendingCount (indexOf (good.reg (.ring .rx 16 .prodIndex))) freshRx.cIndex = freshRx.size ∧
    good.cb? .rx 0 = some ⟨0, .sw⟩ ∧ badBuffer good.cfg (cbBuf good.cfg .rx 0) = false ∧
    (rxVerdict good.cfg 1536 (good.desc .rx 0).w0).toOption = some 62 ∧
    (rxVerdict bad.cfg 1536 (bad.desc .rx 0).w0).toOption = none ∧
    (∀ a, inLines good.cfg (cbBuf good.cfg .rx 0) 2048 a = true → Tab.get? good.cpuDirty a = none) ∧
    (cbBuf good.cfg .rx 0).toNat + 2048 ≤ 2 ^ 32 ∧ good.Canonical := by
  refine ⟨by decide, fun d i b h => ?_, rfl, by decide +kernel, rfl, by decide +kernel, by decide +kernel, rfl, by decide,
    by decide +kernel, by decide +kernel, fun _ _ => rfl, by decide, ?_⟩
  · cases d
    · have := Tab.mem_of_get? (t := [(0, (⟨0, .sw⟩ : Cb))]) h
      simp only [List.mem_cons, List.not_mem_nil, or_false, Prod.mk.injEq] at this
      obtain ⟨rfl, rfl⟩ := this
      decide
    · cases h
  · exact ⟨by decide, by decide, by decide, by decide, by decide, by decide, by decide, by decide, by decide, by decide,
      fun _ => ⟨rfl, rfl⟩⟩
theorem test_witness_RxVerdictRule : ({} : Config).desc = {} := rfl

theorem test_witness_TxQueuesInitEffect :
    (pool .hw).cfg.pos = {} ∧ (pool .hw).cfg.codes = {} ∧ (∀ i < 256, (pool .hw).cb? .tx i ≠ none) ∧
    { pool .hw with seq := .step .s11 }.seq = .step .s11 :=
  ⟨rfl, rfl, by decide +kernel, rfl⟩
theorem test_witness_TxReclaimEffect :
    queueOfQ 0 = some .q0 ∧ Tab.get? (send .q0 three 3 0).tx TxQueue.q0.num = some (three (freshTx .q0)) ∧
    3 + (three (freshTx .q0)).freeBds = (three (freshTx .q0)).size ∧ 0 + (freshTx .q0).freeBds ≤ (freshTx .q0).size := by
  decide +kernel
theorem test_witness_TxReclaimRejects :
    queueOfQ 4 = none ∧ queueOfQ 3 = some .q3 ∧ (three (freshTx .q0)).size < 4 + (three (freshTx .q0)).freeBds := by decide

/-- A frame of the greatest length, into the last free descriptor. -/
def last : State := send .q16 ({ · with writePtr := 255, freeBds := 1, prodIndex := 127 }) 0 1536
theorem test_witness_TxSendEffect :
    configOk last.cfg = true ∧ last.between = [] ∧ last.seq = .ready ∧ last.PoolIdentity ∧ last.Canonical ∧
    last.cfg.desc = {} ∧ (Tab.get? last.tx 16).map (·.freeBds) = some 1 ∧ last.args.payload.length = 1536 ∧
    last.cfg.mtu = 1536 ∧ last.cb? .tx 255 = some ⟨255, .sw⟩ ∧ badBuffer last.cfg (cbBuf last.cfg .tx 255) = false ∧
    (cbBuf last.cfg .tx 255).toNat + 2048 ≤ 2 ^ 32 ∧ OffPools last.cfg (cbBuf last.cfg .tx 255) 1536 := by
  refine ⟨by decide, rfl, rfl, fun d i b h => ?_, ?_, rfl, by decide +kernel, by decide +kernel, rfl, by decide +kernel,
    by decide, by decide, by decide +kernel⟩
  · cases d
    · cases h
    · exact blocks_get h
  · exact ⟨by decide, by decide, by decide, by decide, by decide, by decide, by decide, by decide, blocks_sorted .sw,
      by decide, fun _ => ⟨rfl, rfl⟩⟩
/-- A full ring whose control blocks are the hardware's and complete in the send's own reclaim. -/
def reclaiming : State :=
  { send .q0 ({ · with freeBds := 0, prodIndex := 32 }) 1 60 with cbTx := blocks .hw }
theorem test_witness_TxSendEffect_reclaim :
    (Tab.get? reclaiming.tx 0).map (fun r => (r.freeBds, r.writePtr, r.cleanPtr, r.cIndex)) = some (0, 0, 0, 0) ∧
    (reclaiming.reg (.ring .tx 0 .consIndex)).toNat % 65536 = 1 ∧ reclaiming.cb? .tx 0 = some ⟨0, .hw⟩ ∧
    (∃ m < 1, (ringNext 0 31)^[m] 0 = 0) ∧
    After (exec (.txSend 0) reclaiming) (fun t => t.result = .ok && t.cb? .tx 0 = some ⟨0, .hw⟩) :=
  ⟨by decide +kernel, by decide +kernel, by decide +kernel, ⟨0, by decide, rfl⟩, by unfold After; decide +kernel⟩
theorem test_witness_TxSendRejects :
    (three (freshTx .q0)).size < 4 + (three (freshTx .q0)).freeBds ∧ (send .q0 id 0 0).args.payload.length = 0 ∧
    (send .q0 id 0 1537).cfg.mtu < (send .q0 id 0 1537).args.payload.length ∧
    (Tab.get? (send .q0 ({ · with freeBds := 0 }) 0 1).tx 0).map (·.freeBds) = some 0 ∧
    badBuffer { bufBase := 0x00100020 } (cbBuf { bufBase := 0x00100020 } .tx 0) = true ∧
    (send .q0 id 0 1).cb? .tx 0 = some ⟨0, .sw⟩ := by decide +kernel

/-- The last busy count in time and the first one out of time, and no end at all (R260). -/
theorem test_witness_MdioEffect :
    (31 : BitVec 8).toNat ≤ 31 ∧ (phy [5]).cfg.pos = {} ∧ (phy [5]).cfg.codes = {} ∧
    (phy [5]).flag .mdioCmd (·.mdioStartBusy) = false ∧ 1 ≤ (phy [5]).cfg.mdioPollLimit ∧
    (0 < (phy [5]).draw 0 ∧ (phy [5]).draw 0 - 1 < (phy [5]).cfg.mdioPollLimit) ∧
    ¬ ((phy [6]).draw 0 - 1 < (phy [6]).cfg.mdioPollLimit) ∧ ¬ 0 < (phy [0]).draw 0 := by decide +kernel
theorem test_witness_LinkReadStatusEffect :
    (∀ k < 5, (phy (answers [0x796D, 0, 0, 0, 0])).draw (3 * k) = 1 ∧
      (phy (answers [0x796D, 0, 0, 0, 0])).draw (3 * k + 2) % 2 = 0) ∧
    (0x796D : Half).getLsbD 2 = true ∧ (0x7969 : Half).getLsbD 2 = false ∧ (0x8000 : Half).getLsbD 15 = true ∧
    (0 : Half).getLsbD 15 = false ∧ (phy []).cfg.phy = {} := by decide +kernel
/-- Link up, then a third read that fails, one that is never answered, and one answered one read too late (R314). -/
theorem test_witness_LinkReadStatusEffect_errors :
    After (exec .linkReadStatus (phy (answers [0x796D, 0] ++ [5, 0, 1])))
      (fun t => t.result = .err .hwError && t.drawCount = 9) ∧
    After (exec .linkReadStatus (phy (answers [0x796D, 0] ++ [0, 0, 0])))
      (fun t => t.result = .err .timedOut && t.drawCount = 7) ∧
    After (exec .linkReadStatus (phy (answers [0x796D, 0] ++ [6, 0, 0])))
      (fun t => t.result = .err .timedOut && t.drawCount = 9) := by
  unfold After; decide +kernel

theorem test_witness_SeqStepStart :
    State.reset.seq = .idle ∧ (args { rxDescLen := 256 }).args.rxDescLen = 256 ∧ (args { rxDescLen := 255 }).args.rxDescLen ≠ 256 ∧
    ∀ d, ∀ i < 256, ∀ b, State.reset.cb? d i = some b → b.owner = .sw := by
  refine ⟨rfl, rfl, by decide, fun d i _ b h => ?_⟩
  cases d <;> cases h
theorem test_witness_seqAt :
    configOk (seqAt .s2).cfg = true ∧ (seqAt .s2).between = [] ∧ (seqAt .s2).cfg.pos = {} ∧ (seqAt .s2).cfg.codes = {} ∧
    (seqAt .s9).cfg.mdfSlots = 17 ∧ (seqAt .s4).flag .mdioCmd (·.mdioStartBusy) = false ∧ (seqAt .s14).seqLink = none ∧
    ∀ k, (seqAt k).seq = .step k :=
  ⟨by decide, rfl, rfl, rfl, rfl, by decide +kernel, rfl, fun _ => rfl⟩
/-- Step 11 with both pools initialised. -/
theorem test_witness_SeqEnableSteps :
    { pool .sw with seq := .step .s11 }.seq = .step .s11 ∧ (pool .sw).Canonical ∧ (pool .sw).cfg.codes = {} ∧
    (pool .sw).dmaEn .rx = false ∧ (∀ i < 256, (pool .sw).cb? .rx i = some { descIndex := i, owner := .sw }) ∧
    (∀ i < 256, badBuffer (pool .sw).cfg (cbBuf (pool .sw).cfg .rx i) = false) ∧ ∀ i < 256, (pool .sw).cb? .tx i ≠ none :=
  ⟨rfl, pool_canonical .sw, rfl, by decide, by decide +kernel, by decide +kernel, by decide +kernel⟩
theorem test_witness_SeqLinkProgram :
    { seqAt .s14 with seqLink := some ⟨true, .s1000, true, false⟩ }.seqLink = some ⟨true, .s1000, true, false⟩ := rfl

/-- A poll of step 13 with the given draws. -/
def polling (tape : List Nat) : State := { seqAt .s13 with seqPolls := some 0, tape := tape }
theorem test_witness_SeqLinkPoll :
    (match linkReadStatus (polling (answers [0x796D, 0x0800, 0x0200, 0, 0])) with
      | .ok l _ => l.linkUp
      | _ => false) = true ∧
    (match linkReadStatus (polling (answers [0x7969])) with
      | .ok l _ => !l.linkUp
      | _ => false) = true ∧
    (match linkReadStatus (polling [0]) with
      | .error (.err e) _ => e = .timedOut
      | _ => false) = true ∧ (polling []).seq = .step .s13 ∧ (polling []).seqPolls = some 0 := by decide +kernel

end Sys2Proof.Machine.Tests
end

section
/-! The pending count of two ring indices as one of them moves (10_state R43), and the occupancy of the transmit rings
(R45): the writes of a transmit record that a single update can make, and that each of them leaves a balanced record. -/

namespace Sys2Proof.Machine

/-! ### Pending counts -/

@[simp] theorem pendingCount_self (i : Half) : pendingCount i i = 0 := by simp [pendingCount]

/-- A consumer index that stays within the pending entries takes what it passed off the count. -/
theorem pendingCount_add {p c c' : Half} (h : pendingCount c' c ≤ pendingCount p c) :
    pendingCount p c' + pendingCount c' c = pendingCount p c := by
  unfold pendingCount at *
  bv_omega

/-- One more entry is handed over, short of a whole turn of the index. -/
theorem pendingCount_succ {p c : Half} (h : pendingCount p c + 1 < 65536) :
    pendingCount (p + 1) c = pendingCount p c + 1 := by
  unfold pendingCount at *
  bv_omega

/-! ### Balanced records -/

/-- What `State.Occupancy` says of one transmit record. -/
def TxRing.Balanced (r : TxRing) : Prop :=
  r.freeBds ≤ r.size ∧ r.size ≤ nDesc ∧ r.size - r.freeBds = pendingCount r.prodIndex r.cIndex

theorem State.occupancy_iff (s : State) :
    s.Occupancy ↔ ∀ (q : Nat) (r : TxRing), Tab.get? s.tx q = some r → r.Balanced := Iff.rfl

theorem TxQueue.size_le_nDesc (q : TxQueue) : q.size ≤ nDesc := by cases q <;> decide

/-- A fresh ring has every entry free and none pending (R181). -/
theorem freshTx_balanced (q : TxQueue) : (freshTx q).Balanced :=
  ⟨Nat.le_refl _, q.size_le_nDesc, by simp [freshTx]⟩

/-- A reclaim moves the entries that the consumer index passed from pending to free (R185). -/
theorem TxRing.Balanced.reclaimed {r : TxRing} (h : r.Balanced) {hwC : Half}
    (hn : (pendingCount hwC r.cIndex : Int) ≤ (r.size : Int) - r.freeBds) : (r.reclaimed hwC).Balanced := by
  obtain ⟨hfree, hsize, hocc⟩ := h
  have hsplit := pendingCount_add (p := r.prodIndex) (c := r.cIndex) (c' := hwC) (by omega)
  refine ⟨?_, hsize, ?_⟩ <;> simp only [TxRing.reclaimed] <;> omega

/-- A hand-over moves one free entry to pending; a ring of at most `N_DESC` entries cannot turn the index (R183). -/
theorem TxRing.Balanced.handOver {r : TxRing} (h : r.Balanced) (hf : r.freeBds ≠ 0) : r.handOver.Balanced := by
  obtain ⟨hfree, hsize, hocc⟩ := h
  have hsucc := pendingCount_succ (p := r.prodIndex) (c := r.cIndex) (by unfold nDesc at hsize; omega)
  refine ⟨?_, hsize, ?_⟩ <;> simp only [TxRing.handOver] <;> omega

/-! ### The writes of a transmit record -/

/-- `TxWrite s q r'`: a single update from `s` may write the record `r'` for queue `q`. -/
inductive TxWrite (s : State) (q : TxQueue) : TxRing → Prop where
  | fresh : TxWrite s q (freshTx q)
  | reclaimed {r : TxRing} {hwC : Half} (hr : Tab.get? s.tx q.num = some r)
      (hn : (pendingCount hwC r.cIndex : Int) ≤ (r.size : Int) - r.freeBds) : TxWrite s q (r.reclaimed hwC)
  | handOver {r : TxRing} (hr : Tab.get? s.tx q.num = some r) (hf : r.freeBds ≠ 0) : TxWrite s q r.handOver

/-- A single update leaves the transmit records alone or writes one of them. -/
theorem Micro.tx_cases {a : Allow} {s t : State} (m : Micro a s t) :
    t.tx = s.tx ∨ ∃ (q : TxQueue) (r' : TxRing), TxWrite s q r' ∧ t.tx = Tab.put s.tx q.num r' := by
  cases m with
  | txInit q => exact .inr ⟨q, _, .fresh, rfl⟩
  | txReclaim q r hwC _ hr hn => exact .inr ⟨q, _, .reclaimed hr hn, rfl⟩
  | txHandOver q r _ hr hf => exact .inr ⟨q, _, .handOver hr hf, rfl⟩
  | hostByte b v => exact .inl (State.hostStoreByte_tx s b v)
  | setDesc d i x => exact .inl (State.setDesc_tx s d i x)
  | initCb d i => exact .inl (State.setCb_tx s d i _)
  | setOwner d i o => exact .inl (State.setOwner_tx s d i o)
  | _ => exact .inl rfl

/-- Where every record is balanced, the record a single update writes is. -/
theorem TxWrite.balanced {s : State} {q : TxQueue} {r' : TxRing} (w : TxWrite s q r') (h : s.Occupancy) :
    r'.Balanced := by
  have hbal := s.occupancy_iff.mp h q.num
  cases w with
  | fresh => exact freshTx_balanced q
  | reclaimed hr hn => exact (hbal _ hr).reclaimed hn
  | handOver hr hf => exact (hbal _ hr).handOver hf

theorem State.Occupancy.of_put {s t : State} (h : s.Occupancy) {k : Nat} {r' : TxRing} (hb : r'.Balanced)
    (ht : t.tx = Tab.put s.tx k r') : t.Occupancy := by
  intro q r hr
  rw [ht, Tab.get?_put] at hr
  split at hr
  · cases hr; exact hb
  · exact h q r hr

theorem Micro.keeps_occupancy {a : Allow} {s t : State} (m : Micro a s t) (h : s.Occupancy) : t.Occupancy := by
  rcases m.tx_cases with hsame | ⟨q, r', w, hput⟩
  · intro q r hr; exact h q r (hsame ▸ hr)
  · exact h.of_put (w.balanced h) hput

/-- Settles O10: every step is a chain of single updates, and each keeps every transmit record balanced. -/
theorem stepKeepsOccupancy : Obligations.StepKeepsOccupancy := fun _ _ hstep hs =>
  Chain.keeps (fun _ _ => Micro.keeps_occupancy) (step_chain hstep) hs

end Sys2Proof.Machine
end

section
/-! The marks and the history across single updates, and so across every chain of them (10_state R31, R53, R55, R57). -/

namespace Sys2Proof.Machine

/-- The history, kept newest first, only grows (R53). -/
theorem Micro.hist_suffix {a : Allow} {s t : State} (m : Micro a s t) : s.hist <:+ t.hist := by
  cases m with
  | emit e => exact List.suffix_cons e s.hist
  | hostByte b v => rw [State.hostStoreByte_hist]
  | setDesc d i x => rw [State.setDesc_hist]
  | initCb d i => rw [State.setCb_hist]
  | setOwner d i o => rw [State.setOwner_hist]
  | _ => exact List.suffix_rfl

/-- The first fault stays (R55). -/
theorem Micro.keeps_fault {a : Allow} {f : FaultReason} {s t : State} (m : Micro a s t) (h : s.fault = some f) :
    t.fault = some f := by
  cases m with
  | mark g => exact State.mark_fault_of_some h g
  | hostByte b v => rwa [State.hostStoreByte_fault]
  | setDesc d i x => rwa [State.setDesc_fault]
  | initCb d i => rwa [State.setCb_fault]
  | setOwner d i o => rwa [State.setOwner_fault]
  | _ => exact h

/-- The refused mark stays (R57). -/
theorem Micro.keeps_refused {a : Allow} {s t : State} (m : Micro a s t) (h : s.refused = true) : t.refused = true := by
  cases m with
  | refuse => rfl
  | hostByte b v => rwa [State.hostStoreByte_refused]
  | setDesc d i x => rwa [State.setDesc_refused]
  | initCb d i => rwa [State.setCb_refused]
  | setOwner d i o => rwa [State.setOwner_refused]
  | _ => exact h

/-- The revision register never changes (R31): the one update of a register is of another one. -/
theorem Micro.same_sysRev {a : Allow} {s t : State} (m : Micro a s t) : t.reg .sysRevCtrl = s.reg .sysRevCtrl := by
  cases m with
  | setReg r v hr => exact State.reg_setReg_ne s v hr
  | hostByte b v => exact State.reg_congr (State.hostStoreByte_regs s b v) _
  | setDesc d i x => exact State.setDesc_reg s d i x _
  | initCb d i => exact State.setCb_reg s d i _ _
  | setOwner d i o => exact State.setOwner_reg s d i o _
  | _ => rfl

theorem Chain.hist_suffix {a : Allow} {s t : State} (m : Chain a s t) : s.hist <:+ t.hist :=
  Chain.rel (R := fun s t => s.hist <:+ t.hist) (fun _ => List.suffix_rfl) (fun _ _ _ => List.IsSuffix.trans)
    (fun _ _ => Micro.hist_suffix) m

theorem Chain.keeps_fault {a : Allow} {f : FaultReason} {s t : State} (m : Chain a s t) (h : s.fault = some f) :
    t.fault = some f :=
  Chain.keeps (P := fun s => s.fault = some f) (fun _ _ => Micro.keeps_fault) m h

theorem Chain.keeps_refused {a : Allow} {s t : State} (m : Chain a s t) (h : s.refused = true) : t.refused = true :=
  Chain.keeps (P := fun s => s.refused = true) (fun _ _ => Micro.keeps_refused) m h

theorem Chain.same_sysRev {a : Allow} {s t : State} (m : Chain a s t) : t.reg .sysRevCtrl = s.reg .sysRevCtrl :=
  Chain.same (f := fun s => s.reg .sysRevCtrl) (fun _ _ => Micro.same_sysRev) m

/-- Settles O12: every step is a chain of single updates, each of which keeps the marks, the revision and the
configuration and only appends to the history. -/
theorem stepKeepsMarks : Obligations.StepKeepsMarks := by
  intro s t hstep
  have hchain := step_chain hstep
  obtain ⟨es, hes⟩ := hchain.hist_suffix
  exact ⟨⟨es, hes.symm⟩, fun _ => hchain.keeps_fault, hchain.keeps_refused, hchain.same_sysRev, hchain.same_cfg⟩

end Sys2Proof.Machine
end

section
/-! Which operations may write the sequencer, the receive record and the transmit records (10_state R22, R41, R44): the
operations whose chain (`exec_chain`) is allowed to. -/

namespace Sys2Proof.Machine

theorem allowOf_seq_of_ne {i : Instr} (h : i ≠ .seqStep) : (allowOf i).seq = false := by
  cases i with
  | seqStep => exact absurd rfl h
  | _ => rfl

theorem allowOf_rx_of_notMem {i : Instr} (h : i ∉ [.rxRingInit, .rxRecv, .seqStep]) : (allowOf i).rx = false := by
  cases i with
  | rxRingInit | rxRecv | seqStep => simp at h
  | _ => rfl

theorem allowOf_tx_of_notMem {i : Instr} (h : i ∉ [.txQueuesInit, .seqStep])
    (hq : ∀ q, i ≠ .txSend q ∧ i ≠ .txReclaim q) : (allowOf i).tx = false := by
  cases i with
  | txQueuesInit | seqStep => simp at h
  | txSend q => exact absurd rfl (hq q).1
  | txReclaim q => exact absurd rfl (hq q).2
  | _ => rfl

/-- A chain that may not write the sequencer moves neither its state nor its records (R22). -/
theorem Chain.same_sequencer {a : Allow} (h : a.seq = false) {s t : State} (m : Chain a s t) :
    t.seq = s.seq ∧ t.macAddr = s.macAddr ∧ t.seqPolls = s.seqPolls ∧ t.seqLink = s.seqLink := by
  have htuple := Chain.same (f := fun s => (s.seq, s.macAddr, s.seqPolls, s.seqLink)) (fun _ _ => Micro.same_seq h) m
  simpa using htuple

/-- Settles O13: an operation's chain writes only the records that `allowOf` gives it. -/
theorem whoWritesRecords : Obligations.WhoWritesRecords := fun _ _ _ hexec =>
  have hchain := exec_chain hexec
  ⟨fun hi => hchain.same_sequencer (allowOf_seq_of_ne hi), fun hi => hchain.same_rx (allowOf_rx_of_notMem hi),
    fun hi hq => hchain.same_tx (allowOf_tx_of_notMem hi hq)⟩

end Sys2Proof.Machine
end

section
/-! The canonical form of the state (20_memory R60, R64; 46_dma_agents R295) across single updates, and so across every
step: one lemma per update that writes a sparse table. -/

namespace Sys2Proof.Machine

theorem State.Canonical.setReg {s : State} (h : s.Canonical) (r : RegId) (v : Word) : (s.setReg r v).Canonical :=
  { h with regs := Tab.sorted_put h.regs _ _ }

theorem State.Canonical.setDesc {s : State} (h : s.Canonical) (d : Dir) (i : Nat) (x : Desc) :
    (s.setDesc d i x).Canonical := by
  cases d with
  | rx => exact { h with descRx := putDesc_sorted h.descRx i x }
  | tx => exact { h with descTx := putDesc_sorted h.descTx i x }

theorem State.Canonical.setCb {s : State} (h : s.Canonical) (d : Dir) (i : Nat) (b : Cb) :
    (s.setCb d i b).Canonical := by
  cases d with
  | rx => exact { h with cbRx := Tab.sorted_put h.cbRx _ _ }
  | tx => exact { h with cbTx := Tab.sorted_put h.cbTx _ _ }

theorem State.Canonical.setOwner {s : State} (h : s.Canonical) (d : Dir) (i : Nat) (o : Owner) :
    (s.setOwner d i o).Canonical := by
  unfold State.setOwner
  split
  · exact h.setCb d i _
  · exact h

/-- With the cache off a host byte goes to memory, and nothing becomes dirty (R295). -/
theorem State.Canonical.hostStoreByte {s : State} (h : s.Canonical) (a : Nat) (v : Byte) :
    (s.hostStoreByte a v).Canonical := by
  have hmem := State.hostStoreByte_wf h.mem a v
  unfold State.hostStoreByte at hmem ⊢
  cases hon : s.cfg.cacheEnabled with
  | false => simp only [hon] at hmem ⊢; exact { h with mem := hmem }
  | true =>
    refine { h with
      dirty := Tab.sorted_put h.dirty _ _, stale := ?_
      cacheOff := fun hoff => absurd (hon.symm.trans hoff) (by decide) }
    rw [if_pos rfl]
    split
    · exact Tab.sorted_put h.stale _ _
    · exact h.stale

/-- With the cache off a DMA byte goes to memory, and nothing becomes stale (log 15). -/
theorem State.Canonical.dmaStoreByte {s : State} (h : s.Canonical) (a : Nat) (v : Byte) :
    (s.dmaStoreByte a v).Canonical := by
  have hmem := State.dmaStoreByte_wf h.mem a v
  unfold State.dmaStoreByte at hmem ⊢
  cases hon : s.cfg.cacheEnabled with
  | false => exact { h with mem := hmem }
  | true =>
    exact { h with
      mem := hmem, stale := Tab.sorted_put h.stale _ _
      cacheOff := fun hoff => absurd (hon.symm.trans hoff) (by decide) }

/-- Bytes that leave the dirty table leave it sorted, and empty where it was. -/
theorem State.Canonical.filterDirty {s : State} (h : s.Canonical) (p : Host.Cell → Bool) :
    State.Canonical { s with cpuDirty := s.cpuDirty.filter p } :=
  { h with
    dirty := Tab.sorted_filter h.dirty p
    cacheOff := fun hoff => ⟨by simp [(h.cacheOff hoff).1], (h.cacheOff hoff).2⟩ }

theorem State.Canonical.filterStale {s : State} (h : s.Canonical) (p : Nat × StaleByte → Bool) :
    State.Canonical { s with cpuStale := s.cpuStale.filter p } :=
  { h with
    stale := Tab.sorted_filter h.stale p
    cacheOff := fun hoff => ⟨(h.cacheOff hoff).1, by simp [(h.cacheOff hoff).2]⟩ }

/-- Every single update keeps the canonical form. -/
theorem Micro.keeps_canonical {a : Allow} {s t : State} (m : Micro a s t) (h : s.Canonical) : t.Canonical := by
  cases m with
  | setReg r v => exact h.setReg r v
  | tdmaRp q n => exact { h with tdmaRp := Tab.sorted_put h.tdmaRp _ _ }
  | hostByte b v => exact h.hostStoreByte b v
  | dmaByte b v => exact h.dmaStoreByte b v
  | memByte b v => exact { h with mem := Memory.wf_write h.mem b v }
  | dirtyFilter p => exact h.filterDirty p
  | staleFilter p => exact h.filterStale p
  | setDesc d i x => exact h.setDesc d i x
  | initCb d i => exact h.setCb d i _
  | setOwner d i o => exact h.setOwner d i o
  | txInit | txReclaim | txHandOver => exact { h with tx := Tab.sorted_put h.tx _ _ }
  | _ => exact { h with }

/-- Settles O8: every step is a chain of single updates, and each keeps every table and the memory canonical. -/
theorem stepKeepsCanonical : Obligations.StepKeepsCanonical := fun _ _ hstep hs =>
  Chain.keeps (fun _ _ => Micro.keeps_canonical) (step_chain hstep) hs

end Sys2Proof.Machine
end

section
/-! Register accesses that name no register (20_memory R62; 46_dma_agents R290, R291; 60_exceptions R321). -/

namespace Sys2Proof.Machine

/-- An access of another width, at an offset that is no multiple of 4, or where no register is, halts before it touches
the state. -/
theorem accessReg_refused {off width : Nat} {s : State} (h : width ≠ 32 ∨ off % 4 ≠ 0 ∨ regAt s.cfg off = none) :
    accessReg off width s = .error .refused s := by
  by_cases hbad : width ≠ 32 ∨ off % 4 ≠ 0
  · simp [accessReg, hbad]
  · have hnone := (or_assoc.mpr h).resolve_left hbad
    obtain ⟨hwidth, halign⟩ : width = 32 ∧ off % 4 = 0 := by simpa using hbad
    simp [accessReg, hwidth, halign, hnone]

/-- Settles O27: both accesses begin with `accessReg`, whose halt is the refusal. -/
theorem regAccessRefused : Obligations.RegAccessRefused := by
  intro s hcfg hbad
  have hhalt := accessReg_refused hbad
  exact ⟨runOp_of_refused hcfg (by simp [regRead, hhalt]), runOp_of_refused hcfg (by simp [regWrite, hhalt])⟩

end Sys2Proof.Machine
end

section
/-! The draws of the coherence model and the descriptor bytes in physical memory (20_memory R60, R64, R69;
30_encoding R90). -/

namespace Sys2Proof.Machine

/-! ### Draws -/

/-- A draw gives the next value, and moves only the tape and the counter (log 6). -/
theorem drawNat_draw (s : State) : drawNat s = .ok (s.draw 0) (s.drew 1) := by
  simp [drawNat_run, State.draw, State.drew]

/-- A draw of one of a list gives a member of it. -/
theorem drawFrom_mem {α : Type} (a : α) (rest : List α) (s : State) :
    ∃ x ∈ a :: rest, drawFrom a rest s = .ok x (s.drew 1) := by
  have hlt : s.draw 0 % (rest.length + 1) < (a :: rest).length := Nat.mod_lt _ (Nat.succ_pos _)
  refine ⟨(a :: rest)[s.draw 0 % (rest.length + 1)], List.getElem_mem hlt, ?_⟩
  simp only [drawFrom, op_bind, drawNat_draw, op_pure, List.getD_eq_getElem _ _ hlt]

/-- A dirty byte is read by a DMA agent as memory holds it or as the CPU wrote it, by a draw (R64). -/
theorem dmaReadByte_dirty {a : Nat} {s : State} {new : Byte} (h : Tab.get? s.cpuDirty a = some new) :
    dmaReadByte a s = .ok (if s.draw 0 % 2 = 1 then new else s.memByte a) (s.drew 1) := by
  simp [dmaReadByte, h, drawBool, drawNat_draw]

/-- A descriptor word that every earlier host write has reached is fetched as it is (R69). -/
theorem fetchWord_synced {d : Dir} {i : Nat} {k : DescWord} {s : State} (h : s.oldWords d i k = []) :
    fetchWord d i k s = .ok ((s.desc d i).word k) s := by
  simp [fetchWord, h]

/-- A descriptor fetch gives the current word or an older one, and moves only the draws (R69, log 13). -/
theorem fetchWord_mayFetch (d : Dir) (i : Nat) (k : DescWord) (s : State) :
    ∃ (w : Word) (n : Nat), s.MayFetch d i k w ∧ fetchWord d i k s = .ok w (s.drew n) := by
  cases hold : s.oldWords d i k with
  | nil => exact ⟨_, 0, .inl rfl, fetchWord_synced hold⟩
  | cons o os =>
    obtain ⟨w, hw, hdraw⟩ := drawFrom_mem ((s.desc d i).word k) (o :: os) s
    refine ⟨w, 1, (List.mem_cons.mp hw).imp_right fun hmem => hold ▸ hmem, ?_⟩
    simp [fetchWord, hold, hdraw]

/-! ### Where a descriptor stands -/

/-- Byte `k` of descriptor `i` stands `12 i + k` bytes after its pool's base (R90). -/
theorem poolByteOf_descAddr (c : Config) (d : Dir) {i k : Nat} (hi : i < 256) (hk : k < 12) :
    poolByteOf c d (byteAddr (descAddr c d i) k) = some ⟨d, i, k⟩ := by
  have hoff : (BitVec.ofNat 32 (byteAddr (descAddr c d i) k) - descAddr c d 0).toNat = 12 * i + k := by
    unfold descAddr byteAddr
    bv_omega
  simp only [poolByteOf, hoff, poolBytes, descWords, nDesc]
  rw [if_pos (by omega), show (12 * i + k) / 12 = i by omega, show (12 * i + k) % 12 = k by omega]

/-! ### Writes of a descriptor byte -/

/-- The mask of a byte has every bit of it. -/
theorem byteMask_getElem : ∀ (i : Nat) (_ : i < 8), (0xFF#32)[i] = true := by decide

/-- A byte of a word after it is replaced (R61). -/
theorem wordByte_setWordByte (w : Word) {n : Nat} (hn : n < 4) (b : Byte) : wordByte (setWordByte w n b) n = b := by
  ext i hi
  have hin : 8 * n + i < 32 := by omega
  simp [wordByte, setWordByte, hi, hin, byteMask_getElem i hi]

/-- A byte of a descriptor after it is replaced (R90). -/
theorem Desc.byte_withByte (x : Desc) (k : Nat) (v : Byte) :
    (x.setWord (wordOfByte k).1 (x.withByte k v)).byte k = v := by
  rw [Desc.byte, Desc.word_setWord_same]
  exact wordByte_setWordByte _ (Nat.mod_lt _ (by decide)) v

/-- A DMA byte onto a pool is written into its descriptor (R69, R74; log 12). -/
theorem State.dmaWriteByte_pool {s : State} {a : Nat} {b : PoolByte} (h : poolByte? s.cfg a = some b) (v : Byte) :
    s.dmaWriteByte a v = s.setDesc b.dir b.index
      ((s.desc b.dir b.index).setWord (wordOfByte b.byte).1 ((s.desc b.dir b.index).withByte b.byte v)) := by
  simp [State.dmaWriteByte, h]

/-- A host byte onto a pool is a write of its descriptor word (R69, R74; log 12). -/
theorem State.hostWriteByte_pool {s : State} {a : Nat} {b : PoolByte} (h : poolByte? s.cfg a = some b) (v : Byte) :
    s.hostWriteByte a v =
      s.writeDesc b.dir b.index (wordOfByte b.byte).1 ((s.desc b.dir b.index).withByte b.byte v) := by
  simp [State.hostWriteByte, h]

/-- Writing a descriptor leaves everything but the two pools. -/
theorem State.setDesc_frame (s : State) (d : Dir) (i : Nat) (x : Desc) :
    s.setDesc d i x = { s with descRx := (s.setDesc d i x).descRx, descTx := (s.setDesc d i x).descTx } := by
  cases d <;> rfl

/-- Physical memory holds the byte that a write put into the descriptor (R60b). -/
theorem State.memByte_setDesc_pool {s : State} {a : Nat} {b : PoolByte} (h : poolByte? s.cfg a = some b) (v : Byte) :
    (s.setDesc b.dir b.index
      ((s.desc b.dir b.index).setWord (wordOfByte b.byte).1 ((s.desc b.dir b.index).withByte b.byte v))).memByte a =
      v := by
  rw [State.memByte_pool (by rwa [State.setDesc_cfg]), State.desc_setDesc_same, Desc.byte_withByte]

/-- What a DMA agent's byte on a pool does: the descriptor takes it, and the cached memory stays (log 12). -/
theorem State.dmaWriteByte_pool_spec {s : State} {a : Nat} {b : PoolByte} (h : poolByte? s.cfg a = some b) (v : Byte) :
    (s.dmaWriteByte a v).memByte a = v ∧
      s.dmaWriteByte a v = { s with
        descRx := (s.dmaWriteByte a v).descRx, descTx := (s.dmaWriteByte a v).descTx } := by
  rw [State.dmaWriteByte_pool h]
  exact ⟨State.memByte_setDesc_pool h v, State.setDesc_frame ..⟩

/-- What a host byte on a pool does: the descriptor takes it, with the word it replaces still to be seen (R69), and the
cached memory stays (log 12). -/
theorem State.hostWriteByte_pool_spec {s : State} {a : Nat} {b : PoolByte} (h : poolByte? s.cfg a = some b) (v : Byte) :
    (s.hostWriteByte a v).memByte a = v ∧
      s.hostWriteByte a v = { s with
        descRx := (s.hostWriteByte a v).descRx, descTx := (s.hostWriteByte a v).descTx
        unsynced := (s.hostWriteByte a v).unsynced } := by
  obtain ⟨us, hwrite⟩ := s.writeDesc_eq b.dir b.index (wordOfByte b.byte).1 ((s.desc b.dir b.index).withByte b.byte v)
  rw [State.hostWriteByte_pool h, hwrite]
  refine ⟨State.memByte_setDesc_pool h v, ?_⟩
  rw [State.setDesc_frame]

/-- Settles O35, from the rule of each kind of read and of each agent's write onto a pool. -/
theorem coherenceDraws : Obligations.CoherenceDraws := by
  intro s a
  refine ⟨dmaReadByte_run, fun new hdirty => ⟨_, dmaReadByte_dirty hdirty, rfl⟩, hostReadByte_run,
    fun x hstale => ⟨s.drew 1, ?_, rfl⟩, fun d i k => fetchWord_synced, fun d i k => ?_,
    fun d i hi k hk => poolByteOf_descAddr s.cfg d hi hk, State.memByte_off, fun b v hpool => ?_⟩
  · rw [hostReadByte_stale hstale]
    simp [State.draw, State.drew]
  · obtain ⟨w, n, hmay, hfetch⟩ := fetchWord_mayFetch d i k s
    exact ⟨w, _, hfetch, hmay, rfl⟩
  · obtain ⟨hdmaByte, hdmaFrame⟩ := State.dmaWriteByte_pool_spec hpool v
    obtain ⟨hhostByte, hhostFrame⟩ := State.hostWriteByte_pool_spec hpool v
    exact ⟨State.memByte_pool hpool, hdmaByte, hhostByte, hdmaFrame, hhostFrame⟩

end Sys2Proof.Machine
end

section
/-! Decoding against encoding (30_encoding R110 to R112, R115): a word decodes exactly to the well-formed operation whose
word it is. -/

namespace Sys2Proof

/-! ### The two fields of a word -/

/-- A word is its OPC followed by its Q (R110). -/
theorem opcOf_append_qOf (w : BitVec 16) : opcOf w ++ qOf w = w :=
  calc
    w.extractLsb' 8 8 ++ w.extractLsb' 0 8 = w.extractLsb' 0 16 :=
      BitVec.extractLsb'_append_extractLsb'_eq_extractLsb' rfl
    _ = w := BitVec.extractLsb'_eq_self

@[simp] theorem opcOf_encode (i : Instr) : opcOf (encode i) = i.opcField := (Laws.QField.fields _ _).1

@[simp] theorem qOf_encode (i : Instr) : qOf (encode i) = i.qField := (Laws.QField.fields _ _).2

/-! ### The map and its inverse -/

theorem opMap_opcField_qField (i : Instr) : opMap i.opcField i.qField = some i := by cases i <;> rfl

/-- An operation of the map has the OPC of its row (R111). -/
theorem opcField_of_opMap {opc q : BitVec 8} {i : Instr} (h : opMap opc q = some i) : i.opcField = opc := by
  unfold opMap at h
  split at h <;> cases h
  all_goals exact BitVec.eq_of_toNat_eq (Eq.symm ‹_›)

/-! ### Decoding a word -/

/-- A word decodes to the operation the map gives, if R112 allows its Q. -/
theorem decodeWord_eq_ok_iff_opMap {w : BitVec 16} {i : Instr} :
    decodeWord w = .ok i ↔ opMap (opcOf w) (qOf w) = some i ∧ i.wellFormed = true ∧ i.qField = qOf w := by
  unfold decodeWord
  cases opMap (opcOf w) (qOf w) with
  | none => simp
  | some j =>
    simp only [Bool.and_eq_true, beq_iff_eq, Option.some.injEq]
    split
    next hq => exact ⟨fun hok => by cases hok; exact ⟨rfl, hq⟩, fun ⟨hji, _⟩ => congrArg _ hji⟩
    next hq => exact ⟨nofun, fun ⟨hji, hi⟩ => absurd (hji ▸ hi) hq⟩

/-- A word decodes to an operation exactly if it is that operation's word and R112 allows its Q. -/
theorem decodeWord_eq_ok_iff {w : BitVec 16} {i : Instr} :
    decodeWord w = .ok i ↔ encode i = w ∧ i.wellFormed = true := by
  rw [decodeWord_eq_ok_iff_opMap]
  constructor
  · rintro ⟨hmap, hwf, hq⟩
    exact ⟨by rw [encode, opcField_of_opMap hmap, hq, opcOf_append_qOf], hwf⟩
  · rintro ⟨rfl, hwf⟩
    simp [opMap_opcField_qField, hwf]

theorem decodeWord_encode {i : Instr} (h : i.wellFormed = true) : decodeWord (encode i) = .ok i :=
  decodeWord_eq_ok_iff.mpr ⟨rfl, h⟩

/-! ### Decoding bytes -/

/-- The bytes of an operation decode as its word does, and the rest is handed back (R61, R115). -/
theorem decode_encodeBytes_append {i : Instr} (h : i.wellFormed = true) (rest : List Byte) :
    decode (encodeBytes i ++ rest) = .ok (i, rest) := by
  have hword : decodeWord (opcOf (encode i) ++ qOf (encode i)) = .ok i := by
    rw [opcOf_append_qOf, decodeWord_encode h]
  change decode (qOf (encode i) :: opcOf (encode i) :: rest) = _
  simp only [decode, hword]

/-! ### The words of the map, as numbers -/

@[simp] theorem legalDirQ_iff (q : BitVec 8) : legalDirQ q = true ↔ q.toNat ≤ 1 := by simp [legalDirQ]

@[simp] theorem legalQueueQ_iff (q : BitVec 8) : legalQueueQ q = true ↔ q.toNat ∈ [0, 1, 2, 3, 16] := by
  simp only [legalQueueQ, Bool.or_eq_true, decide_eq_true_eq, beq_iff_eq, List.mem_cons, List.not_mem_nil, or_false]
  omega

@[simp] theorem legalPrioQ_iff (q : BitVec 8) : legalPrioQ q = true ↔ q.toNat ≤ 17 := by simp [legalPrioQ]

@[simp] theorem legalPhyQ_iff (q : BitVec 8) : legalPhyQ q = true ↔ q.toNat ≤ 31 := by simp [legalPhyQ]

/-- A row with no Q needs a Q of 0 (R112). -/
theorem zero_eq_iff_toNat (q : BitVec 8) : 0#8 = q ↔ q.toNat = 0 := by
  rw [eq_comm, BitVec.toNat_eq]
  rfl

theorem toNat_opcOf (w : BitVec 16) : (opcOf w).toNat = w.toNat / 256 := by
  have hw := w.isLt
  simp only [opcOf, BitVec.extractLsb'_toNat, Nat.shiftRight_eq_div_pow]
  omega

theorem toNat_qOf (w : BitVec 16) : (qOf w).toNat = w.toNat % 256 := by simp [qOf]

end Sys2Proof

namespace Sys2Proof.Machine

/-- The numbers of R111 and R112 are the words that decode: along the rows of the map, R112's constraint on the row's Q. -/
theorem legalWord_iff (w : BitVec 16) : LegalWord w ↔ ∃ i, decodeWord w = .ok i := by
  simp only [decodeWord_eq_ok_iff_opMap, LegalWord, ← toNat_opcOf, ← toNat_qOf]
  generalize opcOf w = opc, qOf w = q
  unfold opMap
  split
  case h_27 => simp_all -- a reserved OPC is in no row
  all_goals simp [*, Instr.wellFormed, Instr.qField, zero_eq_iff_toNat]

/-! ### What a step does with the next word -/

theorem step_of_decodeWord_ok {s : State} {v : Invocation} {rest : List Invocation} {i : Instr}
    (hp : s.pending = v :: rest) (hd : decodeWord v.word = .ok i) :
    step s = exec i ((s.accept v rest).agentSteps v.before) := by
  simp [step, nextInvocation, hp, hd]

theorem step_of_decodeWord_error {s : State} {v : Invocation} {rest : List Invocation} {e : DecodeError}
    (hp : s.pending = v :: rest) (hd : decodeWord v.word = .error e) : step s = .next (s.reject rest) := by
  simp [step, nextInvocation, hp, hd]

theorem step_of_pending_nil {s : State} (hp : s.pending = []) : step s = .fault .noInvocation := by
  simp [step, nextInvocation, hp]

theorem decodeWord_error_of_not_legalWord {w : BitVec 16} (h : ¬ LegalWord w) : ∃ e, decodeWord w = .error e := by
  cases hd : decodeWord w with
  | ok i => exact absurd ((legalWord_iff w).mpr ⟨i, hd⟩) h
  | error e => exact ⟨e, rfl⟩

@[simp] theorem State.agentSteps_nil (s : State) : s.agentSteps [] = s := by simp [State.agentSteps]

/-- The word of a 16-bit table entry is that entry. -/
theorem tableInvocation_word (s : State) (w : BitVec 16) : (tableInvocation s 16 w.toNat).word = w := by
  simp only [tableInvocation, min_self, BitVec.toNat_mod_cancel, BitVec.ofNat_toNat, BitVec.setWidth_eq]

/-- An invocation placed from the table is taken with the arguments and agent steps of the state (log 7). -/
theorem accept_tableInvocation (s : State) (nbits w : Nat) :
    (s.withFetchWord nbits w).accept (tableInvocation s nbits w) s.pending = { s with result := .none } := rfl

/-! ### The obligations -/

/-- Settles O1: the round trip of a well-formed operation, by its word and by its bytes. -/
theorem decodeEncode : Obligations.DecodeEncode := fun _ hwf =>
  ⟨decodeWord_encode hwf, decode_encodeBytes_append hwf⟩

/-- Settles O2: the other direction of `decodeWord_eq_ok_iff`. -/
theorem encodeDecode : Obligations.EncodeDecode := fun _ _ => decodeWord_eq_ok_iff.mp

/-- Settles O3: `LegalWord` is what decodes, and a step rejects a word that does not. -/
theorem illegalWordsRefused : Obligations.IllegalWordsRefused := by
  refine fun w => ⟨legalWord_iff w, fun hw s v rest hp hv => ?_⟩
  subst hv
  obtain ⟨e, hd⟩ := decodeWord_error_of_not_legalWord hw
  exact step_of_decodeWord_error hp hd

/-- Settles O4: eleven fixed words, by evaluation. -/
theorem decodedWords : Obligations.DecodedWords := by
  unfold Obligations.DecodedWords
  decide

/-- Settles O5, from the rule of a step on a word that decodes and on an empty queue. -/
theorem stepRunsDecoded : Obligations.StepRunsDecoded := by
  refine ⟨fun s v rest i hp hd => step_of_decodeWord_ok hp hd, fun s i hwf => ?_, fun s => step_of_pending_nil⟩
  have hd : decodeWord (tableInvocation s 16 (encode i).toNat).word = .ok i := by
    rw [tableInvocation_word, decodeWord_encode hwf]
  rw [step_of_decodeWord_ok (s := s.withFetchWord 16 (encode i).toNat) rfl hd, accept_tableInvocation]
  exact congrArg (exec i) (State.agentSteps_nil _)

end Sys2Proof.Machine
end

section
/-! The bus address translator (40_bus_address R130 to R132): the round trip as bit algebra, the two operations, and the
refusal of every operation under a configuration that breaks R132 or R188 (60_exceptions R321). -/

namespace Sys2Proof.Machine

/-! ### The round trip -/

/-- Masking keeps an address that has no bit outside the mask. -/
theorem and_mask_of_and_not_mask {a m : Word} (h : a &&& ~~~m = 0) : a &&& m = a :=
  calc a &&& m = a &&& m ||| a &&& ~~~m := by simp [h]
    _ = a := by rw [← BitVec.and_or_distrib_left, BitVec.or_not_self, BitVec.and_allOnes]

/-- The round trip of a valid physical address adds the bits of the alias tag that the mask lets through. -/
theorem toPhysAddress_toBusAddress {c : Config} {a : Word} (ha : a &&& ~~~c.physMask = 0) :
    toPhysAddress c (toBusAddress c a) = a ||| c.aliasTag &&& c.physMask := by
  rw [toPhysAddress, toBusAddress, BitVec.and_or_distrib_right, and_mask_of_and_not_mask ha]

/-- Address 0 is valid, and its round trip shows every bit that tag and mask share (R132). -/
theorem roundTrip_iff (c : Config) :
    (∀ a : Word, a &&& ~~~c.physMask = 0 → toPhysAddress c (toBusAddress c a) = a) ↔
      c.aliasTag &&& c.physMask = 0 := by
  refine ⟨fun h => ?_, fun hdisj a ha => ?_⟩
  · have hzero : (0 : Word) &&& ~~~c.physMask = 0 := BitVec.zero_and
    have htrip := h 0 hzero
    rw [toPhysAddress_toBusAddress hzero] at htrip
    simpa using htrip
  · simp [toPhysAddress_toBusAddress ha, hdisj]

/-- OR is idempotent (R130). -/
theorem toBusAddress_idem (c : Config) (a : Word) : toBusAddress c (toBusAddress c a) = toBusAddress c a := by
  simp only [toBusAddress, BitVec.or_assoc, BitVec.or_self]

/-! ### The operations -/

/-- Every operation is an invocation of its meaning under `runOp`, which checks the configuration first. -/
theorem exec_eq_runOp (i : Instr) (s : State) : ∃ op : Op Result, exec i s = runOp op s := by
  cases i <;> exact ⟨_, rfl⟩

theorem exec_of_badConfig {s : State} (hc : configOk s.cfg = false) (i : Instr) : exec i s = .next s.refuse := by
  obtain ⟨op, hop⟩ := exec_eq_runOp i s
  rw [hop, runOp_of_badConfig hc]

theorem configOk_eq_false_iff (c : Config) :
    configOk c = false ↔ c.aliasTag &&& c.physMask ≠ 0 ∨ 15 < c.basePriority := by
  simp [configOk, imp_iff_not_or]

theorem exec_busXlate {s : State} (hc : configOk s.cfg = true) :
    exec .busXlate s = .next { s with result := .word (toBusAddress s.cfg s.args.phys) } :=
  runOp_of_ok hc (by simp [busXlate])

theorem exec_physXlate {s : State} (hc : configOk s.cfg = true) :
    exec .physXlate s = .next { s with result := .word (toPhysAddress s.cfg s.args.bus) } :=
  runOp_of_ok hc (by simp [physXlate])

/-! ### The obligations -/

/-- Settles O15: the round trip differs from the address by the bits that tag and mask share, and `runOp` refuses every
operation under a bad configuration. -/
theorem busRoundTrip : Obligations.BusRoundTrip := by
  refine fun c => ⟨roundTrip_iff c, fun hbad i s hs => ?_⟩
  subst hs
  exact exec_of_badConfig ((configOk_eq_false_iff s.cfg).mpr hbad) i

/-- Settles O14: the two operations return the translator's functions, whose examples are at the default tag and mask. -/
theorem xlateResults : Obligations.XlateResults := by
  refine fun s hc => ⟨exec_busXlate hc, exec_physXlate hc, toBusAddress_idem _ _, fun hcfg hphys => ?_,
    fun hcfg hbus => ?_⟩
  · have hres : toBusAddress s.cfg s.args.phys = 0xC0100000 := by rw [hcfg, hphys]; decide
    rw [exec_busXlate hc, hres]
  · have hres : toPhysAddress s.cfg s.args.bus = 0x00100000 := by rw [hcfg, hbus]; decide
    rw [exec_physXlate hc, hres]

end Sys2Proof.Machine
end

section
/-! The identity of control blocks and descriptors (41_pool R142 (a)) across single updates, and so across every step: one
lemma per update that writes a control block. -/

namespace Sys2Proof.Machine

/-- POOL_INIT gives a block of the pool its own index (R140). -/
theorem State.PoolIdentity.initCb {s : State} (h : s.PoolIdentity) (d : Dir) {i : Nat} (hi : i < nDesc) (o : Owner) :
    (s.setCb d i { descIndex := i, owner := o }).PoolIdentity := by
  intro d' j b hb
  rw [State.cb?_setCb] at hb
  split at hb
  · next hsame =>
    obtain ⟨-, rfl⟩ := hsame
    cases hb
    exact ⟨rfl, hi⟩
  · exact h d' j b hb

/-- An owner is set in place: the block keeps its index (R40). -/
theorem State.PoolIdentity.setOwner {s : State} (h : s.PoolIdentity) (d : Dir) (i : Nat) (o : Owner) :
    (s.setOwner d i o).PoolIdentity := by
  intro d' j b hb
  rw [State.cb?_setOwner] at hb
  split at hb
  · obtain ⟨b', hb', rfl⟩ := Option.map_eq_some_iff.mp hb
    exact h d' j b' hb'
  · exact h d' j b hb

theorem State.PoolIdentity.of_cb? {s t : State} (h : s.PoolIdentity) (hcb : ∀ d i, t.cb? d i = s.cb? d i) :
    t.PoolIdentity := fun d i b hb => h d i b (hcb d i ▸ hb)

/-- Every single update keeps the identity of the control blocks. -/
theorem Micro.keeps_poolIdentity {a : Allow} {s t : State} (m : Micro a s t) (h : s.PoolIdentity) : t.PoolIdentity := by
  cases m with
  | initCb d i hi => exact h.initCb d hi .sw
  | setOwner d i o => exact h.setOwner d i o
  | setDesc d i x => exact h.of_cb? (State.setDesc_cb? s d i x)
  | hostByte b v =>
    exact h.of_cb? (State.cb?_congr (State.hostStoreByte_cbRx s b v) (State.hostStoreByte_cbTx s b v))
  | _ => exact h

/-- Settles O9: every step is a chain of single updates, and each keeps the identity of the control blocks. -/
theorem stepKeepsPoolIdentity : Obligations.StepKeepsPoolIdentity := fun _ _ hstep hs =>
  Chain.keeps (fun _ _ => Micro.keeps_poolIdentity) (step_chain hstep) hs

end Sys2Proof.Machine
end

section
/-! Host writes of descriptor words with no agent step between them: the words that a fetch may still see after them
(20_memory R69; log 13). -/

namespace Sys2Proof.Machine

theorem State.setDesc_oldWords (s : State) (d : Dir) (i : Nat) (x : Desc) (d' : Dir) (j : Nat) (k : DescWord) :
    (s.setDesc d i x).oldWords d' j k = s.oldWords d' j k := by cases d <;> rfl

/-- A descriptor after a word of one is written. -/
theorem State.desc_writeDesc (s : State) (d : Dir) (i : Nat) (k : DescWord) (v : Word) (d' : Dir) (j : Nat) :
    (s.writeDesc d i k v).desc d' j = if d = d' ∧ i = j then (s.desc d i).setWord k v else s.desc d' j := by
  obtain ⟨us, hwrite⟩ := s.writeDesc_eq d i k v
  rw [hwrite, ← State.desc_setDesc]
  exact State.desc_congr rfl rfl d' j

theorem State.word_writeDesc (s : State) (d : Dir) (i : Nat) (k : DescWord) (v : Word) (d' : Dir) (j : Nat)
    (k' : DescWord) : ((s.writeDesc d i k v).desc d' j).word k' =
      if d = d' ∧ i = j ∧ k = k' then v else (s.desc d' j).word k' := by
  rw [State.desc_writeDesc]
  by_cases hdesc : d = d' ∧ i = j
  · obtain ⟨rfl, rfl⟩ := hdesc
    simp [Desc.word_setWord]
  · rw [if_neg hdesc, if_neg fun hall => hdesc ⟨hall.1, hall.2.1⟩]

/-- A word that the write replaced is one a fetch may see, before those remembered of it earlier. -/
theorem State.oldWords_writeDesc (s : State) (d : Dir) (i : Nat) (k : DescWord) (v : Word) (d' : Dir) (j : Nat)
    (k' : DescWord) : (s.writeDesc d i k v).oldWords d' j k' =
      if d = d' ∧ i = j ∧ k = k' ∧ (s.desc d i).word k ≠ v then (s.desc d i).word k :: s.oldWords d' j k'
      else s.oldWords d' j k' := by
  by_cases hv : (s.desc d i).word k = v
  · simp [State.writeDesc, hv, State.setDesc_oldWords]
  · by_cases hword : d = d' ∧ i = j ∧ k = k'
    · obtain ⟨rfl, rfl, rfl⟩ := hword
      simp [State.writeDesc, hv, State.oldWords]
    · have hother : ¬ (d = d' ∧ i = j ∧ k = k' ∧ (s.desc d i).word k ≠ v) := fun hall =>
        hword ⟨hall.1, hall.2.1, hall.2.2.1⟩
      have hskip : (decide (d = d') && decide (i = j) && decide (k = k')) = false := by simpa [and_assoc] using hword
      rw [if_neg hother]
      simp [State.writeDesc, hv, State.oldWords, hskip]

/-- A write of a descriptor word moves no control block. -/
@[simp] theorem State.writeDesc_cb? (s : State) (d : Dir) (i : Nat) (k : DescWord) (v : Word) (d' : Dir) (j : Nat) :
    (s.writeDesc d i k v).cb? d' j = s.cb? d' j := by
  obtain ⟨us, hwrite⟩ := s.writeDesc_eq d i k v
  rw [hwrite]
  exact State.setDesc_cb? s d i _ d' j

@[simp] theorem State.writeDesc_between (s : State) (d : Dir) (i : Nat) (k : DescWord) (v : Word) :
    (s.writeDesc d i k v).between = s.between := by
  obtain ⟨us, hwrite⟩ := s.writeDesc_eq d i k v
  rw [hwrite]
  exact State.setDesc_between s d i _

@[simp] theorem State.writeDesc_cfg (s : State) (d : Dir) (i : Nat) (k : DescWord) (v : Word) :
    (s.writeDesc d i k v).cfg = s.cfg := by
  obtain ⟨us, hwrite⟩ := s.writeDesc_eq d i k v
  rw [hwrite]
  exact State.setDesc_cfg s d i _

@[simp] theorem State.writeDesc_hwOwned (s : State) (d : Dir) (i : Nat) (k : DescWord) (v : Word) (d' : Dir) (j : Nat) :
    (s.writeDesc d i k v).hwOwned d' j = s.hwOwned d' j := State.hwOwned_congr (State.writeDesc_cb? s d i k v) d' j

/-- A write of a descriptor word moves the pools and the words that wait for a barrier, and nothing else. -/
theorem State.writeDesc_frame (s : State) (d : Dir) (i : Nat) (k : DescWord) (v : Word) :
    s.writeDesc d i k v = { s with
      descRx := (s.writeDesc d i k v).descRx, descTx := (s.writeDesc d i k v).descTx
      unsynced := (s.writeDesc d i k v).unsynced } := by
  obtain ⟨us, hwrite⟩ := s.writeDesc_eq d i k v
  rw [hwrite, State.setDesc_frame]

theorem State.Remembers.refl (s : State) : s.Remembers s := fun _ _ _ => (if_pos rfl).symm

/-- A host write of a word that still holds what it held at `s`: what it replaces is remembered (R69). -/
theorem State.Remembers.writeDesc {s t : State} (h : s.Remembers t) {d : Dir} {i : Nat} {k : DescWord}
    (hfresh : (t.desc d i).word k = (s.desc d i).word k) (v : Word) : s.Remembers (t.writeDesc d i k v) := by
  intro d' j k'
  have hold := h d' j k'
  rw [State.oldWords_writeDesc, State.word_writeDesc]
  by_cases hword : d = d' ∧ i = j ∧ k = k'
  · obtain ⟨rfl, rfl, rfl⟩ := hword
    rw [if_pos hfresh] at hold
    simp [hfresh, hold, eq_comm, ite_not]
  · rw [if_neg hword, if_neg fun hall => hword ⟨hall.1, hall.2.1, hall.2.2.1⟩, hold]

/-- A host write of an address word of a descriptor the hardware owns (R63). -/
theorem hostWriteDesc_owned {d : Dir} {i : Nat} (hi : i < nDesc) {k : DescWord} (hk : k.isAddr = true) {s : State}
    (ho : s.hwOwned d i = true) (v : Word) :
    hostWriteDesc d i k v s = .error (.fault .ownershipViolation) s := by
  simp [hostWriteDesc, inPool, Nat.not_le.mpr hi, hk, ho]

/-- The two address words of a descriptor are written, and what each replaces is remembered (R69, R93). -/
theorem writeBufAddr_remembers {i : Nat} (hi : i < nDesc) {s : State} (h : s.between = []) {d : Dir}
    (ho : s.hwOwned d i = false) (buf : Word) {t : State} (hrun : writeBufAddr d i buf s = .ok () t) : s.Remembers t := by
  have hwrites : writeBufAddr d i buf s =
      .ok () ((s.writeDesc d i .w1 (toBusAddress s.cfg buf)).writeDesc d i .w2 0) := by
    have hb : (s.writeDesc d i .w1 (toBusAddress s.cfg buf)).between = [] := (s.writeDesc_between ..).trans h
    have hob : (s.writeDesc d i .w1 (toBusAddress s.cfg buf)).hwOwned d i = false := (s.writeDesc_hwOwned ..).trans ho
    simp only [writeBufAddr, hDescAddr, op_bind, gets_run, hDescWrite_eq h, hostWriteDesc_run hi fun _ => ho,
      hDescWrite_eq hb, hostWriteDesc_run hi fun _ => hob, checkAlias, State.writeDesc_cfg, haltIf_run,
      aliasTagged_bus]
    rfl
  rw [hwrites] at hrun
  cases hrun
  exact ((State.Remembers.refl s).writeDesc rfl _).writeDesc (by simp [State.word_writeDesc]) 0

end Sys2Proof.Machine
end

section
/-! What CACHE_CLEAN_INVALIDATE leaves in memory and in the two sets of the coherence model (20_memory R64;
46_dma_agents R297). -/

namespace Sys2Proof.Machine

/-- What CACHE_CLEAN_INVALIDATE of a range leaves (R297): memory takes the dirty bytes of the lines, which are then neither
dirty nor stale, and every other byte keeps both. -/
structure State.Flushed (s : State) (addr : Word) (len : Nat) (t : State) : Prop where
  frame : t = { s with
    mem := t.mem, cpuDirty := t.cpuDirty, cpuStale := t.cpuStale
    hist := .invalidate addr len :: .clean addr len :: s.hist }
  read : ∀ a, Memory.read t.mem a = s.cleaned addr len a
  inside : ∀ a, s.cfg.cacheEnabled = true → inLines s.cfg addr len a = true →
    Tab.get? t.cpuDirty a = none ∧ Tab.get? t.cpuStale a = none
  outside : ∀ a, (s.cfg.cacheEnabled = false ∨ inLines s.cfg addr len a = false) →
    Tab.get? t.cpuDirty a = Tab.get? s.cpuDirty a ∧ Tab.get? t.cpuStale a = Tab.get? s.cpuStale a

theorem State.Flushed.cacheFrame {s t : State} {addr : Word} {len : Nat} (h : s.Flushed addr len t) :
    t = { s with mem := t.mem, cpuDirty := t.cpuDirty, cpuStale := t.cpuStale, hist := t.hist } := by
  rw [h.frame]

theorem cacheCleanInvalidate_flushed {s : State} (hdirty : Tab.sorted s.cpuDirty) (addr : Word) (len : Nat) :
    ∃ t, cacheCleanInvalidate addr len s = .ok () t ∧ s.Flushed addr len t := by
  cases hcache : s.cfg.cacheEnabled with
  | false =>
    refine ⟨_, cacheCleanInvalidate_off hcache addr len, rfl, fun a => ?_, fun a hon => ?_, fun a _ => ⟨rfl, rfl⟩⟩
    · simp [State.cleaned, hcache]
    · exact absurd (hcache.symm.trans hon) (by decide)
  | true =>
    have hstale := Tab.get?_filter (fun a => !inLines s.cfg addr len a) s.cpuStale
    refine ⟨_, cacheCleanInvalidate_on hcache addr len, rfl, fun a => ?_, fun a _ hin => ?_, fun a hout => ?_⟩
    · have hread := read_cleanBytes (m := s.mem) (Tab.sorted_filter hdirty fun e => inLines s.cfg addr len e.1) a
      refine hread.trans ?_
      rw [Tab.get?_filter (fun a => inLines s.cfg addr len a)]
      cases hin : inLines s.cfg addr len a <;> simp [State.cleaned, hcache, hin]
    · simp [State.get?_dirtyOut, hstale, hin]
    · have hnot : inLines s.cfg addr len a = false := hout.resolve_left (by simp [hcache])
      simp [State.get?_dirtyOut, hstale, hnot]

end Sys2Proof.Machine
end

section
/-! The pool operations with no agent step between their host steps (41_pool R140, R141): POOL_INIT's loop up to any
control block, where the hardware's ownership stops it, and POOL_REFILL with its cache operation. -/

namespace Sys2Proof.Machine

/-! ### The words of the pool operations -/

theorem dirOfQ_eq_none_iff (q : BitVec 8) : dirOfQ q = none ↔ 1 < q.toNat := by
  unfold dirOfQ
  split
  · next hrx => simp [hrx]
  · next htx => simp [htx]
  · next hrx htx =>
    have hne0 : q.toNat ≠ 0 := hrx
    have hne1 : q.toNat ≠ 1 := htx
    simp only [true_iff]
    omega

/-- Construction has ended at `Ready` and after a failure (R220, R314). -/
theorem State.constructed_iff (s : State) : s.constructed = true ↔ s.seq = .ready ∨ ∃ e, s.seq = .failed e := by
  unfold State.constructed
  cases s.seq <;> simp

theorem State.constructed_eq_false {s : State} (hready : s.seq ≠ .ready) (hfailed : ∀ e, s.seq ≠ .failed e) :
    s.constructed = false := by
  rw [Bool.eq_false_iff, ne_eq, State.constructed_iff]
  exact not_or.mpr ⟨hready, fun ⟨e, he⟩ => hfailed e he⟩

/-- The buffer that POOL_REFILL answers with `Unaligned` (R62, R141). -/
theorem badBuffer_iff (c : Config) (buf : Word) :
    badBuffer c buf = true ↔ buf = 0 ∨ (buf ||| c.aliasTag).toNat % c.bufAlign ≠ 0 := by
  simp [badBuffer, toBusAddress, or_comm]

theorem badBuffer_eq_false {c : Config} {buf : Word} (hnull : buf ≠ 0)
    (halign : (buf ||| c.aliasTag).toNat % c.bufAlign = 0) : badBuffer c buf = false := by
  rw [Bool.eq_false_iff, ne_eq, badBuffer_iff]
  exact not_or.mpr ⟨hnull, not_not.mpr halign⟩

/-- A block that is the software's wherever it is written is not the hardware's. -/
theorem State.hwOwned_of_all_sw {s : State} {d : Dir} {i : Nat} (h : ∀ b, s.cb? d i = some b → b.owner = .sw) :
    s.hwOwned d i = false := by
  cases hb : s.cb? d i with
  | none => simp [State.hwOwned, hb]
  | some b => exact State.hwOwned_of_sw hb (h b hb)

theorem exec_poolInit {q : BitVec 8} {d : Dir} (hq : dirOfQ q = some d) (s : State) :
    exec (.poolInit q) s = runOp (okAfter (poolInit d s.args.count)) s := by
  have harm : exec (.poolInit q) s = execPoolInit q s := rfl
  rw [harm, execPoolInit, hq]
  rfl

theorem exec_poolRefill {q : BitVec 8} {d : Dir} (hq : dirOfQ q = some d) {s : State} (hcb : s.args.cb < nDesc) :
    exec (.poolRefill q) s = runOp (okAfter (poolRefill d s.args.cb)) s := by
  have harm : exec (.poolRefill q) s = execPoolRefill q s := rfl
  rw [harm, execPoolRefill, hq, decide_eq_false (Nat.not_le.mpr hcb)]
  rfl

theorem okAfter_run {op : Op Unit} {s t : State} (h : op s = .ok () t) : okAfter op s = .ok .ok t := by
  simp [okAfter, h]

theorem okAfter_error {op : Op Unit} {s t : State} {e : Halt} (h : op s = .error e t) : okAfter op s = .error e t := by
  simp [okAfter, h]

theorem exec_poolRefill_ok {q : BitVec 8} {d : Dir} {s t : State} (hcfg : configOk s.cfg = true) (hq : dirOfQ q = some d)
    (hcb : s.args.cb < nDesc) (h : poolRefill d s.args.cb s = .ok () t) :
    exec (.poolRefill q) s = .next { t with result := .ok } :=
  (exec_poolRefill hq hcb).trans (runOp_of_ok hcfg (okAfter_run h))

/-! ### POOL_INIT -/

/-- POOL_INIT past its two checks is its loop (R140). -/
theorem poolInit_run {s : State} (hseq : s.constructed = false) (d : Dir) :
    poolInit d nDesc s = each (List.range nDesc) (poolInitOne d) s := by
  simp [poolInit, hseq]

/-- The state after the three zeros of one round (R140). -/
def State.zeroDesc (s : State) (d : Dir) (i : Nat) : State :=
  ((s.writeDesc d i .w0 0).writeDesc d i .w1 0).writeDesc d i .w2 0

/-- Writing a control block moves no descriptor and orders none. -/
theorem State.Remembers.setCb {s t : State} (h : s.Remembers t) (d : Dir) (i : Nat) (b : Cb) :
    s.Remembers (t.setCb d i b) := by
  cases d <;> exact h

/-- A round of POOL_INIT's loop over a control block that is not the hardware's (R140). -/
theorem poolInitOne_run {d : Dir} {i : Nat} (hi : i < nDesc) {s : State} (h : s.between = [])
    (ho : s.hwOwned d i = false) :
    poolInitOne d i s = .ok () ((s.zeroDesc d i).setCb d i { descIndex := i, owner := .sw }) := by
  simp [poolInitOne, hDescWrite_eq, hostWriteDesc_run, h, hi, ho, State.zeroDesc]

theorem State.Remembers.zeroDesc {s t : State} (h : s.Remembers t) {d : Dir} {i : Nat} (hfresh : t.desc d i = s.desc d i) :
    s.Remembers (t.zeroDesc d i) :=
  ((h.writeDesc (by rw [hfresh]) 0).writeDesc (by simp [State.word_writeDesc, hfresh]) 0).writeDesc
    (by simp [State.word_writeDesc, hfresh]) 0

/-- A round over a block of the hardware's: `w0` is zeroed, and the first address word is the fault of R63 (log 21). -/
theorem poolInitOne_owned {d : Dir} {i : Nat} (hi : i < nDesc) {s : State} (h : s.between = [])
    (ho : s.hwOwned d i = true) :
    poolInitOne d i s = .error (.fault .ownershipViolation) (s.writeDesc d i .w0 0) := by
  have hw0 : hostWriteDesc d i .w0 0 s = .ok () (s.writeDesc d i .w0 0) := hostWriteDesc_run hi (fun hk => by cases hk) 0
  have hw1 := hostWriteDesc_owned hi (k := .w1) rfl (s := s.writeDesc d i .w0 0) ((s.writeDesc_hwOwned ..).trans ho) 0
  have hb : (s.writeDesc d i .w0 0).between = [] := (s.writeDesc_between ..).trans h
  simp only [poolInitOne, op_bind, hDescWrite_eq h, hw0, hDescWrite_eq hb, hw1]

/-- POOL_INIT has done the first `n` rounds from `s` (R140): what it wrote, what it left, and what a fetch may still see of
what the zeros replaced (R69). -/
structure State.PoolInited (s : State) (d : Dir) (n : Nat) (t : State) : Prop where
  frame : t = { s with
    descRx := t.descRx, descTx := t.descTx, cbRx := t.cbRx, cbTx := t.cbTx, unsynced := t.unsynced }
  desc : ∀ d' j, t.desc d' j = if d' = d ∧ j < n then ⟨0, 0, 0⟩ else s.desc d' j
  cb : ∀ d' j, t.cb? d' j = if d' = d ∧ j < n then some { descIndex := j, owner := .sw } else s.cb? d' j
  remembers : s.Remembers t

theorem State.PoolInited.zero (s : State) (d : Dir) : s.PoolInited d 0 s :=
  ⟨rfl, by simp, by simp, .refl s⟩

/-- The rounds so far wrote no descriptor, and no control block, from `n` on. -/
theorem State.PoolInited.desc_of_le {s t : State} {d : Dir} {n : Nat} (h : s.PoolInited d n t) {j : Nat} (hj : n ≤ j) :
    t.desc d j = s.desc d j := by
  rw [h.desc, if_neg fun hall => absurd hall.2 (Nat.not_lt.mpr hj)]

theorem State.PoolInited.hwOwned_of_le {s t : State} {d : Dir} {n : Nat} (h : s.PoolInited d n t) {j : Nat} (hj : n ≤ j) :
    t.hwOwned d j = s.hwOwned d j := by
  have hcb : t.cb? d j = s.cb? d j := by rw [h.cb, if_neg fun hall => absurd hall.2 (Nat.not_lt.mpr hj)]
  simp [State.hwOwned, hcb]

theorem State.PoolInited.between {s t : State} {d : Dir} {n : Nat} (h : s.PoolInited d n t) : t.between = s.between := by
  rw [h.frame]

/-- One more round over a block that is not the hardware's. -/
theorem State.PoolInited.succ {s t : State} {d : Dir} {n : Nat} (h : s.PoolInited d n t) (hn : n < nDesc)
    (hb : s.between = []) (ho : s.hwOwned d n = false) :
    ∃ u, poolInitOne d n t = .ok () u ∧ s.PoolInited d (n + 1) u := by
  have hbt : t.between = [] := h.between.trans hb
  have hot : t.hwOwned d n = false := (h.hwOwned_of_le (Nat.le_refl n)).trans ho
  obtain ⟨u, hrun, hframe, hdesc, hcb⟩ := poolInitOne_spec hn hbt hot
  refine ⟨u, hrun, ?_, fun d' j => ?_, fun d' j => ?_, ?_⟩
  · calc u = { t with
          descRx := u.descRx, descTx := u.descTx, cbRx := u.cbRx, cbTx := u.cbTx, unsynced := u.unsynced } := hframe
      _ = { s with
          descRx := u.descRx, descTx := u.descTx, cbRx := u.cbRx, cbTx := u.cbTx, unsynced := u.unsynced } := by
        rw [h.frame]
  · rw [hdesc, h.desc]
    grind
  · rw [hcb, h.cb]
    grind
  · rw [poolInitOne_run hn hbt hot] at hrun
    cases hrun
    exact (h.remembers.zeroDesc (h.desc_of_le (Nat.le_refl n))).setCb d n _

/-- POOL_INIT's loop over the first `n` control blocks, none of them the hardware's (R140, R63). -/
theorem poolInit_loop {s : State} (hb : s.between = []) (d : Dir) {n : Nat} (hn : n ≤ nDesc)
    (ho : ∀ j < n, s.hwOwned d j = false) :
    ∃ t, each (List.range n) (poolInitOne d) s = .ok () t ∧ s.PoolInited d n t := by
  induction n with
  | zero => exact ⟨s, rfl, .zero s d⟩
  | succ n ih =>
    obtain ⟨t, hloop, hinit⟩ := ih (by omega) fun j hj => ho j (by omega)
    obtain ⟨u, hround, hinit'⟩ := hinit.succ (by omega) hb (ho n (by omega))
    exact ⟨u, by simp [List.range_succ, each_append, hloop, hround], hinit'⟩

/-- POOL_INIT's loop at the first control block the hardware owns (R63, log 21). -/
theorem poolInit_stops {s : State} (hb : s.between = []) (d : Dir) {i : Nat} (hi : i < nDesc)
    (ho : s.hwOwned d i = true) (hbefore : ∀ j < i, s.hwOwned d j = false) :
    ∃ t, s.PoolInited d i t ∧
      each (List.range nDesc) (poolInitOne d) s = .error (.fault .ownershipViolation) (t.writeDesc d i .w0 0) := by
  obtain ⟨t, hloop, hinit⟩ := poolInit_loop hb d (Nat.le_of_lt hi) hbefore
  have hround := poolInitOne_owned hi (hinit.between.trans hb) ((hinit.hwOwned_of_le (Nat.le_refl i)).trans ho)
  obtain ⟨n, hn⟩ := Nat.exists_eq_add_of_lt hi
  have hsplit : List.range nDesc = List.range i ++ i :: (List.range n).map fun j => i + (j + 1) := by
    rw [hn, Nat.add_assoc, List.range_add, List.range_succ_eq_map]
    simp [Function.comp_def]
  exact ⟨t, hinit, by simp only [hsplit, each_append, hloop, each_cons, hround]⟩

/-- Settles O36: no round of the loop meets a block of the hardware's, so all 256 run. -/
theorem poolInitEffect : Obligations.PoolInitEffect := by
  intro q d s hq hcfg hbetween hready hfailed hcount hsw
  have hown : ∀ i < nDesc, s.hwOwned d i = false := fun i hi => State.hwOwned_of_all_sw (hsw i hi)
  obtain ⟨t, hloop, hinit⟩ := poolInit_loop hbetween d (Nat.le_refl nDesc) hown
  have hrun : poolInit d s.args.count s = .ok () t := by
    rw [hcount]
    exact (poolInit_run (State.constructed_eq_false hready hfailed) d).trans hloop
  refine ⟨{ t with result := .ok }, ?_, hinit.desc, hinit.cb, hinit.remembers, ?_⟩
  · rw [exec_poolInit hq]
    exact runOp_of_ok hcfg (okAfter_run hrun)
  · rw [hinit.frame]

/-! ### POOL_REFILL -/

/-- POOL_REFILL of a software-owned control block with a good buffer, given what its cache operation leaves (R141). -/
theorem poolRefill_spec {s u : State} {d : Dir} {i : Nat} {b : Cb} (hcb : s.cb? d i = some b) (ho : b.owner = .sw)
    (hidx : b.descIndex = i) (hi : i < nDesc) (hgood : badBuffer s.cfg (cbBuf s.cfg d i) = false)
    (hcache : refillCache d (cbBuf s.cfg d i) s = .ok () u)
    (hframe : u = { s with mem := u.mem, cpuDirty := u.cpuDirty, cpuStale := u.cpuStale, hist := u.hist })
    (hbetween : s.between = []) :
    ∃ t, poolRefill d i s = .ok () t ∧
      (∀ d' j, t.desc d' j =
        if d' = d ∧ j = i then ⟨(s.desc d i).w0, toBusAddress s.cfg (cbBuf s.cfg d i), 0⟩ else s.desc d' j) ∧
      s.Remembers t ∧
      t = { u with descRx := t.descRx, descTx := t.descTx, unsynced := t.unsynced } := by
  have hbu : u.between = [] := by rw [hframe]; exact hbetween
  have hou : u.hwOwned d i = false := by rw [hframe]; exact State.hwOwned_of_sw hcb ho
  obtain ⟨t, hrun, hframe', hdesc⟩ := writeBufAddr_spec hi hbu hou (cbBuf s.cfg d i)
  have hrem := writeBufAddr_remembers hi hbu hou _ hrun
  rw [hframe] at hdesc hrem
  refine ⟨t, ?_, hdesc, hrem, hframe'⟩
  simp only [poolRefill_run hcb ho hgood, op_bind, hcache, hidx, hrun]

theorem refillCache_rx {s : State} (hb : s.between = []) (hdirty : Tab.sorted s.cpuDirty) (buf : Word) :
    ∃ u, refillCache .rx buf s = .ok () u ∧ s.Flushed buf bufLen u := by
  obtain ⟨u, hrun, hflush⟩ := cacheCleanInvalidate_flushed hdirty buf bufLen
  exact ⟨u, (hCleanInvalidate_eq hb buf bufLen).trans hrun, hflush⟩

/-- Settles O37: a receive refill flushes the buffer first, and a transmit refill only writes the address words. -/
theorem poolRefillEffect : Obligations.PoolRefillEffect := by
  intro q d b s hq hcfg hbetween hcanon hident hcb ho i buf hnull halign
  obtain ⟨hidx, hi⟩ := hident d i b hcb
  have hgood : badBuffer s.cfg buf = false := badBuffer_eq_false hnull halign
  cases d with
  | rx =>
    obtain ⟨u, hcache, hflush⟩ := refillCache_rx hbetween hcanon.dirty buf
    obtain ⟨t, hrun, hdesc, hrem, hframe⟩ := poolRefill_spec hcb ho hidx hi hgood hcache hflush.cacheFrame hbetween
    refine ⟨{ t with result := .ok }, exec_poolRefill_ok hcfg hq hi hrun, hdesc, fun a => ?_, ?_, nofun, fun _ => ?_,
      ?_, hrem, ?_⟩
    · rw [hframe]; exact hflush.read a
    · rw [hframe, hflush.frame]; rfl
    · rw [hframe]; exact hflush.inside
    · rw [hframe]; exact hflush.outside
    · rw [hframe, hflush.frame]
  | tx =>
    obtain ⟨t, hrun, hdesc, hrem, hframe⟩ := poolRefill_spec hcb ho hidx hi hgood rfl rfl hbetween
    refine ⟨{ t with result := .ok }, exec_poolRefill_ok hcfg hq hi hrun, hdesc, fun a => ?_, ?_, fun _ => ?_, nofun,
      fun a _ => ?_, hrem, ?_⟩
    · rw [hframe]; rfl
    · rw [hframe]; rfl
    · rw [hframe]; exact ⟨rfl, rfl, rfl⟩
    · rw [hframe]; exact ⟨rfl, rfl⟩
    · rw [hframe]

/-! ### Errors, faults and refusals -/

/-- A Q that is no direction is refused, and so is any POOL_INIT once construction has ended (R112, R321). -/
theorem exec_poolInit_refused {q : BitVec 8} {s : State} (hcfg : configOk s.cfg = true)
    (h : 1 < q.toNat ∨ s.seq = .ready ∨ ∃ e, s.seq = .failed e) :
    exec (.poolInit q) s = .next { s with refused := true } := by
  cases hq : dirOfQ q with
  | none => exact runOp_of_refused hcfg (by simp [hq])
  | some d =>
    have hended : s.constructed = true :=
      s.constructed_iff.mpr (h.resolve_left fun hgt => by simp [(dirOfQ_eq_none_iff q).mpr hgt] at hq)
    rw [exec_poolInit hq]
    exact runOp_of_refused hcfg (okAfter_error (by simp [poolInit, hended]))

theorem exec_poolInit_malformed {q : BitVec 8} {s : State} (hcfg : configOk s.cfg = true) (hle : q.toNat ≤ 1)
    (hseq : s.constructed = false) (hcount : s.args.count ≠ nDesc) :
    exec (.poolInit q) s = .next { s with result := .err .malformed } := by
  obtain ⟨d, hq⟩ := Option.ne_none_iff_exists'.mp fun hnone => Nat.not_lt.mpr hle ((dirOfQ_eq_none_iff q).mp hnone)
  rw [exec_poolInit hq]
  exact runOp_of_err hcfg (okAfter_error (by simp [poolInit, hseq, hcount]))

/-- The fault at the first block of the hardware's comes after the rounds before it and the `w0` of its own descriptor. -/
theorem exec_poolInit_owned {q : BitVec 8} {d : Dir} {i : Nat} {s : State} (hcfg : configOk s.cfg = true)
    (hq : dirOfQ q = some d) (hseq : s.constructed = false) (hcount : s.args.count = nDesc) (hb : s.between = [])
    (hi : i < nDesc) (ho : s.hwOwned d i = true) (hbefore : ∀ j < i, s.hwOwned d j = false) :
    ∃ t, s.PoolInited d i t ∧
      exec (.poolInit q) s = .next ((t.writeDesc d i .w0 0).mark .ownershipViolation) := by
  obtain ⟨t, hinit, hloop⟩ := poolInit_stops hb d hi ho hbefore
  refine ⟨t, hinit, ?_⟩
  rw [exec_poolInit hq, hcount]
  exact runOp_of_fault hcfg (okAfter_error ((poolInit_run hseq d).trans hloop))

/-- A Q that is no direction is refused, and so is a control block the pool does not have (R112; log 39). -/
theorem exec_poolRefill_refused {q : BitVec 8} {s : State} (hcfg : configOk s.cfg = true)
    (h : 1 < q.toNat ∨ 256 ≤ s.args.cb) :
    exec (.poolRefill q) s = .next { s with refused := true } := by
  refine runOp_of_refused hcfg ?_
  cases hq : dirOfQ q with
  | none => simp
  | some d =>
    have hout : nDesc ≤ s.args.cb := h.resolve_left fun hgt => by simp [(dirOfQ_eq_none_iff q).mpr hgt] at hq
    simp [hout]

theorem poolRefill_unwritten {s : State} {d : Dir} {i : Nat} (h : s.cb? d i = none) :
    poolRefill d i s = .error (.fault .unwrittenRead) s := by simp [poolRefill, readCb, h]

theorem poolRefill_owned {s : State} {d : Dir} {i : Nat} {b : Cb} (h : s.cb? d i = some b) (ho : b.owner = .hw) :
    poolRefill d i s = .error (.fault .ownershipViolation) s := by simp [poolRefill, readCb, h, ho]

/-- A null buffer, or one whose bus address is misaligned (R62). -/
theorem poolRefill_badBuffer {s : State} {d : Dir} {i : Nat} {b : Cb} (h : s.cb? d i = some b) (ho : b.owner = .sw)
    (hbad : badBuffer s.cfg (cbBuf s.cfg d i) = true) :
    poolRefill d i s = .error (.err .unaligned) s := by simp [poolRefill, readCb, h, ho, hbad]

/-- Settles O38: the word, the sequencer and the count are checked before the loop, which the first block of the hardware's
stops; POOL_REFILL's checks come before its first write. -/
theorem poolRejects : Obligations.PoolRejects := by
  intro q s hcfg
  refine ⟨fun hle hready hfailed hcount => ?_, fun d hq hready hfailed hcount hb i hi b hcb ho hbefore => ?_,
    exec_poolInit_refused hcfg, exec_poolRefill_refused hcfg, fun d hq hi => ?_⟩
  · exact exec_poolInit_malformed hcfg hle (State.constructed_eq_false hready hfailed) hcount
  · have howned : s.hwOwned d i = true := by simp [State.hwOwned, hcb, ho]
    obtain ⟨t, hinit, hexec⟩ := exec_poolInit_owned hcfg hq (State.constructed_eq_false hready hfailed) hcount hb hi
      howned fun j hj => State.hwOwned_of_all_sw (hbefore j hj)
    have hsame := hinit.desc_of_le (Nat.le_refl i)
    refine ⟨_, hexec, fun d' j => ?_, fun d' j => ?_, hinit.remembers.writeDesc (by rw [hsame]) 0, ?_⟩
    · refine (State.desc_writeDesc t d i .w0 0 d' j).trans ?_
      rw [hsame, hinit.desc]
      by_cases hat : d = d' ∧ i = j
      · obtain ⟨rfl, rfl⟩ := hat
        simp [Desc.setWord]
      · rw [if_neg hat, if_neg (c := d' = d ∧ j = i) fun h => hat ⟨h.1.symm, h.2.symm⟩]
    · exact (State.writeDesc_cb? ..).trans (hinit.cb d' j)
    · rw [State.mark, State.writeDesc_frame, hinit.frame]
  · have hrefill := exec_poolRefill hq hi
    refine ⟨fun hnone => ?_, fun b hcb => ⟨fun ho => ?_, fun ho hbad => ?_⟩⟩
    · exact hrefill.trans (runOp_of_fault hcfg (okAfter_error (poolRefill_unwritten hnone)))
    · exact hrefill.trans (runOp_of_fault hcfg (okAfter_error (poolRefill_owned hcb ho)))
    · exact hrefill.trans (runOp_of_err hcfg (okAfter_error
        (poolRefill_badBuffer hcb ho ((badBuffer_iff s.cfg _).mpr hbad))))

end Sys2Proof.Machine
end

section
/-! The flags of a received descriptor (30_encoding R90, R91) and the verdict on it (42_rx_ring R157 to R159). -/

namespace Sys2Proof.Machine

/-- A one-bit field is its bit. -/
theorem fieldOn_bit (n : Nat) (w : Word) : fieldOn ⟨n, n⟩ w = w.getLsbD n := by
  simp [fieldOn, fieldGet, fieldWidth, BitVec.getLsbD, Nat.testBit_eq_decide_div_mod_eq, Nat.shiftRight_eq_div_pow,
    beq_eq_decide]

theorem w0Len_default (w0 : Word) : w0Len {} w0 = w0.toNat / 65536 % 4096 := by
  simp [w0Len, fieldGet, fieldWidth, Nat.shiftRight_eq_div_pow]

theorem w0Whole_default (w0 : Word) : w0Whole {} w0 = (w0.getLsbD 13 && w0.getLsbD 14) := by
  simp [w0Whole, fieldOn_bit]

theorem rxErrMask_default : rxErrMask {} = 0x1F := by decide

/-- Settles O43: the checks of `rxVerdict` in their order, each at the default positions. -/
theorem rxVerdictRule : Obligations.RxVerdictRule := by
  intro c n w0 hdesc
  simp only [rxVerdict, hdesc, w0Len_default, w0Whole_default, rxErrMask_default, rxPad, bufLen, gt_iff_lt,
    Bool.not_and, Bool.or_eq_true, Bool.not_eq_true', Nat.cast_ofNat]

end Sys2Proof.Machine
end

section
/-! RX_RECV up to its step 4 (42_rx_ring R152 to R155): the read of `PROD_INDEX`, the paths that end there, and the one
that goes on to the descriptor. -/

namespace Sys2Proof.Machine

/-! ### The two fields of `PROD_INDEX` -/

theorem discardsOf_default {c : Config} (h : c.pos = {}) (p : Word) : discardsOf c p = p.extractLsb' 16 16 := by
  apply BitVec.eq_of_toNat_eq
  simp [discardsOf, h, fieldGet, fieldWidth, BitVec.extractLsb'_toNat]

/-- The difference of two indices, in the natural numbers (R43). -/
theorem toNat_sub_half (x y : Half) : (x - y).toNat = (x.toNat + 65536 - y.toNat) % 65536 := by
  rw [BitVec.toNat_sub]
  omega

theorem pendingCount_indexOf (p : Word) (c : Half) :
    pendingCount (indexOf p) c = (p.toNat % 65536 + 65536 - c.toNat) % 65536 := by
  rw [pendingCount, toNat_sub_half, indexOf, BitVec.toNat_setWidth]

/-! ### The paths -/

/-- The state after step 1 of RX_RECV, the read of `PROD_INDEX` (R152). -/
def State.sawProd (s : State) : State :=
  { s with hist := .mmioRead (rxReg .prodIndex) (s.reg (rxReg .prodIndex)) :: s.hist }

theorem rxRecv_shortDest {s : State} {dest : List Byte} (hready : s.seq = .ready) (hdest : dest.length < s.cfg.mtu) :
    rxRecv dest s = .error (.err .exhausted) s := by
  simp [rxRecv, hready, hdest]

section
variable {s : State} {dest : List Byte} (hready : s.seq = .ready) (hdest : s.cfg.mtu ≤ dest.length)
  (hbetween : s.between = [])
include hready hdest hbetween

theorem rxRecv_noRecord (hrx : s.rx = none) : rxRecv dest s = .error (.fault .unwrittenRead) s.sawProd := by
  simp [rxRecv, hready, Nat.not_lt.mpr hdest, hRead_plain hbetween (r := rxReg .prodIndex) rfl, readRx, hrx,
    State.sawProd]

/-- Steps 2 and 3 of RX_RECV, on the ring record (R153 to R155). -/
theorem rxRecv_record {r : RxRing} (hrx : s.rx = some r) :
    rxRecv dest s = (do
      surfaceDrops r (discardsOf s.cfg (s.reg (rxReg .prodIndex)))
      if pendingCount (indexOf (s.reg (rxReg .prodIndex))) r.cIndex = 0 then return .wouldBlock
      else do
        haltIf (decide (r.size < pendingCount (indexOf (s.reg (rxReg .prodIndex))) r.cIndex)) (.fault .indexOutOfRange)
        rxTake r dest : Op Result) s.sawProd := by
  simp [rxRecv, hready, Nat.not_lt.mpr hdest, hRead_plain hbetween (r := rxReg .prodIndex) rfl, readRx, hrx,
    State.sawProd]

theorem rxRecv_dropped {r : RxRing} (hrx : s.rx = some r)
    (hdrop : discardsOf s.cfg (s.reg (rxReg .prodIndex)) ≠ r.oldDiscards) :
    rxRecv dest s = .error
      (.err (.dropped (discardsOf s.cfg (s.reg (rxReg .prodIndex)) - r.oldDiscards).toNat))
      { s.sawProd with rx := some { r with oldDiscards := discardsOf s.cfg (s.reg (rxReg .prodIndex)) } } := by
  rw [rxRecv_record hready hdest hbetween hrx]
  simp [surfaceDrops, hdrop]

/-- With the discard counter where it was, step 3 goes by the pending count (R155). -/
theorem rxRecv_pending {r : RxRing} (hrx : s.rx = some r)
    (hdrop : discardsOf s.cfg (s.reg (rxReg .prodIndex)) = r.oldDiscards) :
    rxRecv dest s =
      if pendingCount (indexOf (s.reg (rxReg .prodIndex))) r.cIndex = 0 then .ok .wouldBlock s.sawProd
      else if r.size < pendingCount (indexOf (s.reg (rxReg .prodIndex))) r.cIndex then
        .error (.fault .indexOutOfRange) s.sawProd
      else rxTake r dest s.sawProd := by
  rw [rxRecv_record hready hdest hbetween hrx]
  by_cases hover : r.size < pendingCount (indexOf (s.reg (rxReg .prodIndex))) r.cIndex <;>
    simp [surfaceDrops, hdrop, hover]

end

/-- Settles O41: each path of RX_RECV before step 4, in the order of its checks. -/
theorem rxRecvReturnsEarly : Obligations.RxRecvReturnsEarly := by
  intro s hcfg hready
  refine ⟨fun hshort => runOp_of_err hcfg (rxRecv_shortDest hready hshort), fun hdest hbetween hpos => ?_⟩
  intro p disc pending read
  have hdisc : discardsOf s.cfg p = disc := discardsOf_default hpos p
  have hpending : ∀ r : RxRing, pendingCount (indexOf p) r.cIndex = pending r := fun r =>
    pendingCount_indexOf p r.cIndex
  refine ⟨fun hrx => runOp_of_fault hcfg (rxRecv_noRecord hready hdest hbetween hrx), fun r hrx =>
    ⟨fun hmoved => ?_, fun hsame hempty => ?_, fun hsame hover => ?_⟩⟩
  · have hrun := rxRecv_dropped hready hdest hbetween hrx (hdisc ▸ hmoved)
    refine (runOp_of_err hcfg hrun).trans ?_
    rw [← toNat_sub_half, ← hdisc]
    rfl
  · refine runOp_of_ok hcfg ((rxRecv_pending hready hdest hbetween hrx (hdisc.trans hsame)).trans ?_)
    exact if_pos ((hpending r).trans hempty)
  · rw [← hpending r] at hover
    refine runOp_of_fault hcfg ((rxRecv_pending hready hdest hbetween hrx (hdisc.trans hsame)).trans ?_)
    exact (if_neg (Nat.ne_zero_of_lt hover)).trans (if_pos hover)

end Sys2Proof.Machine
end

section
/-! What becomes of one byte of memory under the cache operations of the receive ring (20_memory R64; 46_dma_agents R295
to R297), and POOL_REFILL of a receive control block (41_pool R141) with what it leaves there. -/

namespace Sys2Proof.Machine

/-! ### One byte -/

/-- The byte at `a` is in a line that the cache holds of a range (R295). -/
abbrev Cached (c : Config) (addr : Word) (len a : Nat) : Prop :=
  c.cacheEnabled = true ∧ inLines c addr len a = true

/-- From `s` to `t` the byte at `a` keeps its memory copy, and is as dirty and as stale as it was. -/
def State.KeptAt (s t : State) (a : Nat) : Prop :=
  Memory.read t.mem a = Memory.read s.mem a ∧ Tab.get? t.cpuDirty a = Tab.get? s.cpuDirty a ∧
    Tab.get? t.cpuStale a = Tab.get? s.cpuStale a

/-- From `s` to `t` memory took the CPU's value of the byte at `a`, if it was dirty; it is neither dirty nor stale. -/
def State.FlushedAt (s t : State) (a : Nat) : Prop :=
  Memory.read t.mem a = (Tab.get? s.cpuDirty a).getD (Memory.read s.mem a) ∧ Tab.get? t.cpuDirty a = none ∧
    Tab.get? t.cpuStale a = none

theorem State.KeptAt.refl (s : State) (a : Nat) : s.KeptAt s a := ⟨rfl, rfl, rfl⟩

section
variable {s t u : State} {a : Nat}

theorem State.KeptAt.trans (h : s.KeptAt t a) (h' : t.KeptAt u a) : s.KeptAt u a := by
  obtain ⟨hmem, hdirty, hstale⟩ := h
  obtain ⟨hmem', hdirty', hstale'⟩ := h'
  exact ⟨hmem'.trans hmem, hdirty'.trans hdirty, hstale'.trans hstale⟩

theorem State.KeptAt.trans_flushedAt (h : s.KeptAt t a) (h' : t.FlushedAt u a) : s.FlushedAt u a := by
  obtain ⟨hmem, hdirty, -⟩ := h
  obtain ⟨hmem', hclean⟩ := h'
  exact ⟨by rw [hmem', hmem, hdirty], hclean⟩

theorem State.FlushedAt.trans_keptAt (h : s.FlushedAt t a) (h' : t.KeptAt u a) : s.FlushedAt u a := by
  obtain ⟨hmem, hdirty, hstale⟩ := h
  obtain ⟨hmem', hdirty', hstale'⟩ := h'
  exact ⟨hmem'.trans hmem, hdirty'.trans hdirty, hstale'.trans hstale⟩

/-- A byte that is not dirty is flushed as it stands in memory. -/
theorem State.FlushedAt.read_of_clean (h : s.FlushedAt t a) (hclean : Tab.get? s.cpuDirty a = none) :
    Memory.read t.mem a = Memory.read s.mem a := by
  rw [h.1, hclean, Option.getD_none]

theorem State.FlushedAt.trans (h : s.FlushedAt t a) (h' : t.FlushedAt u a) : s.FlushedAt u a := by
  obtain ⟨hmem, hdirty, -⟩ := h
  exact ⟨(h'.read_of_clean hdirty).trans hmem, h'.2⟩

end

theorem State.Flushed.flushedAt {s t : State} {addr : Word} {len a : Nat} (h : s.Flushed addr len t)
    (ha : Cached s.cfg addr len a) : s.FlushedAt t a := by
  obtain ⟨hon, hin⟩ := ha
  exact ⟨by rw [h.read, State.cleaned, hon, hin]; rfl, h.inside a hon hin⟩

theorem not_cached_iff {c : Config} {addr : Word} {len a : Nat} :
    ¬ Cached c addr len a ↔ c.cacheEnabled = false ∨ inLines c addr len a = false := by
  simp only [not_and_or, Bool.not_eq_true]

theorem State.Flushed.keptAt {s t : State} {addr : Word} {len a : Nat} (h : s.Flushed addr len t)
    (ha : ¬ Cached s.cfg addr len a) : s.KeptAt t a := by
  have hread : s.cleaned addr len a = Memory.read s.mem a := if_neg (by simpa using ha)
  exact ⟨(h.read a).trans hread, h.outside a (not_cached_iff.mp ha)⟩

/-! ### The refill -/

/-- What an operation leaves is canonical where it began so. -/
theorem Moves.keeps_canonical {α : Type} {a : Allow} {x : Op α} (hx : Moves a x) {s t : State} {v : α}
    (h : x s = .ok v t) (hs : s.Canonical) : t.Canonical := by
  have hchain := hx s
  rw [MovesAt, h] at hchain
  exact Chain.keeps (fun _ _ => Micro.keeps_canonical) hchain hs

@[simp] theorem State.writeDesc_rx_descTx (s : State) (i : Nat) (k : DescWord) (v : Word) :
    (s.writeDesc .rx i k v).descTx = s.descTx := by
  obtain ⟨us, hwrite⟩ := s.writeDesc_eq .rx i k v
  rw [hwrite]
  rfl

/-- The two words of a buffer's address are written in turn (R93). -/
theorem writeBufAddr_run {d : Dir} {i : Nat} (hi : i < nDesc) {s : State} (hb : s.between = [])
    (ho : s.hwOwned d i = false) (buf : Word) :
    writeBufAddr d i buf s = .ok () ((s.writeDesc d i .w1 (toBusAddress s.cfg buf)).writeDesc d i .w2 0) := by
  have halias : aliasTagged s.cfg 0#32 (toBusAddress s.cfg buf) = true := aliasTagged_bus s.cfg buf
  simp [writeBufAddr, hDescAddr, hDescWrite_eq, hostWriteDesc_run, checkAlias, hb, hi, ho, halias]

/-- POOL_REFILL of receive control block `i` has run (R141, R72). -/
structure State.RxRefilled (s : State) (i : Nat) (t : State) : Prop where
  frame : t = { s with
    descRx := t.descRx, unsynced := t.unsynced, mem := t.mem, cpuDirty := t.cpuDirty, cpuStale := t.cpuStale
    hist := .invalidate (cbBuf s.cfg .rx i) bufLen :: .clean (cbBuf s.cfg .rx i) bufLen :: s.hist }
  desc : ∀ j, t.desc .rx j =
    if j = i then ⟨(s.desc .rx i).w0, toBusAddress s.cfg (cbBuf s.cfg .rx i), 0⟩ else s.desc .rx j
  flushedAt : ∀ a, Cached s.cfg (cbBuf s.cfg .rx i) bufLen a → s.FlushedAt t a
  keptAt : ∀ a, ¬ Cached s.cfg (cbBuf s.cfg .rx i) bufLen a → s.KeptAt t a
  remembers : s.Remembers t

theorem poolRefill_rx {s : State} {i : Nat} {b : Cb} (hb : s.between = []) (hdirty : Tab.sorted s.cpuDirty)
    (hcb : s.cb? .rx i = some b) (ho : b.owner = .sw) (hidx : b.descIndex = i) (hi : i < nDesc)
    (hgood : badBuffer s.cfg (cbBuf s.cfg .rx i) = false) :
    ∃ t, poolRefill .rx i s = .ok () t ∧ s.RxRefilled i t := by
  obtain ⟨u, hcache, hflush⟩ := refillCache_rx hb hdirty (cbBuf s.cfg .rx i)
  obtain ⟨t, hrun, hdesc, hrem, hframe⟩ := poolRefill_spec hcb ho hidx hi hgood hcache hflush.cacheFrame hb
  have hdescTx : t.descTx = u.descTx := by
    have hbu : u.between = [] := by rw [hflush.frame]; exact hb
    have hou : u.hwOwned .rx i = false := by rw [hflush.frame]; exact State.hwOwned_of_sw hcb ho
    rw [poolRefill_run hcb ho hgood] at hrun
    simp only [op_bind, hcache, hidx, writeBufAddr_run hi hbu hou] at hrun
    cases hrun
    simp
  refine ⟨t, hrun, ?_, fun j => (hdesc .rx j).trans (by simp), fun a ha => ?_, fun a ha => ?_, hrem⟩
  · calc t = { u with descRx := t.descRx, unsynced := t.unsynced } := by rw [← hdescTx]; exact hframe
      _ = _ := by rw [hframe, hflush.frame]
  · rw [hframe]; exact hflush.flushedAt ha
  · rw [hframe]; exact hflush.keptAt ha

end Sys2Proof.Machine
end

section
/-! RX_RING_INIT (42_rx_ring R150, R151): the loop that refills the receive control blocks and hands them over, and the
registers of the ring. -/

namespace Sys2Proof.Machine

/-! ### The loop -/

/-- Words that a second run of writes replaces had not been replaced by the first (R69). -/
theorem State.Remembers.trans {s t u : State} (h : s.Remembers t) (h' : t.Remembers u)
    (hfresh : ∀ d i k, (u.desc d i).word k ≠ (t.desc d i).word k → (t.desc d i).word k = (s.desc d i).word k) :
    s.Remembers u := by
  intro d i k
  by_cases hsame : (u.desc d i).word k = (t.desc d i).word k
  · rw [h', if_pos hsame, hsame, h]
  · have hst := hfresh d i k hsame
    rw [h', if_neg hsame, if_neg (hst ▸ hsame), h, if_pos hst, hst]

theorem State.setOwner_rx_frame (s : State) (i : Nat) (o : Owner) :
    s.setOwner .rx i o = { s with cbRx := (s.setOwner .rx i o).cbRx } := by
  unfold State.setOwner
  split <;> rfl

/-- The byte at `a` is in a cached line of one of the first `n` receive buffers. -/
def InRxBuffers (c : Config) (n a : Nat) : Prop :=
  c.cacheEnabled = true ∧ ∃ i < n, inLines c (cbBuf c .rx i) bufLen a = true

theorem inRxBuffers_succ {c : Config} {n a : Nat} :
    InRxBuffers c (n + 1) a ↔ InRxBuffers c n a ∨ Cached c (cbBuf c .rx n) bufLen a := by
  simp only [InRxBuffers, Cached, Nat.exists_lt_succ_right, ← and_or_left]

/-- The first `n` receive control blocks have been refilled and handed to the hardware from `s` on (R151). -/
structure State.RxAllocated (s : State) (n : Nat) (t : State) : Prop where
  frame : t = { s with
    descRx := t.descRx, cbRx := t.cbRx, unsynced := t.unsynced, mem := t.mem, cpuDirty := t.cpuDirty
    cpuStale := t.cpuStale, hist := t.hist }
  desc : ∀ j, t.desc .rx j =
    if j < n then ⟨(s.desc .rx j).w0, toBusAddress s.cfg (cbBuf s.cfg .rx j), 0⟩ else s.desc .rx j
  cb : ∀ j, t.cb? .rx j = if j < n then some { descIndex := j, owner := .hw } else s.cb? .rx j
  flushedAt : ∀ a, InRxBuffers s.cfg n a → s.FlushedAt t a
  keptAt : ∀ a, ¬ InRxBuffers s.cfg n a → s.KeptAt t a
  remembers : s.Remembers t
  canonical : t.Canonical

theorem State.RxAllocated.zero {s : State} (h : s.Canonical) : s.RxAllocated 0 s where
  frame := rfl
  desc := by simp
  cb := by simp
  flushedAt := fun a ⟨_, i, hi, _⟩ => absurd hi (Nat.not_lt_zero i)
  keptAt := fun a _ => .refl s a
  remembers := .refl s
  canonical := h

theorem allocRxBuffer_moves (a : Allow) (i : Nat) : Moves a (allocRxBuffer i) :=
  (poolRefill_moves a .rx i).bind fun _ => setOwner_moves a .rx i .hw

/-- One more round, over a control block of the software's with a good buffer. -/
theorem State.RxAllocated.succ {s t : State} {n : Nat} (h : s.RxAllocated n t) (hn : n < nDesc) (hb : s.between = [])
    (hcb : s.cb? .rx n = some { descIndex := n, owner := .sw })
    (hgood : badBuffer s.cfg (cbBuf s.cfg .rx n) = false) :
    ∃ u, allocRxBuffer n t = .ok () u ∧ s.RxAllocated (n + 1) u := by
  have hcfg : t.cfg = s.cfg := by rw [h.frame]
  have hbt : t.between = [] := by rw [h.frame]; exact hb
  have hcbt : t.cb? .rx n = some { descIndex := n, owner := .sw } := by rw [h.cb, if_neg (Nat.lt_irrefl n), hcb]
  obtain ⟨u, hrefill, hu⟩ := poolRefill_rx hbt h.canonical.dirty hcbt rfl rfl hn (by rwa [hcfg])
  have hrun : allocRxBuffer n t = .ok () (u.setOwner .rx n .hw) := by
    simp only [allocRxBuffer, op_bind, hrefill, Machine.setOwner, upd_run]
  have hdesc := hu.desc
  have hflushed := hu.flushedAt
  have hkept := hu.keptAt
  rw [hcfg] at hdesc hflushed hkept
  have hdescn : t.desc .rx n = s.desc .rx n := by rw [h.desc, if_neg (Nat.lt_irrefl n)]
  refine ⟨_, hrun, ?_, fun j => ?_, fun j => ?_, fun a ha => ?_, fun a ha => ?_, ?_,
    (allocRxBuffer_moves .none n).keeps_canonical hrun h.canonical⟩
  · rw [State.setOwner_rx_frame, hu.frame, h.frame]
  · rw [State.setOwner_desc, hdesc, hdescn, h.desc]
    grind
  · have hcbu : u.cb? .rx j = t.cb? .rx j := by rw [hu.frame]; rfl
    rw [State.cb?_setOwner, hcbu, h.cb]
    grind
  · rw [State.setOwner_rx_frame]
    by_cases hlast : Cached s.cfg (cbBuf s.cfg .rx n) bufLen a
    · by_cases hbefore : InRxBuffers s.cfg n a
      · exact (h.flushedAt a hbefore).trans (hflushed a hlast)
      · exact (h.keptAt a hbefore).trans_flushedAt (hflushed a hlast)
    · exact (h.flushedAt a ((inRxBuffers_succ.mp ha).resolve_right hlast)).trans_keptAt (hkept a hlast)
  · obtain ⟨hbefore, hlast⟩ := not_or.mp (mt inRxBuffers_succ.mpr ha)
    rw [State.setOwner_rx_frame]
    exact (h.keptAt a hbefore).trans (hkept a hlast)
  · have hrem : s.Remembers u := h.remembers.trans hu.remembers fun d j k hne => ?_
    · rw [State.setOwner_rx_frame]; exact hrem
    cases d with
    | rx =>
      rw [hdesc] at hne
      by_cases hj : j = n
      · rw [hj, hdescn]
      · rw [if_neg hj] at hne; exact absurd rfl hne
    | tx => exact absurd (by rw [hu.frame]; rfl) hne

theorem allocRxBuffers_run {s : State} (hb : s.between = []) (hcanon : s.Canonical) {n : Nat} (hn : n ≤ nDesc)
    (hcb : ∀ i < n, s.cb? .rx i = some { descIndex := i, owner := .sw })
    (hgood : ∀ i < n, badBuffer s.cfg (cbBuf s.cfg .rx i) = false) :
    ∃ t, each (List.range n) allocRxBuffer s = .ok () t ∧ s.RxAllocated n t := by
  induction n with
  | zero => exact ⟨s, rfl, .zero hcanon⟩
  | succ n ih =>
    obtain ⟨t, hloop, halloc⟩ := ih (by omega) (fun i hi => hcb i (by omega)) fun i hi => hgood i (by omega)
    obtain ⟨u, hround, halloc'⟩ := halloc.succ (by omega) hb (hcb n (by omega)) (hgood n (by omega))
    exact ⟨u, by simp [List.range_succ, each_append, hloop, hround], halloc'⟩

end Sys2Proof.Machine
end

section
/-! The registers of the receive ring as RX_RING_INIT programs them (42_rx_ring R150), and RX_RING_INIT as a whole. -/

namespace Sys2Proof.Machine

/-! ### Words -/

/-- A field set to all ones. -/
theorem fieldSet_ones {p : FieldPos} {v : Nat} (h : fieldPlace p v = fieldMask p) (w : Word) :
    fieldSet p v w = w ||| fieldMask p := by
  rw [fieldSet, h]
  ext k hk
  cases hm : (fieldMask p)[k] <;> simp [hm]

theorem xonXoffWord_default {c : Config} (h : c.pos = {}) :
    xonXoffWord c = (BitVec.ofNat 16 c.xoffThresh ++ BitVec.ofNat 16 c.xonThresh : BitVec 32) := by
  apply BitVec.eq_of_toNat_eq
  have hx : c.xoffThresh % 65536 * 65536 % 4294967296 = c.xoffThresh % 65536 * 65536 := by omega
  have hy : c.xonThresh % 65536 % 4294967296 = c.xonThresh % 65536 := by omega
  refine Eq.trans ?_ (BitVec.toNat_append _ _).symm
  simp [xonXoffWord, h, fieldPlace, fieldWidth, Nat.shiftLeft_eq, hx, hy]

theorem ringBufSizeWord_default {c : Config} (h : c.pos = {}) : ringBufSizeWord c.pos .rx rxSize = 0x01000800 := by
  rw [h]
  decide

/-! ### Register writes while RDMA is off -/

/-- The host has written a register that has no side effect (R291). -/
def State.wrote (s : State) (r : RegId) (v : Word) : State :=
  { s.setReg r v with hist := .mmioWrite r v :: s.hist }

/-- The host has written one field of such a register (R76). -/
def State.wroteField (s : State) (r : RegId) (p : FieldPos) (v : Nat) : State :=
  { s with hist := .mmioRead r (s.reg r) :: s.hist }.wrote r (fieldSet p v (s.reg r))

/-- The host has written `WRITE_PTR` of the receive ring, and with it RDMA's own pointer (R292). -/
def State.wroteRxWritePtr (s : State) (v : Word) : State :=
  { s.wrote (rxReg .writePtr) v with rdmaWp := v.toNat / descWords }

/-- From `s` to `t` only registers, RDMA's pointer behind one of them, and the history have moved. -/
def State.RegsOnly (s t : State) : Prop := t = { s with regs := t.regs, rdmaWp := t.rdmaWp, hist := t.hist }

theorem State.RegsOnly.refl (s : State) : s.RegsOnly s := rfl

theorem State.RegsOnly.wrote {s t : State} (h : s.RegsOnly t) (r : RegId) (v : Word) : s.RegsOnly (t.wrote r v) := by
  rw [h]
  rfl

theorem State.RegsOnly.wroteField {s t : State} (h : s.RegsOnly t) (r : RegId) (p : FieldPos) (v : Nat) :
    s.RegsOnly (t.wroteField r p v) := by
  rw [h]
  rfl

theorem State.RegsOnly.wroteRxWritePtr {s t : State} (h : s.RegsOnly t) (v : Word) :
    s.RegsOnly (t.wroteRxWritePtr v) := by
  rw [h]
  rfl

@[simp] theorem State.wrote_cfg (s : State) (r : RegId) (v : Word) : (s.wrote r v).cfg = s.cfg := rfl
@[simp] theorem State.wrote_between (s : State) (r : RegId) (v : Word) : (s.wrote r v).between = s.between := rfl

theorem State.wrote_reg (s : State) (r : RegId) (v : Word) (x : RegId) :
    (s.wrote r v).reg x = if x = r then v else s.reg x := by
  refine (State.reg_setReg s r x v).trans ?_
  simp only [eq_comm]

@[simp] theorem State.wroteRxWritePtr_cfg (s : State) (v : Word) : (s.wroteRxWritePtr v).cfg = s.cfg := rfl
@[simp] theorem State.wroteRxWritePtr_between (s : State) (v : Word) : (s.wroteRxWritePtr v).between = s.between := rfl

@[simp] theorem State.wroteRxWritePtr_rdmaWp (s : State) (v : Word) :
    (s.wroteRxWritePtr v).rdmaWp = v.toNat / descWords := rfl

theorem State.wroteRxWritePtr_reg (s : State) (v : Word) (x : RegId) :
    (s.wroteRxWritePtr v).reg x = if x = rxReg .writePtr then v else s.reg x := s.wrote_reg _ v x

@[simp] theorem State.wroteField_cfg (s : State) (r : RegId) (p : FieldPos) (v : Nat) :
    (s.wroteField r p v).cfg = s.cfg := rfl
@[simp] theorem State.wroteField_between (s : State) (r : RegId) (p : FieldPos) (v : Nat) :
    (s.wroteField r p v).between = s.between := rfl

@[simp] theorem State.wroteField_rdmaWp (s : State) (r : RegId) (p : FieldPos) (v : Nat) :
    (s.wroteField r p v).rdmaWp = s.rdmaWp := rfl

theorem State.wroteField_reg (s : State) (r : RegId) (p : FieldPos) (v : Nat) (x : RegId) :
    (s.wroteField r p v).reg x = if x = r then fieldSet p v (s.reg r) else s.reg x := s.wrote_reg r _ x

/-- A write of another register than a direction's control register leaves its enable. -/
theorem State.wrote_dmaEn (s : State) {r : RegId} {d : Dir} (h : r ≠ .dmaCtrl d) (v : Word) :
    (s.wrote r v).dmaEn d = s.dmaEn d := by
  simp [State.dmaEn, State.flag, State.wrote_reg, h.symm]

@[simp] theorem State.wrote_rxReg_dmaEn (s : State) (x : RingReg) (v : Word) (d : Dir) :
    (s.wrote (rxReg x) v).dmaEn d = s.dmaEn d := s.wrote_dmaEn (by simp [rxReg]) v
@[simp] theorem State.wrote_rdmaXonXoff_dmaEn (s : State) (q : Fin 17) (v : Word) (d : Dir) :
    (s.wrote (.rdmaXonXoff q) v).dmaEn d = s.dmaEn d := s.wrote_dmaEn (by simp) v

/-- While RDMA is off the registers of its ring are the host's to write (R292). -/
theorem writeRefused_rxReg {s : State} (hoff : s.dmaEn .rx = false) (x : RingReg) :
    s.writeRefused (rxReg x) = false := by
  cases x with
  | consIndex | ringBufSize => rfl
  | prodIndex | startAddr | endAddr | readPtr | writePtr => exact hoff

theorem hWrite_rxReg {s : State} (hb : s.between = []) (hoff : s.dmaEn .rx = false) {x : RingReg}
    (hx : x ≠ .writePtr) (v : Word) : hWrite (rxReg x) v s = .ok () (s.wrote (rxReg x) v) := by
  refine hWrite_plain hb rfl (writeRefused_rxReg hoff x) ?_ v
  cases x with
  | writePtr => exact absurd rfl hx
  | _ => rfl

/-- The write of `WRITE_PTR` moves RDMA's own pointer as well (R292). -/
theorem hWrite_rxWritePtr {s : State} (hb : s.between = []) (hoff : s.dmaEn .rx = false) (v : Word) :
    hWrite (rxReg .writePtr) v s = .ok () (s.wroteRxWritePtr v) := by
  rw [hWrite_eq hb, mmioWrite_run rfl (writeRefused_rxReg hoff .writePtr)]
  rfl

theorem hWrite_rdmaXonXoff {s : State} (hb : s.between = []) (q : Fin 17) (v : Word) :
    hWrite (.rdmaXonXoff q) v s = .ok () (s.wrote (.rdmaXonXoff q) v) := hWrite_plain hb rfl rfl rfl v

theorem hField_dmaRingCfg {s : State} (hb : s.between = []) (d : Dir) (p : RegPos → FieldPos) (v : Nat) :
    hField (.dmaRingCfg d) p v s = .ok () (s.wroteField (.dmaRingCfg d) (p s.cfg.pos) v) :=
  hField_plain hb rfl rfl rfl rfl p v

theorem hField_dmaCtrl {s : State} (hb : s.between = []) (d : Dir) (p : RegPos → FieldPos) (v : Nat) :
    hField (.dmaCtrl d) p v s = .ok () (s.wroteField (.dmaCtrl d) (p s.cfg.pos) v) :=
  hField_plain hb rfl rfl rfl rfl p v

/-! ### The program -/

/-- The receive ring's registers have been programmed and its two enables set (R150). -/
def State.rxProgrammed (t : State) : State :=
  ((((((((((t.wrote (rxReg .prodIndex) 0).wrote (rxReg .consIndex) 0).wrote (rxReg .ringBufSize)
    (ringBufSizeWord t.cfg.pos .rx rxSize)).wrote (.rdmaXonXoff defaultRing) (xonXoffWord t.cfg)).wrote
    (rxReg .startAddr) 0).wrote (rxReg .endAddr) 767).wrote (rxReg .readPtr) 0).wroteRxWritePtr 0).wroteField
    (.dmaRingCfg .rx) (ringEnPos t.cfg.pos .rx defaultRing.val) 1).wroteField (.dmaCtrl .rx)
    (ringBufEnPos t.cfg.pos .rx defaultRing.val) 1)

theorem State.rxProgrammed_regsOnly (t : State) : t.RegsOnly t.rxProgrammed :=
  (((((((((((State.RegsOnly.refl t).wrote _ _).wrote _ _).wrote _ _).wrote _ _).wrote _ _).wrote _ _).wrote _
    _).wroteRxWritePtr _).wroteField _ _ _).wroteField _ _ _)

theorem State.rxProgrammed_rdmaWp (t : State) : t.rxProgrammed.rdmaWp = 0 := by
  simp [State.rxProgrammed]

/-- The registers of R150 at the default positions; every other register is as it was. -/
theorem State.rxProgrammed_reg {t : State} (hpos : t.cfg.pos = {}) (r : RegId) :
    t.rxProgrammed.reg r = match r with
      | .ring .rx 16 .prodIndex | .ring .rx 16 .consIndex | .ring .rx 16 .startAddr | .ring .rx 16 .readPtr
      | .ring .rx 16 .writePtr => 0
      | .ring .rx 16 .ringBufSize => 0x01000800
      | .ring .rx 16 .endAddr => 767
      | .rdmaXonXoff 16 =>
        (BitVec.ofNat 16 t.cfg.xoffThresh : BitVec 16) ++ (BitVec.ofNat 16 t.cfg.xonThresh : BitVec 16)
      | .dmaRingCfg .rx => t.reg (.dmaRingCfg .rx) ||| 0x00010000
      | .dmaCtrl .rx => t.reg (.dmaCtrl .rx) ||| 0x00020000
      | _ => t.reg r := by
  have hringEn : fieldSet (ringEnPos t.cfg.pos .rx defaultRing.val) 1 (t.reg (.dmaRingCfg .rx)) =
      t.reg (.dmaRingCfg .rx) ||| 0x00010000 := by
    rw [hpos]
    exact fieldSet_ones (by decide) _
  have hbufEn : fieldSet (ringBufEnPos t.cfg.pos .rx defaultRing.val) 1 (t.reg (.dmaCtrl .rx)) =
      t.reg (.dmaCtrl .rx) ||| 0x00020000 := by
    rw [hpos]
    exact fieldSet_ones (by decide) _
  have hsize := ringBufSizeWord_default hpos
  have hxon := xonXoffWord_default hpos
  split <;> simp_all [State.rxProgrammed, State.wroteField_reg, State.wroteRxWritePtr_reg, State.wrote_reg, rxReg,
    defaultRing]

/-- RX_RING_INIT past its refusals, given what its loop leaves (R150). -/
theorem rxRingInit_run {s t : State} (hoff : s.dmaEn .rx = false) (hpool : s.poolDone .rx = true)
    (hloop : each (List.range rxSize) allocRxBuffer { s with rx := some freshRx } = .ok () t)
    (hcfg : t.cfg = s.cfg) (hb : t.between = []) (hofft : t.dmaEn .rx = false) :
    rxRingInit s = .ok () t.rxProgrammed := by
  have hstart : ptrWord freshRx.cbBase = 0 := by decide
  have hend : ptrWord (freshRx.endPtr + 1) - 1#32 = 767 := by decide
  simp [rxRingInit, hoff, hpool, hloop, hstart, hend, hWrite_rxReg, hWrite_rxWritePtr, hWrite_rdmaXonXoff,
    hField_dmaRingCfg, hField_dmaCtrl, hb, hofft, State.rxProgrammed, hcfg]

theorem exec_rxRingInit_ok {s t : State} (hcfg : configOk s.cfg = true) (h : rxRingInit s = .ok () t) :
    exec .rxRingInit s = .next { t with result := .ok } := runOp_of_ok hcfg (okAfter_run h)

/-- Settles O39: the loop over the control blocks, and then the registers. -/
theorem rxRingInitEffect : Obligations.RxRingInitEffect := by
  intro s hcfg hbetween hcanon hpos hoff hcb hgood inside
  have hpool : s.poolDone .rx = true := by
    rw [State.poolDone, List.all_eq_true]
    intro i hi
    rw [hcb i (List.mem_range.mp hi)]
    rfl
  obtain ⟨t, hloop, halloc⟩ := allocRxBuffers_run (s := { s with rx := some freshRx }) hbetween { hcanon with }
    (Nat.le_refl nDesc) hcb hgood
  have hcfgt : t.cfg = s.cfg := by rw [halloc.frame]
  have hregt : t.reg = s.reg := funext (State.reg_congr (by rw [halloc.frame]))
  have hrun : rxRingInit s = .ok () t.rxProgrammed := by
    refine rxRingInit_run hoff hpool hloop hcfgt (by rw [halloc.frame]; exact hbetween) ?_
    rw [halloc.frame]
    exact hoff
  have hregs := t.rxProgrammed_regsOnly
  have hreg := State.rxProgrammed_reg (hcfgt.symm ▸ hpos)
  have hwp := t.rxProgrammed_rdmaWp
  rw [hcfgt, hregt] at hreg
  generalize t.rxProgrammed = u at hrun hregs hreg hwp
  refine ⟨{ u with result := .ok }, exec_rxRingInit_ok hcfg hrun, ?_, fun i => ?_, fun i => ?_, hreg,
    fun a ha => ?_, fun a ha => ?_, hwp, ?_, ?_⟩
  · rw [hregs, halloc.frame]
    rfl
  · rw [hregs]
    exact halloc.desc i
  · rw [hregs]
    exact halloc.cb i
  · rw [hregs]
    exact halloc.flushedAt a ha
  · rw [hregs]
    exact halloc.keptAt a ha
  · rw [hregs]
    exact halloc.remembers
  · rw [hregs, halloc.frame, hwp]

end Sys2Proof.Machine
end

section
/-! What CACHE_INVALIDATE leaves of each byte (46_dma_agents R296), and what a host copy of bytes reads (20_memory
R64). -/

namespace Sys2Proof.Machine

/-! ### CACHE_INVALIDATE -/

/-- From `s` to `t` memory kept its value of the byte at `a`, or took the CPU's dirty one; it is neither dirty nor
stale. -/
def State.DiscardedAt (s t : State) (a : Nat) : Prop :=
  (Memory.read t.mem a = Memory.read s.mem a ∨ Tab.get? s.cpuDirty a = some (Memory.read t.mem a)) ∧
    Tab.get? t.cpuDirty a = none ∧ Tab.get? t.cpuStale a = none

theorem State.DiscardedAt.read_of_clean {s t : State} {a : Nat} (h : s.DiscardedAt t a)
    (hclean : Tab.get? s.cpuDirty a = none) : Memory.read t.mem a = Memory.read s.mem a :=
  h.1.resolve_right (by simp [hclean])

theorem State.DiscardedAt.read_of_dirty {s t : State} {a : Nat} {v : Byte} (h : s.DiscardedAt t a)
    (hv : Tab.get? s.cpuDirty a = some v) : Memory.read t.mem a = v ∨ Memory.read t.mem a = Memory.read s.mem a := by
  rcases h.1 with hkept | htaken
  · exact .inr hkept
  · exact .inl (Option.some.inj (htaken.symm.trans hv))

/-- What the invalidation left clean, a flush leaves as it is. -/
theorem State.DiscardedAt.trans_flushedAt {s t u : State} {a : Nat} (h : s.DiscardedAt t a) (h' : t.FlushedAt u a) :
    s.DiscardedAt u a := by
  obtain ⟨hmem, hdirty, -⟩ := h
  exact ⟨by rwa [h'.read_of_clean hdirty], h'.2⟩

/-- CACHE_INVALIDATE of a range has run (R296). -/
structure State.Invalidated (s : State) (addr : Word) (len : Nat) (t : State) : Prop where
  frame : t = { s with
    mem := t.mem, cpuDirty := t.cpuDirty, cpuStale := t.cpuStale, tape := t.tape, drawCount := t.drawCount
    hist := .invalidate addr len :: s.hist }
  discardedAt : ∀ a, Cached s.cfg addr len a → s.DiscardedAt t a
  keptAt : ∀ a, ¬ Cached s.cfg addr len a → s.KeptAt t a

theorem cacheInvalidate_invalidated {s : State} (hdirty : Tab.sorted s.cpuDirty) (addr : Word) (len : Nat) :
    ∃ t, cacheInvalidate addr len s = .ok () t ∧ s.Invalidated addr len t := by
  cases hcache : s.cfg.cacheEnabled with
  | false =>
    refine ⟨_, cacheInvalidate_off hcache addr len, rfl, fun a ha => ?_, fun a _ => .refl s a⟩
    exact absurd (hcache.symm.trans ha.1) (by decide)
  | true =>
    obtain ⟨m, tp, n, hrun, hread⟩ := cacheInvalidate_on hcache hdirty addr len
    have hstale := Tab.get?_filter (fun a => !inLines s.cfg addr len a) s.cpuStale
    refine ⟨_, hrun, rfl, fun a ha => ?_, fun a ha => ?_⟩
    · have hin := ha.2
      have hmem := hread a
      rw [State.get?_dirtyIn, if_pos hin] at hmem
      exact ⟨hmem, by simp [State.get?_dirtyOut, hin], by simp [hstale, hin]⟩
    · have hout : inLines s.cfg addr len a = false := (not_cached_iff.mp ha).resolve_left (by simp [hcache])
      have hmem := hread a
      rw [State.get?_dirtyIn, hout, if_neg (by decide)] at hmem
      exact ⟨hmem.resolve_right nofun, by simp [State.get?_dirtyOut, hout], by simp [hstale, hout]⟩

/-! ### A host copy -/

theorem State.drew_drew (s : State) (m n : Nat) : (s.drew m).drew n = s.drew (m + n) := by
  simp [State.drew, List.drop_drop, Nat.add_assoc]

/-- A host read of a byte moves only the draws (R64). -/
theorem hostReadByte_drew (a : Nat) (s : State) : ∃ (v : Byte) (n : Nat), hostReadByte a s = .ok v (s.drew n) := by
  cases hstale : Tab.get? s.cpuStale a with
  | none => exact ⟨_, 0, hostReadByte_run hstale⟩
  | some x =>
    exact ⟨_, 1, by simpa only [State.drew, List.drop_one] using hostReadByte_stale hstale⟩

/-- A host copy gives as many bytes as it is asked for, and moves only the draws. -/
theorem readBytes_host_drew (a : Word) (k n : Nat) (s : State) :
    ∃ (bs : List Byte) (m : Nat), bs.length = n ∧ readBytes hostReadByte a k n s = .ok bs (s.drew m) := by
  induction n generalizing k s with
  | zero => exact ⟨[], 0, rfl, rfl⟩
  | succ n ih =>
    obtain ⟨v, m, hbyte⟩ := hostReadByte_drew (byteAddr a k) s
    obtain ⟨bs, m', hlen, hrest⟩ := ih (k + 1) (s.drew m)
    exact ⟨v :: bs, m + m', by rw [List.length_cons, hlen], by simp [readBytes, hbyte, hrest, State.drew_drew]⟩

/-- Where no byte is stale the host copies what the CPU sees, with no draw. -/
theorem hostRead_view {a : Word} {n : Nat} {s : State} (h : ∀ k < n, Tab.get? s.cpuStale (byteAddr a k) = none) :
    hostRead a n s = .ok ((List.range n).map fun k => s.cpuView (byteAddr a k)) s := by
  rw [hostRead, readBytes_run (g := s.cpuView) 0 n fun j hj => hostReadByte_run (by simpa using h j hj),
    List.range_eq_range']

/-- A byte that is neither dirty nor stale is seen as memory holds it (R64). -/
theorem State.cpuView_clean {s : State} {a : Nat} (hdirty : Tab.get? s.cpuDirty a = none)
    (hstale : Tab.get? s.cpuStale a = none) : s.cpuView a = s.memByte a := by
  simp [State.cpuView, hdirty, hstale]

theorem State.memByte_congr {s t : State} {a : Nat} (hcfg : t.cfg = s.cfg) (hdesc : ∀ d i, t.desc d i = s.desc d i)
    (hmem : Memory.read t.mem a = Memory.read s.mem a) : t.memByte a = s.memByte a := by
  simp [State.memByte, hcfg, hdesc, hmem]

/-- Every byte of a range is in its lines (R295). -/
theorem inLines_of_range {c : Config} {addr : Word} {len a : Nat} (hlo : addr.toNat ≤ a)
    (hhi : a < addr.toNat + len) : inLines c addr len a = true := by
  have hlen : 0 < len := by omega
  have hfirst : addr.toNat / c.cacheLine ≤ a / c.cacheLine := Nat.div_le_div_right hlo
  have hlast : a / c.cacheLine ≤ (addr.toNat + len - 1) / c.cacheLine := Nat.div_le_div_right (by omega)
  simp [inLines, hlen, hfirst, hlast]

end Sys2Proof.Machine
end

section
/-! RX_RECV from its step 4 on (42_rx_ring R152, R156, R160 to R162): the examination of the descriptor at the read
pointer, and the refill, the advance and the acknowledgement that follow whatever it finds. -/

namespace Sys2Proof.Machine

/-! ### The copy -/

/-- A payload fits the host's buffer, and the receive buffer past its pad (R159). -/
theorem rxVerdict_ok_bounds {c : Config} {len n : Nat} {w0 : Word} (h : rxVerdict c len w0 = .ok n) :
    n ≤ len ∧ n + rxPad ≤ bufLen := by
  simp only [rxVerdict] at h
  generalize (if c.crcFwd = true then c.fcsLen else 0) = fcsLen at h
  split at h; · cases h
  split at h; · cases h
  split at h; · cases h
  next hlen =>
    split at h; · cases h
    next hdest =>
      cases h
      omega

/-- Step 6 of RX_RECV has run with its verdict, and answers `res` (R161). -/
structure State.RxCopied (s : State) (verdict : Except Err Nat) (buf : Word) (res : Result) (t : State) : Prop where
  frame : t = { s with
    args := { s.args with dest := t.args.dest }, tape := t.tape, drawCount := t.drawCount }
  error : ∀ e, verdict = .error e → res = .err e ∧ t.args = s.args
  ok : ∀ n, verdict = .ok n → res = .count n ∧ ∃ bs : List Byte, bs.length = n ∧
    t.args.dest = bs ++ s.args.dest.drop n ∧
    ((∀ k < n, Tab.get? s.cpuStale (byteAddr (buf + 2) k) = none) →
      bs = (List.range n).map fun k => s.cpuView (byteAddr (buf + 2) k))

theorem rxCopy_copied {s : State} (hb : s.between = []) (verdict : Except Err Nat) (buf : Word) :
    ∃ res t, rxCopy verdict s.args.dest buf s = .ok res t ∧ s.RxCopied verdict buf res t := by
  cases verdict with
  | error e => exact ⟨_, s, rfl, rfl, fun e' he => by cases he; exact ⟨rfl, rfl⟩, nofun⟩
  | ok n =>
    obtain ⟨bs, m, hlen, hread⟩ := readBytes_host_drew (buf + 2) 0 n s
    have hcopy : hCopyIn (buf + BitVec.ofNat 32 rxPad) n s = .ok bs (s.drew m) := (hCopyIn_eq hb _ n).trans hread
    refine ⟨.count n, { s.drew m with args := { s.args with dest := bs ++ s.args.dest.drop n } }, ?_, rfl, nofun,
      fun n' hn => ?_⟩
    · simp only [rxCopy, op_bind, hcopy, upd_run, op_pure]
      rfl
    · cases hn
      refine ⟨rfl, bs, hlen, rfl, fun hstale => ?_⟩
      exact (EStateM.Result.ok.inj (hread.symm.trans (hostRead_view hstale))).1

/-! ### The whole -/

/-- The state after step 4's barrier (R160). -/
def State.barred (s : State) : State := { s with unsynced := [], hist := .barrier :: s.hist }

@[simp] theorem State.barred_cfg (s : State) : s.barred.cfg = s.cfg := rfl

theorem hBarrier_barred {s : State} (hb : s.between = []) : hBarrier s = .ok () s.barred := hBarrier_run hb

/-- Steps 7 and 8 of RX_RECV: the record is advanced, the control block handed over, and both made visible before the
acknowledgement (R152, R160). -/
def State.rxAcknowledged (s : State) (r : RxRing) : State :=
  ({ s with rx := some r.advance }.setOwner .rx r.readPtr .hw).barred.wrote (rxReg .consIndex)
    (indexWord r.advance.cIndex)

theorem State.rxAcknowledged_frame (s : State) (r : RxRing) :
    s.rxAcknowledged r = { s with
      rx := some r.advance, cbRx := (s.rxAcknowledged r).cbRx, regs := (s.rxAcknowledged r).regs, unsynced := []
      hist := .mmioWrite (rxReg .consIndex) (indexWord r.advance.cIndex) :: .barrier :: s.hist } := by
  rw [State.rxAcknowledged, State.setOwner_rx_frame]
  rfl

theorem State.rxAcknowledged_cb? (s : State) (r : RxRing) (d : Dir) (j : Nat) :
    (s.rxAcknowledged r).cb? d j =
      if d = .rx ∧ j = r.readPtr then (s.cb? d j).map fun b => { b with owner := .hw } else s.cb? d j := by
  refine (State.cb?_setOwner { s with rx := some r.advance } .rx d r.readPtr j .hw).trans ?_
  simp only [eq_comm]
  rfl

theorem State.rxAcknowledged_reg (s : State) (r : RxRing) (x : RegId) :
    (s.rxAcknowledged r).reg x = if x = rxReg .consIndex then indexWord r.advance.cIndex else s.reg x := by
  rw [State.rxAcknowledged, State.wrote_reg]
  congr 1
  exact State.setOwner_reg _ _ _ _ x

theorem hDescRead_run {d : Dir} {i : Nat} {s : State} (hb : s.between = []) (hi : i < nDesc) (k : DescWord) :
    hDescRead d i k s = .ok ((s.desc d i).word k) s := by
  simp [hDescRead_eq hb, hostReadDesc, inPool, Nat.not_le.mpr hi]

/-- Steps 4 to 8 of RX_RECV, given what the invalidation, the copy and the refill leave (R152). -/
theorem rxTake_run {s u v w : State} {r : RxRing} {b : Cb} {dest : List Byte} {w0 : Word} {res : Result}
    (hb : s.between = []) (hcb : s.cb? .rx r.readPtr = some b)
    (hinval : hInvalidate (cbBuf s.cfg .rx r.readPtr) bufLen s.barred = .ok () u)
    (hread : hDescRead .rx b.descIndex .w0 u = .ok w0 u)
    (hcopy : rxCopy (rxVerdict s.cfg dest.length w0) dest (cbBuf s.cfg .rx r.readPtr) u = .ok res v)
    (hrefill : poolRefill .rx r.readPtr v = .ok () w) (hbw : w.between = []) :
    rxTake r dest s = .ok res (w.rxAcknowledged r) := by
  have hcbb : s.barred.cb? .rx r.readPtr = some b := hcb
  have hown : ({ w with rx := some r.advance }.setOwner .rx r.readPtr .hw).between = [] := by simp [hbw]
  have hack : hWrite (rxReg .consIndex) (indexWord r.advance.cIndex)
      ({ w with rx := some r.advance }.setOwner .rx r.readPtr .hw).barred = .ok () (w.rxAcknowledged r) :=
    hWrite_plain (s := State.barred _) hown rfl rfl rfl _
  simp only [rxTake, op_bind, hBarrier_barred hb, readCb, gets_run, hcbb, orHalt_some, State.barred_cfg, hinval, hread,
    hcopy, hrefill, upd_run, Machine.setOwner, hBarrier_barred hown, hack, op_pure]

/-! ### What the buffer's bytes are read as -/

/-- The bytes past the pad lie in the buffer's lines, where the buffer does not reach past the top of memory. -/
theorem inLines_byteAddr_pad {c : Config} {buf : Word} {n k : Nat} (htop : buf.toNat + bufLen ≤ 2 ^ 32)
    (hn : n + rxPad ≤ bufLen) (hk : k < n) : inLines c buf bufLen (byteAddr (buf + 2) k) = true := by
  have haddr : byteAddr (buf + 2) k = buf.toNat + 2 + k := by
    simp only [bufLen, rxPad] at htop hn
    unfold byteAddr
    bv_omega
  apply inLines_of_range
  · omega
  · simp only [rxPad] at hn
    omega

/-- A byte that was not dirty is after the invalidation seen as memory held it (R64, R296). -/
theorem State.Invalidated.cpuView {s t : State} {addr : Word} {len a : Nat} (h : s.Invalidated addr len t)
    (hcanon : s.Canonical) (hin : inLines s.cfg addr len a = true) (hclean : Tab.get? s.cpuDirty a = none) :
    Tab.get? t.cpuStale a = none ∧ t.cpuView a = s.memByte a := by
  obtain ⟨hmem, hdirty, hstale⟩ : Memory.read t.mem a = Memory.read s.mem a ∧ Tab.get? t.cpuDirty a = none ∧
      Tab.get? t.cpuStale a = none := by
    cases hcache : s.cfg.cacheEnabled with
    | true =>
      have hdisc := h.discardedAt a ⟨hcache, hin⟩
      exact ⟨hdisc.read_of_clean hclean, hdisc.2⟩
    | false =>
      obtain ⟨hmem, hdirty, hstale⟩ := h.keptAt a fun ha => absurd (hcache.symm.trans ha.1) (by decide)
      obtain ⟨-, hnil⟩ := hcanon.cacheOff hcache
      exact ⟨hmem, hdirty.trans hclean, by rw [hstale, hnil]; rfl⟩
  have hsame : t.memByte a = s.memByte a :=
    State.memByte_congr (by rw [h.frame]) (State.desc_congr (by rw [h.frame]) (by rw [h.frame])) hmem
  exact ⟨hstale, (State.cpuView_clean hdirty hstale).trans hsame⟩

/-! ### The descriptor consumed -/

/-- RX_RECV has examined and refilled the descriptor of receive control block `i`, and will answer `res` (R152, R156,
R160, R161). -/
structure State.RxConsumed (s : State) (i : Nat) (res : Result) (t : State) : Prop where
  frame : t = { s with
    descRx := t.descRx, unsynced := t.unsynced, mem := t.mem, cpuDirty := t.cpuDirty, cpuStale := t.cpuStale
    tape := t.tape, drawCount := t.drawCount, args := { s.args with dest := t.args.dest }
    hist := .invalidate (cbBuf s.cfg .rx i) bufLen :: .clean (cbBuf s.cfg .rx i) bufLen ::
      .invalidate (cbBuf s.cfg .rx i) bufLen :: .barrier :: s.hist }
  desc : ∀ j, t.desc .rx j =
    if j = i then ⟨(s.desc .rx i).w0, toBusAddress s.cfg (cbBuf s.cfg .rx i), 0⟩ else s.desc .rx j
  discardedAt : ∀ a, Cached s.cfg (cbBuf s.cfg .rx i) bufLen a → s.DiscardedAt t a
  keptAt : ∀ a, ¬ Cached s.cfg (cbBuf s.cfg .rx i) bufLen a → s.KeptAt t a
  error : ∀ e, rxVerdict s.cfg s.args.dest.length (s.desc .rx i).w0 = .error e → res = .err e ∧ t.args = s.args
  ok : ∀ n, rxVerdict s.cfg s.args.dest.length (s.desc .rx i).w0 = .ok n →
    res = .count n ∧ ∃ bs : List Byte, bs.length = n ∧ t.args.dest = bs ++ s.args.dest.drop n ∧
      ((cbBuf s.cfg .rx i).toNat + bufLen ≤ 2 ^ 32 →
        (∀ a, inLines s.cfg (cbBuf s.cfg .rx i) bufLen a = true → Tab.get? s.cpuDirty a = none) →
        bs = s.memBytes (cbBuf s.cfg .rx i + 2) n)

/-- The three parts of the examination together. -/
theorem State.RxConsumed.of_parts {s u v w : State} {i : Nat} {res : Result} (hcanon : s.Canonical)
    (hinval : s.barred.Invalidated (cbBuf s.cfg .rx i) bufLen u)
    (hcopy : u.RxCopied (rxVerdict s.cfg s.args.dest.length (s.desc .rx i).w0) (cbBuf s.cfg .rx i) res v)
    (hrefill : v.RxRefilled i w) : s.RxConsumed i res w := by
  have hcfg : v.cfg = s.cfg := by rw [hcopy.frame, hinval.frame]; rfl
  have hdescv : ∀ j, v.desc .rx j = s.desc .rx j := fun j => by rw [hcopy.frame, hinval.frame]; rfl
  have hkeptv : ∀ a, u.KeptAt v a := fun a => by rw [hcopy.frame]; exact .refl u a
  have hargs : u.args = s.args := by rw [hinval.frame]; rfl
  have hargsw : w.args = v.args := by rw [hrefill.frame]
  have hdesc := hrefill.desc
  have hflushed := hrefill.flushedAt
  have hkept := hrefill.keptAt
  rw [hcfg] at hdesc hflushed hkept
  refine ⟨?_, fun j => ?_, fun a ha => ?_, fun a ha => ?_, fun e he => ?_, fun n hn => ?_⟩
  · rw [hrefill.frame, hcfg, hcopy.frame, hinval.frame]
    rfl
  · rw [hdesc, hdescv, hdescv]
  · exact (hinval.discardedAt a ha).trans_flushedAt ((hkeptv a).trans_flushedAt (hflushed a ha))
  · exact (hinval.keptAt a ha).trans ((hkeptv a).trans (hkept a ha))
  · rw [hargsw, ← hargs]
    exact hcopy.error e he
  · obtain ⟨hres, bs, hlen, hdest, hview⟩ := hcopy.ok n hn
    obtain ⟨-, hfit⟩ := rxVerdict_ok_bounds hn
    rw [hargs] at hdest
    refine ⟨hres, bs, hlen, by rw [hargsw, hdest], fun htop hclean => ?_⟩
    have hsee := fun k (hk : k < n) =>
      have hin := inLines_byteAddr_pad (c := s.cfg) htop hfit hk
      hinval.cpuView { hcanon with } hin (hclean _ hin)
    rw [hview fun k hk => (hsee k hk).1]
    exact List.map_congr_left fun k hk => (hsee k (List.mem_range.mp hk)).2

/-- Steps 4 to 8 of RX_RECV on a control block of the software's with a good buffer (R152). -/
theorem rxTake_consumed {s : State} {r : RxRing} {b : Cb} (hb : s.between = []) (hcanon : s.Canonical)
    (hident : s.PoolIdentity) (hcb : s.cb? .rx r.readPtr = some b) (ho : b.owner = .sw)
    (hgood : badBuffer s.cfg (cbBuf s.cfg .rx r.readPtr) = false) :
    ∃ res t, rxTake r s.args.dest s = .ok res (t.rxAcknowledged r) ∧ s.RxConsumed r.readPtr res t := by
  obtain ⟨hidx, hi⟩ := hident .rx _ b hcb
  have hcanonb : s.barred.Canonical := { hcanon with }
  obtain ⟨u, hinval, hu⟩ := cacheInvalidate_invalidated hcanonb.dirty (cbBuf s.cfg .rx r.readPtr) bufLen
  have hcanonu : u.Canonical := (cacheInvalidate_moves .none _ _).keeps_canonical hinval hcanonb
  have hbu : u.between = [] := by rw [hu.frame]; exact hb
  have hargsu : u.args = s.args := by rw [hu.frame]; rfl
  have hdescu : u.desc .rx r.readPtr = s.desc .rx r.readPtr := by rw [hu.frame]; rfl
  have hread : hDescRead .rx b.descIndex .w0 u = .ok (s.desc .rx r.readPtr).w0 u := by
    rw [hidx, hDescRead_run hbu hi, hdescu]
    rfl
  obtain ⟨res, v, hcopy, hv⟩ := rxCopy_copied hbu
    (rxVerdict s.cfg s.args.dest.length (s.desc .rx r.readPtr).w0) (cbBuf s.cfg .rx r.readPtr)
  rw [hargsu] at hcopy
  have hbv : v.between = [] := by rw [hv.frame]; exact hbu
  have hdirtyv : Tab.sorted v.cpuDirty := by rw [hv.frame]; exact hcanonu.dirty
  have hcfgv : v.cfg = s.cfg := by rw [hv.frame, hu.frame]; rfl
  have hcbv : v.cb? .rx r.readPtr = some b := by rw [hv.frame, hu.frame]; exact hcb
  obtain ⟨w, hrefill, hw⟩ := poolRefill_rx hbv hdirtyv hcbv ho hidx hi (by rwa [hcfgv])
  have hbw : w.between = [] := by rw [hw.frame]; exact hbv
  exact ⟨res, w, rxTake_run hb hcb ((hInvalidate_eq (s := s.barred) hb _ _).trans hinval) hread hcopy hrefill hbw,
    .of_parts hcanon hu hv hw⟩

/-- Settles O42: RX_RECV past its early ends is `rxTake`, which consumes the descriptor and acknowledges. -/
theorem rxRecvConsumes : Obligations.RxRecvConsumes := by
  intro s r b hcfg hbetween hcanon hident hready hdest hrx p i buf hdrop hpending hsize hcb ho hgood verdict inside
  have htakes : rxRecv s.args.dest s = rxTake r s.args.dest s.sawProd :=
    (rxRecv_pending hready hdest hbetween hrx hdrop).trans
      ((if_neg (Nat.ne_of_gt hpending)).trans (if_neg (Nat.not_lt.mpr hsize)))
  obtain ⟨res, w, htake, hw⟩ := rxTake_consumed (s := s.sawProd) hbetween { hcanon with } hident hcb ho hgood
  have hexec : exec .rxRecv s = .next { w.rxAcknowledged r with result := res } :=
    runOp_of_ok hcfg (htakes.trans htake)
  have hcbw : ∀ d j, w.cb? d j = s.cb? d j := fun d j => by rw [hw.frame]; rfl
  have hregw : w.reg = s.reg := by rw [hw.frame]; rfl
  have hframe := w.rxAcknowledged_frame r
  have hcbs := w.rxAcknowledged_cb? r
  have hregs := w.rxAcknowledged_reg r
  generalize w.rxAcknowledged r = t at hexec hframe hcbs hregs
  refine ⟨_, hexec, fun e he => ?_, fun n hn => ?_, ?_, fun d j => ?_, fun d j => ?_, fun x => ?_, fun a ha => ?_,
    fun a ha => ?_, ?_, ?_⟩
  · rw [hframe]
    exact hw.error e he
  · obtain ⟨hres, bs, hlen, hbytes, hread⟩ := hw.ok n hn
    obtain ⟨hle, -⟩ := rxVerdict_ok_bounds hn
    have hargs : t.args.dest = bs ++ s.args.dest.drop n := by rw [hframe]; exact hbytes
    refine ⟨hres, ?_, ?_, fun htop hclean => ?_⟩
    · rw [hargs, List.length_append, List.length_drop, hlen]
      omega
    · rw [hargs, ← hlen, List.drop_left]
    · rw [hargs, ← hlen, List.take_left, hlen]
      exact hread htop hclean
  · rw [hframe]
    rfl
  · refine (hcbs d j).trans ?_
    rw [hcbw]
    split
    · next hat => rw [hat.1, hat.2, hcb]; rfl
    · rfl
  · rw [hframe]
    cases d with
    | rx => simp only [true_and]; exact hw.desc j
    | tx => rw [hw.frame]; simp; rfl
  · refine (hregs x).trans ?_
    rw [hregw]
    rfl
  · rw [hframe]
    have hdisc : s.DiscardedAt w a := hw.discardedAt a ha
    have ⟨_, hdirty, hstale⟩ := hdisc
    exact ⟨hdirty, hstale, hdisc.read_of_clean, fun v => hdisc.read_of_dirty⟩
  · rw [hframe]
    obtain ⟨hmem, hdirty, hstale⟩ := hw.keptAt a ha
    exact ⟨hdirty, hstale, hmem⟩
  · rw [hframe, hw.frame]
    rfl
  · rw [hframe, hw.frame]
    rfl

end Sys2Proof.Machine
end

section
/-! Bit fields of a word read after one of them is set (30_encoding R95), and with them the packing and unpacking of
priorities (43_tx_ring_arbiter R189, R190). -/

namespace Sys2Proof.Machine

/-! ### Fields -/

theorem getLsbD_fieldPlace (p : FieldPos) (v : Nat) {i : Nat} (hi : i < 32) :
    (fieldPlace p v).getLsbD i = (decide (p.lo ≤ i ∧ i < p.lo + fieldWidth p) && v.testBit (i - p.lo)) := by
  have hrel : p.lo ≤ i → (i - p.lo < fieldWidth p ↔ i < p.lo + fieldWidth p) := by omega
  simp only [fieldPlace, BitVec.getLsbD_ofNat, hi, decide_true, Bool.true_and, Nat.testBit_shiftLeft,
    Nat.testBit_mod_two_pow]
  by_cases hlo : p.lo ≤ i
  · simp [hlo, hrel hlo]
  · simp [hlo]

theorem fieldMask_eq_fieldPlace (p : FieldPos) : fieldMask p = fieldPlace p (2 ^ fieldWidth p - 1) := by
  rw [fieldMask, fieldPlace, Nat.mod_eq_of_lt (Nat.sub_lt (Nat.two_pow_pos _) Nat.one_pos)]

/-- A bit of a word after a field is set. -/
theorem getLsbD_fieldSet (p : FieldPos) (v : Nat) (w : Word) {i : Nat} (hi : i < 32) :
    (fieldSet p v w).getLsbD i =
      if p.lo ≤ i ∧ i < p.lo + fieldWidth p then v.testBit (i - p.lo) else w.getLsbD i := by
  have hmask := getLsbD_fieldPlace p (2 ^ fieldWidth p - 1) hi
  rw [← fieldMask_eq_fieldPlace, Nat.testBit_two_pow_sub_one] at hmask
  simp only [fieldSet, BitVec.getLsbD_or, BitVec.getLsbD_and, BitVec.getLsbD_not, hi, hmask, getLsbD_fieldPlace p v hi]
  split
  · next hin =>
    have hrel : i - p.lo < fieldWidth p := by omega
    simp [hin, hrel]
  · next hout => simp [hout]

theorem testBit_fieldGet (p : FieldPos) (w : Word) (i : Nat) :
    (fieldGet p w).testBit i = (decide (i < fieldWidth p) && w.getLsbD (p.lo + i)) := by
  simp [fieldGet, BitVec.getLsbD]

/-- A field that lies within the word reads back what was set, cut to its width. -/
theorem fieldGet_fieldSet_same {p : FieldPos} (hp : p.lo + fieldWidth p ≤ 32) (v : Nat) (w : Word) :
    fieldGet p (fieldSet p v w) = v % 2 ^ fieldWidth p := by
  refine Nat.eq_of_testBit_eq fun i => ?_
  rw [testBit_fieldGet, Nat.testBit_mod_two_pow]
  by_cases hi : i < fieldWidth p
  · rw [getLsbD_fieldSet p v w (by omega), if_pos (by omega), Nat.add_sub_cancel_left]
  · simp [hi]

/-- A field that has no bit of the one that was set reads as before. -/
theorem fieldGet_fieldSet_disjoint {p p' : FieldPos}
    (hdisj : p.lo + fieldWidth p ≤ p'.lo ∨ p'.lo + fieldWidth p' ≤ p.lo) (hp' : p'.lo + fieldWidth p' ≤ 32) (v : Nat)
    (w : Word) : fieldGet p' (fieldSet p v w) = fieldGet p' w := by
  refine Nat.eq_of_testBit_eq fun i => ?_
  rw [testBit_fieldGet, testBit_fieldGet]
  by_cases hi : i < fieldWidth p'
  · rw [getLsbD_fieldSet p v w (by omega), if_neg (by omega)]
  · simp [hi]

/-! ### Priority words -/

theorem prioPos_lo (q : Nat) : (prioPos q).lo = q % 6 * 5 := rfl

theorem prioPos_width (q : Nat) : fieldWidth (prioPos q) = 5 := by
  simp only [fieldWidth, prioPos]
  omega

theorem prioPack_eq (q p : Nat) (r : Prio) :
    prioPack q p r = r.set (q / 6) (fieldSet (prioPos q) p (r.get (q / 6))) := rfl

/-- A priority word after one of the three is replaced. -/
theorem Prio.get_set (r : Prio) {k k' : Nat} (hk : k ≤ 2) (hk' : k' ≤ 2) (w : Word) :
    (r.set k w).get k' = if k = k' then w else r.get k' := by
  interval_cases k <;> interval_cases k' <;> rfl

/-- The mask of R189's field is five ones at its shift. -/
theorem prioPos_mask (q : Nat) : fieldMask (prioPos q) = (0x1F : Word) <<< (q % 6 * 5) := by
  apply BitVec.eq_of_toNat_eq
  simp [fieldMask, prioPos_width, prioPos_lo]

theorem prioPos_place (q : Nat) {p : Nat} (hp : p < 32) :
    fieldPlace (prioPos q) p = BitVec.ofNat 32 p <<< (q % 6 * 5) := by
  apply BitVec.eq_of_toNat_eq
  have h5 : p % 2 ^ 5 = p := Nat.mod_eq_of_lt hp
  have h32 : p % 2 ^ 32 = p := Nat.mod_eq_of_lt (by omega)
  simp only [fieldPlace, prioPos_width, prioPos_lo, h5, BitVec.toNat_ofNat, BitVec.toNat_shiftLeft, h32]

/-- PRIO_PACK, word by word (R189). -/
theorem prioPack_get {q p : Nat} (hq : q ≤ 17) (hp : p < 32) (r : Prio) {k : Nat} (hk : k ≤ 2) :
    (prioPack q p r).get k =
      if q / 6 = k then (r.get k &&& ~~~((0x1F : Word) <<< (q % 6 * 5))) ||| (BitVec.ofNat 32 p <<< (q % 6 * 5))
      else r.get k := by
  rw [prioPack_eq, Prio.get_set r (by omega) hk, fieldSet, prioPos_mask, prioPos_place q hp]
  split
  · next hword => rw [hword]
  · rfl

theorem prioUnpack_eq (q : Nat) (r : Prio) : prioUnpack q r = fieldGet (prioPos q) (r.get (q / 6)) := rfl

/-- PRIO_UNPACK as a shift and a mask (R190). -/
theorem prioUnpack_eq_toNat (q : Nat) (r : Prio) :
    prioUnpack q r = ((r.get (q / 6) >>> (q % 6 * 5)) &&& 0x1F).toNat := by
  rw [prioUnpack_eq, fieldGet, prioPos_width, prioPos_lo, BitVec.toNat_and, BitVec.toNat_ushiftRight]
  exact (Nat.and_two_pow_sub_one_eq_mod _ 5).symm

/-- Every queue's field lies within its word. -/
theorem prioPos_fits (q : Nat) : (prioPos q).lo + fieldWidth (prioPos q) ≤ 32 := by
  rw [prioPos_lo, prioPos_width]
  omega

theorem prioUnpack_prioPack_same {q p : Nat} (hq : q ≤ 17) (hp : p < 32) (r : Prio) :
    prioUnpack q (prioPack q p r) = p := by
  have hk : q / 6 ≤ 2 := by omega
  rw [prioUnpack_eq, prioPack_eq, Prio.get_set r hk hk, if_pos rfl, fieldGet_fieldSet_same (prioPos_fits q),
    prioPos_width]
  exact Nat.mod_eq_of_lt hp

/-- Two queues have their fields in different words, or at different places of one word. -/
theorem prioUnpack_prioPack_ne {q q' : Nat} (hq : q ≤ 17) (hq' : q' ≤ 17) (hne : q' ≠ q) (p : Nat) (r : Prio) :
    prioUnpack q' (prioPack q p r) = prioUnpack q' r := by
  rw [prioUnpack_eq, prioPack_eq, Prio.get_set r (by omega) (by omega)]
  split
  · next hword =>
    rw [fieldGet_fieldSet_disjoint ?_ (prioPos_fits q'), hword, prioUnpack_eq]
    rw [prioPos_lo, prioPos_lo, prioPos_width, prioPos_width]
    omega
  · rfl

/-! ### The obligations -/

/-- Settles O16: the packed words are those of `prioPack_get`, and the operands are checked before it. -/
theorem prioPackResult : Obligations.PrioPackResult := by
  refine fun q s hcfg => ⟨fun ⟨hq, hp⟩ => ?_, fun hbad => runOp_of_refused hcfg (by simp [prioPackOp, hbad])⟩
  intro sh word
  have hrun : prioPackOp q.toNat s.args.p s.args.prio s =
      .ok (prioResult (prioPack q.toNat s.args.p s.args.prio)) s := by
    simp [prioPackOp, Nat.not_lt.mpr hq, Nat.not_lt.mpr hp]
  have hget := fun k => prioPack_get hq (Nat.lt_succ_of_le hp) s.args.prio (k := k)
  have h0 : (prioPack q.toNat s.args.p s.args.prio).r0 = word 0 s.args.regs0 := hget 0 (by decide)
  have h1 : (prioPack q.toNat s.args.p s.args.prio).r1 = word 1 s.args.regs1 := hget 1 (by decide)
  have h2 : (prioPack q.toNat s.args.p s.args.prio).r2 = word 2 s.args.regs2 := hget 2 (by decide)
  rw [prioResult, h0, h1, h2] at hrun
  exact runOp_of_ok hcfg hrun

/-- Settles O17: PRIO_UNPACK reads the field that PRIO_PACK writes, and no other queue's. -/
theorem prioUnpackResult : Obligations.PrioUnpackResult := by
  refine ⟨fun q s hcfg => ⟨fun hq => ?_, fun hbad => runOp_of_refused hcfg (by simp [prioUnpackOp, hbad])⟩,
    fun q q' p r hq hq' hp => ⟨prioUnpack_prioPack_same hq hp r, fun hne => prioUnpack_prioPack_ne hq hq' hne p r⟩⟩
  have hrun : prioUnpackOp q.toNat s.args.prio s = .ok (.count (prioUnpack q.toNat s.args.prio)) s := by
    simp [prioUnpackOp, Nat.not_lt.mpr hq]
  rw [← prioUnpack_eq_toNat]
  exact runOp_of_ok hcfg hrun

end Sys2Proof.Machine
end

section
/-! The transmit arbiter (43_tx_ring_arbiter R191, R192): the draws it takes ring by ring, and the ring it serves. -/

namespace Sys2Proof.Machine

/-! ### The rings in number order -/

theorem TxQueue.mem_txQueues (q : TxQueue) : q ∈ txQueues := by cases q <;> decide

theorem queueOfNum_num (q : TxQueue) : queueOfNum q.num = some q := by cases q <;> rfl

theorem TxQueue.num_inj {q q' : TxQueue} (h : q.num = q'.num) : q = q' :=
  Option.some.inj (by rw [← queueOfNum_num q, h, queueOfNum_num])

theorem TxQueue.ring_inj {q q' : TxQueue} (h : q.ring = q'.ring) : q = q' := TxQueue.num_inj (congrArg Fin.val h)

theorem txQueues_sorted : txQueues.Pairwise fun q q' => q.num < q'.num := by decide

theorem txQueues_nodup : txQueues.Nodup := by decide

/-- What comes before a queue in a list without repetition is what comes before it in any split. -/
theorem takeWhile_ne_of_split {pre post : List TxQueue} {q : TxQueue} (h : (pre ++ q :: post).Nodup) :
    (pre ++ q :: post).takeWhile (· ≠ q) = pre := by
  have hpre : ∀ x ∈ pre, decide (x ≠ q) = true := fun x hx => by
    simpa using (List.nodup_append.mp h).2.2 x hx q List.mem_cons_self
  rw [List.takeWhile_append_of_pos hpre, List.takeWhile_cons_of_neg (by simp), List.append_nil]

/-! ### Eligibility -/

theorem State.draw_drew (s : State) (m k : Nat) : (s.drew m).draw k = s.draw (m + k) := by
  simp [State.drew, State.draw, List.drop_drop, Nat.add_assoc]

/-- A ring takes a draw exactly where it is loaded and its flow period may throttle it (R191). -/
theorem eligible_run (q : TxQueue) (s : State) (n : Nat) :
    eligible q (s.drew n) = .ok (s.ringLoaded q && (!s.mayThrottle q || s.draw n % 2 == 1))
      (s.drew (n + if s.drawsThrottle q then 1 else 0)) := by
  have hload : (s.drew n).ringLoaded q = s.ringLoaded q := rfl
  have hmay : (s.drew n).mayThrottle q = s.mayThrottle q := rfl
  cases hl : s.ringLoaded q with
  | false => simp [eligible, hload, hl, State.drawsThrottle]
  | true =>
    cases hm : s.mayThrottle q <;>
      simp [eligible, hload, hmay, hl, hm, State.drawsThrottle, drawBool, drawNat_draw, State.draw_drew,
        State.drew_drew]

/-- The queues from any one on: their draws follow those of the queues before them (R191, log 6). -/
theorem eligibleOf_run {pre qs : List TxQueue} (hsplit : pre ++ qs = txQueues) (s : State) :
    eligibleOf qs (s.drew (pre.countP s.drawsThrottle)) =
      .ok (qs.filter s.eligibleNow) (s.drew (txQueues.countP s.drawsThrottle)) := by
  induction qs generalizing pre with
  | nil => rw [← hsplit, List.append_nil]; rfl
  | cons q qs ih =>
    have hbefore : txQueues.takeWhile (· ≠ q) = pre := by
      rw [← hsplit]
      exact takeWhile_ne_of_split (hsplit ▸ txQueues_nodup)
    have hnow : s.eligibleNow q =
        (s.ringLoaded q && (!s.mayThrottle q || s.draw (pre.countP s.drawsThrottle) % 2 == 1)) := by
      rw [State.eligibleNow, hbefore]
    have hrest := ih (pre := pre ++ [q]) (by rw [List.append_assoc]; exact hsplit)
    rw [List.countP_append, List.countP_singleton] at hrest
    simp only [eligibleOf, op_bind, eligible_run, ← hnow, hrest, op_pure, List.filter_cons]

/-- The rings that the arbiter finds eligible. -/
def State.eligibles (s : State) : List TxQueue := txQueues.filter s.eligibleNow

theorem State.mem_eligibles {s : State} {q : TxQueue} : q ∈ s.eligibles ↔ s.eligibleNow q = true := by
  rw [State.eligibles, List.mem_filter, and_iff_right q.mem_txQueues]

theorem State.eligibles_eq_nil {s : State} : s.eligibles = [] ↔ ∀ q, s.eligibleNow q = false := by
  simp only [List.eq_nil_iff_forall_not_mem, State.mem_eligibles, Bool.not_eq_true]

theorem State.any_eligibleNow (s : State) : txQueues.any s.eligibleNow = decide (s.eligibles ≠ []) := by
  rw [Bool.eq_iff_iff, List.any_eq_true, decide_eq_true_iff, ne_eq, State.eligibles, List.filter_eq_nil_iff]
  push Not
  rfl

theorem State.eligibles_sorted (s : State) : s.eligibles.Pairwise fun q q' => q.num < q'.num :=
  txQueues_sorted.filter _

/-! ### Strict priority -/

/-- Under strict priority `q` does not go after `q'` (R192). -/
abbrev State.NotAfter (s : State) (q q' : TxQueue) : Prop :=
  s.prioOf q < s.prioOf q' ∨ s.prioOf q = s.prioOf q' ∧ q.num ≤ q'.num

/-- `leastPrio` gives the queue of a list in number order that goes after no other (R192). -/
theorem leastPrio_first (s : State) {q : TxQueue} {qs : List TxQueue}
    (hsorted : (q :: qs).Pairwise fun a b => a.num < b.num) :
    leastPrio s.prio q qs ∈ q :: qs ∧ ∀ q' ∈ q :: qs, s.NotAfter (leastPrio s.prio q qs) q' := by
  induction qs generalizing q with
  | nil => exact ⟨List.mem_cons_self, List.forall_mem_singleton.mpr (.inr ⟨rfl, Nat.le_refl _⟩)⟩
  | cons p ps ih =>
    obtain ⟨hhead, htail⟩ := List.pairwise_cons.mp hsorted
    have hqp : q.num < p.num := hhead p List.mem_cons_self
    by_cases hless : s.prioOf p < s.prioOf q
    · have hstep : leastPrio s.prio q (p :: ps) = leastPrio s.prio p ps := if_pos hless
      obtain ⟨hmem, hfirst⟩ := ih htail
      have hp := hfirst p List.mem_cons_self
      rw [hstep]
      exact ⟨List.mem_cons_of_mem q hmem, List.forall_mem_cons.mpr ⟨by omega, hfirst⟩⟩
    · have hstep : leastPrio s.prio q (p :: ps) = leastPrio s.prio q ps := if_neg hless
      obtain ⟨hmem, hfirst⟩ := ih (hsorted.sublist ((List.sublist_cons_self p ps).cons_cons q))
      obtain ⟨hq, hps⟩ := List.forall_mem_cons.mp hfirst
      rw [hstep]
      exact ⟨((List.sublist_cons_self p ps).cons_cons q).mem hmem,
        List.forall_mem_cons.mpr ⟨hq, List.forall_mem_cons.mpr ⟨by omega, hps⟩⟩⟩

/-! ### The selection -/

/-- The ring among the eligible ones `q :: qs` that the arbiter serves (R192). -/
def State.selected (s : State) (q : TxQueue) (qs : List TxQueue) : TxQueue :=
  if s.strictPriority then leastPrio s.prio q qs
  else (q :: qs).getD (s.draw (txQueues.countP s.drawsThrottle) % (qs.length + 1)) q

theorem State.arbDraws_none {s : State} (h : s.eligibles = []) : s.arbDraws = txQueues.countP s.drawsThrottle := by
  simp [State.arbDraws, State.any_eligibleNow, h]

theorem arbSelect_none {s : State} (h : s.eligibles = []) : arbSelect s = .ok none (s.drew s.arbDraws) := by
  have hrun : eligibleOf txQueues s = .ok s.eligibles (s.drew (txQueues.countP s.drawsThrottle)) :=
    eligibleOf_run (pre := []) rfl s
  rw [s.arbDraws_none h]
  simp [arbSelect, hrun, h]

theorem arbSelect_some {s : State} {q : TxQueue} {qs : List TxQueue} (h : s.eligibles = q :: qs) :
    arbSelect s = .ok (some (s.selected q qs)) (s.drew s.arbDraws) := by
  have hrun : eligibleOf txQueues s = .ok s.eligibles (s.drew (txQueues.countP s.drawsThrottle)) :=
    eligibleOf_run (pre := []) rfl s
  have hmode : (s.drew (txQueues.countP s.drawsThrottle)).strictPriority = s.strictPriority := rfl
  have hprio : (s.drew (txQueues.countP s.drawsThrottle)).prio = s.prio := rfl
  cases hstrict : s.strictPriority <;>
    simp [arbSelect, hrun, h, hmode, hstrict, hprio, drawFrom, drawNat_draw, State.draw_drew, State.drew_drew,
      State.arbDraws, State.any_eligibleNow, State.selected]

/-- The ring selected is the one that R192 says is served. -/
theorem State.serves_iff_selected {s : State} {q : TxQueue} {qs : List TxQueue} (h : s.eligibles = q :: qs)
    (k : TxQueue) : some (s.selected q qs) = some k ↔ s.Serves k := by
  rw [Option.some_inj, State.Serves, ← State.mem_eligibles]
  cases hstrict : s.strictPriority with
  | true =>
    have hsel : s.selected q qs = leastPrio s.prio q qs := if_pos hstrict
    obtain ⟨hmem, hfirst⟩ := leastPrio_first s (h ▸ s.eligibles_sorted)
    rw [← hsel, ← h] at hmem hfirst
    rw [if_pos rfl]
    refine ⟨fun hk => ?_, fun ⟨hk, hkfirst⟩ => by_contra fun hne => ?_⟩
    · subst hk
      refine ⟨hmem, fun q' hq' hne => ?_⟩
      have hle := hfirst q' (State.mem_eligibles.mpr hq')
      have hnum : q'.num ≠ (s.selected q qs).num := fun he => hne (TxQueue.num_inj he)
      omega
    · have hle := hfirst k hk
      have hlt := hkfirst _ (State.mem_eligibles.mp hmem) hne
      omega
  | false =>
    have hlt : s.draw (txQueues.countP s.drawsThrottle) % (qs.length + 1) < (q :: qs).length :=
      Nat.mod_lt _ (Nat.succ_pos _)
    have hsel : s.eligibles[s.draw (txQueues.countP s.drawsThrottle) % s.eligibles.length]? =
        some (s.selected q qs) := by
      rw [h, State.selected, hstrict, List.length_cons, List.getElem?_eq_getElem hlt, if_neg (by decide),
        List.getD_eq_getElem _ _ hlt]
    rw [if_neg (by decide)]
    refine ⟨fun hk => ?_, fun ⟨_, hk⟩ => Option.some.inj (hsel.symm.trans hk)⟩
    rw [← hk]
    exact ⟨List.mem_of_getElem? hsel, hsel⟩

/-- ARB_SELECT takes its draws, and its answer is the ring served, or none where none is eligible (R191, R192). -/
theorem arbSelect_spec (s : State) :
    ∃ o, arbSelect s = .ok o (s.drew s.arbDraws) ∧ (∀ q, o = some q ↔ s.Serves q) ∧
      (o = none ↔ ∀ q, s.eligibleNow q = false) := by
  cases h : s.eligibles with
  | nil =>
    have hnone := State.eligibles_eq_nil.mp h
    exact ⟨none, arbSelect_none h, fun q => ⟨nofun, fun ⟨hel, _⟩ => by simp [hnone q] at hel⟩, fun _ => hnone,
      fun _ => rfl⟩
  | cons q qs =>
    refine ⟨_, arbSelect_some h, s.serves_iff_selected h, nofun, fun hnone => ?_⟩
    rw [State.eligibles_eq_nil.mpr hnone] at h
    cases h

/-- Settles O18: what the arbiter selects, and from the conditions of R191 what that says of the rings. -/
theorem arbSelectEffect : Obligations.ArbSelectEffect := by
  intro s hcfg
  obtain ⟨o, hrun, hserves, hnone⟩ := arbSelect_spec s
  have hexec : exec .arbSelect s = .next { s.drew s.arbDraws with result := .queue o } :=
    runOp_of_ok hcfg (by simp [hrun])
  have hwaits : ∀ q, s.ringLoaded q = true → s.mayThrottle q = false → s.eligibleNow q = true := fun q hload hmay => by
    simp [State.eligibleNow, hload, hmay]
  refine ⟨o, hexec, hserves, hnone, fun q hq => ?_, fun ho q hload => ?_, fun hstrict q hq q' hload hmay hne => ?_,
    fun hmay hstrict => ?_⟩
  · obtain ⟨hel, -⟩ := (hserves q).mp hq
    exact (Bool.and_eq_true_iff.mp hel).1
  · refine Bool.of_not_eq_false fun hmay => ?_
    exact absurd ((hwaits q hload hmay).symm.trans (hnone.mp ho q)) (by decide)
  · obtain ⟨-, hfirst⟩ := (hserves q).mp hq
    rw [if_pos hstrict] at hfirst
    exact hfirst q' (hwaits q' hload hmay) hne
  · have hdraws : txQueues.countP s.drawsThrottle = 0 := List.countP_eq_zero.mpr fun q _ => by
      simpa [State.drawsThrottle] using hmay q
    rw [State.arbDraws, hdraws, hstrict]
    rfl

end Sys2Proof.Machine
end

section
/-! TX_RECLAIM (43_tx_ring_arbiter R185): its two ends, and what it leaves where it returns a count. -/

namespace Sys2Proof.Machine

/-- A cursor moved `n` times along its ring (R42). -/
theorem TxRing.nextN_eq_iterate (r : TxRing) (n p : Nat) : r.nextN n p = (ringNext r.cbBase r.endPtr)^[n] p := by
  induction n generalizing p with
  | zero => rfl
  | succ n ih => exact ih _

/-- The state after the read of a transmit ring's `CONS_INDEX` (R185). -/
def State.sawCons (s : State) (k : TxQueue) : State :=
  { s with hist := .mmioRead (txReg k .consIndex) (s.reg (txReg k .consIndex)) :: s.hist }

/-- How many completions the hardware claims beyond those the record knows (R185). -/
def State.completions (s : State) (k : TxQueue) (r : TxRing) : Nat :=
  pendingCount (indexOf (s.reg (txReg k .consIndex))) r.cIndex

theorem State.completions_eq (s : State) (k : TxQueue) (r : TxRing) :
    s.completions k r =
      ((s.reg (.ring .tx k.ring .consIndex)).toNat % 65536 + 65536 - r.cIndex.toNat) % 65536 :=
  pendingCount_indexOf _ _

/-- The record that a reclaim of queue `k` leaves of `r` (R185). -/
abbrev State.reclaimedRing (s : State) (k : TxQueue) (r : TxRing) : TxRing :=
  r.reclaimed (indexOf (s.reg (txReg k .consIndex)))

theorem State.reclaimedRing_eq (s : State) (k : TxQueue) (r : TxRing) :
    s.reclaimedRing k r = { r with
      cleanPtr := (ringNext r.cbBase r.endPtr)^[s.completions k r] r.cleanPtr
      freeBds := r.freeBds + s.completions k r, cIndex := indexOf (s.reg (txReg k .consIndex)) } := by
  rw [State.reclaimedRing, TxRing.reclaimed, TxRing.nextN_eq_iterate, State.completions]

theorem hRead_consIndex {s : State} (hb : s.between = []) (k : TxQueue) :
    hRead (txReg k .consIndex) s = .ok (s.reg (txReg k .consIndex)) (s.sawCons k) := hRead_plain hb rfl

theorem exec_txReclaim {q : BitVec 8} {k : TxQueue} (hq : queueOfQ q = some k) (s : State) :
    exec (.txReclaim q) s = runOp (do return .count (← txReclaim k)) s := by
  have harm : exec (.txReclaim q) s = execTxReclaim q s := rfl
  rw [harm, execTxReclaim, hq]
  rfl

theorem exec_txSend {q : BitVec 8} {k : TxQueue} (hq : queueOfQ q = some k) (s : State) :
    exec (.txSend q) s = runOp (okAfter (txSend k s.args.payload)) s := by
  have harm : exec (.txSend q) s = execTxSend q s := rfl
  rw [harm, execTxSend, hq]
  rfl

section
variable {s : State} {k : TxQueue} {r : TxRing} (hb : s.between = []) (hr : Tab.get? s.tx k.num = some r)
include hb hr

/-- More completions than outstanding end TX_RECLAIM after its read (R185). -/
theorem txReclaim_tooMany (hn : r.size < s.completions k r + r.freeBds) :
    txReclaim k s = .error (.err .hwError) (s.sawCons k) := by
  have hcount : pendingCount (indexOf (s.reg (txReg k .consIndex))) r.cIndex = s.completions k r := rfl
  have hover : (r.size : Int) - r.freeBds < s.completions k r := by omega
  simp [txReclaim, hr, hRead_consIndex hb, hcount, hover]

/-- TX_RECLAIM of queue `k`, with record `r` before it, has returned its count (R185). -/
structure State.TxReclaimed (s : State) (k : TxQueue) (r : TxRing) (t : State) : Prop where
  frame : t = { s with
    tx := Tab.put s.tx k.num (s.reclaimedRing k r), cbTx := t.cbTx, unsynced := []
    hist := .barrier :: .mmioRead (txReg k .consIndex) (s.reg (txReg k .consIndex)) :: s.hist }
  cb : ∀ i, t.cb? .tx i =
    if ∃ j < s.completions k r, (ringNext r.cbBase r.endPtr)^[j] r.cleanPtr = i
    then (s.cb? .tx i).map ({ · with owner := .sw }) else s.cb? .tx i

theorem txReclaim_run (hn : s.completions k r + r.freeBds ≤ r.size) :
    ∃ t, txReclaim k s = .ok (s.completions k r) t ∧ s.TxReclaimed k r t := by
  have hcount : pendingCount (indexOf (s.reg (txReg k .consIndex))) r.cIndex = s.completions k r := rfl
  have hfits : ¬ (r.size : Int) - r.freeBds < s.completions k r := by omega
  have hbs : (s.sawCons k).between = [] := hb
  obtain ⟨u, hrel, hframe, hcb⟩ := releaseBds_spec r (s.completions k r) r.cleanPtr (s.sawCons k).barred
  refine ⟨{ u with tx := Tab.put u.tx k.num (s.reclaimedRing k r) }, ?_, ?_, fun i => ?_⟩
  · simp only [txReclaim, op_bind, gets_run, hr, orHalt_some, hRead_consIndex hb, hcount, haltIf_run, hfits,
      decide_false, Bool.false_eq_true, if_false, hBarrier_barred hbs, hrel, setTx, upd_run, op_pure]
    rfl
  · rw [hframe]
    rfl
  · simp only [← TxRing.nextN_eq_iterate]
    exact hcb i

end

theorem State.TxReclaimed.record {s t : State} {k : TxQueue} {r : TxRing} (h : s.TxReclaimed k r t) :
    Tab.get? t.tx k.num = some (s.reclaimedRing k r) := by
  rw [h.frame]
  exact Tab.get?_put_same _ _ _

/-- Settles O46: a Q that names no queue halts before the operation, and too many completions end it after its one
read. -/
theorem txReclaimRejects : Obligations.TxReclaimRejects := by
  refine fun q s hcfg => ⟨fun hq => ⟨runOp_of_refused hcfg (by simp [hq]), runOp_of_refused hcfg (by simp [hq])⟩,
    fun k r hq hb hr => ?_⟩
  intro cons hn
  rw [← State.completions_eq] at hn
  rw [exec_txReclaim hq]
  refine runOp_of_err hcfg (t := s.sawCons k) ?_
  simp only [op_bind, txReclaim_tooMany hb hr hn]

/-- Settles O45: TX_RECLAIM up to its count is `txReclaim_run`. -/
theorem txReclaimEffect : Obligations.TxReclaimEffect := by
  intro q k r s hq hcfg hb hr cons n next hn
  have hcount : s.completions k r = n := s.completions_eq k r
  obtain ⟨t, hrun, ht⟩ := txReclaim_run hb hr (hcount ▸ hn)
  rw [hcount] at hrun
  have hcb := ht.cb
  rw [hcount] at hcb
  have hexec : exec (.txReclaim q) s = .next { t with result := .count n } := by
    rw [exec_txReclaim hq]
    refine runOp_of_ok hcfg ?_
    simp only [op_bind, hrun, op_pure]
  refine ⟨_, hexec, ?_, fun j hj => ?_, fun j hj => ?_, fun i hi => ?_, ?_⟩
  · refine ht.record.trans ?_
    rw [s.reclaimedRing_eq k r, hcount]
    rfl
  · rw [ht.frame]
    exact Tab.get?_put_ne _ _ (Ne.symm hj)
  · exact (hcb _).trans (if_pos ⟨j, hj, rfl⟩)
  · exact (hcb i).trans (if_neg fun ⟨j, hj, hat⟩ => hi j hj hat)
  · rw [ht.frame]
    rfl

end Sys2Proof.Machine
end

section
/-! A host copy to cacheable memory and the CACHE_CLEAN of the bytes copied, byte by byte (20_memory R64; 46_dma_agents
R295). -/

namespace Sys2Proof.Machine

/-! ### CACHE_CLEAN -/

/-- CACHE_CLEAN of a range has run (R295). -/
structure State.Cleaned (s : State) (addr : Word) (len : Nat) (t : State) : Prop where
  frame : t = { s with mem := t.mem, cpuDirty := t.cpuDirty, hist := .clean addr len :: s.hist }
  read : ∀ a, Memory.read t.mem a = s.cleaned addr len a
  dirty : s.cfg.cacheEnabled = true → ∀ a,
    Tab.get? t.cpuDirty a = if inLines s.cfg addr len a = true then none else Tab.get? s.cpuDirty a
  cacheOff : s.cfg.cacheEnabled = false → t.cpuDirty = s.cpuDirty

theorem cacheClean_cleaned {s : State} (hdirty : Tab.sorted s.cpuDirty) (addr : Word) (len : Nat) :
    ∃ t, cacheClean addr len s = .ok () t ∧ s.Cleaned addr len t := by
  cases hcache : s.cfg.cacheEnabled with
  | false =>
    refine ⟨_, cacheClean_off hcache addr len, rfl, fun a => ?_, fun hon => ?_, fun _ => rfl⟩
    · simp [State.cleaned, hcache]
    · exact absurd (hcache.symm.trans hon) (by decide)
  | true =>
    refine ⟨_, cacheClean_on hcache addr len, rfl, fun a => ?_, fun _ a => s.get?_dirtyOut addr len a, fun hoff => ?_⟩
    · have hread := read_cleanBytes (m := s.mem) (Tab.sorted_filter hdirty fun e => inLines s.cfg addr len e.1) a
      refine hread.trans ?_
      rw [Tab.get?_filter (fun a => inLines s.cfg addr len a)]
      cases hin : inLines s.cfg addr len a <;> simp [State.cleaned, hcache, hin]
    · exact absurd (hcache.symm.trans hoff) (by decide)

/-! ### Host bytes off the pools -/

/-- The byte that the CPU wrote last, in its cache or in memory (R64). -/
def State.ownByte (s : State) (a : Nat) : Byte := (Tab.get? s.cpuDirty a).getD (Memory.read s.mem a)

/-- A clean puts the CPU's byte in memory, which with the cache off it is in already. -/
theorem State.cleaned_of_inLines {s : State} (hcanon : s.Canonical) {addr : Word} {len a : Nat}
    (hin : inLines s.cfg addr len a = true) : s.cleaned addr len a = s.ownByte a := by
  cases hcache : s.cfg.cacheEnabled with
  | true => simp [State.cleaned, State.ownByte, hcache, hin]
  | false =>
    obtain ⟨hdirty, -⟩ := hcanon.cacheOff hcache
    simp [State.cleaned, State.ownByte, hcache, hdirty]

/-- A byte that a clean finds as it was at `s`, it leaves as it would have then. -/
theorem State.KeptAt.cleaned_eq {s t : State} {a : Nat} (h : s.KeptAt t a) (hcfg : t.cfg = s.cfg) (addr : Word)
    (len : Nat) : t.cleaned addr len a = s.cleaned addr len a := by
  obtain ⟨hmem, hdirty, -⟩ := h
  simp only [State.cleaned, hcfg, hmem, hdirty]

theorem State.hostStoreByte_frame (s : State) (a : Nat) (v : Byte) :
    s.hostStoreByte a v = { s with
      mem := (s.hostStoreByte a v).mem, cpuDirty := (s.hostStoreByte a v).cpuDirty
      cpuStale := (s.hostStoreByte a v).cpuStale } := by
  unfold State.hostStoreByte
  split <;> rfl

theorem State.hostStoreByte_keptAt (s : State) {a b : Nat} (hne : a ≠ b) (v : Byte) :
    s.KeptAt (s.hostStoreByte a v) b := by
  refine ⟨?_, ?_, ?_⟩
  · unfold State.hostStoreByte
    split
    · rfl
    · exact Memory.read_write_ne _ _ hne
  · unfold State.hostStoreByte
    split
    · exact Tab.get?_put_ne _ _ hne
    · rfl
  · rw [State.stale_hostStoreByte, if_neg fun h => hne h.2]

theorem State.hostStoreByte_ownByte {s : State} (hcanon : s.Canonical) (a : Nat) (v : Byte) :
    (s.hostStoreByte a v).ownByte a = v := by
  cases hcache : s.cfg.cacheEnabled with
  | true => simp [State.hostStoreByte, State.ownByte, hcache]
  | false =>
    obtain ⟨hdirty, -⟩ := hcanon.cacheOff hcache
    simp [State.hostStoreByte, State.ownByte, hcache, hdirty]

/-- The state after a host copy to cacheable memory. -/
abbrev State.hostStored (s : State) (a : Word) (k : Nat) (bs : List Byte) : State :=
  writeBytes State.hostStoreByte a k bs s

theorem State.hostStored_frame (s : State) (a : Word) (k : Nat) (bs : List Byte) :
    s.hostStored a k bs = { s with
      mem := (s.hostStored a k bs).mem, cpuDirty := (s.hostStored a k bs).cpuDirty
      cpuStale := (s.hostStored a k bs).cpuStale } :=
  writeBytes_keeps (P := fun t => t = { s with mem := t.mem, cpuDirty := t.cpuDirty, cpuStale := t.cpuStale })
    (fun t b v ht => by rw [State.hostStoreByte_frame, ht]) a k bs s rfl

theorem State.hostStored_canonical {s : State} (h : s.Canonical) (a : Word) (k : Nat) (bs : List Byte) :
    (s.hostStored a k bs).Canonical :=
  writeBytes_keeps (fun _ b v ht => ht.hostStoreByte b v) a k bs s h

/-- With the cache off the two sets stay as they are (R295, log 15). -/
theorem State.hostStored_cacheOff {s : State} (hoff : s.cfg.cacheEnabled = false) (a : Word) (k : Nat)
    (bs : List Byte) : (s.hostStored a k bs).cpuDirty = s.cpuDirty ∧ (s.hostStored a k bs).cpuStale = s.cpuStale := by
  have hkeeps := writeBytes_keeps (f := State.hostStoreByte)
    (P := fun t => t.cfg.cacheEnabled = false ∧ t.cpuDirty = s.cpuDirty ∧ t.cpuStale = s.cpuStale)
    (fun t b v ⟨hofft, hsets⟩ => by simpa [State.hostStoreByte, hofft] using hsets) a k bs s ⟨hoff, rfl, rfl⟩
  exact hkeeps.2

/-- An address that no byte of the copy falls on is left alone. -/
theorem State.hostStored_keptAt {a : Word} {x k : Nat} {bs : List Byte} {s : State}
    (h : ∀ j < bs.length, byteAddr a (k + j) ≠ x) : s.KeptAt (s.hostStored a k bs) x := by
  induction bs generalizing k s with
  | nil => exact .refl s x
  | cons b bs ih =>
    refine (s.hostStoreByte_keptAt (h 0 (by simp)) b).trans (ih fun j hj => ?_)
    have hnext := h (j + 1) (by simpa using hj)
    rwa [Nat.add_assoc, Nat.add_comm 1 j]

/-- Every byte of the copy is the CPU's afterwards, where the copy is not longer than the address space. -/
theorem State.hostStored_ownByte {a : Word} {k j : Nat} {bs : List Byte} {s : State} (hcanon : s.Canonical)
    (hj : j < bs.length) (hl : k + bs.length ≤ 2 ^ 32) :
    (s.hostStored a k bs).ownByte (byteAddr a (k + j)) = bs[j] := by
  induction bs generalizing k j s with
  | nil => simp at hj
  | cons b bs ih =>
    simp only [List.length_cons] at hj hl
    cases j with
    | zero =>
      have hrest : (s.hostStoreByte (byteAddr a k) b).KeptAt (s.hostStored a k (b :: bs)) (byteAddr a k) :=
        State.hostStored_keptAt fun i hi => byteAddr_ne a (by omega) (by omega) (by omega)
      obtain ⟨hmem, hdirty, -⟩ := hrest
      rw [Nat.add_zero, State.ownByte, hmem, hdirty]
      exact State.hostStoreByte_ownByte hcanon _ b
    | succ j =>
      rw [show k + (j + 1) = k + 1 + j by omega]
      exact ih (hcanon.hostStoreByte _ b) (by omega) (by omega)

/-! ### The copy and the clean -/

/-- The bytes `bs` have been copied to address `buf` on, and the lines of the copy cleaned (R64, R295). -/
structure State.CopiedClean (s : State) (buf : Word) (bs : List Byte) (t : State) : Prop where
  frame : t = { s with
    mem := t.mem, cpuDirty := t.cpuDirty, cpuStale := t.cpuStale, hist := .clean buf bs.length :: s.hist }
  bytes : ∀ (j : Nat) (hj : j < bs.length), Memory.read t.mem (byteAddr buf j) = bs[j]
  read : ∀ a, (∀ j < bs.length, byteAddr buf j ≠ a) → Memory.read t.mem a = s.cleaned buf bs.length a
  dirty : ∀ a, s.cfg.cacheEnabled = true →
    Tab.get? t.cpuDirty a = if inLines s.cfg buf bs.length a = true then none else Tab.get? s.cpuDirty a
  cacheOff : s.cfg.cacheEnabled = false → t.cpuDirty = s.cpuDirty ∧ t.cpuStale = s.cpuStale
  stale : ∀ a, (∀ j < bs.length, byteAddr buf j ≠ a) → Tab.get? t.cpuStale a = Tab.get? s.cpuStale a

theorem inLines_byteAddr {c : Config} {buf : Word} {n j : Nat} (htop : buf.toNat + n ≤ 2 ^ 32) (hj : j < n) :
    inLines c buf n (byteAddr buf j) = true := by
  have haddr : byteAddr buf j = buf.toNat + j := Nat.mod_eq_of_lt (by omega)
  exact inLines_of_range (by omega) (by omega)

theorem State.CopiedClean.of_parts {s t : State} {buf : Word} {bs : List Byte} (hcanon : s.Canonical)
    (htop : buf.toNat + bs.length ≤ 2 ^ 32) (hclean : (s.hostStored buf 0 bs).Cleaned buf bs.length t) :
    s.CopiedClean buf bs t := by
  have hframe := s.hostStored_frame buf 0 bs
  have hcfg : (s.hostStored buf 0 bs).cfg = s.cfg := by rw [hframe]
  have hkept : ∀ a, (∀ j < bs.length, byteAddr buf j ≠ a) → s.KeptAt (s.hostStored buf 0 bs) a := fun a ha =>
    State.hostStored_keptAt fun j hj => by rw [Nat.zero_add]; exact ha j hj
  have hdirty := hclean.dirty
  rw [hcfg] at hdirty
  refine ⟨?_, fun j hj => ?_, fun a ha => ?_, fun a hon => ?_, fun hoff => ?_, fun a ha => ?_⟩
  · rw [hclean.frame, hframe]
  · rw [hclean.read, State.cleaned_of_inLines (State.hostStored_canonical hcanon buf 0 bs) (inLines_byteAddr htop hj)]
    have hown := State.hostStored_ownByte (a := buf) (k := 0) hcanon hj (by omega)
    rwa [Nat.zero_add] at hown
  · rw [hclean.read, (hkept a ha).cleaned_eq hcfg]
  · rw [hdirty hon]
    split
    · rfl
    · next hout =>
      obtain ⟨-, hsame, -⟩ := hkept a fun j hj hat => hout (hat ▸ inLines_byteAddr htop hj)
      exact hsame
  · obtain ⟨hd, hs⟩ := State.hostStored_cacheOff hoff buf 0 bs
    refine ⟨(hclean.cacheOff (hcfg ▸ hoff)).trans hd, ?_⟩
    rw [hclean.frame]
    exact hs
  · obtain ⟨-, -, hsame⟩ := hkept a ha
    rw [hclean.frame]
    exact hsame

/-- A host copy off the descriptor pools, and then the clean of its lines. -/
theorem hCopyOut_hClean {s : State} (hb : s.between = []) (hcanon : s.Canonical) {buf : Word} {bs : List Byte}
    (hoff : OffPools s.cfg buf bs.length) (htop : buf.toNat + bs.length ≤ 2 ^ 32) :
    ∃ u t, hCopyOut buf bs s = .ok () u ∧ hClean buf bs.length u = .ok () t ∧ s.CopiedClean buf bs t := by
  have hframe := s.hostStored_frame buf 0 bs
  have hcfg : (s.hostStored buf 0 bs).cfg = s.cfg := by rw [hframe]
  have hbu : (s.hostStored buf 0 bs).between = [] := by rw [hframe]; exact hb
  have hcopy : hCopyOut buf bs s = .ok () (s.hostStored buf 0 bs) := by
    simp only [hCopyOut_run hb, hitsOwned_off hoff, writeBytes_host_off hoff, hitsRaw_off (hcfg.symm ▸ hoff),
      Bool.false_eq_true, if_false]
  obtain ⟨t, hclean, ht⟩ := cacheClean_cleaned (State.hostStored_canonical hcanon buf 0 bs).dirty buf bs.length
  exact ⟨_, t, hcopy, (hClean_eq hbu _ _).trans hclean, .of_parts hcanon htop ht⟩

end Sys2Proof.Machine
end

section
/-! TX_SEND past its checks (43_tx_ring_arbiter R183, R184): the descriptor it writes, the hand-over with the producer
index last, and the whole after its reclaim. -/

namespace Sys2Proof.Machine

/-! ### The descriptor -/

/-- The `w0` of a frame at the default positions (R92). -/
theorem txW0_default {c : Config} (hdesc : c.desc = {}) {n : Nat} (hn : n < 4096) :
    txW0 c n = BitVec.ofNat 32 (n * 65536) ||| 0x6000 ||| (if c.txAppendCrc then 0x40 else 0) := by
  have hlen : fieldPlace ⟨27, 16⟩ n = BitVec.ofNat 32 (n * 65536) := by
    simp [fieldPlace, fieldWidth, Nat.mod_eq_of_lt hn, Nat.shiftLeft_eq]
  have hsop : fieldPlace ⟨13, 13⟩ 1 = 0x2000 := by decide
  have heop : fieldPlace ⟨14, 14⟩ 1 = 0x4000 := by decide
  have hcrc : fieldPlace ⟨6, 6⟩ (bitVal c.txAppendCrc) = if c.txAppendCrc then 0x40 else 0 := by
    cases c.txAppendCrc <;> decide
  have hboth : (0x2000 ||| 0x4000 : Word) = 0x6000 := by decide
  simp only [txW0, hdesc, orAll, List.foldl_cons, List.foldl_nil, hlen, hsop, heop, hcrc]
  rw [← hboth, ← BitVec.or_assoc]
  exact congrArg (fun w => w ||| 0x2000 ||| 0x4000 ||| if c.txAppendCrc = true then 0x40 else 0) BitVec.zero_or

/-- Where only the transmit descriptors and the words to be ordered have moved, a write of one more keeps it so. -/
theorem State.writeDesc_tx_frame {s t : State} (h : t = { s with descTx := t.descTx, unsynced := t.unsynced }) (i : Nat)
    (k : DescWord) (v : Word) : t.writeDesc .tx i k v = { s with
      descTx := (t.writeDesc .tx i k v).descTx, unsynced := (t.writeDesc .tx i k v).unsynced } := by
  obtain ⟨us, hwrite⟩ := t.writeDesc_eq .tx i k v
  rw [hwrite, h]
  rfl

/-- Descriptor `i` of the transmit pool has been written for a frame of `n` bytes at `buf` (R183). -/
def State.txDescribed (s : State) (i : Nat) (buf : Word) (n : Nat) : State :=
  ((s.writeDesc .tx i .w1 (toBusAddress s.cfg buf)).writeDesc .tx i .w2 0).writeDesc .tx i .w0 (txW0 s.cfg n)

theorem State.txDescribed_frame (s : State) (i : Nat) (buf : Word) (n : Nat) :
    s.txDescribed i buf n = { s with
      descTx := (s.txDescribed i buf n).descTx, unsynced := (s.txDescribed i buf n).unsynced } :=
  State.writeDesc_tx_frame (State.writeDesc_tx_frame (State.writeDesc_tx_frame rfl i _ _) i _ _) i _ _

theorem State.txDescribed_desc (s : State) (i : Nat) (buf : Word) (n : Nat) (d : Dir) (j : Nat) :
    (s.txDescribed i buf n).desc d j =
      if d = .tx ∧ j = i then ⟨txW0 s.cfg n, toBusAddress s.cfg buf, 0⟩ else s.desc d j := by
  simp only [State.txDescribed, State.desc_writeDesc]
  by_cases hat : d = .tx ∧ j = i
  · obtain ⟨rfl, rfl⟩ := hat
    simp [Desc.setWord]
  · have hother : ¬ (.tx = d ∧ i = j) := fun h => hat ⟨h.1.symm, h.2.symm⟩
    simp only [if_neg hat, if_neg hother]

theorem txDescribed_run {s : State} (hb : s.between = []) {i : Nat} (hi : i < nDesc) (ho : s.hwOwned .tx i = false)
    (buf : Word) (n : Nat) :
    ∃ t, writeBufAddr .tx i buf s = .ok () t ∧
      hDescWrite .tx i .w0 (txW0 s.cfg n) t = .ok () (s.txDescribed i buf n) := by
  refine ⟨(s.writeDesc .tx i .w1 (toBusAddress s.cfg buf)).writeDesc .tx i .w2 0, writeBufAddr_run hi hb ho buf, ?_⟩
  rw [hDescWrite_eq (by simp [hb])]
  exact hostWriteDesc_run hi (k := .w0) (fun hk => by cases hk) _

/-! ### The hand-over -/

/-- The control block at the write pointer is the hardware's, and the record has moved past it (R183). -/
def State.txHandedOver (s : State) (k : TxQueue) (r : TxRing) : State :=
  { s.setOwner .tx r.writePtr .hw with tx := Tab.put s.tx k.num r.handOver }

@[simp] theorem State.wrote_cb? (s : State) (r : RegId) (v : Word) (d : Dir) (i : Nat) :
    (s.wrote r v).cb? d i = s.cb? d i := rfl
@[simp] theorem State.barred_cb? (s : State) (d : Dir) (i : Nat) : s.barred.cb? d i = s.cb? d i := rfl

theorem State.txHandedOver_cb? (s : State) (k : TxQueue) (r : TxRing) (d : Dir) (i : Nat) :
    (s.txHandedOver k r).cb? d i = (s.setOwner .tx r.writePtr .hw).cb? d i := by
  unfold State.txHandedOver
  generalize s.setOwner .tx r.writePtr .hw = t
  rfl

/-- The hand-over has been made visible, and then the producer index written (R183). -/
def State.txKicked (s : State) (k : TxQueue) (r : TxRing) : State :=
  (s.txHandedOver k r).barred.wrote (txReg k .prodIndex) (indexWord r.handOver.prodIndex)

theorem State.setOwner_tx_frame (s : State) (i : Nat) (o : Owner) :
    s.setOwner .tx i o = { s with cbTx := (s.setOwner .tx i o).cbTx } := by
  unfold State.setOwner
  split <;> rfl

theorem State.txKicked_frame (s : State) (k : TxQueue) (r : TxRing) :
    s.txKicked k r = { s with
      tx := Tab.put s.tx k.num r.handOver, cbTx := (s.txKicked k r).cbTx, regs := (s.txKicked k r).regs, unsynced := []
      hist := .mmioWrite (txReg k .prodIndex) (indexWord r.handOver.prodIndex) :: .barrier :: s.hist } := by
  rw [State.txKicked, State.txHandedOver, State.setOwner_tx_frame]
  rfl

theorem State.txKicked_cb? (s : State) (k : TxQueue) (r : TxRing) (j : Nat) :
    (s.txKicked k r).cb? .tx j =
      if j = r.writePtr then (s.cb? .tx j).map fun b => { b with owner := .hw } else s.cb? .tx j := by
  rw [State.txKicked, State.wrote_cb?, State.barred_cb?, State.txHandedOver_cb?, State.cb?_setOwner]
  simp only [true_and, eq_comm]

theorem State.txKicked_reg (s : State) (k : TxQueue) (r : TxRing) (x : RegId) :
    (s.txKicked k r).reg x = if x = txReg k .prodIndex then indexWord r.handOver.prodIndex else s.reg x := by
  rw [State.txKicked, State.wrote_reg]
  congr 1
  exact State.setOwner_reg s .tx r.writePtr .hw x

/-- TX_SEND after its checks, given what the copy and the clean leave (R183). -/
theorem txFill_run {s u v : State} {k : TxQueue} {r : TxRing} {i : Nat} {bs : List Byte} (hi : i < nDesc)
    (hcopy : hCopyOut (cbBuf s.cfg .tx r.writePtr) bs s = .ok () u)
    (hclean : hClean (cbBuf s.cfg .tx r.writePtr) bs.length u = .ok () v) (hcfg : v.cfg = s.cfg) (hb : v.between = [])
    (ho : v.hwOwned .tx i = false) :
    txFill k r i bs s = .ok () ((v.txDescribed i (cbBuf s.cfg .tx r.writePtr) bs.length).txKicked k r) := by
  obtain ⟨w, haddr, hword⟩ := txDescribed_run hb hi ho (cbBuf s.cfg .tx r.writePtr) bs.length
  have hframe := v.txDescribed_frame i (cbBuf s.cfg .tx r.writePtr) bs.length
  rw [hcfg] at hword
  generalize v.txDescribed i (cbBuf s.cfg .tx r.writePtr) bs.length = x at hword hframe
  have hbx : (x.txHandedOver k r).between = [] := by
    rw [State.txHandedOver, State.setOwner_between, hframe]
    exact hb
  have hkick : hWrite (txReg k .prodIndex) (indexWord r.handOver.prodIndex) (x.txHandedOver k r).barred =
      .ok () (x.txKicked k r) := hWrite_plain (s := (x.txHandedOver k r).barred) hbx rfl rfl rfl _
  have hhand : setTx k r.handOver (x.setOwner .tx r.writePtr .hw) = .ok () (x.txHandedOver k r) := by
    simp [setTx, State.txHandedOver]
  simp only [txFill, op_bind, gets_run, hcopy, hclean, haddr, hword, Machine.setOwner, upd_run, hhand,
    hBarrier_barred hbx, hkick]

/-! ### The whole -/

/-- Off the pools a state with the memory so left holds the bytes copied. -/
theorem State.CopiedClean.memBytes {s v t : State} {buf : Word} {bs : List Byte} (h : s.CopiedClean buf bs v)
    (hmem : t.mem = v.mem) (hoff : OffPools t.cfg buf bs.length) : t.memBytes buf bs.length = bs := by
  refine List.ext_getElem (by simp [State.memBytes]) fun j _ hj => ?_
  simp only [State.memBytes, List.getElem_map, List.getElem_range, State.memByte_off (hoff j hj), hmem]
  exact h.bytes j hj

/-- The checks of TX_SEND after its reclaim pass (R183, R184, R313), and the buffer stands off the descriptor pools and
does not reach past the top of memory. -/
structure State.TxSendable (s : State) (k : TxQueue) (r : TxRing) (b : Cb) (bs : List Byte) : Prop where
  record : Tab.get? s.tx k.num = some r
  fits : s.completions k r + r.freeBds ≤ r.size
  free : 0 < s.completions k r + r.freeBds
  nonempty : bs ≠ []
  mtu : bs.length ≤ s.cfg.mtu
  bufLen : bs.length ≤ bufLen
  cb : s.cb? .tx r.writePtr = some b
  owner : b.owner = .sw ∨ ∃ m < s.completions k r, (ringNext r.cbBase r.endPtr)^[m] r.cleanPtr = r.writePtr
  buffer : badBuffer s.cfg (cbBuf s.cfg .tx r.writePtr) = false
  top : (cbBuf s.cfg .tx r.writePtr).toNat + bs.length ≤ 2 ^ 32
  offPools : OffPools s.cfg (cbBuf s.cfg .tx r.writePtr) bs.length

/-- After its reclaim TX_SEND finds the control block at the write pointer the software's (R184). -/
theorem State.TxReclaimed.cb_writePtr {s u : State} {k : TxQueue} {r : TxRing} {b : Cb} {bs : List Byte}
    (hu : s.TxReclaimed k r u) (h : s.TxSendable k r b bs) :
    u.cb? .tx r.writePtr = some { b with owner := .sw } := by
  rw [hu.cb, h.cb]
  split
  · rfl
  · next hout => rw [← h.owner.resolve_right hout]

/-- TX_SEND whose checks pass is its reclaim and then `txFill` (R183, R313). -/
theorem txSend_run {s u t : State} {k : TxQueue} {r : TxRing} {b : Cb} {bs : List Byte} {n : Nat}
    (h : s.TxSendable k r b bs) (hready : s.seq = .ready) (hreclaim : txReclaim k s = .ok n u)
    (hu : s.TxReclaimed k r u) (hfill : txFill k (s.reclaimedRing k r) b.descIndex bs u = .ok () t) :
    txSend k bs s = .ok () t := by
  have hcfg : u.cfg = s.cfg := by rw [hu.frame]
  have hfree : (s.reclaimedRing k r).freeBds ≠ 0 := by
    rw [s.reclaimedRing_eq k r]
    exact (Nat.add_comm _ _ ▸ h.free).ne'
  have hcb : u.cb? .tx (s.reclaimedRing k r).writePtr = some { b with owner := .sw } := hu.cb_writePtr h
  have hgood : badBuffer s.cfg (cbBuf s.cfg .tx (s.reclaimedRing k r).writePtr) = false := h.buffer
  simp [txSend, hready, readTx, h.record, hreclaim, hu.record, checkPayload, h.nonempty, hcfg, Nat.not_lt.mpr h.mtu,
    Nat.not_lt.mpr h.bufLen, hfree, readCb, hcb, hgood, hfill]

/-- A TX_SEND whose checks pass, in its three parts (R183). -/
theorem txSend_sent {s : State} {k : TxQueue} {r : TxRing} {b : Cb} {bs : List Byte} (h : s.TxSendable k r b bs)
    (hready : s.seq = .ready) (hb : s.between = []) (hcanon : s.Canonical) (hident : s.PoolIdentity) :
    ∃ u v, s.TxReclaimed k r u ∧ u.CopiedClean (cbBuf s.cfg .tx r.writePtr) bs v ∧ txSend k bs s =
      .ok () ((v.txDescribed r.writePtr (cbBuf s.cfg .tx r.writePtr) bs.length).txKicked k (s.reclaimedRing k r)) := by
  obtain ⟨hidx, hi⟩ := hident .tx r.writePtr b h.cb
  obtain ⟨u, hreclaim, hu⟩ := txReclaim_run hb h.record h.fits
  have hcfgu : u.cfg = s.cfg := by rw [hu.frame]
  have hbu : u.between = [] := by rw [hu.frame]; exact hb
  have hcanonu : u.Canonical := (txReclaim_moves (a := .all) rfl k).keeps_canonical hreclaim hcanon
  obtain ⟨w, v, hcopy, hclean, hv⟩ := hCopyOut_hClean hbu hcanonu (hcfgu.symm ▸ h.offPools) h.top
  have hcfgv : v.cfg = u.cfg := by rw [hv.frame]
  have hbv : v.between = [] := by rw [hv.frame]; exact hbu
  have hov : v.hwOwned .tx r.writePtr = false := by
    rw [hv.frame]
    exact State.hwOwned_of_sw (hu.cb_writePtr h) rfl
  have hfill := txFill_run (s := u) (k := k) (r := s.reclaimedRing k r) hi (hcfgu.symm ▸ hcopy)
    (hcfgu.symm ▸ hclean) hcfgv hbv hov
  rw [hcfgu] at hfill
  exact ⟨u, v, hu, hv, txSend_run h hready hreclaim hu (hidx ▸ hfill)⟩

/-- Settles O47: the reclaim, the copy and its clean, the descriptor and the hand-over of `txSend_sent`, read off conjunct by
conjunct. -/
theorem txSendEffect : Obligations.TxSendEffect := by
  intro q k r b s hq hcfg hb hcanon hident hdesc hready hr cons n next payload i buf hn hfree hne hmtu hlen hcb ho
    hgood htop hoff
  have hcount : s.completions k r = n := s.completions_eq k r
  have hsendable : s.TxSendable k r b payload :=
    ⟨hr, hcount ▸ hn, hcount ▸ hfree, hne, hmtu, hlen, hcb, hcount ▸ ho, hgood,
      (Nat.add_le_add_left hlen _).trans htop, hoff⟩
  obtain ⟨u, v, hu, hv, hsend⟩ := txSend_sent hsendable hready hb hcanon hident
  have hexec := (exec_txSend hq s).trans (runOp_of_ok hcfg (okAfter_run hsend))
  have hcbs := hu.cb
  have hcbi := hu.cb_writePtr hsendable
  have hrec := s.reclaimedRing_eq k r
  rw [hcount] at hcbs hrec
  have hcfgv : v.cfg = s.cfg := by rw [hv.frame, hu.frame]
  have hw := v.txDescribed_frame r.writePtr (cbBuf s.cfg .tx r.writePtr) payload.length
  have hdescw := v.txDescribed_desc r.writePtr (cbBuf s.cfg .tx r.writePtr) payload.length
  generalize v.txDescribed r.writePtr (cbBuf s.cfg .tx r.writePtr) payload.length = w at hexec hw hdescw
  have hcbw : ∀ j, w.cb? .tx j = u.cb? .tx j := fun j => by rw [hw, hv.frame]; rfl
  have hregw : w.reg = s.reg := by rw [hw, hv.frame, hu.frame]; rfl
  have ht := w.txKicked_frame k (s.reclaimedRing k r)
  have hcbt : ∀ j, (w.txKicked k (s.reclaimedRing k r)).cb? .tx j =
      if j = i then (u.cb? .tx j).map ({ · with owner := .hw }) else u.cb? .tx j := fun j => by
    rw [← hcbw]
    exact w.txKicked_cb? k (s.reclaimedRing k r) j
  have hregt := w.txKicked_reg k (s.reclaimedRing k r)
  generalize w.txKicked k (s.reclaimedRing k r) = t at hexec ht hcbt hregt
  refine ⟨_, hexec, ?_, fun j hj => ?_, fun d j => ?_, ?_, fun m hm hne => ?_, fun j hj hout => ?_, ?_, fun a ha => ?_,
    fun a hon => ?_, fun hoff => ?_, fun a ha => ?_, fun x => ?_, ?_⟩
  · rw [ht, hrec]
    exact Tab.get?_put_same _ _ _
  · rw [ht, hw, hv.frame, hu.frame]
    exact (Tab.get?_put_ne _ _ (Ne.symm hj)).trans (Tab.get?_put_ne _ _ (Ne.symm hj))
  · have hdescv : v.desc d j = s.desc d j := by rw [hv.frame, hu.frame]; rfl
    have hdesct : t.desc d j = w.desc d j := by rw [ht]; rfl
    refine hdesct.trans ?_
    rw [hdescw, hdescv, hcfgv, txW0_default hdesc (by omega)]
    rfl
  · refine (hcbt i).trans ?_
    rw [if_pos rfl, hcbi]
    rfl
  · refine (hcbt _).trans ?_
    rw [if_neg hne, hcbs, if_pos ⟨m, hm, rfl⟩]
  · refine (hcbt j).trans ?_
    rw [if_neg hj, hcbs, if_neg fun ⟨m, hm, hat⟩ => hout m hm hat]
  · exact hv.memBytes (by rw [ht, hw]) (by rw [ht, hw, hcfgv]; exact hoff)
  · rw [ht, hw]
    refine (hv.read a ha).trans ?_
    rw [hu.frame]
    rfl
  · rw [ht, hw]
    have hd := hv.dirty a
    rw [hu.frame] at hd
    exact hd hon
  · rw [ht, hw]
    have hd := hv.cacheOff
    rw [hu.frame] at hd
    exact hd hoff
  · rw [ht, hw]
    refine (hv.stale a ha).trans ?_
    rw [hu.frame]
  · refine (hregt x).trans ?_
    rw [hregw]
    rfl
  · rw [ht, hw, hv.frame, hu.frame]
    rfl

end Sys2Proof.Machine
end

section
/-! TX_QUEUES_INIT (43_tx_ring_arbiter R180 to R182): the loop that initialises the five rings while TDMA is off, with the
control blocks and the registers of each. -/

namespace Sys2Proof.Machine

/-! ### Control blocks -/

/-- A run of consecutive transmit control blocks is given to software (R181). -/
theorem releaseRange_run (a n : Nat) (s : State) :
    ∃ t, each (List.range' a n) (fun cb => setOwner .tx cb .sw) s = .ok () t ∧ t = { s with cbTx := t.cbTx } ∧
      ∀ i, t.cb? .tx i =
        if a ≤ i ∧ i < a + n then (s.cb? .tx i).map ({ · with owner := .sw }) else s.cb? .tx i := by
  induction n generalizing a s with
  | zero => exact ⟨s, rfl, rfl, fun i => (if_neg (by omega)).symm⟩
  | succ n ih =>
    obtain ⟨t, hrun, hframe, hcb⟩ := ih (a + 1) (s.setOwner .tx a .sw)
    refine ⟨t, ?_, ?_, fun i => ?_⟩
    · simp only [List.range'_succ, each_cons, Machine.setOwner, upd_run] at hrun ⊢
      exact hrun
    · rw [hframe, State.setOwner_tx_frame]
    · rw [hcb, State.cb?_setOwner]
      by_cases hfirst : a = i
      · rw [if_neg (by omega), if_pos ⟨rfl, hfirst⟩, if_pos (by omega)]
      · rw [if_neg (c := Dir.tx = Dir.tx ∧ a = i) fun h => hfirst h.2]
        exact if_congr (by omega) rfl rfl

/-- The five rings share out the transmit control blocks (R44). -/
theorem txQueues_cover (i : Nat) : (∃ q ∈ txQueues, q.base ≤ i ∧ i < q.base + q.size) ↔ i < nDesc := by
  simp only [txQueues, List.mem_cons, List.not_mem_nil, or_false, exists_eq_or_imp, exists_eq_left, TxQueue.base,
    TxQueue.size, txPrioSize, txDefaultSize, nDesc]
  omega

/-! ### The registers of one ring -/

/-- The host has written `READ_PTR` of a transmit ring, and with it TDMA's own pointer (R292). -/
def State.wroteTxReadPtr (s : State) (q : TxQueue) (v : Word) : State :=
  { s.wrote (txReg q .readPtr) v with tdmaRp := Tab.put s.tdmaRp q.num (v.toNat / descWords) }

@[simp] theorem State.wroteTxReadPtr_cfg (s : State) (q : TxQueue) (v : Word) :
    (s.wroteTxReadPtr q v).cfg = s.cfg := rfl
@[simp] theorem State.wroteTxReadPtr_between (s : State) (q : TxQueue) (v : Word) :
    (s.wroteTxReadPtr q v).between = s.between := rfl

theorem State.wroteTxReadPtr_reg (s : State) (q : TxQueue) (v : Word) (x : RegId) :
    (s.wroteTxReadPtr q v).reg x = if x = txReg q .readPtr then v else s.reg x := s.wrote_reg _ v x

@[simp] theorem State.wrote_txReg_dmaEn (s : State) (q : TxQueue) (x : RingReg) (v : Word) (d : Dir) :
    (s.wrote (txReg q x) v).dmaEn d = s.dmaEn d := s.wrote_dmaEn (by simp [txReg]) v

@[simp] theorem State.wroteTxReadPtr_dmaEn (s : State) (q : TxQueue) (v : Word) (d : Dir) :
    (s.wroteTxReadPtr q v).dmaEn d = s.dmaEn d := s.wrote_txReg_dmaEn q .readPtr v d

/-- While TDMA is off the registers of its rings are the host's to write (R292). -/
theorem writeRefused_txReg {s : State} (hoff : s.dmaEn .tx = false) (q : TxQueue) (x : RingReg) :
    s.writeRefused (txReg q x) = false := by
  cases x with
  | prodIndex | ringBufSize => rfl
  | consIndex | startAddr | endAddr | readPtr | writePtr => exact hoff

theorem hWrite_txReg {s : State} (hb : s.between = []) (hoff : s.dmaEn .tx = false) (q : TxQueue) {x : RingReg}
    (hx : x ≠ .readPtr) (v : Word) : hWrite (txReg q x) v s = .ok () (s.wrote (txReg q x) v) := by
  refine hWrite_plain hb rfl (writeRefused_txReg hoff q x) ?_ v
  cases x with
  | readPtr => exact absurd rfl hx
  | _ => rfl

theorem hWrite_txReadPtr {s : State} (hb : s.between = []) (hoff : s.dmaEn .tx = false) (q : TxQueue) (v : Word) :
    hWrite (txReg q .readPtr) v s = .ok () (s.wroteTxReadPtr q v) := by
  rw [hWrite_eq hb, mmioWrite_run rfl (writeRefused_txReg hoff q .readPtr)]
  rfl

theorem hWrite_tdmaFlowPeriod {s : State} (hb : s.between = []) (q : Fin 17) (v : Word) :
    hWrite (.tdmaFlowPeriod q) v s = .ok () (s.wrote (.tdmaFlowPeriod q) v) := hWrite_plain hb rfl rfl rfl v

@[simp] theorem freshTx_cbBase (q : TxQueue) : (freshTx q).cbBase = q.base := rfl
@[simp] theorem freshTx_size (q : TxQueue) : (freshTx q).size = q.size := rfl
@[simp] theorem freshTx_endPtr (q : TxQueue) : (freshTx q).endPtr = q.base + q.size - 1 := rfl

/-- The word that `init_tx_ring` writes to a register of a ring (R181). -/
def txRingWord (c : Config) (q : TxQueue) : RingReg → Word
  | .prodIndex | .consIndex => 0
  | .ringBufSize => ringBufSizeWord c.pos .tx q.size
  | .startAddr | .readPtr | .writePtr => ptrWord q.base
  | .endAddr => ptrWord (q.base + q.size - 1 + 1) - 1

/-- The registers of a transmit ring have been programmed, and its flow period (R181, R182). -/
def State.txProgrammed (t : State) (q : TxQueue) : State :=
  (((((((t.wrote (txReg q .prodIndex) 0).wrote (txReg q .consIndex) 0).wrote (txReg q .ringBufSize)
    (txRingWord t.cfg q .ringBufSize)).wrote (txReg q .startAddr) (txRingWord t.cfg q .startAddr)).wrote
    (txReg q .endAddr) (txRingWord t.cfg q .endAddr)).wroteTxReadPtr q (txRingWord t.cfg q .readPtr)).wrote
    (txReg q .writePtr) (txRingWord t.cfg q .writePtr)).wrote (.tdmaFlowPeriod q.ring) (flowPeriodWord t.cfg q.num)

/-- From `s` to `t` only registers, TDMA's pointers behind some of them, and the history have moved. -/
def State.TxRegsOnly (s t : State) : Prop := t = { s with regs := t.regs, tdmaRp := t.tdmaRp, hist := t.hist }

theorem State.TxRegsOnly.wrote {s t : State} (h : s.TxRegsOnly t) (r : RegId) (v : Word) :
    s.TxRegsOnly (t.wrote r v) := by
  rw [h]
  rfl

theorem State.TxRegsOnly.wroteField {s t : State} (h : s.TxRegsOnly t) (r : RegId) (p : FieldPos) (v : Nat) :
    s.TxRegsOnly (t.wroteField r p v) := by
  rw [h]
  rfl

theorem State.TxRegsOnly.wroteTxReadPtr {s t : State} (h : s.TxRegsOnly t) (q : TxQueue) (v : Word) :
    s.TxRegsOnly (t.wroteTxReadPtr q v) := by
  rw [h]
  rfl

@[simp] theorem State.wrote_tdmaRp (s : State) (r : RegId) (v : Word) : (s.wrote r v).tdmaRp = s.tdmaRp := rfl
@[simp] theorem State.wroteTxReadPtr_tdmaRp (s : State) (q : TxQueue) (v : Word) :
    (s.wroteTxReadPtr q v).tdmaRp = Tab.put s.tdmaRp q.num (v.toNat / descWords) := rfl

theorem State.txProgrammed_regsOnly (t : State) (q : TxQueue) : t.TxRegsOnly (t.txProgrammed q) :=
  ((((((((show t.TxRegsOnly t from rfl).wrote _ _).wrote _ _).wrote _ _).wrote _ _).wrote _ _).wroteTxReadPtr _ _).wrote
    _ _).wrote _ _

theorem State.txProgrammed_tdmaRp (t : State) (q : TxQueue) :
    (t.txProgrammed q).tdmaRp = Tab.put t.tdmaRp q.num q.base := by
  have hptr : (ptrWord q.base).toNat / descWords = q.base := by cases q <;> decide
  simp [State.txProgrammed, txRingWord, hptr]

theorem State.txProgrammed_ring (t : State) (q : TxQueue) (x : RingReg) :
    (t.txProgrammed q).reg (.ring .tx q.ring x) = txRingWord t.cfg q x := by
  cases x <;> simp [State.txProgrammed, State.wrote_reg, State.wroteTxReadPtr_reg, txReg, txRingWord]

theorem State.txProgrammed_flowPeriod (t : State) (q : TxQueue) :
    (t.txProgrammed q).reg (.tdmaFlowPeriod q.ring) = flowPeriodWord t.cfg q.num := by
  simp [State.txProgrammed, State.wrote_reg]

theorem State.txProgrammed_other (t : State) {q : TxQueue} {r : RegId} (hring : ∀ x, r ≠ .ring .tx q.ring x)
    (hflow : r ≠ .tdmaFlowPeriod q.ring) : (t.txProgrammed q).reg r = t.reg r := by
  simp [State.txProgrammed, State.wrote_reg, State.wroteTxReadPtr_reg, txReg, hring, hflow]

/-! ### The loop -/

/-- The rings `qs` have been initialised from `s` on (R181, R182). -/
structure State.TxInited (s : State) (qs : List TxQueue) (t : State) : Prop where
  frame : t = { s with tx := t.tx, cbTx := t.cbTx, regs := t.regs, tdmaRp := t.tdmaRp, hist := t.hist }
  record : ∀ q ∈ qs, Tab.get? t.tx q.num = some (freshTx q)
  readPtr : ∀ q ∈ qs, Tab.get? t.tdmaRp q.num = some q.base
  tables : ∀ n, (∀ q ∈ qs, q.num ≠ n) →
    Tab.get? t.tdmaRp n = Tab.get? s.tdmaRp n ∧ Tab.get? t.tx n = Tab.get? s.tx n
  cb : ∀ i, t.cb? .tx i = if ∃ q ∈ qs, q.base ≤ i ∧ i < q.base + q.size
    then (s.cb? .tx i).map ({ · with owner := .sw }) else s.cb? .tx i
  ring : ∀ q ∈ qs, ∀ x, t.reg (.ring .tx q.ring x) = txRingWord s.cfg q x
  flowPeriod : ∀ q ∈ qs, t.reg (.tdmaFlowPeriod q.ring) = flowPeriodWord s.cfg q.num
  other : ∀ r, (∀ q ∈ qs, (∀ x, r ≠ .ring .tx q.ring x) ∧ r ≠ .tdmaFlowPeriod q.ring) → t.reg r = s.reg r

theorem State.TxInited.nil (s : State) : s.TxInited [] s where
  frame := rfl
  record := nofun
  readPtr := nofun
  tables _ _ := ⟨rfl, rfl⟩
  cb _ := (if_neg fun ⟨_, hq, _⟩ => absurd hq List.not_mem_nil).symm
  ring := nofun
  flowPeriod := nofun
  other _ _ := rfl

/-- What holds of the rest of a list is left to be shown of its head only where the head is not among the rest. -/
theorem forall_mem_cons_of_not_mem {P : TxQueue → Prop} {q : TxQueue} {qs : List TxQueue} (hall : ∀ p ∈ qs, P p)
    (hhead : q ∉ qs → P q) : ∀ p ∈ q :: qs, P p := by
  refine List.forall_mem_cons.mpr ⟨?_, hall⟩
  by_cases hin : q ∈ qs
  · exact hall q hin
  · exact hhead hin

/-- The first ring, and then the others: what the others write again of it they write alike. -/
theorem State.TxInited.cons {s t u : State} {q : TxQueue} {qs : List TxQueue} (h : s.TxInited [q] t)
    (h' : t.TxInited qs u) : s.TxInited (q :: qs) u := by
  have hcfg : t.cfg = s.cfg := by rw [h.frame]
  have hring' := h'.ring
  have hflow' := h'.flowPeriod
  rw [hcfg] at hring' hflow'
  have hq := List.mem_singleton_self q
  have hnum : q ∉ qs → ∀ p ∈ qs, p.num ≠ q.num := fun hnot p hp he => hnot (TxQueue.num_inj he ▸ hp)
  have hreg : q ∉ qs → ∀ p ∈ qs, q.ring ≠ p.ring := fun hnot p hp he => hnot (TxQueue.ring_inj he ▸ hp)
  refine ⟨?_, forall_mem_cons_of_not_mem h'.record fun hnot => ?_,
    forall_mem_cons_of_not_mem h'.readPtr fun hnot => ?_, fun n hn => ?_, fun i => ?_,
    forall_mem_cons_of_not_mem hring' fun hnot x => ?_, forall_mem_cons_of_not_mem hflow' fun hnot => ?_,
    fun r hr => ?_⟩
  · rw [h'.frame, h.frame]
  · exact (h'.tables q.num (hnum hnot)).2.trans (h.record q hq)
  · exact (h'.tables q.num (hnum hnot)).1.trans (h.readPtr q hq)
  · obtain ⟨hhead, htail⟩ := List.forall_mem_cons.mp hn
    obtain ⟨hrp, htx⟩ := h.tables n (by simpa using hhead)
    obtain ⟨hrp', htx'⟩ := h'.tables n htail
    exact ⟨hrp'.trans hrp, htx'.trans htx⟩
  · rw [h'.cb, h.cb]
    simp only [List.mem_cons, List.not_mem_nil, or_false, exists_eq_left, exists_eq_or_imp]
    by_cases hhead : q.base ≤ i ∧ i < q.base + q.size <;>
      by_cases htail : ∃ p ∈ qs, p.base ≤ i ∧ i < p.base + p.size <;> simp [hhead, htail, Function.comp_def]
  · refine (h'.other _ fun p hp => ⟨fun y he => ?_, by simp⟩).trans (h.ring q hq x)
    exact hreg hnot p hp (RegId.ring.inj he).2.1
  · refine (h'.other _ fun p hp => ⟨by simp, fun he => ?_⟩).trans (h.flowPeriod q hq)
    exact hreg hnot p hp (RegId.tdmaFlowPeriod.inj he)
  · obtain ⟨hhead, htail⟩ := List.forall_mem_cons.mp hr
    exact (h'.other r htail).trans (h.other r (by simpa using hhead))

/-- One round of the loop while TDMA is off. -/
theorem initTxQueue_inited {s : State} (hb : s.between = []) (hoff : s.dmaEn .tx = false) (q : TxQueue) :
    ∃ t, initTxQueue q s = .ok () t ∧ s.TxInited [q] t := by
  obtain ⟨u, hrel, hframe, hcb⟩ := releaseRange_run q.base q.size { s with tx := Tab.put s.tx q.num (freshTx q) }
  have hcfg : u.cfg = s.cfg := by rw [hframe]
  have hbu : u.between = [] := by rw [hframe]; exact hb
  have hoffu : u.dmaEn .tx = false := by rw [hframe]; exact hoff
  have hregu : u.reg = s.reg := by rw [hframe]; rfl
  have hregs := u.txProgrammed_regsOnly q
  have hrp := u.txProgrammed_tdmaRp q
  have hring := u.txProgrammed_ring q
  have hflow := u.txProgrammed_flowPeriod q
  have hother := fun r => u.txProgrammed_other (q := q) (r := r)
  rw [hcfg] at hring hflow
  rw [hregu] at hother
  have hrun : initTxQueue q s = .ok () (u.txProgrammed q) := by
    simp [initTxQueue, initTxRing, setTx, hrel, hWrite_txReg, hWrite_txReadPtr, hWrite_tdmaFlowPeriod, hbu,
      hoffu, State.txProgrammed, txRingWord, hcfg]
  generalize u.txProgrammed q = t at hregs hrp hring hflow hother hrun
  have htx : t.tx = Tab.put s.tx q.num (freshTx q) := by rw [hregs, hframe]
  have hrps : t.tdmaRp = Tab.put s.tdmaRp q.num q.base := by rw [hrp, hframe]
  refine ⟨t, hrun, ?_, ?_, ?_, fun n hn => ?_, fun i => ?_, ?_, ?_, fun r hr => ?_⟩
  · rw [hregs, hframe]
  · rw [List.forall_mem_singleton, htx]
    exact Tab.get?_put_same _ _ _
  · rw [List.forall_mem_singleton, hrps]
    exact Tab.get?_put_same _ _ _
  · have hne := hn q (List.mem_singleton_self q)
    rw [htx, hrps]
    exact ⟨Tab.get?_put_ne _ _ hne, Tab.get?_put_ne _ _ hne⟩
  · simp only [List.mem_singleton, exists_eq_left]
    rw [hregs]
    exact hcb i
  · exact List.forall_mem_singleton.mpr hring
  · exact List.forall_mem_singleton.mpr hflow
  · obtain ⟨hnring, hnflow⟩ := hr q (List.mem_singleton_self q)
    exact hother r hnring hnflow

/-- The loop writes no control register, so that TDMA stays off. -/
theorem State.TxInited.dmaEn {s t : State} {qs : List TxQueue} (h : s.TxInited qs t) : t.dmaEn .tx = s.dmaEn .tx := by
  have hcfg : t.cfg = s.cfg := by rw [h.frame]
  have hreg : t.reg (.dmaCtrl .tx) = s.reg (.dmaCtrl .tx) := h.other _ fun q _ => ⟨nofun, nofun⟩
  rw [State.dmaEn, State.flag, hcfg, hreg]
  rfl

theorem initTxQueues_run (qs : List TxQueue) {s : State} (hb : s.between = []) (hoff : s.dmaEn .tx = false) :
    ∃ t, each qs initTxQueue s = .ok () t ∧ s.TxInited qs t := by
  induction qs generalizing s with
  | nil => exact ⟨s, rfl, .nil s⟩
  | cons q qs ih =>
    obtain ⟨t, hround, ht⟩ := initTxQueue_inited hb hoff q
    obtain ⟨u, hloop, hu⟩ := ih (s := t) (by rw [ht.frame]; exact hb) (ht.dmaEn.trans hoff)
    exact ⟨u, by rw [each_cons, hround]; exact hloop, ht.cons hu⟩

end Sys2Proof.Machine
end

section
/-! TX_QUEUES_INIT as a whole (43_tx_ring_arbiter R180 to R182, R188): the words at the default positions, TDMA stopped
before the loop, and the priorities and enables after it. -/

namespace Sys2Proof.Machine

/-! ### Words at the default positions -/

/-- The registers of a ring at the default positions (R104, R105, R181). -/
theorem txRingWord_default {c : Config} (hpos : c.pos = {}) (q : TxQueue) (x : RingReg) :
    txRingWord c q x = match x with
      | .prodIndex | .consIndex => 0
      | .ringBufSize => (BitVec.ofNat 16 q.size : BitVec 16) ++ (2048 : BitVec 16)
      | .startAddr | .readPtr | .writePtr => BitVec.ofNat 32 (3 * q.base)
      | .endAddr => BitVec.ofNat 32 (3 * (q.base + q.size) - 1) := by
  have hsize : ringBufSizeWord {} .tx q.size = (BitVec.ofNat 16 q.size : BitVec 16) ++ (2048 : BitVec 16) := by
    cases q <;> decide
  have hend : ptrWord (q.base + q.size - 1 + 1) - 1 = BitVec.ofNat 32 (3 * (q.base + q.size) - 1) := by
    cases q <;> decide
  have hptr : ptrWord q.base = BitVec.ofNat 32 (3 * q.base) := by rw [ptrWord, Nat.mul_comm]; rfl
  cases x with
  | prodIndex | consIndex => rfl
  | ringBufSize => rw [← hsize, ← hpos]; rfl
  | startAddr | readPtr | writePtr => exact hptr
  | endAddr => exact hend

theorem flowPeriodWord_default {c : Config} (hpos : c.pos = {}) (q : TxQueue) :
    flowPeriodWord c q.num = if q = .q16 then 0 else (BitVec.ofNat 16 c.mtu : BitVec 16) ++ (0 : BitVec 16) := by
  have hmtu : fieldPlace c.pos.flowPeriod c.mtu = (BitVec.ofNat 16 c.mtu : BitVec 16) ++ (0 : BitVec 16) := by
    apply BitVec.eq_of_toNat_eq
    refine Eq.trans ?_ (BitVec.toNat_append _ _).symm
    simp [hpos, fieldPlace, fieldWidth, Nat.shiftLeft_eq]
    omega
  cases q with
  | q16 => rfl
  | q0 | q1 | q2 | q3 => exact hmtu

theorem arbMode_default (w : Word) : fieldSet ({} : RegPos).arbMode ({} : Codes).arbSp w = (w &&& ~~~3) ||| 2 := by
  have hmask : fieldMask ({} : RegPos).arbMode = 3 := by decide
  have hplace : fieldPlace ({} : RegPos).arbMode ({} : Codes).arbSp = 2 := by decide
  rw [fieldSet, hmask, hplace]

/-- The enables that TX_QUEUES_INIT leaves (R103, R180). -/
theorem txCtrlWord_default (saved : Word) :
    (saved &&& fieldMask (dmaEnPos .tx {})) ||| tdmaBufEnMask {} = (saved &&& 1) ||| 0x0002001E := by
  have hen : fieldMask (dmaEnPos .tx {}) = 1 := by decide
  have hbuf : tdmaBufEnMask {} = 0x0002001E := by decide
  rw [hen, hbuf]

theorem tdmaRingMask_default : tdmaRingMask {} = 0x0001000F := by decide

/-- The priority words of R188, for each base that R132's check lets through. -/
theorem initialPrio_words : ∀ base < 16, initialPrio base =
    ⟨BitVec.ofNat 32 (base + (base + 1) * 32 + (base + 2) * 1024 + (base + 3) * 32768), 0,
      BitVec.ofNat 32 ((base + 16) * 1048576)⟩ := by decide

theorem prioUnpack_initialPrio : ∀ base < 16, ∀ q ∈ txQueues, prioUnpack q.num (initialPrio base) = base + q.num := by
  decide

/-! ### Before and after the loop -/

/-- The state after the read of `TDMA_CTRL` (R180). -/
def State.sawTxCtrl (s : State) : State :=
  { s with hist := .mmioRead (.dmaCtrl .tx) (s.reg (.dmaCtrl .tx)) :: s.hist }

/-- TDMA has been stopped and strict priority set (R180). -/
def State.txStopped (s : State) : State :=
  (s.sawTxCtrl.wrote (.dmaCtrl .tx) (s.reg (.dmaCtrl .tx) &&& ~~~ctrlEnableMask s.cfg.pos)).wroteField .tdmaArbCtrl
    s.cfg.pos.arbMode s.cfg.codes.arbSp

theorem State.txStopped_regsOnly (s : State) : s.TxRegsOnly s.txStopped :=
  ((show s.TxRegsOnly s.sawTxCtrl from rfl).wrote _ _).wroteField _ _ _

theorem State.txStopped_reg (s : State) (r : RegId) :
    s.txStopped.reg r =
      if r = .tdmaArbCtrl then fieldSet s.cfg.pos.arbMode s.cfg.codes.arbSp (s.reg .tdmaArbCtrl)
      else if r = .dmaCtrl .tx then s.reg (.dmaCtrl .tx) &&& ~~~ctrlEnableMask s.cfg.pos else s.reg r := by
  have hsaw : s.sawTxCtrl.reg = s.reg := rfl
  simp only [State.txStopped, State.wroteField_reg, State.wrote_reg, hsaw, reduceCtorEq, if_false]

/-- Clearing `EN` among the enables turns TDMA off (R180). -/
theorem State.txStopped_dmaEn {s : State} (hpos : s.cfg.pos = {}) : s.txStopped.dmaEn .tx = false := by
  have hcfg : s.txStopped.cfg = s.cfg := by rw [s.txStopped_regsOnly]
  have hmask : (ctrlEnableMask {}).getLsbD 0 = true := by decide
  rw [State.dmaEn, State.flag, hcfg, hpos, s.txStopped_reg, if_neg (by simp), if_pos rfl, hpos]
  exact (fieldOn_bit 0 _).trans (by simp [hmask])

/-- The priorities have been written, and the rings and their buffers enabled, with `EN` as in `saved` (R180, R188). -/
def State.txEnabled (t : State) (saved : Word) : State :=
  ((((t.wrote (.tdmaPriority 0) (initialPrio t.cfg.basePriority).r0).wrote (.tdmaPriority 1)
    (initialPrio t.cfg.basePriority).r1).wrote (.tdmaPriority 2) (initialPrio t.cfg.basePriority).r2).wrote
    (.dmaRingCfg .tx) (tdmaRingMask t.cfg.pos)).wrote (.dmaCtrl .tx)
    ((saved &&& fieldMask (dmaEnPos .tx t.cfg.pos)) ||| tdmaBufEnMask t.cfg.pos)

theorem State.txEnabled_regsOnly (t : State) (saved : Word) : t.TxRegsOnly (t.txEnabled saved) :=
  (((((show t.TxRegsOnly t from rfl).wrote _ _).wrote _ _).wrote _ _).wrote _ _).wrote _ _

theorem hWrite_dmaCtrl {s : State} (hb : s.between = []) (d : Dir) (v : Word) :
    hWrite (.dmaCtrl d) v s = .ok () (s.wrote (.dmaCtrl d) v) := hWrite_plain hb rfl rfl rfl v

theorem hWrite_dmaRingCfg {s : State} (hb : s.between = []) (d : Dir) (v : Word) :
    hWrite (.dmaRingCfg d) v s = .ok () (s.wrote (.dmaRingCfg d) v) := hWrite_plain hb rfl rfl rfl v

theorem hWrite_tdmaPriority {s : State} (hb : s.between = []) (k : Fin 3) (v : Word) :
    hWrite (.tdmaPriority k) v s = .ok () (s.wrote (.tdmaPriority k) v) := hWrite_plain hb rfl rfl rfl v

/-- TX_QUEUES_INIT past its refusals, given what its loop leaves (R180). -/
theorem txQueuesInit_run {s t : State} (hb : s.between = []) (hseq : s.seq = .step .s11) (hpool : s.poolDone .tx = true)
    (hloop : each txQueues initTxQueue s.txStopped = .ok () t) (hcfg : t.cfg = s.cfg) (hbt : t.between = []) :
    txQueuesInit s = .ok () (t.txEnabled (s.reg (.dmaCtrl .tx))) := by
  have hbs : s.sawTxCtrl.between = [] := hb
  have hread : hRead (.dmaCtrl .tx) s = .ok (s.reg (.dmaCtrl .tx)) s.sawTxCtrl := hRead_plain hb rfl
  have hstop : hField .tdmaArbCtrl (·.arbMode) s.cfg.codes.arbSp
      (s.sawTxCtrl.wrote (.dmaCtrl .tx) (s.reg (.dmaCtrl .tx) &&& ~~~ctrlEnableMask s.cfg.pos)) = .ok () s.txStopped :=
    hField_plain (s := s.sawTxCtrl.wrote _ _) hb rfl rfl rfl rfl _ _
  simp [txQueuesInit, hseq, hpool, hread, hWrite_dmaCtrl, hbs, hstop, hloop, hWrite_tdmaPriority, hWrite_dmaRingCfg,
    hbt, State.txEnabled, hcfg]

theorem exec_txQueuesInit_ok {s t : State} (hcfg : configOk s.cfg = true) (h : txQueuesInit s = .ok () t) :
    exec .txQueuesInit s = .next { t with result := .ok } := runOp_of_ok hcfg (okAfter_run h)

theorem State.txEnabled_tdmaRp (t : State) (saved : Word) : (t.txEnabled saved).tdmaRp = t.tdmaRp := by
  simp [State.txEnabled]

theorem State.txEnabled_dmaCtrl (t : State) (saved : Word) :
    (t.txEnabled saved).reg (.dmaCtrl .tx) =
      (saved &&& fieldMask (dmaEnPos .tx t.cfg.pos)) ||| tdmaBufEnMask t.cfg.pos := by
  simp [State.txEnabled, State.wrote_reg]

theorem State.txEnabled_dmaRingCfg (t : State) (saved : Word) :
    (t.txEnabled saved).reg (.dmaRingCfg .tx) = tdmaRingMask t.cfg.pos := by
  simp [State.txEnabled, State.wrote_reg]

theorem State.txEnabled_prio (t : State) (saved : Word) :
    (t.txEnabled saved).prio = initialPrio t.cfg.basePriority := by
  simp [State.prio, State.txEnabled, State.wrote_reg]

theorem State.txEnabled_other (t : State) (saved : Word) {r : RegId} (hprio : ∀ k, r ≠ .tdmaPriority k)
    (hring : r ≠ .dmaRingCfg .tx) (hctrl : r ≠ .dmaCtrl .tx) : (t.txEnabled saved).reg r = t.reg r := by
  simp [State.txEnabled, State.wrote_reg, hprio, hring, hctrl]

/-- Settles O44: the rings are what the loop left, and the control words what was written before and after it. -/
theorem txQueuesInitEffect : Obligations.TxQueuesInitEffect := by
  intro s hcfg hb hpos hcodes hseq hcb base
  have hpool : s.poolDone .tx = true := by
    rw [State.poolDone, List.all_eq_true]
    exact fun i hi => Option.isSome_iff_ne_none.mpr (hcb i (List.mem_range.mp hi))
  have hbase : base < 16 := Nat.lt_succ_of_le (by simpa using (Bool.and_eq_true_iff.mp hcfg).2)
  have hstop := s.txStopped_regsOnly
  have hregs := s.txStopped_reg
  obtain ⟨t, hloop, ht⟩ := initTxQueues_run txQueues (s := s.txStopped) (by rw [hstop]; exact hb)
    (State.txStopped_dmaEn hpos)
  have hcfgt : t.cfg = s.cfg := by rw [ht.frame, hstop]
  have hrun := txQueuesInit_run hb hseq hpool hloop hcfgt (by rw [ht.frame, hstop]; exact hb)
  have hu := t.txEnabled_regsOnly (s.reg (.dmaCtrl .tx))
  have hctrl := t.txEnabled_dmaCtrl (s.reg (.dmaCtrl .tx))
  have hring := t.txEnabled_dmaRingCfg (s.reg (.dmaCtrl .tx))
  have hprio := t.txEnabled_prio (s.reg (.dmaCtrl .tx))
  have hrp := t.txEnabled_tdmaRp (s.reg (.dmaCtrl .tx))
  have hother := fun r => t.txEnabled_other (s.reg (.dmaCtrl .tx)) (r := r)
  rw [hcfgt] at hctrl hring hprio
  generalize t.txEnabled (s.reg (.dmaCtrl .tx)) = u at hrun hu hctrl hring hprio hrp hother
  have hwords : u.prio = _ := hprio.trans (initialPrio_words base hbase)
  refine ⟨_, exec_txQueuesInit_ok hcfg hrun, fun q => ?_, fun i => ?_, fun q x => ?_, fun q => ?_, ?_, fun q => ?_,
    fun k => ?_, ?_, ?_, fun q => ?_, fun n hn => ?_, fun r hr hnprio hnarb hnring hnctrl => ?_, ?_⟩
  · rw [hu]
    exact ht.record q q.mem_txQueues
  · rw [hu]
    refine (ht.cb i).trans ?_
    rw [hstop]
    exact if_congr (txQueues_cover i) rfl rfl
  · refine (hother _ (by simp) (by simp) (by simp)).trans ((ht.ring q q.mem_txQueues x).trans ?_)
    exact txRingWord_default (by rw [hstop]; exact hpos) q x
  · refine (hother _ (by simp) (by simp) (by simp)).trans ((ht.flowPeriod q q.mem_txQueues).trans ?_)
    rw [flowPeriodWord_default (by rw [hstop]; exact hpos), hstop]
  · refine (hother _ (by simp) (by simp) (by simp)).trans ((ht.other _ fun _ _ => ⟨by simp, by simp⟩).trans ?_)
    rw [hregs, if_pos rfl, hpos, hcodes]
    exact arbMode_default _
  · refine Eq.trans ?_ (prioUnpack_initialPrio base hbase q q.mem_txQueues)
    exact congrArg (prioUnpack q.num) hprio
  · match k with
    | 0 => exact congrArg Prio.r0 hwords
    | 1 => exact congrArg Prio.r1 hwords
    | 2 => exact congrArg Prio.r2 hwords
  · exact hring.trans (hpos ▸ tdmaRingMask_default)
  · exact hctrl.trans (hpos ▸ txCtrlWord_default _)
  · exact hrp ▸ ht.readPtr q q.mem_txQueues
  · rw [hu, hrp]
    exact ht.tables n fun q _ => hn q
  · refine (hother r hnprio hnring hnctrl).trans ((ht.other r fun q _ => ?_).trans ?_)
    · exact ⟨fun x => (hr q x).1, (hr q .prodIndex).2⟩
    · rw [hregs, if_neg hnarb, if_neg hnctrl]
  · rw [hu, ht.frame, hstop]

end Sys2Proof.Machine
end

section
/-! SEQ_STEP by the end of the step it runs (44_mac_sequencer R236, R237; 60_exceptions R314), and with it step 0, the
revision check of step 1 and the link poll of step 13. -/

namespace Sys2Proof.Machine

/-! ### SEQ_STEP -/

theorem failing_ok {op : Op Unit} {s t : State} (h : op s = .ok () t) : failing op s = .ok () t := by
  rw [failing, h]

theorem failing_err {op : Op Unit} {s t : State} {e : Err} (h : op s = .error (.err e) t) :
    failing op s = .error (.err e) { t with seq := .failed e } := by
  rw [failing, h]

theorem failing_fault {op : Op Unit} {s t : State} {f : FaultReason} (h : op s = .error (.fault f) t) :
    failing op s = .error (.fault f) t := by
  rw [failing, h]

theorem andNext_ok {op : Op Unit} {s t : State} (h : op s = .ok () t) (k : StepNo) :
    andNext k op s = .ok () { t with seq := k.next } := by
  simp only [andNext, op_bind, h, setSeq, upd_run]

theorem andNext_error {op : Op Unit} {s t : State} {e : Halt} (h : op s = .error e t) (k : StepNo) :
    andNext k op s = .error e t := by
  simp only [andNext, op_bind, h]

theorem seqStep_idle {s : State} (h : s.seq = .idle) (m : MacAddr) (n : Nat) :
    seqStep m n s = failing (seqStart m n) s := by
  simp only [seqStep, op_bind, gets_run, h]

theorem seqStep_step {s : State} {k : StepNo} (h : s.seq = .step k) (m : MacAddr) (n : Nat) :
    seqStep m n s = failing (seqRun k) s := by
  simp only [seqStep, op_bind, gets_run, h]

theorem exec_seqStep_ok {s t : State} {k : StepNo} (hcfg : configOk s.cfg = true) (hseq : s.seq = .step k)
    (h : seqRun k s = .ok () t) : exec .seqStep s = .next { t with result := .ok } :=
  runOp_of_ok hcfg (okAfter_run ((seqStep_step hseq _ _).trans (failing_ok h)))

theorem exec_seqStep_err {s t : State} {k : StepNo} {e : Err} (hcfg : configOk s.cfg = true) (hseq : s.seq = .step k)
    (h : seqRun k s = .error (.err e) t) :
    exec .seqStep s = .next { t with seq := .failed e, result := .err e } :=
  runOp_of_err hcfg (okAfter_error ((seqStep_step hseq _ _).trans (failing_err h)))

theorem exec_seqStep_fault {s t : State} {k : StepNo} {f : FaultReason} (hcfg : configOk s.cfg = true)
    (hseq : s.seq = .step k) (h : seqRun k s = .error (.fault f) t) : exec .seqStep s = .next (t.mark f) :=
  runOp_of_fault hcfg (okAfter_error ((seqStep_step hseq _ _).trans (failing_fault h)))

/-- A step that ends well and leaves the sequencer to `andNext` is followed by the next one. -/
theorem exec_seqStep_next {s t : State} {k : StepNo} {op : Op Unit} (hcfg : configOk s.cfg = true)
    (hseq : s.seq = .step k) (hk : seqRun k = andNext k op) (h : op s = .ok () t) :
    exec .seqStep s = .next { t with seq := k.next, result := .ok } :=
  exec_seqStep_ok hcfg hseq ((congrFun hk s).trans (andNext_ok h k))

/-! ### Step 0 -/

/-- POOL_INIT of a whole pool whose blocks are all the software's, before construction has ended (R140). -/
theorem poolInit_ok {s : State} (hb : s.between = []) (hseq : s.constructed = false) {d : Dir}
    (hsw : ∀ i < nDesc, s.hwOwned d i = false) :
    ∃ t, poolInit d nDesc s = .ok () t ∧ s.PoolInited d nDesc t := by
  obtain ⟨t, hloop, hinit⟩ := poolInit_loop hb d (Nat.le_refl nDesc) hsw
  exact ⟨t, (poolInit_run hseq d).trans hloop, hinit⟩

/-- Both pools have been initialised from `s` on, one after the other: what the two runs of POOL_INIT leave together. -/
theorem State.PoolInited.both {s t u : State} (h : s.PoolInited .rx nDesc t) (h' : t.PoolInited .tx nDesc u) :
    (∀ d i, u.desc d i = if i < nDesc then ⟨0, 0, 0⟩ else s.desc d i) ∧
    (∀ d i, u.cb? d i = if i < nDesc then some { descIndex := i, owner := .sw } else s.cb? d i) ∧
    s.Remembers u := by
  refine ⟨fun d i => ?_, fun d i => ?_, h.remembers.trans h'.remembers fun d i k hne => ?_⟩
  · rw [h'.desc, h.desc]
    cases d <;> simp
  · rw [h'.cb, h.cb]
    cases d <;> simp
  · cases d with
    | rx => exact absurd (by rw [h'.desc]; simp) hne
    | tx => rw [h.desc]; simp

/-- Step 0 over pools of which the hardware owns no block (R220). -/
theorem seqStart_ok {s : State} (hb : s.between = []) (hseq : s.seq = .idle) (m : MacAddr)
    (hsw : ∀ d, ∀ i < nDesc, s.hwOwned d i = false) :
    ∃ t, seqStart m nDesc s = .ok () { t with seqPolls := some 0, seq := .step .s1 } ∧
      (∀ d i, t.desc d i = if i < nDesc then ⟨0, 0, 0⟩ else s.desc d i) ∧
      (∀ d i, t.cb? d i = if i < nDesc then some { descIndex := i, owner := .sw } else s.cb? d i) ∧
      s.Remembers t ∧
      t = { s with
        macAddr := m, descRx := t.descRx, descTx := t.descTx, cbRx := t.cbRx, cbTx := t.cbTx
        unsynced := t.unsynced } := by
  have hopen : { s with macAddr := m }.constructed = false :=
    State.constructed_eq_false (by simp [hseq]) (by simp [hseq])
  obtain ⟨t, hrx, ht⟩ := poolInit_ok (s := { s with macAddr := m }) (d := .rx) hb hopen (hsw .rx)
  have hown : ∀ i < nDesc, t.hwOwned .tx i = false := fun i hi => by
    have hcb : t.cb? .tx i = s.cb? .tx i := (ht.cb .tx i).trans (if_neg fun h => nomatch h.1)
    rw [State.hwOwned, hcb]
    exact hsw .tx i hi
  obtain ⟨u, htx, hu⟩ := poolInit_ok (s := t) (d := .tx) (ht.between.trans hb) (by rw [ht.frame]; exact hopen) hown
  obtain ⟨hdesc, hcb, hrem⟩ := ht.both hu
  refine ⟨u, ?_, hdesc, hcb, hrem, ?_⟩
  · simp only [seqStart, op_bind, upd_run, hrx, htx, setSeq]
  · rw [hu.frame, ht.frame]

/-- Settles O53: the two runs of POOL_INIT write one pool each, and another receive length ends the first of them. -/
theorem seqStepStart : Obligations.SeqStepStart := by
  intro s hcfg hb hseq
  refine ⟨fun hlen hsw => ?_, fun hlen => ?_⟩
  · obtain ⟨t, hrun, hdesc, hcb, hrem, hframe⟩ := seqStart_ok hb hseq s.args.mac fun d i hi =>
      State.hwOwned_of_all_sw (hsw d i hi)
    have hstep : seqStep s.args.mac s.args.rxDescLen s = .ok () { t with seqPolls := some 0, seq := .step .s1 } := by
      rw [seqStep_idle hseq, hlen]
      exact failing_ok hrun
    refine ⟨_, runOp_of_ok hcfg (okAfter_run hstep), hdesc, hcb, hrem, ?_⟩
    rw [hframe]
  · have hopen : { s with macAddr := s.args.mac }.constructed = false :=
      State.constructed_eq_false (by simp [hseq]) (by simp [hseq])
    have hrun : seqStart s.args.mac s.args.rxDescLen s = .error (.err .malformed) { s with macAddr := s.args.mac } := by
      simp [seqStart, poolInit, hopen, nDesc, hlen]
    exact runOp_of_err hcfg (okAfter_error ((seqStep_idle hseq _ _).trans (failing_err hrun)))

/-! ### Step 1 -/

theorem revisionOk_iff (c : Config) (rev : Word) :
    revisionOk c rev = true ↔ fieldGet c.pos.revMajor rev = c.revMajor ∧ fieldGet c.pos.revMinor rev = c.revMinor ∧
      fieldGet c.pos.revEphy rev = c.revEphy := by
  simp [revisionOk, and_assoc]

/-- Settles O54: the one read, and the comparison of the three fields. -/
theorem seqRevisionCheck : Obligations.SeqRevisionCheck := by
  intro s hcfg hb hseq rev read c
  have hread : hRead .sysRevCtrl s = .ok rev read := hRead_plain hb rfl
  have hrun : seqRevision s = if revisionOk c rev then .ok () read else .error (.err .hwVersionNotSupported) read := by
    simp only [seqRevision, op_bind, gets_run, hread, haltIf_run]
    cases revisionOk c rev <;> rfl
  by_cases hok : revisionOk c rev = true
  · rw [if_pos ((revisionOk_iff c rev).mp hok)]
    exact exec_seqStep_next hcfg hseq rfl (hrun.trans (if_pos hok))
  · rw [if_neg (mt (revisionOk_iff c rev).mpr hok)]
    exact exec_seqStep_err (k := .s1) hcfg hseq (andNext_error (hrun.trans (if_neg hok)) .s1)

/-! ### Step 13 -/

/-- The link negotiator leaves the poll counter and the configuration (R22, R262). -/
theorem linkReadStatus_keeps (s : State) :
    (stateOf (linkReadStatus s)).seqPolls = s.seqPolls ∧ (stateOf (linkReadStatus s)).cfg = s.cfg := by
  have hchain := linkReadStatus_moves .none s
  exact ⟨(hchain.same_sequencer rfl).2.2.1, hchain.same_cfg⟩

/-- A failed poll is counted, and the one that reaches the limit is `TimedOut` (R233). -/
theorem seqPollFailed_run {s : State} {c : Config} {n : Nat} (h : s.seqPolls = some n) (hcfg : s.cfg = c) :
    seqPollFailed s = if c.linkPollLimit ≤ n + 1 then .error (.err .timedOut) { s with seqPolls := some (n + 1) }
      else .ok () { s with seqPolls := some (n + 1) } := by
  simp only [seqPollFailed, op_bind, gets_run, h, hcfg, orHalt_some, upd_run, haltIf_run, decide_eq_true_eq]

/-- What SEQ_STEP leaves where step 13 ends as a failed poll (R233, R361). -/
theorem exec_seqStep_pollFailed {s u : State} {n : Nat} (hcfg : configOk s.cfg = true) (hseq : s.seq = .step .s13)
    (hrun : seqLinkPoll s = seqPollFailed u) (hpolls : u.seqPolls = some n)
    (hkept : u.cfg = s.cfg) :
    exec .seqStep s = .next (if s.cfg.linkPollLimit ≤ n + 1
      then { u with seqPolls := some (n + 1), seq := .failed .timedOut, result := .err .timedOut }
      else { u with seqPolls := some (n + 1), result := .ok }) := by
  have hend := hrun.trans (seqPollFailed_run hpolls hkept)
  by_cases hlimit : s.cfg.linkPollLimit ≤ n + 1
  · rw [if_pos hlimit]
    exact exec_seqStep_err hcfg hseq (hend.trans (if_pos hlimit))
  · rw [if_neg hlimit]
    exact exec_seqStep_ok hcfg hseq (hend.trans (if_neg hlimit))

/-- The link that was read is kept where it is up; where it is down the poll has failed (R233). -/
theorem seqLinkPoll_read {s u : State} {l : LinkStatus} (h : linkReadStatus s = .ok l u) :
    seqLinkPoll s = if l.linkUp then .ok () { u with seqLink := some l, seq := .step .s14 } else seqPollFailed u := by
  simp only [seqLinkPoll, op_bind, attempt_run, h]
  cases l.linkUp <;> rfl

/-- An error of the negotiator is a failed poll (R233). -/
theorem seqLinkPoll_err {s u : State} {e : Err} (h : linkReadStatus s = .error (.err e) u) :
    seqLinkPoll s = seqPollFailed u := by
  simp only [seqLinkPoll, op_bind, attempt_run, h]

/-- Settles O60: the poll's own end decides, and it has moved neither the counter nor the limit. -/
theorem seqLinkPoll_holds : Obligations.SeqLinkPoll := by
  intro s u n hcfg hseq hpolls failed
  have hkeeps := linkReadStatus_keeps s
  refine ⟨fun l hpoll hup => ?_, fun l hpoll hup => ?_, fun e hpoll => ?_⟩
  · have hrun := seqLinkPoll_read hpoll
    rw [if_pos hup] at hrun
    exact exec_seqStep_ok (k := .s13) hcfg hseq hrun
  · have hrun := seqLinkPoll_read hpoll
    rw [if_neg (by simp [hup])] at hrun
    rw [hpoll] at hkeeps
    exact exec_seqStep_pollFailed hcfg hseq hrun (hkeeps.1.trans hpolls) hkeeps.2
  · rw [hpoll] at hkeeps
    exact exec_seqStep_pollFailed hcfg hseq (seqLinkPoll_err hpoll) (hkeeps.1.trans hpolls) hkeeps.2

end Sys2Proof.Machine
end

section
/-! The steps of construction that only write registers (44_mac_sequencer R222, R225, R227 to R230, R232, R234, R235):
what a write and a field write leave, and the words at the default positions. -/

namespace Sys2Proof.Machine

/-! ### Words -/

theorem fieldMask_bit (n : Nat) : fieldMask ⟨n, n⟩ = BitVec.ofNat 32 (2 ^ n) := by
  simp [fieldMask, fieldWidth, Nat.shiftLeft_eq]

/-- A one-bit field set. -/
theorem fieldSet_bit_one (n : Nat) (w : Word) : fieldSet ⟨n, n⟩ 1 w = w ||| BitVec.ofNat 32 (2 ^ n) := by
  rw [fieldSet_ones (by simp [fieldMask_eq_fieldPlace, fieldWidth]), fieldMask_bit]

/-- A field cleared. -/
theorem fieldSet_zero (p : FieldPos) (w : Word) : fieldSet p 0 w = w &&& ~~~fieldMask p := by
  simp [fieldSet, fieldPlace]

theorem fieldSet_bit_zero (n : Nat) (w : Word) : fieldSet ⟨n, n⟩ 0 w = w &&& ~~~BitVec.ofNat 32 (2 ^ n) := by
  rw [fieldSet_zero, fieldMask_bit]

/-- A byte appended to a word is the word shifted by eight, with the byte below. -/
theorem setWidth_append_byte {n : Nat} (x : BitVec n) (b : Byte) :
    (x ++ b).setWidth 32 = (x.setWidth 32 <<< 8) ||| b.setWidth 32 := by
  ext i hi
  by_cases h : i < 8
  · simp [BitVec.getLsbD_append, h]
  · simp [BitVec.getLsbD_append, h, b.getLsbD_of_ge i (by omega)]

theorem packBytes_four (b0 b1 b2 b3 : Byte) : packBytes [24, 16, 8, 0] [b0, b1, b2, b3] = b0 ++ b1 ++ b2 ++ b3 := by
  refine Eq.trans ?_ (BitVec.setWidth_eq (b0 ++ b1 ++ b2 ++ b3))
  rw [setWidth_append_byte, setWidth_append_byte, setWidth_append_byte]
  simp [packBytes, orAll, BitVec.shiftLeft_or_distrib, ← BitVec.shiftLeft_add]

theorem packBytes_two (b0 b1 : Byte) : packBytes [8, 0] [b0, b1] = (0 : BitVec 16) ++ b0 ++ b1 := by
  refine Eq.trans ?_ (BitVec.setWidth_eq ((0 : BitVec 16) ++ b0 ++ b1))
  rw [setWidth_append_byte, setWidth_append_byte]
  simp [packBytes, orAll]

/-- A one-bit field set to a truth value. -/
theorem fieldSet_bitVal (n : Nat) (b : Bool) (w : Word) :
    fieldSet ⟨n, n⟩ (bitVal b) w =
      (w &&& ~~~BitVec.ofNat 32 (2 ^ n)) ||| if b then BitVec.ofNat 32 (2 ^ n) else 0 := by
  rw [← fieldMask_bit]
  cases b <;> simp [fieldSet, bitVal, fieldPlace, fieldMask, fieldWidth]

/-- A one-bit field set where a condition fails. -/
theorem fieldSet_bitVal_not (n : Nat) (b : Bool) (w : Word) :
    fieldSet ⟨n, n⟩ (bitVal !b) w =
      (w &&& ~~~BitVec.ofNat 32 (2 ^ n)) ||| if b then 0 else BitVec.ofNat 32 (2 ^ n) := by
  rw [fieldSet_bitVal]
  cases b <;> rfl

/-- Two replacements of bits in turn are one. -/
theorem replace_replace (w m x m' x' : Word) :
    (((w &&& m) ||| x) &&& m') ||| x' = (w &&& (m &&& m')) ||| ((x &&& m') ||| x') := by
  rw [BitVec.and_or_distrib_right, BitVec.and_assoc, BitVec.or_assoc]

/-! ### Accesses with no effect but their own -/

/-- A register that the host may always write, and whose write does nothing else (R291, R292). -/
def RegId.free (r : RegId) : Bool := !r.readOnly && r.ownedBy.isNone && !r.sideEffect

theorem RegId.free_spec {r : RegId} (h : r.free = true) :
    r.plainRead = true ∧ r.readOnly = false ∧ r.sideEffect = false ∧ ∀ s : State, s.writeRefused r = false := by
  simp only [RegId.free, Bool.and_eq_true, Bool.not_eq_true', Option.isNone_iff_eq_none] at h
  obtain ⟨⟨hro, how⟩, hse⟩ := h
  have hm : r ≠ .mdioCmd := by rintro rfl; cases hse
  have hp : r.plainRead = true := by
    unfold RegId.plainRead
    split
    · exact absurd rfl hm
    · rfl
  exact ⟨hp, hro, hse, writeRefused_of_unowned hm how⟩

theorem hWrite_free {s : State} {r : RegId} (hb : s.between = []) (h : r.free = true) (v : Word) :
    hWrite r v s = .ok () (s.wrote r v) := by
  obtain ⟨-, hro, hse, hw⟩ := RegId.free_spec h
  exact hWrite_plain hb hro (hw s) hse v

theorem hField_free {s : State} {r : RegId} (hb : s.between = []) (h : r.free = true) (p : RegPos → FieldPos)
    (v : Nat) : hField r p v s = .ok () (s.wroteField r (p s.cfg.pos) v) := by
  obtain ⟨hp, hro, hse, hw⟩ := RegId.free_spec h
  exact hField_plain hb hp hro (hw s) hse p v

/-- A write that is not refused stores the word and appends its event, and then has its side effect (R291, R292). -/
theorem hWrite_effect {s : State} {r : RegId} (hb : s.between = []) (hro : r.readOnly = false)
    (hw : s.writeRefused r = false) (v : Word) : hWrite r v s = writeEffect r (s.reg r) v (s.wrote r v) :=
  (hWrite_eq hb r v).trans (mmioWrite_run hro hw v)

/-- A field of `UMAC_CMD` other than `SW_RESET`, at the default positions: no write of it ends a soft reset (R238). -/
theorem hField_umacCmd_default {s : State} (hb : s.between = []) (hpos : s.cfg.pos = {}) (p : RegPos → FieldPos)
    (hp : (p {}).hi < 13 ∨ 13 < (p {}).lo) (v : Nat) :
    hField .umacCmd p v s = .ok () (s.wroteField .umacCmd (p s.cfg.pos) v) := by
  refine hField_umacCmd hb p v ?_
  have hkeep (w : Word) : fieldOn s.cfg.pos.swReset (fieldSet (p s.cfg.pos) v w) = fieldOn s.cfg.pos.swReset w := by
    rw [hpos, fieldOn, fieldOn, fieldGet_fieldSet_disjoint ?_ (by decide)]
    simp only [fieldWidth]
    omega
  rw [hkeep]
  exact (Bool.eq_false_or_eq_true _).symm

/-- The host has waited (R299). -/
def State.delayed (s : State) (n : DelayName) : State := { s with hist := .delay n :: s.hist }

theorem hDelay_delayed {s : State} (hb : s.between = []) (n : DelayName) : hDelay n s = .ok () (s.delayed n) :=
  hDelay_run hb n

@[simp] theorem State.delayed_cfg (s : State) (n : DelayName) : (s.delayed n).cfg = s.cfg := rfl
@[simp] theorem State.delayed_between (s : State) (n : DelayName) : (s.delayed n).between = s.between := rfl
@[simp] theorem State.delayed_reg (s : State) (n : DelayName) (r : RegId) : (s.delayed n).reg r = s.reg r := rfl
@[simp] theorem State.delayed_hist (s : State) (n : DelayName) : (s.delayed n).hist = .delay n :: s.hist := rfl

@[simp] theorem State.wrote_hist (s : State) (r : RegId) (v : Word) :
    (s.wrote r v).hist = .mmioWrite r v :: s.hist := rfl
@[simp] theorem State.wroteField_hist (s : State) (r : RegId) (p : FieldPos) (v : Nat) :
    (s.wroteField r p v).hist = .mmioWrite r (fieldSet p v (s.reg r)) :: .mmioRead r (s.reg r) :: s.hist := rfl

@[simp] theorem State.wroteField_macAddr (s : State) (r : RegId) (p : FieldPos) (v : Nat) :
    (s.wroteField r p v).macAddr = s.macAddr := rfl

/-- From `s` to `t` only registers and the history have moved. -/
def State.RegsHist (s t : State) : Prop := t = { s with regs := t.regs, hist := t.hist }

theorem State.RegsHist.refl (s : State) : s.RegsHist s := rfl

theorem State.RegsHist.wrote {s t : State} (h : s.RegsHist t) (r : RegId) (v : Word) : s.RegsHist (t.wrote r v) := by
  rw [h]
  rfl

theorem State.RegsHist.setReg {s t : State} (h : s.RegsHist t) (r : RegId) (v : Word) : s.RegsHist (t.setReg r v) := by
  rw [h]
  rfl

theorem State.RegsHist.wroteField {s t : State} (h : s.RegsHist t) (r : RegId) (p : FieldPos) (v : Nat) :
    s.RegsHist (t.wroteField r p v) := by
  rw [h]
  rfl

theorem State.RegsHist.delayed {s t : State} (h : s.RegsHist t) (n : DelayName) : s.RegsHist (t.delayed n) := by
  rw [h]
  rfl

/-- What SEQ_STEP leaves where its step has only written registers, as `t` has them. -/
theorem exec_seqStep_regs {s t : State} {k : StepNo} {op : Op Unit} (hcfg : configOk s.cfg = true)
    (hseq : s.seq = .step k) (hk : seqRun k = andNext k op) (h : op s = .ok () t) (hframe : s.RegsHist t) :
    ∃ u : State, exec .seqStep s = .next u ∧ (∀ r, u.reg r = t.reg r) ∧ u.hist = t.hist ∧
      u = { s with regs := u.regs, hist := u.hist, seq := k.next, result := .ok } :=
  ⟨_, exec_seqStep_next hcfg hseq hk h, State.reg_congr rfl, rfl, by rw [hframe]⟩

/-! ### Steps 2, 5, 7 and 10 -/

/-- The port mode and the RGMII enable have been set (R222). -/
def State.portModeSet (s : State) : State :=
  (s.wroteField .sysPortCtrl s.cfg.pos.portMode s.cfg.codes.extGphy).wroteField .extRgmiiOobCtrl
    s.cfg.pos.rgmiiModeEn 1

theorem State.portModeSet_regsHist (s : State) : s.RegsHist s.portModeSet :=
  ((State.RegsHist.refl s).wroteField _ _ _).wroteField _ _ _

theorem seqPortMode_run {s : State} (hb : s.between = []) : seqPortMode s = .ok () s.portModeSet := by
  simp [seqPortMode, hField_free, RegId.free, RegId.readOnly, RegId.ownedBy, RegId.sideEffect, hb, State.portModeSet]

theorem State.portModeSet_reg {s : State} (hpos : s.cfg.pos = {}) (hcodes : s.cfg.codes = {}) (r : RegId) :
    s.portModeSet.reg r = match r with
      | .sysPortCtrl => (s.reg r &&& ~~~7) ||| 3
      | .extRgmiiOobCtrl => s.reg r ||| 0x40
      | _ => s.reg r := by
  have hmode (w : Word) : fieldSet ⟨2, 0⟩ 3 w = (w &&& ~~~7) ||| 3 := rfl
  split <;> simp_all [State.portModeSet, State.wroteField_reg, fieldSet_bit_one]

theorem State.portModeSet_hist (s : State) :
    s.portModeSet.hist = rmwEvents .extRgmiiOobCtrl [s.reg .extRgmiiOobCtrl, s.portModeSet.reg .extRgmiiOobCtrl]
      (rmwEvents .sysPortCtrl [s.reg .sysPortCtrl, s.portModeSet.reg .sysPortCtrl] s.hist) := by
  simp [State.portModeSet, State.wroteField_reg, rmwEvents]

/-- A field has been set, held and cleared (R114). -/
def State.pulsed (s : State) (r : RegId) (p : FieldPos) (n : DelayName) : State :=
  ((s.wroteField r p 1).delayed n).wroteField r p 0

theorem State.RegsHist.pulsed {s t : State} (h : s.RegsHist t) (r : RegId) (p : FieldPos) (n : DelayName) :
    s.RegsHist (t.pulsed r p n) := ((h.wroteField _ _ _).delayed _).wroteField _ _ _

theorem hPulse_free {s : State} {r : RegId} (hb : s.between = []) (h : r.free = true) (p : RegPos → FieldPos)
    (n : DelayName) : hPulse r p n s = .ok () (s.pulsed r (p s.cfg.pos) n) := by
  simp [hPulse, hField_free, hDelay_delayed, h, hb, State.pulsed]

/-- A pulse of a one-bit field leaves it clear, and no other bit or register changed. -/
theorem State.pulsed_bit_reg (s : State) (r : RegId) (i : Nat) (n : DelayName) (x : RegId) :
    (s.pulsed r ⟨i, i⟩ n).reg x = if x = r then s.reg r &&& ~~~BitVec.ofNat 32 (2 ^ i) else s.reg x := by
  have hclear (w m : Word) : (w ||| m) &&& ~~~m = w &&& ~~~m := by
    ext k hk
    cases hm : m[k] <;> simp [hm]
  by_cases hx : x = r <;>
    simp [State.pulsed, State.wroteField_reg, hx, fieldSet_bit_one, fieldSet_bit_zero, hclear]

theorem State.pulsed_bit_hist (s : State) (r : RegId) (i : Nat) (n : DelayName) :
    (s.pulsed r ⟨i, i⟩ n).hist =
      .mmioWrite r (s.reg r &&& ~~~BitVec.ofNat 32 (2 ^ i)) :: .mmioRead r (s.reg r ||| BitVec.ofNat 32 (2 ^ i)) ::
        .delay n :: .mmioWrite r (s.reg r ||| BitVec.ofNat 32 (2 ^ i)) :: .mmioRead r (s.reg r) :: s.hist := by
  have hword := s.pulsed_bit_reg r i n r
  rw [if_pos rfl] at hword
  simpa [State.pulsed, State.wroteField_reg, fieldSet_bit_one] using hword

/-- Both DMA enables have been cleared, and the transmit flush pulsed (R230). -/
def State.quiesced (s : State) : State :=
  ((s.wroteField (.dmaCtrl .rx) (dmaEnPos .rx s.cfg.pos) 0).wroteField (.dmaCtrl .tx) (dmaEnPos .tx s.cfg.pos) 0).pulsed
    .umacTxFlush s.cfg.pos.txFlush .tFlushHold

theorem State.quiesced_regsHist (s : State) : s.RegsHist s.quiesced :=
  (((State.RegsHist.refl s).wroteField _ _ _).wroteField _ _ _).pulsed _ _ _

theorem seqQuiesce_run {s : State} (hb : s.between = []) : seqQuiesce s = .ok () s.quiesced := by
  simp [seqQuiesce, hField_dmaCtrl, hPulse_free, RegId.free, RegId.readOnly, RegId.ownedBy, RegId.sideEffect, hb,
    State.quiesced]

theorem State.quiesced_reg {s : State} (hpos : s.cfg.pos = {}) (r : RegId) :
    s.quiesced.reg r = match r with
      | .dmaCtrl _ | .umacTxFlush => s.reg r &&& ~~~1
      | _ => s.reg r := by
  rw [State.quiesced, hpos]
  have hpulse := State.pulsed_bit_reg ((s.wroteField (.dmaCtrl .rx) ⟨0, 0⟩ 0).wroteField (.dmaCtrl .tx) ⟨0, 0⟩ 0)
    .umacTxFlush 0 .tFlushHold r
  refine hpulse.trans ?_
  cases r with
  | dmaCtrl d => cases d <;> simp [State.wroteField_reg, fieldSet_bit_zero]
  | _ => simp [State.wroteField_reg]

theorem State.quiesced_hist {s : State} (hpos : s.cfg.pos = {}) :
    s.quiesced.hist = .mmioWrite .umacTxFlush (s.reg .umacTxFlush &&& ~~~1) ::
      .mmioRead .umacTxFlush (s.reg .umacTxFlush ||| 1) :: .delay .tFlushHold ::
      .mmioWrite .umacTxFlush (s.reg .umacTxFlush ||| 1) :: .mmioRead .umacTxFlush (s.reg .umacTxFlush) ::
      .mmioWrite (.dmaCtrl .tx) (s.reg (.dmaCtrl .tx) &&& ~~~1) :: .mmioRead (.dmaCtrl .tx) (s.reg (.dmaCtrl .tx)) ::
      .mmioWrite (.dmaCtrl .rx) (s.reg (.dmaCtrl .rx) &&& ~~~1) :: .mmioRead (.dmaCtrl .rx) (s.reg (.dmaCtrl .rx)) ::
      s.hist := by
  rw [State.quiesced, hpos]
  refine (State.pulsed_bit_hist ..).trans ?_
  simp [State.wroteField_reg, dmaEnPos, dmaPos, fieldSet_bit_zero]

theorem hWrite_cpuMaskSet {s : State} (hb : s.between = []) (hpos : s.cfg.pos = {}) (x : IntrlId) (v : Word) :
    hWrite (.intrl2 x .cpuMaskSet) v s = .ok () ((s.wrote (.intrl2 x .cpuMaskSet) v).setReg (.intrl2 x .cpuMaskStatus)
      (s.reg (.intrl2 x .cpuMaskStatus) ||| v)) := by
  have hmask : (s.wrote (.intrl2 x .cpuMaskSet) v).reg (.intrl2 x .cpuMaskStatus) =
      s.reg (.intrl2 x .cpuMaskStatus) := by simp [State.wrote_reg]
  rw [hWrite_effect hb rfl (writeRefused_of_unowned (by simp) rfl s)]
  cases x <;> simp [writeEffect, setSources, hpos, intrlPos, moveField_whole, hmask]

theorem hWrite_cpuClear {s : State} (hb : s.between = []) (hpos : s.cfg.pos = {}) (x : IntrlId) (v : Word) :
    hWrite (.intrl2 x .cpuClear) v s = .ok () ((s.wrote (.intrl2 x .cpuClear) v).setReg (.intrl2 x .cpuStatus)
      (s.reg (.intrl2 x .cpuStatus) &&& ~~~v)) := by
  have hstatus : (s.wrote (.intrl2 x .cpuClear) v).reg (.intrl2 x .cpuStatus) = s.reg (.intrl2 x .cpuStatus) := by
    simp [State.wrote_reg]
  rw [hWrite_effect hb rfl (writeRefused_of_unowned (by simp) rfl s)]
  cases x <;> simp [writeEffect, clearSources, hpos, intrlPos, moveField_whole, hstatus]

/-- Every source of an interrupt controller has been masked, and what was pending cleared (R227, R292). -/
def State.masked (s : State) (x : IntrlId) : State :=
  (((s.wrote (.intrl2 x .cpuMaskSet) 0xFFFFFFFF).setReg (.intrl2 x .cpuMaskStatus) 0xFFFFFFFF).wrote
    (.intrl2 x .cpuClear) 0xFFFFFFFF).setReg (.intrl2 x .cpuStatus) 0

theorem State.RegsHist.masked {s t : State} (h : s.RegsHist t) (x : IntrlId) : s.RegsHist (t.masked x) :=
  (((h.wrote _ _).setReg _ _).wrote _ _).setReg _ _

@[simp] theorem State.masked_cfg (s : State) (x : IntrlId) : (s.masked x).cfg = s.cfg := rfl
@[simp] theorem State.masked_between (s : State) (x : IntrlId) : (s.masked x).between = s.between := rfl

theorem State.masked_hist (s : State) (x : IntrlId) :
    (s.masked x).hist =
      writeEvents [(.intrl2 x .cpuMaskSet, 0xFFFFFFFF), (.intrl2 x .cpuClear, 0xFFFFFFFF)] s.hist := rfl

theorem State.masked_reg (s : State) (x : IntrlId) (r : RegId) :
    (s.masked x).reg r = if r = .intrl2 x .cpuStatus then 0
      else if r = .intrl2 x .cpuMaskSet ∨ r = .intrl2 x .cpuClear ∨ r = .intrl2 x .cpuMaskStatus then 0xFFFFFFFF
      else s.reg r := by
  simp only [State.masked, State.reg_setReg, State.wrote_reg, eq_comm (b := r)]
  grind

theorem maskAll_run {s : State} (hb : s.between = []) (hpos : s.cfg.pos = {}) (x : IntrlId) :
    maskAll x s = .ok () (s.masked x) := by
  have hones (w : Word) : w ||| 0xFFFFFFFF = 0xFFFFFFFF := BitVec.or_allOnes
  have hzero (w : Word) : w &&& ~~~0xFFFFFFFF = 0 := BitVec.and_zero
  rw [maskAll, op_bind, hWrite_cpuMaskSet hb hpos, hones]
  refine (hWrite_cpuClear (s := (s.wrote _ _).setReg _ _) hb hpos x _).trans ?_
  rw [hzero]
  rfl

/-- Step 7 has programmed the counters, the frame length, the pad and the masks (R227). -/
def State.countersSet (s : State) : State :=
  (((((s.wrote .umacMibCtrl (fieldPlace s.cfg.pos.mibResetRx 1 ||| fieldPlace s.cfg.pos.mibResetRunt 1 |||
    fieldPlace s.cfg.pos.mibResetTx 1)).wrote .umacMibCtrl 0).wrote .umacMaxFrameLen
    (BitVec.ofNat 32 s.cfg.mtu)).wroteField .rbufCtrl s.cfg.pos.align2b 1).masked .c0).masked .c1

theorem State.countersSet_regsHist (s : State) : s.RegsHist s.countersSet :=
  ((((((State.RegsHist.refl s).wrote _ _).wrote _ _).wrote _ _).wroteField _ _ _).masked _).masked _

theorem seqCounters_run {s : State} (hb : s.between = []) (hpos : s.cfg.pos = {}) :
    seqCounters s = .ok () s.countersSet := by
  simp [seqCounters, hWrite_free, hField_free, maskAll_run, RegId.free, RegId.readOnly, RegId.ownedBy,
    RegId.sideEffect, hb, hpos, State.countersSet]

theorem State.countersSet_reg {s : State} (hpos : s.cfg.pos = {}) (r : RegId) :
    s.countersSet.reg r = match r with
      | .umacMibCtrl => 0
      | .umacMaxFrameLen => BitVec.ofNat 32 s.cfg.mtu
      | .rbufCtrl => s.reg r ||| 2
      | .intrl2 _ .cpuMaskSet | .intrl2 _ .cpuClear | .intrl2 _ .cpuMaskStatus => 0xFFFFFFFF
      | .intrl2 _ .cpuStatus => 0
      | _ => s.reg r := by
  simp only [State.countersSet, State.masked_reg, State.wroteField_reg, State.wrote_reg, hpos]
  cases r with
  | intrl2 x y => cases x <;> cases y <;> simp
  | _ => simp [fieldSet_bit_one]

theorem State.countersSet_hist {s : State} (hpos : s.cfg.pos = {}) :
    s.countersSet.hist = writeEvents [(.intrl2 .c0 .cpuMaskSet, 0xFFFFFFFF), (.intrl2 .c0 .cpuClear, 0xFFFFFFFF),
        (.intrl2 .c1 .cpuMaskSet, 0xFFFFFFFF), (.intrl2 .c1 .cpuClear, 0xFFFFFFFF)]
      (rmwEvents .rbufCtrl [s.reg .rbufCtrl, s.countersSet.reg .rbufCtrl]
        (writeEvents [(.umacMibCtrl, 7), (.umacMibCtrl, 0), (.umacMaxFrameLen, s.countersSet.reg .umacMaxFrameLen)]
          s.hist)) := by
  have hreset : fieldPlace ⟨0, 0⟩ 1 ||| fieldPlace ⟨1, 1⟩ 1 ||| fieldPlace ⟨2, 2⟩ 1 = 7 := by decide
  rw [State.countersSet_reg hpos, State.countersSet_reg hpos]
  simp [State.countersSet, State.masked_hist, State.wrote_reg, hpos, hreset, fieldSet_bit_one, rmwEvents, writeEvents]

/-! ### Steps 8 and 9 -/

/-- The station address has been programmed (R228). -/
def State.stationAddrSet (s : State) : State :=
  (s.wrote .umacMac0 (mac0Word s.cfg.codes s.macAddr)).wrote .umacMac1 (mac1Word s.cfg.codes s.macAddr)

theorem State.stationAddrSet_regsHist (s : State) : s.RegsHist s.stationAddrSet :=
  ((State.RegsHist.refl s).wrote _ _).wrote _ _

theorem seqStationAddr_run {s : State} (hb : s.between = []) : seqStationAddr s = .ok () s.stationAddrSet := by
  simp [seqStationAddr, hWrite_free, RegId.free, RegId.readOnly, RegId.ownedBy, RegId.sideEffect, hb,
    State.stationAddrSet]

theorem State.stationAddrSet_reg {s : State} (hcodes : s.cfg.codes = {}) (r : RegId) :
    s.stationAddrSet.reg r = match r with
      | .umacMac0 => s.macAddr.b0 ++ s.macAddr.b1 ++ s.macAddr.b2 ++ s.macAddr.b3
      | .umacMac1 => (0 : BitVec 16) ++ s.macAddr.b4 ++ s.macAddr.b5
      | _ => s.reg r := by
  have hmac0 : mac0Word {} s.macAddr = _ := packBytes_four s.macAddr.b0 s.macAddr.b1 s.macAddr.b2 s.macAddr.b3
  have hmac1 : mac1Word {} s.macAddr = _ := packBytes_two s.macAddr.b4 s.macAddr.b5
  simp only [State.stationAddrSet, State.wrote_reg, hcodes, hmac0, hmac1]
  cases r <;> simp

theorem State.stationAddrSet_hist (s : State) :
    s.stationAddrSet.hist = writeEvents [(.umacMac0, s.stationAddrSet.reg .umacMac0),
      (.umacMac1, s.stationAddrSet.reg .umacMac1)] s.hist := by
  simp [State.stationAddrSet, State.wrote_reg, writeEvents]

/-- A filter slot has been programmed (R99, R229). -/
def State.slotSet (s : State) (j : Nat) (a : MacAddr) : State :=
  (s.wrote (.umacMdfAddr (2 * j)) (mdfEvenWord s.cfg.codes a)).wrote (.umacMdfAddr (2 * j + 1))
    (mdfOddWord s.cfg.codes a)

theorem mdfWrite_run {s : State} (hb : s.between = []) (j : Nat) (a : MacAddr) :
    mdfWrite j a s = .ok () (s.slotSet j a) := by
  simp [mdfWrite, hWrite_free, RegId.free, RegId.readOnly, RegId.ownedBy, RegId.sideEffect, hb, State.slotSet]

@[simp] theorem State.slotSet_macAddr (s : State) (j : Nat) (a : MacAddr) : (s.slotSet j a).macAddr = s.macAddr := rfl
@[simp] theorem State.slotSet_between (s : State) (j : Nat) (a : MacAddr) : (s.slotSet j a).between = s.between := rfl
@[simp] theorem State.slotSet_cfg (s : State) (j : Nat) (a : MacAddr) : (s.slotSet j a).cfg = s.cfg := rfl

theorem State.slotSet_reg (s : State) (j : Nat) (a : MacAddr) (r : RegId) :
    (s.slotSet j a).reg r = if r = .umacMdfAddr (2 * j + 1) then mdfOddWord s.cfg.codes a
      else if r = .umacMdfAddr (2 * j) then mdfEvenWord s.cfg.codes a else s.reg r := by
  simp only [State.slotSet, State.wrote_reg]

theorem State.slotSet_hist (s : State) (j : Nat) (a : MacAddr) :
    (s.slotSet j a).hist = writeEvents [(.umacMdfAddr (2 * j), mdfEvenWord s.cfg.codes a),
      (.umacMdfAddr (2 * j + 1), mdfOddWord s.cfg.codes a)] s.hist := rfl

/-- Promiscuous mode is off, and the broadcast and the station address are in the two slots enabled (R229). -/
def State.filterSet (s : State) : State :=
  (((s.wroteField .umacCmd s.cfg.pos.promisc 0).slotSet 0 broadcastMac).slotSet 1 s.macAddr).wrote .umacMdfCtrl
    (fieldPlace (mdfEnPos s.cfg 0) 1 ||| fieldPlace (mdfEnPos s.cfg 1) 1)

theorem State.filterSet_regsHist (s : State) : s.RegsHist s.filterSet :=
  ((((((State.RegsHist.refl s).wroteField _ _ _).wrote _ _).wrote _ _).wrote _ _).wrote _ _).wrote _ _

theorem seqFilter_run {s : State} (hb : s.between = []) (hpos : s.cfg.pos = {}) :
    seqFilter s = .ok () s.filterSet := by
  simp [seqFilter, hField_umacCmd_default, mdfWrite_run, hWrite_free, RegId.free, RegId.readOnly, RegId.ownedBy,
    RegId.sideEffect, hb, hpos, State.filterSet]

theorem State.filterSet_reg {s : State} (hpos : s.cfg.pos = {}) (hcodes : s.cfg.codes = {})
    (hslots : s.cfg.mdfSlots = 17) (r : RegId) :
    s.filterSet.reg r = match r with
      | .umacCmd => s.reg .umacCmd &&& ~~~0x10
      | .umacMdfAddr 0 => 0x0000FFFF
      | .umacMdfAddr 1 => 0xFFFFFFFF
      | .umacMdfAddr 2 => (0 : BitVec 16) ++ s.macAddr.b0 ++ s.macAddr.b1
      | .umacMdfAddr 3 => s.macAddr.b2 ++ s.macAddr.b3 ++ s.macAddr.b4 ++ s.macAddr.b5
      | .umacMdfCtrl => 0x00018000
      | _ => s.reg r := by
  have heven : mdfEvenWord {} s.macAddr = _ := packBytes_two s.macAddr.b0 s.macAddr.b1
  have hodd : mdfOddWord {} s.macAddr = _ := packBytes_four s.macAddr.b2 s.macAddr.b3 s.macAddr.b4 s.macAddr.b5
  have heven' : mdfEvenWord {} broadcastMac = 0x0000FFFF := by decide
  have hodd' : mdfOddWord {} broadcastMac = 0xFFFFFFFF := by decide
  have hctrl : fieldPlace (mdfEnPos s.cfg 0) 1 ||| fieldPlace (mdfEnPos s.cfg 1) 1 = 0x00018000 := by
    rw [mdfEnPos, mdfEnPos, hpos, hslots]
    decide
  simp only [State.filterSet, State.slotSet_reg, State.slotSet_cfg, State.wroteField_cfg, State.wroteField_reg,
    State.wrote_reg, hcodes, hctrl, heven, hodd, heven', hodd', hpos, fieldSet_bit_zero]
  cases r with
  | umacMdfAddr j =>
    match j with
    | 0 | 1 | 2 | 3 | _ + 4 => simp
  | _ => simp

/-- The filter's registers are written in turn, the even one of a slot first (log 62). -/
theorem State.filterSet_hist (s : State) :
    s.filterSet.hist = writeEvents ([.umacMdfAddr 0, .umacMdfAddr 1, .umacMdfAddr 2, .umacMdfAddr 3, .umacMdfCtrl].map
      fun r => (r, s.filterSet.reg r)) (rmwEvents .umacCmd [s.reg .umacCmd, s.filterSet.reg .umacCmd] s.hist) := by
  simp [State.filterSet, State.slotSet_hist, State.slotSet_reg, State.wrote_reg, State.wroteField_reg,
    writeEvents, rmwEvents]

/-! ### Steps 12 and 15 -/

/-- Both DMA enables have been set (R232). -/
def State.dmaEnabled (s : State) : State :=
  (s.wroteField (.dmaCtrl .rx) (dmaEnPos .rx s.cfg.pos) 1).wroteField (.dmaCtrl .tx) (dmaEnPos .tx s.cfg.pos) 1

theorem State.dmaEnabled_regsHist (s : State) : s.RegsHist s.dmaEnabled :=
  ((State.RegsHist.refl s).wroteField _ _ _).wroteField _ _ _

theorem seqDmaEnable_run {s : State} (hb : s.between = []) : seqDmaEnable s = .ok () s.dmaEnabled := by
  simp [seqDmaEnable, hField_dmaCtrl, hb, State.dmaEnabled]

theorem State.dmaEnabled_reg {s : State} (hpos : s.cfg.pos = {}) (r : RegId) :
    s.dmaEnabled.reg r = match r with
      | .dmaCtrl _ => s.reg r ||| 1
      | _ => s.reg r := by
  simp only [State.dmaEnabled, State.wroteField_reg, dmaEnPos, dmaPos, hpos, fieldSet_bit_one]
  cases r with
  | dmaCtrl d => cases d <;> simp
  | _ => simp

theorem State.dmaEnabled_hist (s : State) :
    s.dmaEnabled.hist = rmwEvents (.dmaCtrl .tx) [s.reg (.dmaCtrl .tx), s.dmaEnabled.reg (.dmaCtrl .tx)]
      (rmwEvents (.dmaCtrl .rx) [s.reg (.dmaCtrl .rx), s.dmaEnabled.reg (.dmaCtrl .rx)] s.hist) := by
  simp [State.dmaEnabled, State.wroteField_reg, rmwEvents]

/-- Both MAC enables have been set (R235). -/
def State.macEnabled (s : State) : State :=
  (s.wroteField .umacCmd s.cfg.pos.txEn 1).wroteField .umacCmd s.cfg.pos.rxEn 1

theorem State.macEnabled_regsHist (s : State) : s.RegsHist s.macEnabled :=
  ((State.RegsHist.refl s).wroteField _ _ _).wroteField _ _ _

theorem seqMacEnable_run {s : State} (hb : s.between = []) (hpos : s.cfg.pos = {}) :
    seqMacEnable s = .ok () s.macEnabled := by
  simp [seqMacEnable, hField_umacCmd_default, hb, hpos, State.macEnabled]

theorem State.macEnabled_reg {s : State} (hpos : s.cfg.pos = {}) (r : RegId) :
    s.macEnabled.reg r = match r with
      | .umacCmd => s.reg r ||| 3
      | _ => s.reg r := by
  simp only [State.macEnabled, State.wroteField_reg, hpos, fieldSet_bit_one]
  cases r <;> simp [BitVec.or_assoc]

theorem State.macEnabled_hist {s : State} (hpos : s.cfg.pos = {}) :
    s.macEnabled.hist =
      rmwEvents .umacCmd [s.reg .umacCmd, s.reg .umacCmd ||| 1, s.macEnabled.reg .umacCmd] s.hist := by
  simp [State.macEnabled, State.wroteField_reg, hpos, fieldSet_bit_one, rmwEvents]

/-! ### Step 14 -/

/-- `UMAC_CMD` has been programmed from a link, the speed by its code (R234). -/
def State.umacLinked (s : State) (l : LinkStatus) (code : Nat) : State :=
  ((((s.wroteField .umacCmd s.cfg.pos.speed code).wroteField .umacCmd s.cfg.pos.hdEn (bitVal !l.fullDuplex)).wroteField
    .umacCmd s.cfg.pos.rxPauseIgnore (bitVal !l.pause)).wroteField .umacCmd s.cfg.pos.txPauseIgnore
    (bitVal !l.pause)).wroteField .umacCmd s.cfg.pos.crcFwd (bitVal s.cfg.crcFwd)

/-- The RGMII port has been programmed (R234). -/
def State.rgmiiLinked (s : State) : State :=
  ((s.wroteField .extRgmiiOobCtrl s.cfg.pos.oobDisable 0).wroteField .extRgmiiOobCtrl s.cfg.pos.rgmiiLink 1).wroteField
    .extRgmiiOobCtrl s.cfg.pos.rgmiiModeEn 1

theorem State.linked_regsHist (s : State) (l : LinkStatus) (code : Nat) :
    s.RegsHist (s.umacLinked l code).rgmiiLinked :=
  ((((((((State.RegsHist.refl s).wroteField _ _ _).wroteField _ _ _).wroteField _ _ _).wroteField _ _ _).wroteField
    _ _ _).wroteField _ _ _).wroteField _ _ _).wroteField _ _ _

theorem seqLinkProgram_run {s : State} {l : LinkStatus} {code : Nat} (hb : s.between = []) (hpos : s.cfg.pos = {})
    (hlink : s.seqLink = some l) (hcode : speedCode s.cfg.codes l.speed = some code) :
    seqLinkProgram s = .ok () (s.umacLinked l code).rgmiiLinked := by
  simp [seqLinkProgram, codeOfSpeed, hlink, hcode, hField_umacCmd_default, hField_free, RegId.free, RegId.readOnly,
    RegId.ownedBy, RegId.sideEffect, hb, hpos, State.umacLinked, State.rgmiiLinked]

/-- The speed field of a link (R102). -/
def speedBits : LinkSpeed → Word
  | .s1000 => 0x8
  | .s100 => 0x4
  | _ => 0

/-- `UMAC_CMD` after the writes of step 14 one by one: speed, duplex, receive pause, transmit pause (R234). -/
def linkSpeedWord (w : Word) (l : LinkStatus) : Word := (w &&& ~~~0xC) ||| speedBits l.speed
def linkDuplexWord (w : Word) (l : LinkStatus) : Word :=
  (linkSpeedWord w l &&& ~~~0x400) ||| if l.fullDuplex then 0 else 0x400
def linkRxPauseWord (w : Word) (l : LinkStatus) : Word :=
  (linkDuplexWord w l &&& ~~~0x100) ||| if l.pause then 0 else 0x100
def linkTxPauseWord (w : Word) (l : LinkStatus) : Word :=
  (linkRxPauseWord w l &&& ~~~0x10000000) ||| if l.pause then 0 else 0x10000000

/-- `UMAC_CMD` as step 14 leaves it (R102, R234). -/
def linkWord (w : Word) (l : LinkStatus) (crcFwd : Bool) : Word :=
  (w &&& ~~~0x1000054C) ||| speedBits l.speed ||| (if l.fullDuplex then 0 else 0x400) |||
    (if l.pause then 0 else 0x10000100) ||| (if crcFwd then 0x40 else 0)

theorem speedCode_default {x : LinkSpeed} (hx : x ≠ .s0) :
    ∃ code, speedCode {} x = some code ∧ fieldPlace ⟨3, 2⟩ code = speedBits x := by
  cases x with
  | s0 => exact absurd rfl hx
  | s10 | s100 | s1000 => exact ⟨_, rfl, by decide⟩

theorem fieldSet_speed {l : LinkStatus} {code : Nat} (h : fieldPlace ⟨3, 2⟩ code = speedBits l.speed) (w : Word) :
    fieldSet ⟨3, 2⟩ code w = linkSpeedWord w l := congrArg ((w &&& ~~~0xC) ||| ·) h

theorem fieldSet_hdEn (w : Word) (l : LinkStatus) :
    fieldSet ⟨10, 10⟩ (bitVal !l.fullDuplex) (linkSpeedWord w l) = linkDuplexWord w l := fieldSet_bitVal_not 10 _ _

theorem fieldSet_rxPauseIgnore (w : Word) (l : LinkStatus) :
    fieldSet ⟨8, 8⟩ (bitVal !l.pause) (linkDuplexWord w l) = linkRxPauseWord w l := fieldSet_bitVal_not 8 _ _

theorem fieldSet_txPauseIgnore (w : Word) (l : LinkStatus) :
    fieldSet ⟨28, 28⟩ (bitVal !l.pause) (linkRxPauseWord w l) = linkTxPauseWord w l := fieldSet_bitVal_not 28 _ _

/-- The five fields together are one replacement of bits. -/
theorem fieldSet_crcFwd (w : Word) (l : LinkStatus) (crcFwd : Bool) :
    fieldSet ⟨6, 6⟩ (bitVal crcFwd) (linkTxPauseWord w l) = linkWord w l crcFwd := by
  refine (fieldSet_bitVal 6 _ _).trans ?_
  simp only [linkTxPauseWord, linkRxPauseWord, linkDuplexWord, linkSpeedWord, linkWord, replace_replace,
    BitVec.or_assoc]
  refine congrArg₂ (· ||| ·) (congrArg (w &&& ·) (by decide)) ?_
  generalize l.fullDuplex = full, l.pause = pause, l.speed = speed
  revert full pause crcFwd
  cases speed <;> decide

theorem State.umacLinked_reg {s : State} (hpos : s.cfg.pos = {}) {l : LinkStatus} {code : Nat}
    (hcode : fieldPlace ⟨3, 2⟩ code = speedBits l.speed) (r : RegId) :
    (s.umacLinked l code).reg r = if r = .umacCmd then linkWord (s.reg .umacCmd) l s.cfg.crcFwd else s.reg r := by
  simp only [State.umacLinked, State.wroteField_reg, hpos, fieldSet_speed hcode, fieldSet_hdEn,
    fieldSet_rxPauseIgnore, fieldSet_txPauseIgnore, fieldSet_crcFwd, if_true]
  split <;> rfl

theorem State.umacLinked_hist {s : State} (hpos : s.cfg.pos = {}) {l : LinkStatus} {code : Nat}
    (hcode : fieldPlace ⟨3, 2⟩ code = speedBits l.speed) :
    (s.umacLinked l code).hist = rmwEvents .umacCmd [s.reg .umacCmd, linkSpeedWord (s.reg .umacCmd) l,
      linkDuplexWord (s.reg .umacCmd) l, linkRxPauseWord (s.reg .umacCmd) l, linkTxPauseWord (s.reg .umacCmd) l,
      linkWord (s.reg .umacCmd) l s.cfg.crcFwd] s.hist := by
  simp only [State.umacLinked, State.wroteField_reg, State.wroteField_hist, hpos, fieldSet_speed hcode, fieldSet_hdEn,
    fieldSet_rxPauseIgnore, fieldSet_txPauseIgnore, fieldSet_crcFwd, if_true, rmwEvents]

theorem State.rgmiiLinked_reg {s : State} (hpos : s.cfg.pos = {}) (r : RegId) :
    s.rgmiiLinked.reg r = if r = .extRgmiiOobCtrl then (s.reg r &&& ~~~0x20) ||| 0x50 else s.reg r := by
  simp only [State.rgmiiLinked, State.wroteField_reg, hpos, fieldSet_bit_one, fieldSet_bit_zero]
  split <;> simp_all [BitVec.or_assoc]

theorem State.rgmiiLinked_hist {s : State} (hpos : s.cfg.pos = {}) :
    s.rgmiiLinked.hist = rmwEvents .extRgmiiOobCtrl [s.reg .extRgmiiOobCtrl, s.reg .extRgmiiOobCtrl &&& ~~~0x20,
      (s.reg .extRgmiiOobCtrl &&& ~~~0x20) ||| 0x10, s.rgmiiLinked.reg .extRgmiiOobCtrl] s.hist := by
  simp [State.rgmiiLinked, State.wroteField_reg, hpos, fieldSet_bit_one, fieldSet_bit_zero, rmwEvents]

/-- Settles O58: the fields of the two registers, each by a read and a write, from the link kept. -/
theorem seqLinkProgram_holds : Obligations.SeqLinkProgram := by
  intro s hcfg hb hpos hcodes hseq
  refine ⟨fun hnone => ?_, fun l hlink hspeed => ?_⟩
  · have hrun : seqLinkProgram s = .error (.fault .unwrittenRead) s := by simp [seqLinkProgram, hnone]
    exact exec_seqStep_fault hcfg hseq (andNext_error hrun .s14)
  · obtain ⟨code, hcode, hbits⟩ := speedCode_default hspeed
    have hrun := seqLinkProgram_run hb hpos hlink (hcodes ▸ hcode)
    have hpos' : (s.umacLinked l code).cfg.pos = {} := hpos
    have hreg (r : RegId) := State.rgmiiLinked_reg hpos' r
    have hhist := State.rgmiiLinked_hist hpos'
    simp only [State.umacLinked_reg hpos hbits, reduceCtorEq, if_false] at hreg hhist
    rw [State.umacLinked_hist hpos hbits] at hhist
    have hcmd := hreg .umacCmd
    simp only [reduceCtorEq, if_false, if_true] at hcmd
    obtain ⟨t, hexec, hregt, hhistt, hframe⟩ := exec_seqStep_regs hcfg hseq rfl hrun (s.linked_regsHist l code)
    refine ⟨t, hexec, fun r => (hregt r).trans ((hreg r).trans ?_), ?_, hframe⟩
    · cases r <;> rfl
    · rw [hhistt, hregt, hregt, hcmd]
      exact hhist

end Sys2Proof.Machine
end

section
/-! The steps of construction that reset the MAC and read the PHY once for nothing (44_mac_sequencer R223, R224, R226,
R238; 45_link_negotiator R260): what a write of `UMAC_CMD` and a read by MDIO may change. -/

namespace Sys2Proof.Machine

/-! ### The soft reset -/

/-- A draw into each of some registers leaves the others, and moves nothing else but the draws. -/
theorem drawRegs_run (rs : List RegId) (s : State) :
    ∃ t, each rs (fun r => do let w ← drawWord; setReg r w) s = .ok () t ∧ (∀ r, r ∉ rs → t.reg r = s.reg r) ∧
      t = { s with regs := t.regs, tape := t.tape, drawCount := t.drawCount } := by
  induction rs generalizing s with
  | nil => exact ⟨s, rfl, fun _ _ => rfl, rfl⟩
  | cons x rs ih =>
    let drawn : State := { s with tape := s.tape.tail, drawCount := s.drawCount + 1 }
    obtain ⟨t, hrun, hother, hframe⟩ :=
      ih (drawn.setReg x (BitVec.ofNat 32 (s.tape.headD (Config.freeNat s.drawCount))))
    exact ⟨t, by simpa [drawWord, drawNat_run] using hrun, fun r hr =>
      (hother r (List.not_mem_of_not_mem_cons hr)).trans (drawn.reg_setReg_ne _ (List.ne_of_not_mem_cons hr).symm),
      hframe⟩

theorem umacCmd_not_umac (c : Config) : RegId.umacCmd ∉ umacRegs c := by
  simp [umacRegs, mdfAddrRegs]

theorem umacSoftReset_eq (s : State) :
    umacSoftReset s = each (umacRegs s.cfg) (fun r => do let w ← drawWord; setReg r w) s := by
  rw [umacSoftReset, op_bind, gets_run]

/-- The write that clears `SW_RESET` is the soft reset (R292, R238; log 36). -/
theorem writeEffect_umacCmd (old v : Word) (s : State) :
    writeEffect .umacCmd old v s =
      if fieldOn s.cfg.pos.swReset old && !fieldOn s.cfg.pos.swReset v then umacSoftReset s else .ok () s := by
  simp only [writeEffect, op_bind, gets_run, op_ite, op_pure]

/-- `UMAC_CMD` has been written, and with it, where that ended a soft reset, the other UMAC registers (R238). -/
structure State.UmacWritten (s : State) (v : Word) (t : State) : Prop where
  frame : t = { s with
    regs := t.regs, tape := t.tape, drawCount := t.drawCount, hist := .mmioWrite .umacCmd v :: s.hist }
  cmd : t.reg .umacCmd = v
  other : ∀ r, r ≠ .umacCmd → r ∉ umacRegs s.cfg → t.reg r = s.reg r

/-- A write of `UMAC_CMD`, whether it ends a soft reset or not (R238, R292). -/
theorem hWrite_umacCmd {s : State} (hb : s.between = []) (v : Word) :
    ∃ t, hWrite .umacCmd v s = .ok () t ∧ s.UmacWritten v t := by
  have hplain (r : RegId) (hr : r ≠ .umacCmd) : (s.wrote .umacCmd v).reg r = s.reg r :=
    (s.wrote_reg _ v r).trans (if_neg hr)
  have hcmd : (s.wrote .umacCmd v).reg .umacCmd = v := (s.wrote_reg _ v _).trans (if_pos rfl)
  have hwrite : hWrite .umacCmd v s = _ := hWrite_effect hb rfl rfl v
  rw [writeEffect_umacCmd, umacSoftReset_eq] at hwrite
  split at hwrite
  · obtain ⟨t, hrun, hother, hframe⟩ := drawRegs_run (umacRegs s.cfg) (s.wrote .umacCmd v)
    exact ⟨t, hwrite.trans hrun, hframe, (hother _ (umacCmd_not_umac s.cfg)).trans hcmd, fun r hr hnot =>
      (hother r hnot).trans (hplain r hr)⟩
  · exact ⟨s.wrote .umacCmd v, hwrite, rfl, hcmd, fun r hr _ => hplain r hr⟩

/-- The two writes, the hold and the write that ends the soft reset (R223, R226). -/
theorem seqSoftReset_run {s : State} (hb : s.between = []) :
    ∃ t, seqSoftReset s = .ok () t ∧ t.reg .umacCmd = 0 ∧
      (∀ r, r ≠ .umacCmd → r ∉ umacRegs s.cfg → t.reg r = s.reg r) ∧
      t = { s with
        regs := t.regs, tape := t.tape, drawCount := t.drawCount
        hist := .mmioWrite .umacCmd 0 :: .delay .tSwresetHold ::
          .mmioWrite .umacCmd (fieldPlace s.cfg.pos.swReset 1 ||| fieldPlace s.cfg.pos.lclLoopEn 1) ::
          .mmioWrite .umacCmd 0 :: s.hist } := by
  obtain ⟨t, ht, wt⟩ := hWrite_umacCmd hb 0
  have hbt : t.between = [] := by rw [wt.frame]; exact hb
  have hct : t.cfg = s.cfg := by rw [wt.frame]
  obtain ⟨u, hu, wu⟩ := hWrite_umacCmd hbt (fieldPlace s.cfg.pos.swReset 1 ||| fieldPlace s.cfg.pos.lclLoopEn 1)
  have hbu : u.between = [] := by rw [wu.frame]; exact hbt
  have hcu : u.cfg = s.cfg := by rw [wu.frame]; exact hct
  obtain ⟨v, hv, wv⟩ := hWrite_umacCmd (s := u.delayed .tSwresetHold) hbu 0
  refine ⟨v, ?_, wv.cmd, fun r hr hnot => ?_, ?_⟩
  · simp only [seqSoftReset, op_bind, gets_run, ht, hu, hDelay_delayed hbu, hv]
  · calc v.reg r = u.reg r := wv.other r hr (by rwa [State.delayed_cfg, hcu])
      _ = t.reg r := wu.other r hr (by rwa [hct])
      _ = s.reg r := wt.other r hr hnot
  · rw [wv.frame, State.delayed, wu.frame, wt.frame]

/-- Settles O55: each write of `UMAC_CMD` may draw the other UMAC registers, and reaches nothing else. -/
theorem seqSoftResetEffect : Obligations.SeqSoftResetEffect := by
  intro s k hcfg hb hk hseq
  have hstep : seqRun k = andNext k seqSoftReset := by rcases hk with rfl | rfl <;> rfl
  obtain ⟨t, hrun, hcmd, hother, hframe⟩ := seqSoftReset_run hb
  refine ⟨_, exec_seqStep_next hcfg hseq hstep hrun, hcmd, hother, ?_⟩
  rw [hframe]

/-! ### The throwaway read -/

/-- From `s` to `t` only `MDIO_CMD`, the transaction behind it and the draws have moved, and the history has grown. -/
structure State.MdioOnly (s t : State) : Prop where
  frame : t = { s with
    regs := t.regs, mdioWait := t.mdioWait, tape := t.tape, drawCount := t.drawCount, hist := t.hist }
  other : ∀ r, r ≠ .mdioCmd → t.reg r = s.reg r
  hist : s.hist <:+ t.hist

theorem State.MdioOnly.refl (s : State) : s.MdioOnly s := ⟨rfl, fun _ _ => rfl, List.suffix_rfl⟩

theorem State.MdioOnly.trans {s t u : State} (h : s.MdioOnly t) (h' : t.MdioOnly u) : s.MdioOnly u :=
  ⟨by rw [h'.frame, h.frame], fun r hr => (h'.other r hr).trans (h.other r hr), h.hist.trans h'.hist⟩

theorem State.MdioOnly.between {s t : State} (h : s.MdioOnly t) : t.between = s.between := by rw [h.frame]

theorem State.MdioOnly.setReg (s : State) (v : Word) : s.MdioOnly (s.setReg .mdioCmd v) :=
  ⟨rfl, fun _ hr => s.reg_setReg_ne v hr.symm, List.suffix_rfl⟩

theorem State.MdioOnly.emit (s : State) (e : Event) : s.MdioOnly { s with hist := e :: s.hist } :=
  ⟨rfl, fun _ _ => rfl, List.suffix_cons e s.hist⟩

/-- The operation has ended, with a value or with an error of R310, having moved only what MDIO moves since `s`. -/
inductive Answered {α : Type} (s : State) : EStateM.Result Halt State α → Prop where
  | ok (a : α) (t : State) (h : s.MdioOnly t) : Answered s (.ok a t)
  | err (e : Err) (t : State) (h : s.MdioOnly t) : Answered s (.error (.err e) t)

/-- With no agent step in between, the operation moves only what MDIO moves, and ends in no fault and no refusal. -/
def Answers {α : Type} (x : Op α) : Prop := ∀ s : State, s.between = [] → Answered s (x s)

section
variable {α β : Type}

theorem Answered.bind {s : State} {x : Op α} {f : α → Op β} {t : State} (hb : s.between = []) (hx : Answered s (x t))
    (hf : ∀ a, Answers (f a)) : Answered s ((x >>= f) t) := by
  rw [op_bind]
  generalize x t = r at hx
  cases hx with
  | err e u h => exact .err e u h
  | ok a u h =>
    have hnext := hf a u (h.between.trans hb)
    dsimp only
    generalize f a u = r at hnext
    cases hnext with
    | ok b v h' => exact .ok b v (h.trans h')
    | err e v h' => exact .err e v (h.trans h')

theorem Answers.bind {x : Op α} {f : α → Op β} (hx : Answers x) (hf : ∀ a, Answers (f a)) : Answers (x >>= f) :=
  fun s hb => .bind hb (hx s hb) hf

theorem Answers.pure (a : α) : Answers (pure a : Op α) := fun s _ => .ok a s (.refl s)

theorem Answers.gets (f : State → α) : Answers (gets f) := fun s _ => .ok (f s) s (.refl s)

theorem Answers.upd {f : State → State} (h : ∀ s : State, s.MdioOnly (f s)) : Answers (upd f) := fun s _ =>
  .ok () (f s) (h s)

theorem Answers.haltIf (c : Bool) (e : Err) : Answers (haltIf c (.err e)) := fun s _ => by
  cases c with
  | true => exact .err e s (.refl s)
  | false => exact .ok () s (.refl s)

theorem Answers.ite {c : Prop} [Decidable c] {x y : Op α} (hx : Answers x) (hy : Answers y) :
    Answers (if c then x else y) := by
  split <;> assumption

end

theorem answers_emit (e : Event) : Answers (emit e) := .upd fun s => .emit s e
theorem answers_setMdioCmd (v : Word) : Answers (setReg .mdioCmd v) := .upd fun s => .setReg s v
theorem answers_setWait (w : MdioWait) : Answers (upd fun s => { s with mdioWait := w }) :=
  .upd fun _ => ⟨rfl, fun _ _ => rfl, List.suffix_rfl⟩
theorem answers_drawNat : Answers drawNat := fun _ _ => .ok _ _ ⟨rfl, fun _ _ => rfl, List.suffix_rfl⟩

theorem answers_mdioComplete : Answers mdioComplete :=
  (Answers.gets _).bind fun c => (Answers.gets _).bind fun w => by
    dsimp only
    split
    · exact (answers_setMdioCmd _).bind fun _ => (answers_setWait _).bind fun _ => answers_emit _
    · exact (answers_drawNat.bind fun _ => .pure _).bind fun _ => (answers_drawNat.bind fun _ => .pure _).bind fun _ =>
        (answers_setMdioCmd _).bind fun _ => (answers_setWait _).bind fun _ => answers_emit _

theorem answers_mdioStart : Answers mdioStart := answers_drawNat.bind fun n => by
  match n with
  | 0 => exact answers_setWait _
  | 1 => exact answers_mdioComplete
  | _ + 2 => exact answers_setWait _

theorem answers_mdioCount : Answers mdioCount := (Answers.gets _).bind fun w => by
  match w with
  | .busy 0 => exact answers_mdioComplete
  | .busy (_ + 1) => exact answers_setWait _
  | .idle | .forever => exact .pure _

theorem answers_hRead_mdioCmd : Answers (hRead .mdioCmd) := fun s hb => by
  have hread : Answers (mmioRead .mdioCmd) := (Answers.gets _).bind fun _ => (answers_emit _).bind fun _ =>
    answers_mdioCount.bind fun _ => .pure _
  rw [hRead_eq hb]
  exact hread s hb

theorem answers_mdioPoll (c : Config) (n : Nat) : Answers (mdioPoll c n) := by
  induction n with
  | zero => exact answers_hRead_mdioCmd.bind fun _ => (Answers.haltIf _ _).bind fun _ => .pure _
  | succ n ih => exact answers_hRead_mdioCmd.bind fun _ => .ite ih (.pure _)

/-- MDIO_READ with no transaction in progress: its command is written first, and then it polls (R260). -/
theorem mdioRead_answered {s : State} (hb : s.between = []) (hbusy : s.flag .mdioCmd (·.mdioStartBusy) = false)
    (k : Nat) :
    Answered (s.wrote .mdioCmd (mdioCommand s.cfg s.cfg.codes.mdioRead k 0)) (mdioRead k s) := by
  have hwrite (v : Word) : Answered (s.wrote .mdioCmd v) (hWrite .mdioCmd v s) := by
    have heffect : Answers (writeEffect .mdioCmd (s.reg .mdioCmd) v) :=
      (Answers.gets _).bind fun _ => .ite answers_mdioStart (.pure _)
    rw [hWrite_effect (r := .mdioCmd) hb rfl hbusy]
    exact heffect (s.wrote .mdioCmd v) hb
  exact Answered.bind (x := hWrite .mdioCmd _) hb (hwrite _) fun _ => (answers_mdioPoll s.cfg _).bind fun _ =>
    (Answers.haltIf _ _).bind fun _ => .pure _

/-- What comes of the throwaway read is discarded, a value or an error (R224). -/
theorem seqThrowaway_run {s : State} (hb : s.between = []) (hbusy : s.flag .mdioCmd (·.mdioStartBusy) = false) :
    ∃ t, seqThrowaway s = .ok () t ∧
      (s.wrote .mdioCmd (mdioCommand s.cfg s.cfg.codes.mdioRead s.cfg.phy.bmsr 0)).MdioOnly t := by
  have hread := mdioRead_answered hb hbusy s.cfg.phy.bmsr
  generalize hres : mdioRead s.cfg.phy.bmsr s = r at hread
  cases hread with
  | ok a t h => exact ⟨t, by simp [seqThrowaway, attempt_run, hres], h⟩
  | err e t h => exact ⟨t, by simp [seqThrowaway, attempt_run, hres], h⟩

theorem mdioReadCommand_default {c : Config} (hpos : c.pos = {}) (hcodes : c.codes = {}) (k : Nat) :
    mdioCommand c c.codes.mdioRead k 0 = 0x28000000 ||| BitVec.ofNat 32 (c.phyAddr % 32 * 2097152) |||
      BitVec.ofNat 32 (k % 32 * 65536) := by
  simp [mdioCommand, orAll, fieldPlace, fieldWidth, Nat.shiftLeft_eq, hpos, hcodes]

/-! ### The obligations -/

/-- Settles O57: steps 2, 5, 7 and 10 are register writes one by one, and step 4 is the read of the PHY. -/
theorem seqRegisterSteps : Obligations.SeqRegisterSteps := by
  intro s hcfg hb hpos hcodes flush txFlush rd td
  refine ⟨fun hseq => ?_, fun hseq hbusy => ?_, fun hseq => ?_, fun hseq => ?_, fun hseq => ?_⟩
  · obtain ⟨t, hexec, hreg, hhist, hframe⟩ :=
      exec_seqStep_regs hcfg hseq rfl (seqPortMode_run hb) s.portModeSet_regsHist
    refine ⟨t, hexec, fun r => (hreg r).trans (State.portModeSet_reg hpos hcodes r), ?_, hframe⟩
    rw [hhist, hreg, hreg]
    exact s.portModeSet_hist
  · obtain ⟨t, hrun, hmdio⟩ := seqThrowaway_run hb hbusy
    rw [mdioReadCommand_default hpos hcodes] at hmdio
    obtain ⟨es, hes⟩ := hmdio.hist
    refine ⟨_, exec_seqStep_next hcfg hseq rfl hrun, ⟨es, hes.symm⟩, fun r hr => ?_, ?_⟩
    · exact (hmdio.other r hr).trans ((s.wrote_reg _ _ r).trans (if_neg hr))
    · rw [hmdio.frame]
      rfl
  · have hrun : seqRbufFlush s = .ok () (s.pulsed .sysRbufFlushCtrl s.cfg.pos.rbufFlush .tFlushHold) :=
      hPulse_free hb rfl _ _
    rw [hpos] at hrun
    obtain ⟨t, hexec, hreg, hhist, hframe⟩ :=
      exec_seqStep_regs hcfg hseq rfl hrun ((State.RegsHist.refl s).pulsed _ _ _)
    refine ⟨t, hexec, fun r => (hreg r).trans ((s.pulsed_bit_reg _ 1 _ r).trans ?_), ?_, hframe⟩
    · cases r <;> simp
    · exact hhist.trans (s.pulsed_bit_hist _ 1 _)
  · obtain ⟨t, hexec, hreg, hhist, hframe⟩ :=
      exec_seqStep_regs hcfg hseq rfl (seqCounters_run hb hpos) s.countersSet_regsHist
    refine ⟨t, hexec, fun r => (hreg r).trans (State.countersSet_reg hpos r), ?_, hframe⟩
    rw [hhist, hreg, hreg]
    exact State.countersSet_hist hpos
  · obtain ⟨t, hexec, hreg, hhist, hframe⟩ :=
      exec_seqStep_regs hcfg hseq rfl (seqQuiesce_run hb) s.quiesced_regsHist
    exact ⟨t, hexec, fun r => (hreg r).trans (State.quiesced_reg hpos r), hhist.trans (State.quiesced_hist hpos),
      hframe⟩

/-- Settles O56: the words of R98 and R99 at their default shifts, written in turn. -/
theorem seqAddressSteps : Obligations.SeqAddressSteps := by
  intro s hcfg hb hcodes hpos hslots m
  refine ⟨fun hseq => ?_, fun hseq => ?_⟩
  · obtain ⟨t, hexec, hreg, hhist, hframe⟩ :=
      exec_seqStep_regs hcfg hseq rfl (seqStationAddr_run hb) s.stationAddrSet_regsHist
    refine ⟨t, hexec, fun r => (hreg r).trans (State.stationAddrSet_reg hcodes r), ?_, hframe⟩
    rw [hhist, hreg, hreg]
    exact s.stationAddrSet_hist
  · obtain ⟨t, hexec, hreg, hhist, hframe⟩ :=
      exec_seqStep_regs hcfg hseq rfl (seqFilter_run hb hpos) s.filterSet_regsHist
    refine ⟨t, hexec, fun r => (hreg r).trans (State.filterSet_reg hpos hcodes hslots r), ?_, hframe⟩
    simp only [hhist, hreg]
    exact s.filterSet_hist

end Sys2Proof.Machine
end

section
/-! The steps of construction that initialise the rings and set the enables (44_mac_sequencer R231, R232, R235). -/

namespace Sys2Proof.Machine

/-- RX_RING_INIT over software-owned control blocks with good buffers completes, and writes only what is the receive
ring's (R150, R151). -/
theorem rxRingInit_ok {s : State} (hb : s.between = []) (hcanon : s.Canonical) (hoff : s.dmaEn .rx = false)
    (hcb : ∀ i < nDesc, s.cb? .rx i = some { descIndex := i, owner := .sw })
    (hgood : ∀ i < nDesc, badBuffer s.cfg (cbBuf s.cfg .rx i) = false) :
    ∃ t, rxRingInit s = .ok () t ∧ t = { s with
      rx := t.rx, descRx := t.descRx, cbRx := t.cbRx, unsynced := t.unsynced, mem := t.mem, cpuDirty := t.cpuDirty
      cpuStale := t.cpuStale, regs := t.regs, rdmaWp := t.rdmaWp, hist := t.hist } := by
  have hpool : s.poolDone .rx = true := by
    rw [State.poolDone, List.all_eq_true]
    intro i hi
    rw [hcb i (List.mem_range.mp hi)]
    rfl
  obtain ⟨t, hloop, halloc⟩ := allocRxBuffers_run (s := { s with rx := some freshRx }) hb { hcanon with }
    (Nat.le_refl nDesc) hcb hgood
  have hofft : t.dmaEn .rx = false := by rw [halloc.frame]; exact hoff
  have hrun := rxRingInit_run hoff hpool hloop (by rw [halloc.frame]) (by rw [halloc.frame]; exact hb) hofft
  have hregs := t.rxProgrammed_regsOnly
  generalize t.rxProgrammed = u at hrun hregs
  exact ⟨u, hrun, by rw [hregs, halloc.frame]⟩

/-- TX_QUEUES_INIT at step 11 with the transmit pool initialised completes, and writes only what is the transmit rings'
(R180 to R182). -/
theorem txQueuesInit_ok {s : State} (hb : s.between = []) (hpos : s.cfg.pos = {}) (hseq : s.seq = .step .s11)
    (hcb : ∀ i < nDesc, s.cb? .tx i ≠ none) :
    ∃ t, txQueuesInit s = .ok () t ∧ t = { s with
      tx := t.tx, cbTx := t.cbTx, regs := t.regs, tdmaRp := t.tdmaRp, hist := t.hist } := by
  have hpool : s.poolDone .tx = true := by
    rw [State.poolDone, List.all_eq_true]
    exact fun i hi => Option.isSome_iff_ne_none.mpr (hcb i (List.mem_range.mp hi))
  have hstop := s.txStopped_regsOnly
  obtain ⟨t, hloop, ht⟩ := initTxQueues_run txQueues (s := s.txStopped) (by rw [hstop]; exact hb)
    (State.txStopped_dmaEn hpos)
  have hrun := txQueuesInit_run hb hseq hpool hloop (by rw [ht.frame, hstop]) (by rw [ht.frame, hstop]; exact hb)
  have hregs := t.txEnabled_regsOnly (s.reg (.dmaCtrl .tx))
  generalize t.txEnabled (s.reg (.dmaCtrl .tx)) = u at hrun hregs
  exact ⟨u, hrun, by rw [hregs, ht.frame, hstop]⟩

/-- Settles O59: step 11 runs the two initialisations one after the other, and steps 12 and 15 set two fields each. -/
theorem seqEnableSteps : Obligations.SeqEnableSteps := by
  intro s hcfg hb hpos
  refine ⟨fun hseq hcanon _ hoff hcbRx hgood hcbTx => ?_, fun hseq => ?_, fun hseq => ?_⟩
  · obtain ⟨u, hrx, hu⟩ := rxRingInit_ok hb hcanon hoff hcbRx hgood
    have hcfgu : u.cfg = s.cfg := by rw [hu]
    have hcbu : ∀ i < nDesc, u.cb? .tx i ≠ none := fun i hi => by rw [hu]; exact hcbTx i hi
    obtain ⟨t, htx, ht⟩ := txQueuesInit_ok (by rw [hu]; exact hb) (hcfgu ▸ hpos) (by rw [hu]; exact hseq) hcbu
    have hrings : seqRings s = .ok () t := by simp only [seqRings, op_bind, hrx, htx]
    have hrefu : u.refused = s.refused := by rw [hu]
    exact ⟨u, t, exec_rxRingInit_ok hcfg hrx, exec_txQueuesInit_ok (hcfgu ▸ hcfg) htx, hrefu,
      Eq.trans (by rw [ht]) hrefu, exec_seqStep_next hcfg hseq rfl hrings⟩
  · obtain ⟨t, hexec, hreg, hhist, hframe⟩ :=
      exec_seqStep_regs hcfg hseq rfl (seqDmaEnable_run hb) s.dmaEnabled_regsHist
    refine ⟨t, hexec, fun r => (hreg r).trans (State.dmaEnabled_reg hpos r), ?_, hframe⟩
    rw [hhist, hreg, hreg]
    exact s.dmaEnabled_hist
  · obtain ⟨t, hexec, hreg, hhist, hframe⟩ :=
      exec_seqStep_regs hcfg hseq rfl (seqMacEnable_run hb hpos) s.macEnabled_regsHist
    refine ⟨t, hexec, fun r => (hreg r).trans (State.macEnabled_reg hpos r), ?_, hframe⟩
    rw [hhist, hreg]
    exact State.macEnabled_hist hpos

end Sys2Proof.Machine
end

section
/-! One MDIO transaction (45_link_negotiator R260, R261): what the command word asks for, what the block answers, and
how the bounded poll for the answer ends. -/

namespace Sys2Proof.Machine

/-! ### What MDIO leaves behind -/

/-- From `s` to `t` the words `cmds` have been written to `MDIO_CMD`, newest first, and `n` draws have been taken;
besides only what MDIO moves has moved. -/
structure State.Asked (s : State) (cmds : List Word) (n : Nat) (t : State) : Prop where
  only : s.MdioOnly t
  tape : t.tape = s.tape.drop n
  drawCount : t.drawCount = s.drawCount + n
  commands : ∃ es, t.hist = es ++ s.hist ∧ mdioCommands es = cmds

section
variable {s t u : State} {cmds cmds' : List Word} {m n : Nat}

theorem State.Asked.refl (s : State) : s.Asked [] 0 s := ⟨.refl s, rfl, rfl, [], rfl, rfl⟩

theorem State.Asked.trans (h : s.Asked cmds m t) (h' : t.Asked cmds' n u) : s.Asked (cmds' ++ cmds) (m + n) u := by
  obtain ⟨es, hes, hcmds⟩ := h.commands
  obtain ⟨fs, hfs, hcmds'⟩ := h'.commands
  refine ⟨h.only.trans h'.only, ?_, ?_, fs ++ es, ?_, ?_⟩
  · rw [h'.tape, h.tape, List.drop_drop]
  · rw [h'.drawCount, h.drawCount, Nat.add_assoc]
  · rw [hfs, hes, List.append_assoc]
  · rw [mdioCommands_append, hcmds, hcmds']

theorem State.Asked.cfg (h : s.Asked cmds n t) : t.cfg = s.cfg := by rw [h.only.frame]

theorem State.Asked.between (h : s.Asked cmds n t) : t.between = s.between := h.only.between

theorem State.Asked.draw (h : s.Asked cmds n t) (k : Nat) : t.draw k = s.draw (n + k) := by
  rw [State.draw, State.draw, h.tape, h.drawCount, List.drop_drop, Nat.add_assoc]

end

theorem State.Asked.drew (s : State) (n : Nat) : s.Asked [] n (s.drew n) :=
  ⟨⟨rfl, fun _ _ => rfl, List.suffix_rfl⟩, rfl, rfl, [], rfl, rfl⟩

theorem State.Asked.setReg (s : State) (v : Word) : s.Asked [] 0 (s.setReg .mdioCmd v) :=
  ⟨.setReg s v, rfl, rfl, [], rfl, rfl⟩

/-- The state with another wait for the transaction in progress (R260). -/
def State.waitFor (s : State) (w : MdioWait) : State := { s with mdioWait := w }

theorem State.Asked.waitFor (s : State) (w : MdioWait) : s.Asked [] 0 (s.waitFor w) :=
  ⟨⟨rfl, fun _ _ => rfl, List.suffix_rfl⟩, rfl, rfl, [], rfl, rfl⟩

theorem State.Asked.emit (s : State) (e : Event) : s.Asked (mdioCommands [e]) 0 { s with hist := e :: s.hist } :=
  ⟨.emit s e, rfl, rfl, [e], rfl, rfl⟩

theorem State.Asked.wrote (s : State) (cmd : Word) : s.Asked [cmd] 0 (s.wrote .mdioCmd cmd) :=
  (State.Asked.setReg s cmd).trans (State.Asked.emit (s.setReg .mdioCmd cmd) (.mmioWrite .mdioCmd cmd))

theorem mem_mdioCommands {es : List Event} {cmd : Word} :
    cmd ∈ mdioCommands es ↔ .mmioWrite .mdioCmd cmd ∈ es := by
  simp only [mdioCommands, List.mem_filterMap]
  constructor
  · rintro ⟨e, he, hcmd⟩
    split at hcmd
    · cases hcmd
      exact he
    · cases hcmd
  · exact fun he => ⟨_, he, rfl⟩

/-! ### The answer -/

/-- The word that `MDIO_CMD` holds once the transaction it asks for has completed (R260, R261). -/
def State.mdioAnswer (s : State) : Word :=
  fieldSet s.cfg.pos.mdioStartBusy 0
    (if mdioKind s.cfg (s.reg .mdioCmd) = .write then s.reg .mdioCmd
    else fieldSet s.cfg.pos.mdioReadFail (bitVal (s.draw 1 % 2 == 1))
      (fieldSet s.cfg.pos.mdioData (BitVec.ofNat 16 (s.draw 0)).toNat (s.reg .mdioCmd)))

/-- The draws that the completion of the transaction takes (log 19). -/
def State.mdioDraws (s : State) : Nat := if mdioKind s.cfg (s.reg .mdioCmd) = .write then 0 else 2

/-- From `s` to `t` the transaction in progress has completed. -/
structure State.Completed (s t : State) : Prop where
  asked : s.Asked [] s.mdioDraws t
  answer : t.reg .mdioCmd = s.mdioAnswer
  idle : t.mdioWait = .idle

theorem mdioComplete_run (s : State) : ∃ t, mdioComplete s = .ok () t ∧ s.Completed t := by
  have hanswer (u : State) (w : Word) (e : Event) (he : mdioCommands [e] = []) :
      u.Asked [] 0 { u.setReg .mdioCmd w with mdioWait := .idle, hist := e :: u.hist } :=
    ((State.Asked.setReg u w).trans (.waitFor _ .idle)).trans (he ▸ State.Asked.emit _ e)
  cases hkind : mdioKind s.cfg (s.reg .mdioCmd) with
  | write =>
    simp only [mdioComplete, op_bind, gets_run, hkind]
    refine ⟨_, rfl, ?_, ?_, rfl⟩
    · simpa [State.mdioDraws, hkind] using hanswer s _ _ rfl
    · exact (s.reg_setReg_same _ _).trans (by rw [State.mdioAnswer, if_pos hkind])
  | read | other =>
    simp only [mdioComplete, op_bind, gets_run, hkind, drawHalf, drawBool, drawNat_draw, op_pure, State.draw_drew,
      State.drew_drew]
    refine ⟨_, rfl, ?_, ?_, rfl⟩
    · simpa [State.mdioDraws, hkind] using (State.Asked.drew s 2).trans (hanswer _ _ _ rfl)
    · exact (State.reg_setReg_same _ _ _).trans (by simp [State.mdioAnswer, hkind])

/-- What has not touched the command word, nor drawn, leaves the answer. -/
theorem State.Completed.of_asked {s t u : State} (h : s.Asked [] 0 t) (hreg : t.reg .mdioCmd = s.reg .mdioCmd)
    (hu : t.Completed u) : s.Completed u := by
  have hdraws : t.mdioDraws = s.mdioDraws := by rw [State.mdioDraws, h.cfg, hreg, State.mdioDraws]
  have hanswer : t.mdioAnswer = s.mdioAnswer := by
    rw [State.mdioAnswer, h.cfg, hreg, h.draw, h.draw, Nat.zero_add, Nat.zero_add, State.mdioAnswer]
  exact ⟨by simpa [hdraws] using h.trans hu.asked, hu.answer.trans hanswer, hu.idle⟩

/-- The completion clears `START_BUSY`. -/
theorem State.mdioAnswer_free {s : State} (hpos : s.cfg.pos = {}) :
    fieldOn s.cfg.pos.mdioStartBusy s.mdioAnswer = false := by
  rw [hpos, fieldOn, State.mdioAnswer, hpos, fieldGet_fieldSet_same (by decide)]
  rfl

theorem State.Completed.free {s t : State} (hpos : s.cfg.pos = {}) (h : s.Completed t) :
    t.flag .mdioCmd (·.mdioStartBusy) = false := by
  rw [State.flag, h.answer, h.asked.cfg]
  exact State.mdioAnswer_free hpos

/-! ### The poll -/

/-- The host has read `MDIO_CMD`, and `w` is what it still has to wait for. -/
def State.polled (s : State) (w : MdioWait) : State :=
  { s with mdioWait := w, hist := .mmioRead .mdioCmd (s.reg .mdioCmd) :: s.hist }

theorem State.Asked.polled (s : State) (w : MdioWait) : s.Asked [] 0 (s.polled w) :=
  (State.Asked.waitFor s w).trans (State.Asked.emit (s.waitFor w) (.mmioRead .mdioCmd (s.reg .mdioCmd)))

/-- What is left to wait for after one more busy read that is not the last. -/
def MdioWait.next : MdioWait → MdioWait
  | .busy (k + 1) => .busy k
  | w => w

/-- After `n` further busy reads there is still one to come. -/
def MdioWait.Outlasts : MdioWait → Nat → Prop
  | .busy k, n => n < k
  | .forever, _ => True
  | .idle, _ => False

theorem MdioWait.Outlasts.ne_last {w : MdioWait} {n : Nat} (h : w.Outlasts n) : w ≠ .busy 0 := by
  rintro rfl
  exact Nat.not_lt_zero n h

theorem MdioWait.Outlasts.next {w : MdioWait} {n : Nat} (h : w.Outlasts (n + 1)) : w.next.Outlasts n := by
  match w with
  | .busy (k + 1) => exact Nat.lt_of_succ_lt_succ h
  | .forever => trivial

/-- A read of `MDIO_CMD` that is not the last busy one is counted, and else only logged (R65). -/
theorem hRead_mdioCmd_counts {s : State} (hb : s.between = []) (hw : s.mdioWait ≠ .busy 0) :
    hRead .mdioCmd s = .ok (s.reg .mdioCmd) (s.polled s.mdioWait.next) := by
  rw [hRead_eq hb]
  match h : s.mdioWait with
  | .busy 0 => exact absurd h hw
  | .busy (k + 1) => simp [mmioRead, readEffect, mdioCount, h, State.polled, MdioWait.next]
  | .idle => simp [mmioRead, readEffect, mdioCount, h, State.polled, MdioWait.next]
  | .forever => simp [mmioRead, readEffect, mdioCount, h, State.polled, MdioWait.next]

/-- The last busy read returns the word that is still busy, and completes the transaction (R65, R260). -/
theorem hRead_mdioCmd_completes {s : State} (hb : s.between = []) (hw : s.mdioWait = .busy 0) :
    ∃ t, hRead .mdioCmd s = .ok (s.reg .mdioCmd) t ∧ s.Completed t := by
  obtain ⟨t, hrun, ht⟩ := mdioComplete_run (s.polled s.mdioWait)
  refine ⟨t, ?_, ht.of_asked (.polled s _) rfl⟩
  simp only [State.polled, hw] at hrun
  simp [hRead_eq hb, mmioRead, readEffect, mdioCount, hw, hrun]

section
variable {c : Config} {w : Word} {s t : State}

theorem mdioPoll_free (hread : hRead .mdioCmd s = .ok w t) (hfree : fieldOn c.pos.mdioStartBusy w = false) (n : Nat) :
    mdioPoll c n s = .ok w t := by
  cases n <;> simp [mdioPoll, hread, hfree]

theorem mdioPoll_last (hread : hRead .mdioCmd s = .ok w t) (hbusy : fieldOn c.pos.mdioStartBusy w = true) :
    mdioPoll c 0 s = .error (.err .timedOut) t := by
  simp [mdioPoll, hread, hbusy]

theorem mdioPoll_again (hread : hRead .mdioCmd s = .ok w t) (hbusy : fieldOn c.pos.mdioStartBusy w = true) (n : Nat) :
    mdioPoll c (n + 1) s = mdioPoll c n t := by
  simp [mdioPoll, hread, hbusy]

/-- A completed transaction is seen by the next read. -/
theorem mdioPoll_completed (hb : s.between = []) (hpos : s.cfg.pos = {}) (h : s.Completed t) (n : Nat) :
    ∃ u, mdioPoll s.cfg n t = .ok s.mdioAnswer u ∧ s.Completed u := by
  have hread := hRead_mdioCmd_counts (h.asked.between.trans hb) (by rw [h.idle]; exact nofun)
  rw [h.answer, h.idle] at hread
  exact ⟨_, mdioPoll_free hread (State.mdioAnswer_free hpos) n,
    by simpa using h.asked.trans (.polled t (MdioWait.next .idle)), h.answer, rfl⟩

/-- Fewer busy reads than polls: the poll returns the answer. -/
theorem mdioPoll_inTime {k n : Nat} (hk : k < n) (hb : s.between = []) (hpos : s.cfg.pos = {})
    (hbusy : s.flag .mdioCmd (·.mdioStartBusy) = true) (hw : s.mdioWait = .busy k) :
    ∃ t, mdioPoll s.cfg n s = .ok s.mdioAnswer t ∧ s.Completed t := by
  obtain ⟨n, rfl⟩ := Nat.exists_eq_succ_of_ne_zero (Nat.ne_zero_of_lt hk)
  induction k generalizing n s with
  | zero =>
    obtain ⟨t, hread, ht⟩ := hRead_mdioCmd_completes hb hw
    rw [mdioPoll_again hread hbusy]
    exact mdioPoll_completed hb hpos ht n
  | succ k ih =>
    have hread := hRead_mdioCmd_counts hb (by simp [hw])
    rw [hw] at hread
    obtain ⟨n, rfl⟩ := Nat.exists_eq_succ_of_ne_zero (n := n) (by omega)
    obtain ⟨t, hrun, ht⟩ := ih (s := s.polled (.busy k)) hb hpos hbusy rfl n (by omega)
    exact ⟨t, (mdioPoll_again hread hbusy _).trans hrun, ht.of_asked (.polled s _) rfl⟩

/-- As many busy reads as polls: the last poll completes the transaction and still times out. -/
theorem mdioPoll_justLate {n : Nat} (hb : s.between = []) (hbusy : s.flag .mdioCmd (·.mdioStartBusy) = true)
    (hw : s.mdioWait = .busy n) : ∃ t, mdioPoll s.cfg n s = .error (.err .timedOut) t ∧ s.Completed t := by
  induction n generalizing s with
  | zero =>
    obtain ⟨t, hread, ht⟩ := hRead_mdioCmd_completes hb hw
    exact ⟨t, mdioPoll_last hread hbusy, ht⟩
  | succ n ih =>
    have hread := hRead_mdioCmd_counts hb (by simp [hw])
    rw [hw] at hread
    obtain ⟨t, hrun, ht⟩ := ih (s := s.polled (.busy n)) hb hbusy rfl
    exact ⟨t, (mdioPoll_again hread hbusy n).trans hrun, ht.of_asked (.polled s _) rfl⟩

/-- More busy reads than polls: the poll times out, and the transaction goes on. -/
theorem mdioPoll_late {n : Nat} (hb : s.between = []) (hbusy : s.flag .mdioCmd (·.mdioStartBusy) = true)
    (hw : s.mdioWait.Outlasts n) :
    ∃ t, mdioPoll s.cfg n s = .error (.err .timedOut) t ∧ s.Asked [] 0 t := by
  have hread := hRead_mdioCmd_counts hb hw.ne_last
  induction n generalizing s with
  | zero => exact ⟨_, mdioPoll_last hread hbusy, .polled s _⟩
  | succ n ih =>
    obtain ⟨t, hrun, ht⟩ := ih (s := s.polled s.mdioWait.next) hb hbusy hw.next
      (hRead_mdioCmd_counts hb hw.next.ne_last)
    exact ⟨t, (mdioPoll_again hread hbusy n).trans hrun, (State.Asked.polled s _).trans ht⟩

end
end Sys2Proof.Machine
end

section
/-! MDIO_READ and MDIO_WRITE at the default positions (45_link_negotiator R260, R261; 30_encoding R95, R100). -/

namespace Sys2Proof.Machine

/-! ### The transaction -/

/-- The transaction `cmd` asks for has started, and its busy count has been drawn (R260). -/
def State.commanded (s : State) (cmd : Word) : State := (s.wrote .mdioCmd cmd).drew 1

theorem State.Asked.commanded (s : State) (cmd : Word) : s.Asked [cmd] 1 (s.commanded cmd) :=
  (State.Asked.wrote s cmd).trans (.drew _ 1)

theorem State.commanded_reg (s : State) (cmd : Word) : (s.commanded cmd).reg .mdioCmd = cmd :=
  s.reg_setReg_same .mdioCmd cmd

/-- The `k`-th draw, as a busy count, ends the wait within `MDIO_POLL_LIMIT` polls (R260, R361). -/
def State.MdioInTime (s : State) (k : Nat) : Prop := 0 < s.draw k ∧ s.draw k - 1 < s.cfg.mdioPollLimit

/-- At the default tables no transaction is in progress, and no agent step comes in between. -/
structure State.MdioReady (s : State) : Prop where
  between : s.between = []
  pos : s.cfg.pos = {}
  codes : s.cfg.codes = {}
  limit : 1 ≤ s.cfg.mdioPollLimit
  free : s.flag .mdioCmd (·.mdioStartBusy) = false

theorem State.MdioReady.of_asked {s t : State} {cmds : List Word} {n : Nat} (h : s.MdioReady) (ht : s.Asked cmds n t)
    (hfree : t.flag .mdioCmd (·.mdioStartBusy) = false) : t.MdioReady :=
  ⟨ht.between.trans h.between, ht.cfg ▸ h.pos, ht.cfg ▸ h.codes, ht.cfg ▸ h.limit, hfree⟩

@[simp] theorem State.commanded_cfg (s : State) (cmd : Word) : (s.commanded cmd).cfg = s.cfg := rfl

section
variable {s : State} {cmd : Word}

/-- The write of a command starts its transaction by one draw (R260, R292). -/
theorem hWrite_mdioCmd (hs : s.MdioReady) (hcmd : fieldOn s.cfg.pos.mdioStartBusy cmd = true) :
    hWrite .mdioCmd cmd s = mdioStart (s.wrote .mdioCmd cmd) := by
  rw [hWrite_effect (r := .mdioCmd) hs.between rfl hs.free]
  simp [writeEffect, hcmd]

theorem mdioStart_never (h : s.draw 0 = 0) :
    mdioStart (s.wrote .mdioCmd cmd) = .ok () ((s.commanded cmd).waitFor .forever) := by
  have h' : (s.wrote .mdioCmd cmd).draw 0 = 0 := h
  simp only [mdioStart, op_bind, drawNat_draw, h', upd_run, State.commanded, State.waitFor]

theorem mdioStart_atOnce (h : s.draw 0 = 1) :
    mdioStart (s.wrote .mdioCmd cmd) = mdioComplete (s.commanded cmd) := by
  have h' : (s.wrote .mdioCmd cmd).draw 0 = 1 := h
  simp only [mdioStart, op_bind, drawNat_draw, h', State.commanded]

theorem mdioStart_busy {n : Nat} (h : s.draw 0 = n + 2) :
    mdioStart (s.wrote .mdioCmd cmd) = .ok () ((s.commanded cmd).waitFor (.busy n)) := by
  have h' : (s.wrote .mdioCmd cmd).draw 0 = n + 2 := h
  simp only [mdioStart, op_bind, drawNat_draw, h', upd_run, State.commanded, State.waitFor]

/-- A command followed by its poll, as both MDIO operations start. -/
def mdioTransact (cmd : Word) : Op Word := do
  let c ← gets (·.cfg)
  hWrite .mdioCmd cmd
  mdioPoll c (c.mdioPollLimit - 1)

theorem mdioTransact_run {t : State} (hwrite : hWrite .mdioCmd cmd s = .ok () t) (hcfg : t.cfg = s.cfg) :
    mdioTransact cmd s = mdioPoll t.cfg (s.cfg.mdioPollLimit - 1) t := by
  simp [mdioTransact, hwrite, hcfg]

/-- Answered in time: the transaction has completed, and its answer is returned. -/
theorem mdioTransact_inTime (hs : s.MdioReady) (hcmd : fieldOn s.cfg.pos.mdioStartBusy cmd = true)
    (hin : s.MdioInTime 0) :
    ∃ t, mdioTransact cmd s = .ok (s.commanded cmd).mdioAnswer t ∧ (s.commanded cmd).Completed t := by
  obtain ⟨hpos, hlt⟩ := hin
  have hwrite := hWrite_mdioCmd hs hcmd
  match hdraw : s.draw 0 with
  | 0 => omega
  | 1 =>
    obtain ⟨t, hrun, ht⟩ := mdioComplete_run (s.commanded cmd)
    rw [mdioStart_atOnce hdraw] at hwrite
    rw [mdioTransact_run (hwrite.trans hrun) ht.asked.cfg, ht.asked.cfg]
    exact mdioPoll_completed (s := s.commanded cmd) hs.between hs.pos ht _
  | n + 2 =>
    rw [mdioStart_busy hdraw] at hwrite
    rw [mdioTransact_run hwrite rfl]
    have hreg := s.commanded_reg cmd
    obtain ⟨t, hrun, ht⟩ := mdioPoll_inTime (k := n) (n := s.cfg.mdioPollLimit - 1)
      (s := (s.commanded cmd).waitFor (.busy n)) (by omega) hs.between hs.pos
      ((congrArg (fieldOn _) hreg).trans hcmd) rfl
    exact ⟨t, hrun, ht.of_asked (.waitFor _ (.busy n)) rfl⟩

/-- Not answered in time: the operation times out, and only the answer that the last poll brings has been drawn. -/
theorem mdioTransact_late (hs : s.MdioReady) (hcmd : fieldOn s.cfg.pos.mdioStartBusy cmd = true)
    (hlate : ¬ s.MdioInTime 0) :
    ∃ t, mdioTransact cmd s = .error (.err .timedOut) t ∧ (s.commanded cmd).Asked []
      (if s.draw 0 = s.cfg.mdioPollLimit + 1 then (s.commanded cmd).mdioDraws else 0) t := by
  have hwrite := hWrite_mdioCmd hs hcmd
  have hlimit := hs.limit
  have hbusy : fieldOn s.cfg.pos.mdioStartBusy ((s.commanded cmd).reg .mdioCmd) = true :=
    (congrArg (fieldOn _) (s.commanded_reg cmd)).trans hcmd
  have hpast (w : MdioWait) (hw : w.Outlasts (s.cfg.mdioPollLimit - 1)) := mdioPoll_late
    (s := (s.commanded cmd).waitFor w) hs.between hbusy hw
  rw [State.MdioInTime] at hlate
  match hdraw : s.draw 0 with
  | 0 =>
    rw [mdioStart_never hdraw] at hwrite
    rw [mdioTransact_run hwrite rfl, if_neg (Nat.succ_ne_zero _).symm]
    obtain ⟨t, hrun, ht⟩ := hpast .forever trivial
    exact ⟨t, hrun, (State.Asked.waitFor _ _).trans ht⟩
  | 1 => omega
  | n + 2 =>
    rw [mdioStart_busy hdraw] at hwrite
    rw [mdioTransact_run hwrite rfl]
    split
    · next heq =>
      obtain rfl : n = s.cfg.mdioPollLimit - 1 := by omega
      obtain ⟨t, hrun, ht⟩ := mdioPoll_justLate
        (s := (s.commanded cmd).waitFor (.busy (s.cfg.mdioPollLimit - 1))) hs.between hbusy rfl
      exact ⟨t, hrun, (ht.of_asked (.waitFor _ _) rfl).asked⟩
    · next hne =>
      obtain ⟨t, hrun, ht⟩ := hpast (.busy n) (show _ < n by omega)
      exact ⟨t, hrun, (State.Asked.waitFor _ _).trans ht⟩

end

/-! ### Command words at the default positions -/

/-- The bits of a command above its PHY address: the operation, and `START_BUSY`. -/
theorem mdioCommand_getLsbD {c : Config} (hpos : c.pos = {}) (op k : Nat) (data : Half) {i : Nat} (hi : 26 ≤ i)
    (hi' : i < 32) :
    (mdioCommand c op k data).getLsbD i = (decide (i = 29) || (decide (i < 28) && op.testBit (i - 26))) := by
  simp only [mdioCommand, orAll, List.foldl, BitVec.getLsbD_or, getLsbD_fieldPlace _ _ hi', hpos, fieldWidth]
  have hcase : i = 26 ∨ i = 27 ∨ i = 28 ∨ i = 29 ∨ i = 30 ∨ i = 31 := by omega
  rcases hcase with rfl | rfl | rfl | rfl | rfl | rfl <;> simp

theorem mdioCommand_busy {c : Config} (hpos : c.pos = {}) (op k : Nat) (data : Half) :
    fieldOn c.pos.mdioStartBusy (mdioCommand c op k data) = true := by
  rw [hpos]
  exact (fieldOn_bit 29 _).trans (by rw [mdioCommand_getLsbD hpos op k data (by omega) (by omega)]; rfl)

theorem mdioCommand_op {c : Config} (hpos : c.pos = {}) (op k : Nat) (data : Half) :
    fieldGet c.pos.mdioOp (mdioCommand c op k data) = op % 4 := by
  refine Nat.eq_of_testBit_eq fun i => ?_
  rw [testBit_fieldGet, show 4 = 2 ^ 2 from rfl, Nat.testBit_mod_two_pow, hpos]
  by_cases hi : i < 2
  · have hbit := mdioCommand_getLsbD hpos op k data (i := 26 + i) (by omega) (by omega)
    have hne : 26 + i ≠ 29 := by omega
    have hlt : 26 + i < 28 := by omega
    simp [hi, hbit, hne, hlt, fieldWidth]
  · simp [hi, fieldWidth]

/-! ### MDIO_READ -/

/-- The command word of a read (R100). -/
def mdioReadCommand (c : Config) (k : Nat) : Word := mdioCommand c c.codes.mdioRead k 0

/-- From `s` to `t` one transaction, with `n` draws, has come to its end. -/
structure State.Exchanged (s : State) (cmd : Word) (n : Nat) (t : State) : Prop where
  asked : s.Asked [cmd] n t
  free : t.flag .mdioCmd (·.mdioStartBusy) = false
  idle : t.mdioWait = .idle

theorem State.Completed.exchanged {s t : State} {cmd : Word} (hpos : s.cfg.pos = {})
    (h : (s.commanded cmd).Completed t) : s.Exchanged cmd (1 + (s.commanded cmd).mdioDraws) t :=
  ⟨(State.Asked.commanded s cmd).trans h.asked, State.Completed.free (s := s.commanded cmd) hpos h, h.idle⟩

section
variable {s : State}

theorem commanded_mdioReadCommand_kind (hs : s.MdioReady) (k : Nat) :
    mdioKind (s.commanded (mdioReadCommand s.cfg k)).cfg ((s.commanded (mdioReadCommand s.cfg k)).reg .mdioCmd) =
      .read := by
  rw [State.commanded_reg, State.commanded_cfg, mdioKind, mdioReadCommand, mdioCommand_op hs.pos, hs.codes]
  rfl

theorem mdioDraws_read (hs : s.MdioReady) (k : Nat) : (s.commanded (mdioReadCommand s.cfg k)).mdioDraws = 2 := by
  rw [State.mdioDraws, commanded_mdioReadCommand_kind hs]
  rfl

theorem mdioAnswer_read (hs : s.MdioReady) (k : Nat) :
    (s.commanded (mdioReadCommand s.cfg k)).mdioAnswer = fieldSet s.cfg.pos.mdioStartBusy 0
      (fieldSet s.cfg.pos.mdioReadFail (bitVal (s.draw 2 % 2 == 1))
        (fieldSet s.cfg.pos.mdioData (BitVec.ofNat 16 (s.draw 1)).toNat (mdioReadCommand s.cfg k))) := by
  have hasked := State.Asked.commanded s (mdioReadCommand s.cfg k)
  rw [State.mdioAnswer, commanded_mdioReadCommand_kind hs, hasked.draw, hasked.draw, State.commanded_cfg,
    State.commanded_reg]
  rfl

theorem mdioAnswer_read_fail (hs : s.MdioReady) (k : Nat) :
    fieldOn s.cfg.pos.mdioReadFail (s.commanded (mdioReadCommand s.cfg k)).mdioAnswer = (s.draw 2 % 2 == 1) := by
  rw [mdioAnswer_read hs, hs.pos, fieldOn, fieldGet_fieldSet_disjoint (by decide) (by decide),
    fieldGet_fieldSet_same (by decide)]
  cases s.draw 2 % 2 == 1 <;> rfl

theorem mdioAnswer_read_data (hs : s.MdioReady) (k : Nat) :
    BitVec.ofNat 16 (fieldGet s.cfg.pos.mdioData (s.commanded (mdioReadCommand s.cfg k)).mdioAnswer) =
      BitVec.ofNat 16 (s.draw 1) := by
  rw [mdioAnswer_read hs, hs.pos, fieldGet_fieldSet_disjoint (by decide) (by decide),
    fieldGet_fieldSet_disjoint (by decide) (by decide), fieldGet_fieldSet_same (by decide)]
  apply BitVec.eq_of_toNat_eq
  simp [fieldWidth]

theorem mdioRead_eq (k : Nat) (s : State) :
    mdioRead k s = (do
      let w ← mdioTransact (mdioReadCommand s.cfg k)
      haltIf (fieldOn s.cfg.pos.mdioReadFail w) (.err .hwError)
      return BitVec.ofNat 16 (fieldGet s.cfg.pos.mdioData w)) s := by
  simp only [mdioRead, mdioTransact, mdioReadCommand, op_bind, gets_run]
  cases hWrite .mdioCmd (mdioCommand s.cfg s.cfg.codes.mdioRead k 0) s <;> rfl

/-- A read answered in time takes three draws, and gives the second, or `HwError` where the third says so (R260). -/
theorem mdioRead_inTime (hs : s.MdioReady) (hin : s.MdioInTime 0) (k : Nat) :
    ∃ t, mdioRead k s = (if s.draw 2 % 2 = 1 then .error (.err .hwError) t else .ok (BitVec.ofNat 16 (s.draw 1)) t) ∧
      s.Exchanged (mdioReadCommand s.cfg k) 3 t := by
  obtain ⟨t, hrun, ht⟩ := mdioTransact_inTime (cmd := mdioReadCommand s.cfg k) hs (mdioCommand_busy hs.pos ..) hin
  have hend := ht.exchanged hs.pos
  rw [mdioDraws_read hs] at hend
  refine ⟨t, ?_, hend⟩
  rw [mdioRead_eq, op_bind, hrun]
  simp only [op_bind, haltIf_run, mdioAnswer_read_fail hs, beq_iff_eq]
  by_cases hfail : s.draw 2 % 2 = 1 <;> simp [hfail, mdioAnswer_read_data hs]

/-- A read that is not answered in time is `TimedOut` (R260). -/
theorem mdioRead_late (hs : s.MdioReady) (hlate : ¬ s.MdioInTime 0) (k : Nat) :
    ∃ t, mdioRead k s = .error (.err .timedOut) t ∧
      s.Asked [mdioReadCommand s.cfg k] (if s.draw 0 = s.cfg.mdioPollLimit + 1 then 3 else 1) t := by
  obtain ⟨t, hrun, ht⟩ := mdioTransact_late (cmd := mdioReadCommand s.cfg k) hs (mdioCommand_busy hs.pos ..) hlate
  have hasked := (State.Asked.commanded s _).trans ht
  rw [mdioDraws_read hs, add_ite] at hasked
  exact ⟨t, by rw [mdioRead_eq, op_bind, hrun], hasked⟩

end

theorem mdioReadCommand_word {s : State} (hs : s.MdioReady) {k : Nat} (hk : k ≤ 31) :
    mdioReadCommand s.cfg k = 0x28000000 ||| BitVec.ofNat 32 (s.cfg.phyAddr % 32 * 2097152) |||
      BitVec.ofNat 32 (k * 65536) := by
  rw [mdioReadCommand, mdioReadCommand_default hs.pos hs.codes, Nat.mod_eq_of_lt (Nat.lt_succ_of_le hk)]

/-! ### MDIO_WRITE -/

/-- The command word of a write (R100). -/
def mdioWriteCommand (c : Config) (k : Nat) (data : Half) : Word := mdioCommand c c.codes.mdioWrite k data

section
variable {s : State}

theorem commanded_mdioWriteCommand_kind (hs : s.MdioReady) (k : Nat) (data : Half) :
    mdioKind (s.commanded (mdioWriteCommand s.cfg k data)).cfg
      ((s.commanded (mdioWriteCommand s.cfg k data)).reg .mdioCmd) = .write := by
  rw [State.commanded_reg, State.commanded_cfg, mdioKind, mdioWriteCommand, mdioCommand_op hs.pos, hs.codes]
  rfl

theorem mdioAnswer_write (hs : s.MdioReady) (k : Nat) (data : Half) :
    (s.commanded (mdioWriteCommand s.cfg k data)).mdioAnswer = mdioWriteCommand s.cfg k data &&& ~~~0x20000000 := by
  rw [State.mdioAnswer, commanded_mdioWriteCommand_kind hs, if_pos rfl, State.commanded_reg, State.commanded_cfg,
    hs.pos]
  exact fieldSet_bit_zero 29 _

theorem mdioWrite_eq (k : Nat) (data : Half) (s : State) :
    mdioWrite k data s = (do let _ ← mdioTransact (mdioWriteCommand s.cfg k data)) s := by
  simp only [mdioWrite, mdioTransact, mdioWriteCommand, op_bind, gets_run]
  cases hWrite .mdioCmd (mdioCommand s.cfg s.cfg.codes.mdioWrite k data) s <;> rfl

/-- A write completed in time leaves its command with `START_BUSY` clear (R261). -/
theorem mdioWrite_inTime (hs : s.MdioReady) (hin : s.MdioInTime 0) (k : Nat) (data : Half) :
    ∃ t n, mdioWrite k data s = .ok () t ∧ s.Exchanged (mdioWriteCommand s.cfg k data) n t ∧
      t.reg .mdioCmd = mdioWriteCommand s.cfg k data &&& ~~~0x20000000 := by
  obtain ⟨t, hrun, ht⟩ :=
    mdioTransact_inTime (cmd := mdioWriteCommand s.cfg k data) hs (mdioCommand_busy hs.pos ..) hin
  exact ⟨t, _, by rw [mdioWrite_eq, op_bind, hrun]; rfl, ht.exchanged hs.pos,
    ht.answer.trans (mdioAnswer_write hs k data)⟩

/-- A write that is not completed in time is `TimedOut` (R261). -/
theorem mdioWrite_late (hs : s.MdioReady) (hlate : ¬ s.MdioInTime 0) (k : Nat) (data : Half) :
    ∃ t n, mdioWrite k data s = .error (.err .timedOut) t ∧ s.Asked [mdioWriteCommand s.cfg k data] n t := by
  obtain ⟨t, hrun, ht⟩ :=
    mdioTransact_late (cmd := mdioWriteCommand s.cfg k data) hs (mdioCommand_busy hs.pos ..) hlate
  exact ⟨t, _, by rw [mdioWrite_eq, op_bind, hrun], (State.Asked.commanded s _).trans ht⟩

theorem mdioWriteCommand_word (hs : s.MdioReady) {k : Nat} (hk : k ≤ 31) (data : Half) :
    mdioWriteCommand s.cfg k data = 0x24000000 ||| BitVec.ofNat 32 (s.cfg.phyAddr % 32 * 2097152) |||
      BitVec.ofNat 32 (k * 65536) ||| data.setWidth 32 := by
  have hmod : k % 32 = k := Nat.mod_eq_of_lt (Nat.lt_succ_of_le hk)
  have hdata : BitVec.ofNat 32 (data.toNat % 65536) = data.setWidth 32 := by
    rw [Nat.mod_eq_of_lt data.isLt, BitVec.ofNat_toNat]
  simp [mdioWriteCommand, mdioCommand, orAll, fieldPlace, fieldWidth, Nat.shiftLeft_eq, hs.pos, hs.codes, hmod, hdata]

end

/-! ### The two operations -/

/-- What the two operations and LINK_READ_STATUS leave beside their result: only what MDIO moves has moved. -/
theorem State.Asked.frame_result {s t : State} {cmds : List Word} {n : Nat} (h : s.Asked cmds n t) (r : Result) :
    { t with result := r } = { s with
      regs := t.regs, mdioWait := t.mdioWait, tape := t.tape, drawCount := t.drawCount, hist := t.hist
      result := r } := by
  rw [h.only.frame]

theorem State.Asked.mem_hist {s t : State} {cmd : Word} {n : Nat} (h : s.Asked [cmd] n t) :
    ∃ es, t.hist = es ++ s.hist ∧ .mmioWrite .mdioCmd cmd ∈ es := by
  obtain ⟨es, hes, hcmds⟩ := h.commands
  exact ⟨es, hes, mem_mdioCommands.mp (by simp [hcmds])⟩

theorem exec_mdioRead {q : BitVec 8} (hq : q.toNat ≤ 31) (s : State) :
    exec (.mdioRead q) s = runOp (do return .half (← mdioRead q.toNat)) s := by
  have hlegal : legalPhyQ q = true := decide_eq_true hq
  change execMdioRead q s = _
  simp [execMdioRead, runOp_run, hlegal]

/-- Settles O49: the poll ends in time exactly for the busy counts from 1 to `MDIO_POLL_LIMIT`. -/
theorem mdioReadEffect : Obligations.MdioReadEffect := by
  intro q s hq hcfg hb hpos hcodes hfree hlimit cmd inTime
  have hs : s.MdioReady := ⟨hb, hpos, hcodes, hlimit, hfree⟩
  have hcmd : mdioReadCommand s.cfg q.toNat = cmd := mdioReadCommand_word hs hq
  rw [exec_mdioRead hq]
  by_cases hin : inTime
  · obtain ⟨t, hrun, ht⟩ := mdioRead_inTime hs hin q.toNat
    rw [hcmd] at ht
    refine ⟨{ t with result := if s.draw 2 % 2 = 1 then .err .hwError else .half (BitVec.ofNat 16 (s.draw 1)) },
      ?_, fun _ => ⟨rfl, ht.free, ht.idle, ht.asked.drawCount⟩, absurd hin, ht.asked.mem_hist, ht.asked.only.other,
      ht.asked.frame_result _⟩
    split at hrun
    · next hfail => simp [runOp_run, hcfg, hrun, hfail]
    · next hfail => simp [runOp_run, hcfg, hrun, hfail]
  · obtain ⟨t, hrun, ht⟩ := mdioRead_late hs hin q.toNat
    rw [hcmd] at ht
    exact ⟨_, runOp_of_err hcfg (by simp only [op_bind, hrun]), (absurd · hin), fun _ => rfl, ht.mem_hist,
      ht.only.other, ht.frame_result _⟩

theorem exec_mdioWrite {q : BitVec 8} (hq : q.toNat ≤ 31) (s : State) :
    exec (.mdioWrite q) s = runOp (do mdioWrite q.toNat s.args.data; return .ok) s := by
  have hlegal : legalPhyQ q = true := decide_eq_true hq
  change execMdioWrite q s = _
  simp [execMdioWrite, runOp_run, hlegal]

/-- Settles O50: a write completes with no draw of its own, and leaves its command with `START_BUSY` clear. -/
theorem mdioWriteEffect : Obligations.MdioWriteEffect := by
  intro q s hq hcfg hb hpos hcodes hfree hlimit cmd inTime
  have hs : s.MdioReady := ⟨hb, hpos, hcodes, hlimit, hfree⟩
  have hcmd : mdioWriteCommand s.cfg q.toNat s.args.data = cmd := mdioWriteCommand_word hs hq _
  rw [exec_mdioWrite hq]
  by_cases hin : inTime
  · obtain ⟨t, n, hrun, ht, hreg⟩ := mdioWrite_inTime hs hin q.toNat s.args.data
    rw [hcmd] at ht hreg
    exact ⟨_, runOp_of_ok hcfg (by simp only [op_bind, hrun, op_pure]), fun _ => ⟨rfl, hreg, ht.idle⟩, absurd hin,
      ht.asked.mem_hist, ht.asked.only.other, ht.asked.frame_result _⟩
  · obtain ⟨t, n, hrun, ht⟩ := mdioWrite_late hs hin q.toNat s.args.data
    rw [hcmd] at ht
    exact ⟨_, runOp_of_err hcfg (by simp only [op_bind, hrun]), (absurd · hin), fun _ => rfl, ht.mem_hist,
      ht.only.other, ht.frame_result _⟩

end Sys2Proof.Machine
end

section
/-! The link negotiator (45_link_negotiator R262 to R267; 60_exceptions R314): the resolution of speed, duplex and
pause, and LINK_READ_STATUS read by read. -/

namespace Sys2Proof.Machine

/-! ### The resolution -/

/-- A common ability at 1000 is the partner's with the local control two bits below it (R264). -/
theorem phyBit_commonGigabit (stat ctrl : Half) {n : Nat} (hlo : 2 ≤ n) (hhi : n < 16) :
    phyBit (commonGigabit stat ctrl) n = (stat.getLsbD n && ctrl.getLsbD (n - 2)) := by
  simp only [phyBit, commonGigabit, BitVec.getLsbD_and, BitVec.getLsbD_shiftLeft, hhi, Nat.not_lt.mpr hlo, decide_true,
    decide_false, Bool.not_false, Bool.true_and]

theorem phyBit_and (x y : Half) (n : Nat) : phyBit (x &&& y) n = (x.getLsbD n && y.getLsbD n) :=
  BitVec.getLsbD_and

/-- Settles O52: the bits of the two common masks, and the first speed that has one. -/
theorem linkResolutionRule : Obligations.LinkResolutionRule := by
  intro stat ctrl lpa adv gbFull gbHalf both l
  have hfull : phyBit (commonGigabit stat ctrl) 11 = gbFull := phyBit_commonGigabit _ _ (by omega) (by omega)
  have hhalf : phyBit (commonGigabit stat ctrl) 10 = gbHalf := phyBit_commonGigabit _ _ (by omega) (by omega)
  have hboth (n : Nat) : phyBit (lpa &&& adv) n = both n := phyBit_and _ _ n
  refine ⟨rfl, ?_, ?_, rfl⟩
  · simp only [l, resolveLink, hfull, hhalf, hboth, apply_ite Prod.fst]
  · simp only [l, resolveLink, hfull, hhalf, hboth, apply_ite Prod.snd]

/-! ### The reads -/

/-- The PHY register that read `n` of LINK_READ_STATUS names (R267). -/
def linkReg (n : Nat) : Nat := [1, 10, 9, 5, 4].getD n 0

theorem linkReg_le (n : Nat) : linkReg n ≤ 31 := by
  match n with
  | 0 | 1 | 2 | 3 | 4 => decide
  | _ + 5 => exact Nat.zero_le _

section
variable {s : State}

/-- The command word of read `n` (R100). -/
def State.linkCommand (s : State) (n : Nat) : Word :=
  0x28000000 ||| BitVec.ofNat 32 (s.cfg.phyAddr % 32 * 2097152) ||| BitVec.ofNat 32 (linkReg n * 65536)

/-- The command words of the first `m` reads, newest first. -/
def State.linkCommands (s : State) (m : Nat) : List Word := ((List.range m).map s.linkCommand).reverse

/-- Read `n` has failed, by its third draw (R260). -/
def State.LinkFails (s : State) (n : Nat) : Prop := s.draw (3 * n + 2) % 2 = 1

/-- What read `n` gives, its second draw (R260). -/
def State.linkData (s : State) (n : Nat) : Half := BitVec.ofNat 16 (s.draw (3 * n + 1))

/-- LINK_READ_STATUS comes to read `n`: the reads before it succeed, the link is up and the master/slave resolution has
not failed (R262, R263, R314). -/
def State.LinkReaches (s : State) (n : Nat) : Prop :=
  (∀ k < n, s.MdioInTime (3 * k) ∧ ¬ s.LinkFails k) ∧ (0 < n → (s.linkData 0).getLsbD 2 = true) ∧
    (2 < n → (s.linkData 1).getLsbD 15 = false)

theorem State.linkReaches_zero (s : State) : s.LinkReaches 0 :=
  ⟨fun k hk => absurd hk (Nat.not_lt_zero k), fun h => absurd h (Nat.lt_irrefl 0), fun h => absurd h (by omega)⟩

theorem State.LinkReaches.pred {n : Nat} (h : s.LinkReaches (n + 1)) : s.LinkReaches n := by
  obtain ⟨hok, hlink, hmaster⟩ := h
  exact ⟨fun k hk => hok k (by omega), fun _ => hlink (by omega), fun _ => hmaster (by omega)⟩

/-- Where read `n` succeeds as well, all up to it have. -/
theorem State.LinkReaches.through {n : Nat} (h : s.LinkReaches n) (hn : s.MdioInTime (3 * n) ∧ ¬ s.LinkFails n) :
    ∀ k < n + 1, s.MdioInTime (3 * k) ∧ ¬ s.LinkFails k := fun k hk => by
  rcases Nat.lt_succ_iff_lt_or_eq.mp hk with hlt | rfl
  · exact h.1 k hlt
  · exact hn

/-- The state in which read `n` is made. -/
structure State.LinkAt (s : State) (n : Nat) (t : State) : Prop where
  asked : s.Asked (s.linkCommands n) (3 * n) t
  ready : t.MdioReady

theorem State.linkCommands_zero (s : State) : s.linkCommands 0 = [] := rfl

theorem State.LinkAt.zero (hs : s.MdioReady) : s.LinkAt 0 s :=
  ⟨s.linkCommands_zero ▸ State.Asked.refl s, hs⟩

theorem State.linkCommands_succ (s : State) (n : Nat) :
    s.linkCommands (n + 1) = s.linkCommand n :: s.linkCommands n := by
  simp [State.linkCommands, List.range_succ]

theorem State.LinkAt.command {n : Nat} {t : State} (h : s.LinkAt n t) :
    mdioReadCommand t.cfg (linkReg n) = s.linkCommand n := by
  rw [mdioReadCommand_word h.ready (linkReg_le n), h.asked.cfg, State.linkCommand]

theorem State.LinkAt.inTime {n : Nat} {t : State} (h : s.LinkAt n t) : t.MdioInTime 0 ↔ s.MdioInTime (3 * n) := by
  rw [State.MdioInTime, State.MdioInTime, h.asked.draw, h.asked.cfg, Nat.add_zero]

/-- Read `n` answered in time. -/
theorem State.LinkAt.read {n : Nat} {t : State} (h : s.LinkAt n t) (hin : s.MdioInTime (3 * n)) :
    ∃ u, mdioRead (linkReg n) t = (if t.draw 2 % 2 = 1 then .error (.err .hwError) u else .ok (s.linkData n) u) ∧
      s.LinkAt (n + 1) u := by
  obtain ⟨u, hrun, hu⟩ := mdioRead_inTime h.ready (h.inTime.mpr hin) (linkReg n)
  rw [h.asked.draw 1] at hrun
  rw [h.command] at hu
  exact ⟨u, hrun, s.linkCommands_succ n ▸ h.asked.trans hu.asked, h.ready.of_asked hu.asked hu.free⟩

theorem State.LinkAt.read_ok {n : Nat} {t : State} (h : s.LinkAt n t) (hin : s.MdioInTime (3 * n))
    (hok : ¬ s.LinkFails n) : ∃ u, mdioRead (linkReg n) t = .ok (s.linkData n) u ∧ s.LinkAt (n + 1) u := by
  obtain ⟨u, hrun, hu⟩ := h.read hin
  rw [h.asked.draw, if_neg (show ¬ s.draw _ % 2 = 1 from hok)] at hrun
  exact ⟨u, hrun, hu⟩

theorem State.LinkAt.read_failed {n : Nat} {t : State} (h : s.LinkAt n t) (hin : s.MdioInTime (3 * n))
    (hfail : s.LinkFails n) : ∃ u, mdioRead (linkReg n) t = .error (.err .hwError) u ∧ s.LinkAt (n + 1) u := by
  obtain ⟨u, hrun, hu⟩ := h.read hin
  rw [h.asked.draw, if_pos (show s.draw _ % 2 = 1 from hfail)] at hrun
  exact ⟨u, hrun, hu⟩

theorem State.LinkAt.read_late {n : Nat} {t : State} (h : s.LinkAt n t) (hlate : ¬ s.MdioInTime (3 * n)) :
    ∃ u, mdioRead (linkReg n) t = .error (.err .timedOut) u ∧ s.Asked (s.linkCommands (n + 1))
      (3 * n + if s.draw (3 * n) = s.cfg.mdioPollLimit + 1 then 3 else 1) u := by
  obtain ⟨u, hrun, hu⟩ := mdioRead_late h.ready (h.inTime.not.mpr hlate) (linkReg n)
  rw [h.command, h.asked.draw, h.asked.cfg] at hu
  exact ⟨u, hrun, s.linkCommands_succ n ▸ h.asked.trans hu⟩

/-! ### The operation -/

/-- What LINK_READ_STATUS does with the word of read `n`, given those before it (R262, R263). -/
def linkRest (word : Nat → Half) : Nat → Half → Op LinkStatus
  | 0, bmsr => if phyBit bmsr 2 then linkResolve {} else return linkDown
  | 1, stat1000 => do
    let ctrl1000 ← mdioRead 9
    haltIf (phyBit stat1000 15) (.err .hwError)
    let lpa ← mdioRead 5
    let adv ← mdioRead 4
    return resolveLink {} stat1000 ctrl1000 lpa adv
  | 2, ctrl1000 => do
    haltIf (phyBit (word 1) 15) (.err .hwError)
    let lpa ← mdioRead 5
    let adv ← mdioRead 4
    return resolveLink {} (word 1) ctrl1000 lpa adv
  | 3, lpa => do
    let adv ← mdioRead 4
    return resolveLink {} (word 1) (word 2) lpa adv
  | _, adv => return resolveLink {} (word 1) (word 2) (word 3) adv

/-- Past read `n`, if no condition ends it there, comes read `n + 1` (R262). -/
theorem linkRest_step {word : Nat → Half} {n : Nat} (hn : n + 1 < 5) (hlink : 0 < n + 1 → (word 0).getLsbD 2 = true)
    (hmaster : 2 < n + 1 → (word 1).getLsbD 15 = false) (t : State) :
    linkRest word n (word n) t = (mdioRead (linkReg (n + 1)) >>= linkRest word (n + 1)) t := by
  match n with
  | 0 => exact congrFun (if_pos (hlink (by omega))) t
  | 2 =>
    change (haltIf (phyBit (word 1) 15) (.err .hwError) >>= _) t = _
    rw [op_bind, haltIf_run, phyBit, hmaster (by omega)]
    rfl
  | 1 | 3 => rfl

/-- Whenever it comes to read `n`, LINK_READ_STATUS is that read and the rest. -/
theorem linkReadStatus_reaches (hs : s.MdioReady) (hphy : s.cfg.phy = {}) {n : Nat} (hn : n < 5)
    (h : s.LinkReaches n) :
    ∃ t, s.LinkAt n t ∧ linkReadStatus s = (mdioRead (linkReg n) >>= linkRest s.linkData n) t := by
  induction n with
  | zero =>
    refine ⟨s, .zero hs, ?_⟩
    simp only [linkReadStatus, op_bind, gets_run, hphy]
    rfl
  | succ n ih =>
    obtain ⟨t, ht, hrun⟩ := ih (by omega) h.pred
    obtain ⟨hok, hlink, hmaster⟩ := h
    obtain ⟨hin, hsound⟩ := hok n (by omega)
    obtain ⟨u, hread, hu⟩ := ht.read_ok hin hsound
    refine ⟨u, hu, ?_⟩
    rw [hrun, op_bind, hread]
    exact linkRest_step hn hlink hmaster u

/-- Where read `n` succeeds, what is left is the rest after it. -/
theorem linkReadStatus_rest (hs : s.MdioReady) (hphy : s.cfg.phy = {}) {n : Nat} (hn : n < 5) (h : s.LinkReaches n)
    (hok : s.MdioInTime (3 * n) ∧ ¬ s.LinkFails n) :
    ∃ u, linkReadStatus s = linkRest s.linkData n (s.linkData n) u ∧ s.LinkAt (n + 1) u := by
  obtain ⟨t, ht, hrun⟩ := linkReadStatus_reaches hs hphy hn h
  obtain ⟨u, hread, hu⟩ := ht.read_ok hok.1 hok.2
  exact ⟨u, hrun.trans (by rw [op_bind, hread]), hu⟩

/-- LINK_READ_STATUS ends with this result after `m` reads and `n` draws. -/
def State.LinkEnds (s : State) (m n : Nat) (r : Result) : Prop :=
  ∃ t, exec .linkReadStatus s = .next { t with result := r } ∧ s.Asked (s.linkCommands m) n t

theorem State.LinkEnds.of_ok {m n : Nat} {t : State} {l : LinkStatus} (hcfg : configOk s.cfg = true)
    (hrun : linkReadStatus s = .ok l t) (ht : s.Asked (s.linkCommands m) n t) : s.LinkEnds m n (.link l) :=
  ⟨t, runOp_of_ok hcfg (by simp only [op_bind, hrun, op_pure]), ht⟩

theorem State.LinkEnds.of_err {m n : Nat} {t : State} {e : Err} (hcfg : configOk s.cfg = true)
    (hrun : linkReadStatus s = .error (.err e) t) (ht : s.Asked (s.linkCommands m) n t) : s.LinkEnds m n (.err e) :=
  ⟨t, runOp_of_err hcfg (by simp only [op_bind, hrun]), ht⟩

section
variable (hcfg : configOk s.cfg = true) (hs : s.MdioReady) (hphy : s.cfg.phy = {})
include hcfg hs hphy

/-- A read that is not answered in time ends it (R314). -/
theorem linkEnds_late {n : Nat} (hn : n < 5) (h : s.LinkReaches n) (hlate : ¬ s.MdioInTime (3 * n)) :
    s.LinkEnds (n + 1) (3 * n + if s.draw (3 * n) = s.cfg.mdioPollLimit + 1 then 3 else 1) (.err .timedOut) := by
  obtain ⟨t, ht, hrun⟩ := linkReadStatus_reaches hs hphy hn h
  obtain ⟨u, hread, hu⟩ := ht.read_late hlate
  exact .of_err hcfg (hrun.trans (by rw [op_bind, hread])) hu

/-- A read that fails ends it (R314). -/
theorem linkEnds_failed {n : Nat} (hn : n < 5) (h : s.LinkReaches n) (hin : s.MdioInTime (3 * n))
    (hfail : s.LinkFails n) : s.LinkEnds (n + 1) (3 * n + 3) (.err .hwError) := by
  obtain ⟨t, ht, hrun⟩ := linkReadStatus_reaches hs hphy hn h
  obtain ⟨u, hread, hu⟩ := ht.read_failed hin hfail
  exact .of_err hcfg (hrun.trans (by rw [op_bind, hread])) hu.asked

/-- With the link bit clear only `BMSR` is read (R263). -/
theorem linkEnds_down (hok : s.MdioInTime (3 * 0) ∧ ¬ s.LinkFails 0) (hdown : (s.linkData 0).getLsbD 2 = false) :
    s.LinkEnds 1 3 (.link linkDown) := by
  obtain ⟨u, hrun, hu⟩ := linkReadStatus_rest hs hphy (by omega) s.linkReaches_zero hok
  have hrest : linkRest s.linkData 0 (s.linkData 0) u = .ok linkDown u :=
    congrFun (if_neg (Bool.not_eq_true _ ▸ hdown)) u
  exact .of_ok hcfg (hrun.trans hrest) hu.asked

/-- A master/slave failure ends it after three reads (R262). -/
theorem linkEnds_masterFailed (hok : ∀ k < 3, s.MdioInTime (3 * k) ∧ ¬ s.LinkFails k)
    (hlink : (s.linkData 0).getLsbD 2 = true) (hmaster : (s.linkData 1).getLsbD 15 = true) :
    s.LinkEnds 3 9 (.err .hwError) := by
  have h2 : s.LinkReaches 2 := ⟨fun k hk => hok k (by omega), fun _ => hlink, fun h => absurd h (by omega)⟩
  obtain ⟨u, hrun, hu⟩ := linkReadStatus_rest hs hphy (by omega) h2 (hok 2 (by omega))
  have hrest : linkRest s.linkData 2 (s.linkData 2) u = .error (.err .hwError) u := by
    rw [linkRest, op_bind, haltIf_run, phyBit, hmaster]
    rfl
  exact .of_err hcfg (hrun.trans hrest) hu.asked

/-- Five reads that succeed are resolved (R262). -/
theorem linkEnds_up (h : s.LinkReaches 5) :
    s.LinkEnds 5 15 (.link (resolveLink {} (s.linkData 1) (s.linkData 2) (s.linkData 3) (s.linkData 4))) := by
  obtain ⟨u, hrun, hu⟩ := linkReadStatus_rest hs hphy (by omega) h.pred (h.1 4 (by omega))
  exact .of_ok hcfg hrun hu.asked

/-- LINK_READ_STATUS ends in one of these ways. -/
theorem linkEnds_total : ∃ m n r, s.LinkEnds m n r := by
  by_cases hstop : ∃ n < 5, s.LinkReaches n ∧ ¬ (s.MdioInTime (3 * n) ∧ ¬ s.LinkFails n)
  · obtain ⟨n, hn, hreach, hbad⟩ := hstop
    by_cases hin : s.MdioInTime (3 * n)
    · exact ⟨_, _, _, linkEnds_failed hcfg hs hphy hn hreach hin (by tauto)⟩
    · exact ⟨_, _, _, linkEnds_late hcfg hs hphy hn hreach hin⟩
  · have hgood (n : Nat) (hn : n < 5) (h : s.LinkReaches n) : s.MdioInTime (3 * n) ∧ ¬ s.LinkFails n := by
      by_contra hbad
      exact hstop ⟨n, hn, h, hbad⟩
    have hok := hgood 0 (by omega) s.linkReaches_zero
    cases hlink : (s.linkData 0).getLsbD 2 with
    | false => exact ⟨_, _, _, linkEnds_down hcfg hs hphy hok hlink⟩
    | true =>
      have hnext (n : Nat) (hn : n < 5) (h : s.LinkReaches n) (hmaster : 1 < n → (s.linkData 1).getLsbD 15 = false) :
          s.LinkReaches (n + 1) :=
        ⟨h.through (hgood n hn h), fun _ => hlink, fun hlt => hmaster (by omega)⟩
      have h1 := hnext 0 (by omega) s.linkReaches_zero (fun h => absurd h (by omega))
      have h2 := hnext 1 (by omega) h1 (fun h => absurd h (by omega))
      cases hmaster : (s.linkData 1).getLsbD 15 with
      | true =>
        exact ⟨_, _, _, linkEnds_masterFailed hcfg hs hphy (h2.through (hgood 2 (by omega) h2)) hlink hmaster⟩
      | false =>
        have h3 := hnext 2 (by omega) h2 fun _ => hmaster
        have h4 := hnext 3 (by omega) h3 fun _ => hmaster
        exact ⟨_, _, _, linkEnds_up hcfg hs hphy (hnext 4 (by omega) h4 fun _ => hmaster)⟩

end

/-- The state it ends in is the one that its reads and its result say. -/
theorem State.LinkEnds.spec {m n : Nat} {r : Result} {t : State} (h : s.LinkEnds m n r)
    (hexec : exec .linkReadStatus s = .next t) :
    (∃ es, t.hist = es ++ s.hist ∧ mdioCommands es = s.linkCommands m) ∧ t.drawCount = s.drawCount + n ∧
      t.result = r := by
  obtain ⟨u, hu, hasked⟩ := h
  obtain rfl : { u with result := r } = t := Host.Outcome.next.inj (hu.symm.trans hexec)
  exact ⟨hasked.commands, hasked.drawCount, rfl⟩

end

/-- Settles O51: the operation comes to its end in some way, and where the hypotheses of one way hold it is that one. -/
theorem linkReadStatusEffect : Obligations.LinkReadStatusEffect := by
  intro s hcfg hb hpos hcodes hphy hfree hlimit inTime fails reg reached cmd asked
  have hs : s.MdioReady := ⟨hb, hpos, hcodes, hlimit, hfree⟩
  obtain ⟨m, n, r, t, hexec, ht⟩ := linkEnds_total hcfg hs hphy
  refine ⟨_, hexec, fun hin hok hdown => (linkEnds_down hcfg hs hphy ⟨hin, hok⟩ hdown).spec hexec,
    fun hok hlink hmaster => (linkEnds_masterFailed hcfg hs hphy hok hlink hmaster).spec hexec,
    fun h => (linkEnds_up hcfg hs hphy h).spec hexec, fun n hn h hlate => ?_,
    fun n hn h hin hfail => (linkEnds_failed hcfg hs hphy hn h hin hfail).spec hexec, ht.only.other, ht.frame_result _⟩
  obtain ⟨hasked, hdraws, hresult⟩ := (linkEnds_late hcfg hs hphy hn h hlate).spec hexec
  exact ⟨hasked, hresult, hdraws.trans (Nat.add_assoc ..).symm⟩

end Sys2Proof.Machine
end

section
/-! The cache operations of the host, BARRIER and DELAY (46_dma_agents R295 to R299): each is its atomic access under
`runOp`, and what the access leaves is said by `State.Cleaned`, `State.Invalidated` and `State.Flushed`. -/

namespace Sys2Proof.Machine

/-- An operation that returns `Ok(())` leaves the state of its access. -/
theorem runOp_okAfter {op : Op Unit} {s t : State} (hcfg : configOk s.cfg = true) (h : op s = .ok () t) :
    runOp (okAfter op) s = .next { t with result := .ok } :=
  runOp_of_ok hcfg (okAfter_run h)

/-- A range of no byte has no line (R295). -/
theorem inLines_empty (c : Config) (addr : Word) (a : Nat) : inLines c addr 0 a = false := rfl

/-- With the cache off, or over no byte, CACHE_CLEAN is its event (R295). -/
theorem cacheClean_nothing {s : State} {addr : Word} {len : Nat} (h : s.cfg.cacheEnabled = false ∨ len = 0) :
    cacheClean addr len s = .ok () { s with hist := .clean addr len :: s.hist } := by
  cases hcache : s.cfg.cacheEnabled with
  | false => exact cacheClean_off hcache addr len
  | true =>
    obtain rfl : len = 0 := h.resolve_left (by simp [hcache])
    have hin : s.dirtyIn addr 0 = [] := List.filter_eq_nil_iff.mpr fun _ _ => by simp [inLines_empty]
    have hout : s.dirtyOut addr 0 = s.cpuDirty := List.filter_eq_self.mpr fun _ _ => by simp [inLines_empty]
    rw [cacheClean_on hcache, hin, hout, cleanBytes]

/-- Settles O31: `State.Cleaned` says it byte by byte, and over no line the operation is its event alone. -/
theorem cacheCleanEffect : Obligations.CacheCleanEffect := by
  intro s hcfg hcanon
  obtain ⟨t, hrun, ht⟩ := cacheClean_cleaned hcanon.dirty s.args.addr s.args.len
  refine ⟨_, runOp_okAfter hcfg hrun, ht.read, fun a => ?_, fun hnothing => ?_, by rw [ht.frame]⟩
  · cases hcache : s.cfg.cacheEnabled with
    | false => simp [ht.cacheOff hcache]
    | true => simpa using ht.dirty hcache a
  · obtain rfl : { s with hist := .clean s.args.addr s.args.len :: s.hist } = t :=
      (EStateM.Result.ok.inj ((cacheClean_nothing hnothing).symm.trans hrun)).2
    exact ⟨rfl, rfl⟩

/-- Settles O32: a byte of the lines is discarded, and every other is kept. -/
theorem cacheInvalidateEffect : Obligations.CacheInvalidateEffect := by
  intro s hcfg hcanon inside
  obtain ⟨t, hrun, ht⟩ := cacheInvalidate_invalidated hcanon.dirty s.args.addr s.args.len
  refine ⟨_, runOp_okAfter hcfg hrun, fun a hin => ?_, fun a hout => ?_, by rw [ht.frame]⟩
  · have hbyte := ht.discardedAt a hin
    obtain ⟨-, hclean, hfresh⟩ := ht.discardedAt a hin
    exact ⟨hclean, hfresh, hbyte.read_of_clean, fun v => hbyte.read_of_dirty⟩
  · obtain ⟨hmem, hdirty, hstale⟩ := ht.keptAt a hout
    exact ⟨hdirty, hstale, hmem⟩

/-- Settles O33: a byte of the lines is flushed, and every other is kept. -/
theorem cacheCleanInvalidateEffect : Obligations.CacheCleanInvalidateEffect := by
  intro s hcfg hcanon inside
  obtain ⟨t, hrun, ht⟩ := cacheCleanInvalidate_flushed hcanon.dirty s.args.addr s.args.len
  refine ⟨_, runOp_okAfter hcfg hrun, ht.read, fun a hin => (ht.flushedAt hin).2, fun a hout => (ht.keptAt hout).2, ?_⟩
  rw [ht.frame]

/-- Settles O34: each is one update of the history, BARRIER with the words that waited for it. -/
theorem barrierAndDelay : Obligations.BarrierAndDelay :=
  fun s hcfg => ⟨runOp_okAfter hcfg (t := s.barred) rfl, runOp_okAfter hcfg (t := s.delayed s.args.name) rfl⟩

end Sys2Proof.Machine
end

section
/-! REG_READ and REG_WRITE of a register (46_dma_agents R290 to R292; 20_memory R65, R67): what one access does, and the
completion of an MDIO transaction that a read or a write of `MDIO_CMD` may be (45_link_negotiator R260, R261). -/

namespace Sys2Proof.Machine

/-! ### The completion of an MDIO transaction -/

@[simp] theorem State.drew_zero (s : State) : s.drew 0 = s := rfl

/-- The event of a transaction that completes (log 60). -/
def State.mdioEvent (s : State) : Event :=
  let w := s.reg .mdioCmd
  let phyReg := fieldGet s.cfg.pos.mdioRegAddr w
  if mdioKind s.cfg w = .write then .mdio .write phyReg (BitVec.ofNat 16 (fieldGet s.cfg.pos.mdioData w)) false
  else .mdio (mdioKind s.cfg w) phyReg (BitVec.ofNat 16 (s.draw 0)) (s.draw 1 % 2 == 1)

/-- The state in which the transaction in progress has completed (R260, R261). -/
def State.mdioCompleted (s : State) : State :=
  { (s.drew s.mdioDraws).setReg .mdioCmd s.mdioAnswer with mdioWait := .idle, hist := s.mdioEvent :: s.hist }

theorem mdioComplete_eq (s : State) : mdioComplete s = .ok () s.mdioCompleted := by
  cases hkind : mdioKind s.cfg (s.reg .mdioCmd) with
  | write =>
    simp [mdioComplete, hkind, State.mdioCompleted, State.mdioDraws, State.mdioAnswer, State.mdioEvent]
  | read | other =>
    simp [mdioComplete, hkind, State.mdioCompleted, State.mdioDraws, State.mdioAnswer, State.mdioEvent, drawHalf,
      drawBool, drawNat_draw, State.draw_drew, State.drew_drew]
    rfl

theorem State.mdioCompleted_reg (s : State) (x : RegId) :
    s.mdioCompleted.reg x = if x = .mdioCmd then s.mdioAnswer else s.reg x := by
  refine ((s.drew s.mdioDraws).reg_setReg .mdioCmd x _).trans ?_
  simp only [eq_comm]
  rfl

theorem State.mdioEvent_eq (s : State) : ∃ kind phyReg data fail, s.mdioEvent = .mdio kind phyReg data fail := by
  simp only [State.mdioEvent]
  split <;> exact ⟨_, _, _, _, rfl⟩

/-! ### Words at the default positions -/

/-- A field is the number that its bits are. -/
theorem fieldGet_eq_extractLsb' (hi lo : Nat) (w : Word) :
    fieldGet ⟨hi, lo⟩ w = (w.extractLsb' lo (hi + 1 - lo)).toNat := by
  simp [fieldGet, fieldWidth]

/-- The bits that the answer to a read replaces: `DATA`, `READ_FAIL` and `START_BUSY`. -/
theorem mdioReadMask_getLsbD : ∀ i < 32, (0x3000FFFF : Word).getLsbD i = decide (i < 16 ∨ i = 28 ∨ i = 29) := by decide

/-- The answer to a read at the default positions (R95, R260). -/
theorem mdioReadAnswer_word (w : Word) (data : Half) (fail : Bool) :
    fieldSet ⟨29, 29⟩ 0 (fieldSet ⟨28, 28⟩ (bitVal fail) (fieldSet ⟨15, 0⟩ data.toNat w)) =
      (w &&& ~~~0x3000FFFF) ||| data.setWidth 32 ||| (if fail then 0x10000000 else 0) := by
  have hfail : ∀ i < 32, (if fail then (0x10000000 : Word) else 0).getLsbD i = (fail && decide (i = 28)) := by
    cases fail <;> decide
  refine BitVec.eq_of_getLsbD_eq fun i hi => ?_
  simp only [getLsbD_fieldSet _ _ _ hi, fieldWidth, BitVec.getLsbD_or, BitVec.getLsbD_and, BitVec.getLsbD_not, hi,
    mdioReadMask_getLsbD i hi, hfail i hi, BitVec.getLsbD_setWidth, decide_true, Bool.true_and]
  by_cases hdata : i < 16
  · simp [hdata, show ¬ 28 ≤ i by omega, show ¬ 29 ≤ i by omega, show i ≠ 28 by omega]
    rfl
  · have hnone : data.getLsbD i = false := data.getLsbD_of_ge i (by omega)
    by_cases h28 : i = 28
    · cases fail <;> simp [h28, bitVal]
    · by_cases h29 : i = 29
      · simp [h29]
      · simp [hdata, h28, h29, hnone, show ¬ (28 ≤ i ∧ i < 29) by omega, show ¬ (29 ≤ i ∧ i < 30) by omega]

/-! ### One access -/

/-- The host's access names the register `r`: 32 bits wide, aligned, at its offset, under a good configuration (R62,
R290). -/
structure State.Accesses (s : State) (r : RegId) : Prop where
  config : configOk s.cfg = true
  register : accessReg s.args.off s.args.width s = .ok r s

theorem State.Accesses.of_offset {s : State} {r : RegId} (hcfg : configOk s.cfg = true) (hwidth : s.args.width = 32)
    (halign : s.args.off % 4 = 0) (hreg : regAt s.cfg s.args.off = some r) : s.Accesses r :=
  ⟨hcfg, by simp [accessReg, hwidth, halign, hreg]⟩

section
variable {s t : State} {r : RegId}

theorem State.Accesses.regRead (h : s.Accesses r) {w : Word} (hrun : mmioRead r s = .ok w t) :
    exec .regRead s = .next { t with result := .word w } :=
  runOp_of_ok h.config (by simp [Machine.regRead, h.register, hrun])

theorem State.Accesses.regWrite (h : s.Accesses r) (hrun : mmioWrite r s.args.v s = .ok () t) :
    exec .regWrite s = .next { t with result := .ok } :=
  runOp_of_ok h.config (by simp [Machine.regWrite, h.register, hrun])

theorem State.Accesses.regWrite_refused (h : s.Accesses r) (hro : r.readOnly = false)
    (hw : s.writeRefused r = true) : exec .regWrite s = .next s.refuse :=
  runOp_of_refused h.config (by simp [Machine.regWrite, h.register, mmioWrite_refused hro hw])

/-- A write that is not refused stores the word, appends its event and has its side effect (R291, R292). -/
theorem State.Accesses.regWrite_effect (h : s.Accesses r) (hro : r.readOnly = false) (hw : s.writeRefused r = false)
    (heffect : writeEffect r (s.reg r) s.args.v (s.wrote r s.args.v) = .ok () t) :
    exec .regWrite s = .next { t with result := .ok } :=
  h.regWrite ((mmioWrite_run hro hw s.args.v).trans heffect)

end

/-! ### Reads -/

/-- The host has read a register (R290). -/
def State.saw (s : State) (r : RegId) : State := { s with hist := .mmioRead r (s.reg r) :: s.hist }

/-- A read of `MDIO_CMD` that is not the last busy one is counted, and else only logged (R65). -/
theorem mmioRead_mdioCmd_counts {s : State} (hw : s.mdioWait ≠ .busy 0) :
    mmioRead .mdioCmd s = .ok (s.reg .mdioCmd) (s.polled s.mdioWait.next) := by
  match h : s.mdioWait with
  | .busy 0 => exact absurd h hw
  | .busy (k + 1) | .idle | .forever => simp [mmioRead, readEffect, mdioCount, h, State.polled, MdioWait.next]

/-- The last busy read returns the word that is still busy, and completes the transaction (R65, R260). -/
theorem mmioRead_mdioCmd_completes {s : State} (hw : s.mdioWait = .busy 0) :
    mmioRead .mdioCmd s = .ok (s.reg .mdioCmd) (s.saw .mdioCmd).mdioCompleted := by
  simp [mmioRead, readEffect, mdioCount, hw, mdioComplete_eq, State.saw]

/-- The kind of a transaction at the default positions and codes (R95, R100). -/
theorem mdioKind_default {c : Config} (hpos : c.pos = {}) (hcodes : c.codes = {}) (w : Word) :
    mdioKind c w = if w.extractLsb' 26 2 = 2 then .read else if w.extractLsb' 26 2 = 1 then .write else .other := by
  have hop : fieldGet c.pos.mdioOp w = (w.extractLsb' 26 2).toNat := by rw [hpos]; exact fieldGet_eq_extractLsb' ..
  rw [mdioKind, hop, hcodes]
  simp only [BitVec.toNat_eq]
  rfl

/-- The completion of a write at the default positions and codes (R261, log 60). -/
theorem State.mdioCompleted_write {s : State} (hpos : s.cfg.pos = {}) (hcodes : s.cfg.codes = {})
    (hop : (s.reg .mdioCmd).extractLsb' 26 2 = 1) :
    s.mdioCompleted = { s.setReg .mdioCmd (s.reg .mdioCmd &&& ~~~0x20000000) with
      mdioWait := .idle
      hist := .mdio .write ((s.reg .mdioCmd).extractLsb' 16 5).toNat ((s.reg .mdioCmd).setWidth 16) false ::
        s.hist } := by
  have hkind : mdioKind s.cfg (s.reg .mdioCmd) = .write := by rw [mdioKind_default hpos hcodes, hop]; rfl
  have hanswer : s.mdioAnswer = s.reg .mdioCmd &&& ~~~0x20000000 := by
    rw [State.mdioAnswer, if_pos hkind, hpos]
    exact fieldSet_bit_zero 29 _
  have hevent : s.mdioEvent =
      .mdio .write ((s.reg .mdioCmd).extractLsb' 16 5).toNat ((s.reg .mdioCmd).setWidth 16) false := by
    have hdata : BitVec.ofNat 16 (fieldGet ⟨15, 0⟩ (s.reg .mdioCmd)) = (s.reg .mdioCmd).setWidth 16 :=
      BitVec.eq_of_toNat_eq (by simp [fieldGet, fieldWidth])
    simp only [State.mdioEvent]
    rw [if_pos hkind, hpos, fieldGet_eq_extractLsb', hdata]
  rw [State.mdioCompleted, hanswer, hevent, State.mdioDraws, if_pos hkind, State.drew_zero]

/-- The completion of any other transaction at the default positions and codes (R260, log 19). -/
theorem State.mdioCompleted_other {s : State} (hpos : s.cfg.pos = {}) (hcodes : s.cfg.codes = {})
    (hop : (s.reg .mdioCmd).extractLsb' 26 2 ≠ 1) :
    s.mdioCompleted = { (s.drew 2).setReg .mdioCmd ((s.reg .mdioCmd &&& ~~~0x3000FFFF) |||
        (BitVec.ofNat 16 (s.draw 0)).setWidth 32 ||| (if s.draw 1 % 2 == 1 then 0x10000000 else 0)) with
      mdioWait := .idle
      hist := .mdio (if (s.reg .mdioCmd).extractLsb' 26 2 = 2 then .read else .other)
        ((s.reg .mdioCmd).extractLsb' 16 5).toNat (BitVec.ofNat 16 (s.draw 0)) (s.draw 1 % 2 == 1) :: s.hist } := by
  have hkind : mdioKind s.cfg (s.reg .mdioCmd) =
      if (s.reg .mdioCmd).extractLsb' 26 2 = 2 then .read else .other := by
    rw [mdioKind_default hpos hcodes, if_neg hop]
  have hne : mdioKind s.cfg (s.reg .mdioCmd) ≠ .write := by rw [hkind]; split <;> decide
  have hanswer : s.mdioAnswer = (s.reg .mdioCmd &&& ~~~0x3000FFFF) |||
      (BitVec.ofNat 16 (s.draw 0)).setWidth 32 ||| (if s.draw 1 % 2 == 1 then 0x10000000 else 0) := by
    rw [State.mdioAnswer, if_neg hne, hpos]
    exact mdioReadAnswer_word ..
  have hevent : s.mdioEvent = .mdio (if (s.reg .mdioCmd).extractLsb' 26 2 = 2 then .read else .other)
      ((s.reg .mdioCmd).extractLsb' 16 5).toNat (BitVec.ofNat 16 (s.draw 0)) (s.draw 1 % 2 == 1) := by
    simp only [State.mdioEvent]
    rw [if_neg hne, hkind, hpos, fieldGet_eq_extractLsb']
  rw [State.mdioCompleted, hanswer, hevent, State.mdioDraws, if_neg hne]

/-- Settles O25: a read is its word and its event, and for `MDIO_CMD` one busy read; hardware's own writes
are one draw. -/
theorem regReadReturns : Obligations.RegReadReturns := by
  refine ⟨fun s r hcfg hwidth halign hreg => ?_, fun s d => ?_, fun s x => ?_⟩
  · have hacc := State.Accesses.of_offset hcfg hwidth halign hreg
    refine ⟨fun hplain => ?_, fun n hr hbusy => ?_, fun hr hlast hpos hcodes => ?_⟩
    · rcases hplain with hplain | ⟨rfl, hwait⟩
      · exact hacc.regRead (mmioRead_plain hplain s)
      · rw [hacc.regRead (mmioRead_mdioCmd_counts (by rcases hwait with h | h <;> simp [h]))]
        rcases hwait with h | h <;> simp [State.polled, MdioWait.next, h]
    · subst hr
      rw [hacc.regRead (mmioRead_mdioCmd_counts (by simp [hbusy]))]
      simp [State.polled, MdioWait.next, hbusy]
    · subst hr
      intro w op phyReg data fail
      refine ⟨_, hacc.regRead (mmioRead_mdioCmd_completes hlast), fun hop => ?_, fun hop => ?_⟩
      · rw [State.mdioCompleted_write (s := s.saw .mdioCmd) hpos hcodes hop]
        rfl
      · rw [State.mdioCompleted_other (s := s.saw .mdioCmd) hpos hcodes hop]
        rfl
  · simp [agentMove, agentOp, hardwareWrite, setDmaStatus, drawWord, drawNat_draw]
  · simp [agentMove, agentOp, hardwareWrite, setPending, drawNat_draw]
    rfl

/-! ### Writes -/

/-- Settles O28: these are the read-only registers. -/
theorem regWriteReadOnlyIgnored : Obligations.RegWriteReadOnlyIgnored := by
  intro s r hcfg hwidth halign hreg hr
  have hro : r.readOnly = true := by rcases hr with rfl | ⟨d, rfl⟩ | ⟨x, rfl | rfl⟩ <;> rfl
  exact (State.Accesses.of_offset hcfg hwidth halign hreg).regWrite (mmioWrite_readOnly hro _ s)

/-- Settles O26: the write has no side effect, and so leaves only the word and its event. -/
theorem regWriteStores : Obligations.RegWriteStores := by
  intro s r hcfg hwidth halign hreg hro hw hplain
  exact ⟨_, (State.Accesses.of_offset hcfg hwidth halign hreg).regWrite (mmioWrite_plain hro hw hplain _),
    s.wrote_reg r _, rfl⟩

/-- A ring-extent or pointer register is owned in its own direction (R292). -/
theorem ownedBy_extent : ∀ x ∈ [RingReg.startAddr, .endAddr, .readPtr, .writePtr], ∀ (d : Dir) (q : Fin 17),
    (RegId.ring d q x).ownedBy = some d := by
  simp [RegId.ownedBy]

/-- Settles O29: each of these registers is refused by its direction's enable, and `MDIO_CMD` by its own busy bit. -/
theorem regWriteOwnedRefused : Obligations.RegWriteOwnedRefused := by
  intro s r hcfg hwidth halign hreg hr
  have hacc := State.Accesses.of_offset hcfg hwidth halign hreg
  rcases hr with ⟨rfl, hen⟩ | ⟨⟨q, rfl⟩, hen⟩ | ⟨d, q, x, rfl, hx, hen⟩ | ⟨rfl, hbusy⟩
  · exact hacc.regWrite_refused rfl hen
  · exact hacc.regWrite_refused rfl hen
  · have howned : (RegId.ring d q x).ownedBy = some d := ownedBy_extent x hx d q
    exact hacc.regWrite_refused rfl ((writeRefused_of_off (by simp) howned).trans hen)
  · exact hacc.regWrite_refused rfl hbusy

end Sys2Proof.Machine
end

section
/-! The side effects of REG_WRITE (46_dma_agents R292): the agents' pointers, the interrupt controllers, the soft reset
(44_mac_sequencer R238) and the start of an MDIO transaction (45_link_negotiator R260). -/

namespace Sys2Proof.Machine

section
variable {s : State}

/-- A write of the receive ring's `WRITE_PTR` moves RDMA's own pointer. -/
theorem regWrite_rxWritePtr (h : s.Accesses (.ring .rx 16 .writePtr)) (hoff : s.dmaEn .rx = false) :
    exec .regWrite s = .next { s.wrote (.ring .rx 16 .writePtr) s.args.v with
      rdmaWp := s.args.v.toNat / 3, result := .ok } :=
  h.regWrite_effect rfl hoff rfl

/-- A write of a transmit ring's `READ_PTR` moves TDMA's own pointer of that ring. -/
theorem regWrite_txReadPtr {q : Fin 17} (h : s.Accesses (.ring .tx q .readPtr)) (hoff : s.dmaEn .tx = false) :
    exec .regWrite s = .next { s.wrote (.ring .tx q .readPtr) s.args.v with
      tdmaRp := Tab.put s.tdmaRp q.val (s.args.v.toNat / 3), result := .ok } :=
  h.regWrite_effect rfl hoff rfl

/-- A write of an interrupt controller's register sets or clears bits in another one of it. -/
theorem regWrite_intrl {x : IntrlId} {y z : IntrlReg} {f : Word → Word} (hyz : y ≠ z) (h : s.Accesses (.intrl2 x y))
    (hro : (RegId.intrl2 x y).readOnly = false)
    (heffect : ∀ t : State, t.cfg = s.cfg → writeEffect (.intrl2 x y) (s.reg (.intrl2 x y)) s.args.v t =
      .ok () (t.setReg (.intrl2 x z) (f (t.reg (.intrl2 x z))))) :
    exec .regWrite s = .next (({ s.wrote (.intrl2 x y) s.args.v with result := .ok }).setReg (.intrl2 x z)
      (f (s.reg (.intrl2 x z)))) := by
  have hkept : (s.wrote (.intrl2 x y) s.args.v).reg (.intrl2 x z) = s.reg (.intrl2 x z) :=
    s.reg_setReg_ne _ (by simpa using hyz)
  rw [h.regWrite_effect hro rfl (heffect _ rfl), hkept]
  rfl

/-- A write of `UMAC_CMD` that takes `SW_RESET` from 1 to 0 draws the other UMAC registers (R238). -/
theorem mmioWrite_umacCmd_reset {v : Word}
    (hends : (fieldOn s.cfg.pos.swReset (s.reg .umacCmd) && !fieldOn s.cfg.pos.swReset v) = true) :
    ∃ t, mmioWrite .umacCmd v s = .ok () t ∧ s.UmacWritten v t := by
  obtain ⟨t, hrun, hother, hframe⟩ := drawRegs_run (umacRegs s.cfg) (s.wrote .umacCmd v)
  refine ⟨t, ?_, hframe, (hother _ (umacCmd_not_umac s.cfg)).trans (s.reg_setReg_same _ v), fun r hr hnot =>
    (hother r hnot).trans (s.reg_setReg_ne v hr.symm)⟩
  rw [mmioWrite_run rfl (writeRefused_of_unowned (by simp) rfl s), writeEffect_umacCmd]
  refine (if_pos hends).trans ?_
  rw [umacSoftReset_eq]
  exact hrun

/-- A write of `MDIO_CMD` starts a transaction where it sets `START_BUSY` (R260). -/
theorem writeEffect_mdioCmd (old v : Word) (s : State) :
    writeEffect .mdioCmd old v s = if fieldOn s.cfg.pos.mdioStartBusy v then mdioStart s else .ok () s := by
  simp only [writeEffect, op_bind, gets_run, op_ite, op_pure]

end

/-- Settles O30: each register's side effect in turn, the start of a transaction by its one draw. -/
theorem regWriteSideEffects : Obligations.RegWriteSideEffects := by
  intro s r hcfg hwidth halign hreg v sources t
  have hacc := State.Accesses.of_offset hcfg hwidth halign hreg
  refine ⟨?_, ?_, ?_, ?_, ?_, ?_, ?_, ?_⟩
  · rintro rfl hoff
    exact regWrite_rxWritePtr hacc hoff
  · rintro q rfl hoff
    exact regWrite_txReadPtr hacc hoff
  · rintro x rfl
    exact regWrite_intrl (f := (· ||| sources x (·.cpuMaskSet) (·.cpuMaskStatus))) (by decide) hacc rfl
      fun u hu => by simp [writeEffect, setSources, hu, moveField, sources, v]
  · rintro x rfl
    exact regWrite_intrl (f := (· &&& ~~~sources x (·.cpuMaskClear) (·.cpuMaskStatus))) (by decide) hacc rfl
      fun u hu => by simp [writeEffect, clearSources, hu, moveField, sources, v]
  · rintro x rfl
    exact regWrite_intrl (f := (· &&& ~~~sources x (·.cpuClear) (·.cpuStatus))) (by decide) hacc rfl
      fun u hu => by simp [writeEffect, clearSources, hu, moveField, sources, v]
  · intro hpos x
    have hwhole : moveField ⟨31, 0⟩ ⟨31, 0⟩ v = v := moveField_whole v
    simp only [sources, hpos]
    cases x <;> exact ⟨hwhole, hwhole, hwhole⟩
  · rintro rfl ends
    refine ⟨fun hstays => ?_, fun hends => ?_⟩
    · refine hacc.regWrite (mmioWrite_umacCmd ?_)
      simpa [ends, imp_iff_not_or] using hstays
    · obtain ⟨u, hrun, hu⟩ := mmioWrite_umacCmd_reset hends
      refine ⟨_, hacc.regWrite hrun, hu.cmd, hu.other, ?_⟩
      rw [hu.frame]
      rfl
  · rintro rfl hfree
    refine ⟨fun hstop => ?_, fun hstart => ?_⟩
    · exact hacc.regWrite_effect rfl hfree ((writeEffect_mdioCmd ..).trans (if_neg (by simpa using hstop)))
    · have hrun (u : State) (hu : mdioStart (s.wrote .mdioCmd v) = .ok () u) :
          exec .regWrite s = .next { u with result := .ok } :=
        hacc.regWrite_effect rfl hfree (((writeEffect_mdioCmd _ v (s.wrote .mdioCmd v)).trans (if_pos hstart)).trans hu)
      match hdraw : s.draw 0 with
      | 0 => exact ⟨_, hrun _ (mdioStart_never hdraw), fun _ => rfl, nofun, nofun⟩
      | n + 2 =>
        refine ⟨_, hrun _ (mdioStart_busy hdraw), nofun, fun m hm => ?_, fun h => by omega⟩
        obtain rfl : n = m := by omega
        rfl
      | 1 =>
        have hdone : mdioStart (s.wrote .mdioCmd v) = .ok () (s.commanded v).mdioCompleted :=
          (mdioStart_atOnce hdraw).trans (mdioComplete_eq _)
        refine ⟨_, hrun _ hdone, nofun, fun m hm => by omega, fun _ => ⟨rfl, fun hpos => ?_, fun x hx => ?_, ?_, rfl⟩⟩
        · have hanswer : (s.commanded v).mdioCompleted.reg .mdioCmd = (s.commanded v).mdioAnswer := by
            simp [State.mdioCompleted_reg]
          exact (congrArg (fieldOn s.cfg.pos.mdioStartBusy) hanswer).trans
            (State.mdioAnswer_free (s := s.commanded v) hpos)
        · exact ((s.commanded v).mdioCompleted_reg x).trans ((if_neg hx).trans (s.reg_setReg_ne v hx.symm))
        · exact (s.commanded v).mdioEvent_eq.imp fun _ => Exists.imp fun _ => Exists.imp fun _ => Exists.imp fun _ he =>
            congrArg (· :: (s.commanded v).hist) he

end Sys2Proof.Machine
end

section
/-! What a DMA agent reads (20_memory R64, R65, R69): a descriptor fetch, and a buffer with its draws. -/

namespace Sys2Proof.Machine

/-! ### Bytes by draws -/

/-- `draw bytes(n)` gives the next `n` draws, each as a byte (log 6). -/
theorem drawBytes_draw (n : Nat) (s : State) :
    drawBytes n s = .ok ((List.range n).map fun i => BitVec.ofNat 8 (s.draw i)) (s.drew n) := by
  induction n generalizing s with
  | zero => rfl
  | succ n ih =>
    simp [drawBytes, drawByte, drawNat_draw, ih, State.draw_drew, State.drew_drew, List.range_succ_eq_map,
      Nat.add_comm 1, Function.comp_def]

/-- The byte that a DMA read of a buffer gets at its place `k`, the first draw of the read being draw `m` (R64). -/
def State.dmaByte (s : State) (addr : Word) (m k : Nat) : Byte :=
  match Tab.get? s.cpuDirty (byteAddr addr k) with
  | none => s.memByte (byteAddr addr k)
  | some new => if s.draw (m + s.dirtyCount addr k) % 2 = 1 then new else s.memByte (byteAddr addr k)

theorem State.dmaBytes_eq (s : State) (addr : Word) (n m : Nat) :
    s.dmaBytes addr n m = (List.range n).map (s.dmaByte addr m) := rfl

/-- Draws taken before a read move the place of its draws (log 6). -/
theorem State.dmaBytes_drew_hist (s : State) (es : List Event) (addr : Word) (n m k : Nat) :
    { s.drew m with hist := es }.dmaBytes addr n k = s.dmaBytes addr n (m + k) := by
  refine List.map_congr_left fun j _ => ?_
  have hdraw (i : Nat) : { s.drew m with hist := es }.draw (k + i) = s.draw (m + k + i) := by
    rw [Nat.add_assoc]
    exact s.draw_drew m (k + i)
  simp only [hdraw]
  rfl

theorem State.dirtyCount_succ (s : State) (addr : Word) (k : Nat) :
    s.dirtyCount addr (k + 1) =
      s.dirtyCount addr k + if (Tab.get? s.cpuDirty (byteAddr addr k)).isSome then 1 else 0 := by
  simp [State.dirtyCount, List.range_succ, List.countP_singleton]

/-- A DMA read of a byte takes its draw exactly where the byte is dirty (R64). -/
theorem dmaReadByte_place (s : State) (addr : Word) (k : Nat) :
    dmaReadByte (byteAddr addr k) (s.drew (s.dirtyCount addr k)) =
      .ok (s.dmaByte addr 0 k) (s.drew (s.dirtyCount addr (k + 1))) := by
  rw [State.dirtyCount_succ]
  cases hdirty : Tab.get? s.cpuDirty (byteAddr addr k) with
  | none =>
    rw [dmaReadByte_run (s := s.drew _) hdirty, State.dmaByte, hdirty]
    rfl
  | some new =>
    rw [dmaReadByte_dirty (s := s.drew _) hdirty, State.dmaByte, hdirty, State.draw_drew, State.drew_drew,
      Nat.add_comm _ 0]
    rfl

theorem readBytes_dma (s : State) (addr : Word) (k n : Nat) :
    readBytes dmaReadByte addr k n (s.drew (s.dirtyCount addr k)) =
      .ok ((List.range' k n).map (s.dmaByte addr 0)) (s.drew (s.dirtyCount addr (k + n))) := by
  induction n generalizing k with
  | zero => rfl
  | succ n ih =>
    simp only [readBytes, op_bind, dmaReadByte_place, ih, op_pure, List.range'_succ, List.map_cons]
    rw [show k + 1 + n = k + (n + 1) by omega]

/-- A DMA agent reads a buffer: the bytes, by as many draws as there are dirty ones, and the event (R64, R66). -/
theorem dmaRead_run (g : Agent) (addr : Word) (n : Nat) (s : State) :
    dmaRead g addr n s = .ok (s.dmaBytes addr n 0)
      { s.drew (s.dirtyCount addr n) with hist := .memRead g addr (s.dmaBytes addr n 0) :: s.hist } := by
  have hread : readBytes dmaReadByte addr 0 n s = .ok (s.dmaBytes addr n 0) (s.drew (s.dirtyCount addr n)) := by
    simpa [State.dirtyCount, State.dmaBytes_eq, List.range_eq_range'] using readBytes_dma s addr 0 n
  simp only [dmaRead, op_bind, hread, emit_run, op_pure]
  rfl

/-! ### A descriptor fetch -/

/-- A DMA agent has fetched a descriptor as `d` (R65). -/
def State.fetched (s : State) (g : Agent) (dir : Dir) (i : Nat) (d : Desc) : State :=
  { s with hist := .memRead g (descAddr s.cfg dir i) d.bytes :: s.hist }

/-- The fetch of a written descriptor is a fetch of each of its words (R56, R69). -/
theorem fetchDesc_run {g : Agent} {dir : Dir} {i : Nat} {b : Cb} {s t u v : State} {w0 w1 w2 : Word} (hi : i < nDesc)
    (hcb : s.cb? dir i = some b) (h0 : fetchWord dir i .w0 s = .ok w0 t) (h1 : fetchWord dir i .w1 t = .ok w1 u)
    (h2 : fetchWord dir i .w2 u = .ok w2 v) :
    fetchDesc g dir i s = .ok ⟨w0, w1, w2⟩ (v.fetched g dir i ⟨w0, w1, w2⟩) := by
  simp [fetchDesc, inPool, Nat.not_le.mpr hi, readCb, hcb, h0, h1, h2, State.fetched]

/-- With every host write ordered the fetch gives the descriptor, and takes no draw (R69). -/
theorem fetchDesc_synced {g : Agent} {dir : Dir} {i : Nat} {b : Cb} {s : State} (hi : i < nDesc)
    (hcb : s.cb? dir i = some b) (hsync : s.Synced dir i) :
    fetchDesc g dir i s = .ok (s.desc dir i) (s.fetched g dir i (s.desc dir i)) :=
  fetchDesc_run hi hcb (fetchWord_synced (hsync .w0)) (fetchWord_synced (hsync .w1)) (fetchWord_synced (hsync .w2))

/-- Otherwise it gives words that it may see, and moves only the draws and the history (R69, log 13). -/
theorem fetchDesc_mayFetch (g : Agent) {dir : Dir} {i : Nat} {b : Cb} {s : State} (hi : i < nDesc)
    (hcb : s.cb? dir i = some b) :
    ∃ (d : Desc) (n : Nat), fetchDesc g dir i s = .ok d ((s.drew n).fetched g dir i d) ∧
      ∀ k, s.MayFetch dir i k (d.word k) := by
  obtain ⟨w0, n0, hw0, h0⟩ := fetchWord_mayFetch dir i .w0 s
  obtain ⟨w1, n1, hw1, h1⟩ := fetchWord_mayFetch dir i .w1 (s.drew n0)
  obtain ⟨w2, n2, hw2, h2⟩ := fetchWord_mayFetch dir i .w2 ((s.drew n0).drew n1)
  have hrun := fetchDesc_run (g := g) hi hcb h0 h1 h2
  rw [State.drew_drew, State.drew_drew] at hrun
  exact ⟨_, _, hrun, fun | .w0 => hw0 | .w1 => hw1 | .w2 => hw2⟩

end Sys2Proof.Machine
end

section
/-! TDMA_TRANSMIT (46_dma_agents R285 to R287; 30_encoding R94): when it takes no step, and what the step sends. -/

namespace Sys2Proof.Machine

/-! ### When it takes no step -/

theorem tdmaTransmit_off {s : State} (h : s.flag .umacCmd (·.txEn) = false) :
    tdmaTransmit s = .ok .notEnabled s := by
  simp [tdmaTransmit, h]

theorem tdmaTransmit_idle {s t : State} (h : s.flag .umacCmd (·.txEn) = true) (harb : arbSelect s = .ok none t) :
    tdmaTransmit s = .ok .notEnabled t := by
  simp [tdmaTransmit, h, harb]

theorem tdmaTransmit_noRecord {s t : State} {q : TxQueue} (h : s.flag .umacCmd (·.txEn) = true)
    (harb : arbSelect s = .ok (some q) t) (htx : Tab.get? t.tx q.num = none) :
    tdmaTransmit s = .error (.fault .dmaBeforeInit) t := by
  simp [tdmaTransmit, h, harb, htx]

theorem tdmaTransmit_send {s t u : State} {q : TxQueue} {r : TxRing} (h : s.flag .umacCmd (·.txEn) = true)
    (harb : arbSelect s = .ok (some q) t) (htx : Tab.get? t.tx q.num = some r) (hsend : tdmaSend q r t = .ok () u) :
    tdmaTransmit s = .ok .stepped u := by
  simp [tdmaTransmit, h, harb, htx, hsend]

/-- The ring that R192 serves is the arbiter's answer. -/
theorem arbSelect_of_serves {s : State} {q : TxQueue} (h : s.Serves q) :
    arbSelect s = .ok (some q) (s.drew s.arbDraws) := by
  obtain ⟨o, hrun, hserves, -⟩ := arbSelect_spec s
  rw [hrun, (hserves q).mpr h]

/-- With no ring loaded none is eligible, and there is nothing to draw (R191). -/
theorem arbSelect_unloaded {s : State} (h : ∀ q, s.ringLoaded q = false) : arbSelect s = .ok none s := by
  have hnone : s.eligibles = [] := State.eligibles_eq_nil.mpr fun q => by simp [State.eligibleNow, h q]
  have hdraws : txQueues.countP s.drawsThrottle = 0 := List.countP_eq_zero.mpr fun q _ => by
    simp [State.drawsThrottle, h q]
  rw [arbSelect_none hnone, s.arbDraws_none hnone, hdraws, State.drew_zero]

/-- Settles O20: the enable, the arbiter's answer and the ring's record are looked at in this order. -/
theorem tdmaNotEnabled : Obligations.TdmaNotEnabled := by
  refine fun s hcfg => ⟨fun hoff => runOp_of_ok hcfg (tdmaTransmit_off hoff), fun hload => ?_, fun hon hnone => ?_,
    fun q hon hserves htx => ?_⟩
  · cases hen : s.flag .umacCmd (·.txEn) with
    | false => exact runOp_of_ok hcfg (tdmaTransmit_off hen)
    | true => exact runOp_of_ok hcfg (tdmaTransmit_idle hen (arbSelect_unloaded hload))
  · exact runOp_of_ok hcfg (tdmaTransmit_idle hon (arbSelect_none (State.eligibles_eq_nil.mpr hnone)))
  · exact runOp_of_fault hcfg (tdmaTransmit_noRecord hon (arbSelect_of_serves hserves) htx)

/-! ### What it sends -/

/-- A frame with a malformed descriptor is drawn: first its length, then its bytes (R94, log 37). -/
theorem anyBytes_run (s : State) :
    anyBytes s = .ok ((List.range (s.draw 0)).map fun i => BitVec.ofNat 8 (s.draw (1 + i)))
      (s.drew (1 + s.draw 0)) := by
  simp [anyBytes, drawNat_draw, drawBytes_draw, State.draw_drew, State.drew_drew]

/-- The descriptor names a whole frame (R94). -/
abbrev SoundW0 (c : Config) (w0 : Word) : Prop := w0Whole c.desc w0 = true ∧ w0Len c.desc w0 ≠ 0

theorem txBytes_sound {c : Config} {w0 : Word} (h : SoundW0 c w0) (bytes : List Byte) (s : State) :
    txBytes c w0 bytes s = .ok bytes s := by
  simp [txBytes, h.1, h.2]

theorem txBytes_malformed {c : Config} {w0 : Word} (h : ¬ SoundW0 c w0) (bytes : List Byte) (s : State) :
    txBytes c w0 bytes s = anyBytes s := by
  have hbad : (!w0Whole c.desc w0 || w0Len c.desc w0 == 0) = true := by
    simpa [not_and_or, -not_and] using h
  simp [txBytes, hbad]

/-- TDMA has sent a frame of ring `q` and moved to control block `rp` (R286, R287). -/
def State.txSent (s : State) (q : TxQueue) (frame : List Byte) (rp : Nat) : State :=
  let cons := s.reg (.ring .tx q.ring .consIndex)
  { (s.setReg (.ring .tx q.ring .readPtr) (BitVec.ofNat 32 (3 * rp))).setReg (.ring .tx q.ring .consIndex)
      (withIndex cons (indexOf cons + 1)) with
    hist := .txFrame q frame :: s.hist
    tdmaRp := Tab.put s.tdmaRp q.num rp }

theorem ptrWord_eq (p : Nat) : ptrWord p = BitVec.ofNat 32 (3 * p) := by
  rw [ptrWord, Nat.mul_comm]
  rfl

/-- One transmission: the fetch, the read of the buffer, the frame, and the two moves (R286, R287). -/
theorem tdmaSend_run {s t u v : State} {q : TxQueue} {r : TxRing} {cb : Nat} {d : Desc} {read bytes : List Byte}
    (hrp : Tab.get? s.tdmaRp q.num = some cb) (hfetch : fetchDesc .tdma .tx cb s = .ok d t)
    (hread : dmaRead .tdma (descPhys t.cfg d.w2 d.w1) (w0Len t.cfg.desc d.w0) t = .ok read u)
    (hbytes : txBytes t.cfg d.w0 read u = .ok bytes v) :
    tdmaSend q r s = .ok () (v.txSent q (bytes ++ if fieldOn t.cfg.desc.appendCrc d.w0 then fcs bytes else [])
      (ringNext r.cbBase r.endPtr cb)) := by
  have hkept (x : State) (w : Word) :
      (x.setReg (.ring .tx q.ring .readPtr) w).reg (.ring .tx q.ring .consIndex) =
        x.reg (.ring .tx q.ring .consIndex) :=
    x.reg_setReg_ne w (by simp)
  simp only [tdmaSend, op_bind, gets_run, hrp, Option.getD_some, hfetch, hread, hbytes, emit_run, upd_run, bumpIndex,
    ptrWord_eq, hkept]
  rfl

/-- Settles O19: the arbiter's draws, the read's, and where the descriptor is malformed those of the bytes sent. -/
theorem tdmaTransmitEmits : Obligations.TdmaTransmitEmits := by
  intro s q r cb b hcfg hon hserves htx hrp hcb hb hsync d len addr read m sound bytes frame rp cons
  let fetched := (s.drew s.arbDraws).fetched .tdma .tx cb d
  let loaded : State := { s.drew m with hist := .memRead .tdma addr read :: fetched.hist }
  have hfetch : fetchDesc .tdma .tx cb (s.drew s.arbDraws) = .ok d fetched :=
    fetchDesc_synced (s := s.drew _) hcb hb hsync
  have hread : dmaRead .tdma addr len fetched = .ok read loaded := by
    have hbytes : fetched.dmaBytes addr len 0 = read := s.dmaBytes_drew_hist ..
    have hdraws : (s.drew s.arbDraws).drew (s.dirtyCount addr len) = s.drew m := s.drew_drew ..
    rw [dmaRead_run, hbytes]
    exact congrArg (fun x : State => EStateM.Result.ok read { x with hist := .memRead .tdma addr read :: fetched.hist })
      hdraws
  have hbytes : txBytes s.cfg d.w0 read loaded =
      .ok bytes { s.drew (if sound then m else m + 1 + s.draw m) with hist := loaded.hist } := by
    by_cases hsound : sound
    · rw [if_pos hsound, show bytes = read from if_pos hsound]
      exact txBytes_sound hsound _ _
    · have hdrawn : loaded.draw 0 = s.draw m := s.draw_drew m 0
      have hrest (i : Nat) : loaded.draw (1 + i) = s.draw (m + 1 + i) := by
        rw [Nat.add_assoc]
        exact s.draw_drew m (1 + i)
      have hdraws : (s.drew m).drew (1 + s.draw m) = s.drew (m + 1 + s.draw m) :=
        (s.drew_drew ..).trans (congrArg s.drew (Nat.add_assoc m 1 (s.draw m)).symm)
      rw [if_neg hsound, show bytes = _ from if_neg hsound, txBytes_malformed hsound, anyBytes_run, hdrawn, ← hdraws]
      simp only [hrest]
      rfl
  have hsend := tdmaSend_run (s := s.drew _) (r := r) hrp hfetch hread hbytes
  exact runOp_of_ok hcfg (tdmaTransmit_send hon (arbSelect_of_serves hserves) htx hsend)

end Sys2Proof.Machine
end

section
/-! When RDMA takes no step, and when its step is to count a discard (46_dma_agents R280, R283, R284). -/

namespace Sys2Proof.Machine

section
variable {s : State} {f : List Byte}

/-! ### No step -/

theorem rdmaDeliver_disabled (h : s.rdmaEnabled f = false) (st : RxStatus) :
    rdmaDeliver f st s = .ok .notEnabled s := by
  simp [rdmaDeliver, h]

theorem rdmaDrop_disabled (h : s.rdmaEnabled f = false) : rdmaDrop f s = .ok .notEnabled s := by
  simp [rdmaDrop, h]

theorem rdmaDeliver_noRecord (h : s.rdmaEnabled f = true) (hrx : s.rx = none) (st : RxStatus) :
    rdmaDeliver f st s = .error (.fault .dmaBeforeInit) s := by
  simp [rdmaDeliver, h, hrx]

theorem rdmaDrop_noRecord (h : s.rdmaEnabled f = true) (hrx : s.rx = none) :
    rdmaDrop f s = .error (.fault .dmaBeforeInit) s := by
  simp [rdmaDrop, h, hrx]

/-- RDMA_DELIVER waits for a free descriptor (R280). -/
theorem rdmaDeliver_full {r : RxRing} (hrx : s.rx = some r) (hfull : s.rdmaFree r ≤ 0) (st : RxStatus) :
    rdmaDeliver f st s = .ok .notEnabled s := by
  cases h : s.rdmaEnabled f with
  | false => exact rdmaDeliver_disabled h st
  | true => simp [rdmaDeliver, h, hrx, hfull]

/-! ### The discard -/

/-- RDMA has counted a frame that it drops (R283). -/
def State.discarded (s : State) : State :=
  { s.setReg (.ring .rx defaultRing .prodIndex) (fieldSet s.cfg.pos.discardCnt
      (fieldGet s.cfg.pos.discardCnt (s.reg (.ring .rx defaultRing .prodIndex)) + 1)
      (s.reg (.ring .rx defaultRing .prodIndex))) with
    hist := .rxDropped :: s.hist }

theorem rdmaDiscard_run (s : State) : rdmaDiscard s = .ok () s.discarded := by
  simp [rdmaDiscard, State.discarded]

/-- A frame too long for the free descriptors is dropped by RDMA_DELIVER (R282). -/
theorem rdmaDeliver_drops {r : RxRing} (h : s.rdmaEnabled f = true) (hrx : s.rx = some r) (hfree : 0 < s.rdmaFree r)
    (hlong : s.rdmaFree r < (chunkCount (s.storedLen f.length) : Int)) (st : RxStatus) :
    rdmaDeliver f st s = .ok .stepped s.discarded := by
  simp [rdmaDeliver, h, hrx, Int.not_le.mpr hfree, hlong, rdmaDiscard_run]

/-- A frame that fits the free descriptors is stored by RDMA_DELIVER (R281, R282). -/
theorem rdmaDeliver_fills {t : State} {r : RxRing} {st : RxStatus} (h : s.rdmaEnabled f = true) (hrx : s.rx = some r)
    (hfree : 0 < s.rdmaFree r) (hfits : (chunkCount (s.storedLen f.length) : Int) ≤ s.rdmaFree r)
    (hfill : rdmaFill r f st s = .ok () t) : rdmaDeliver f st s = .ok .stepped t := by
  simp [rdmaDeliver, h, hrx, Int.not_le.mpr hfree, Int.not_lt.mpr hfits, hfill]

/-- RDMA_DROP is enabled with no free descriptor, or too few for a frame of several (R280, log 30). -/
theorem rdmaDrop_run {r : RxRing} (h : s.rdmaEnabled f = true) (hrx : s.rx = some r) :
    rdmaDrop f s =
      if s.rdmaFree r = 0 ∨
          1 < chunkCount (s.storedLen f.length) ∧ s.rdmaFree r < (chunkCount (s.storedLen f.length) : Int) then
        .ok .stepped s.discarded
      else .ok .notEnabled s := by
  simp [rdmaDrop, h, hrx, rdmaDiscard_run]

end

/-- The discard counter at the default position counts modulo 65536, and the producer index below it stays (R38,
R51). -/
theorem discardCnt_bump (p : Word) :
    fieldSet ⟨31, 16⟩ (fieldGet ⟨31, 16⟩ p + 1) p =
      (p.extractLsb' 16 16 + 1 : BitVec 16) ++ (p.extractLsb' 0 16 : BitVec 16) := by
  refine BitVec.eq_of_getLsbD_eq fun i hi => ?_
  rw [getLsbD_fieldSet _ _ _ hi, fieldGet_eq_extractLsb', BitVec.getLsbD_append]
  by_cases hlow : i < 16
  · simp [hlow, fieldWidth, show ¬ (16 ≤ i ∧ i < 32) by omega]
  · have hin : 16 ≤ i ∧ i < 16 + fieldWidth ⟨31, 16⟩ := ⟨by omega, hi⟩
    rw [if_pos hin, if_neg hlow, BitVec.getLsbD, BitVec.toNat_add, Nat.testBit_mod_two_pow]
    simp [show i - 16 < 16 by omega]

/-! ### The obligations -/

/-- Settles O23: a cleared enable or a frame filtered out disables both steps, then the record and the free count are
looked at. -/
theorem rdmaNotEnabled : Obligations.RdmaNotEnabled := by
  refine fun s hcfg => ⟨fun hoff => ?_, fun hon hrx => ?_, fun r hrx hfull => ?_⟩
  · have hdisabled : s.rdmaEnabled s.args.frame = false := by
      rcases hoff with h | h | h | h | h <;> simp [State.rdmaEnabled, State.ringEn, defaultRing, h]
    exact ⟨runOp_of_ok hcfg (rdmaDeliver_disabled hdisabled _), runOp_of_ok hcfg (rdmaDrop_disabled hdisabled)⟩
  · exact ⟨runOp_of_fault hcfg (rdmaDeliver_noRecord hon hrx _), runOp_of_fault hcfg (rdmaDrop_noRecord hon hrx)⟩
  · exact runOp_of_ok hcfg (rdmaDeliver_full hrx hfull _)

/-- Settles O24: the discard is one bump of the counter, in each of the cases that R283 and R282 name. -/
theorem rdmaDropCounts : Obligations.RdmaDropCounts := by
  intro s r hcfg hpos hon hrx p k dropped
  have hdropped : { s.discarded with result := .stepped } = dropped := by
    rw [State.discarded, hpos, discardCnt_bump]
  refine ⟨fun hnone => ?_, fun hfree hlong => ⟨?_, ?_⟩, fun hfree hfits => ?_⟩
  · rw [← hdropped]
    exact runOp_of_ok hcfg ((rdmaDrop_run hon hrx).trans (if_pos (.inl hnone)))
  · rw [← hdropped]
    exact runOp_of_ok hcfg ((rdmaDrop_run hon hrx).trans (if_pos (.inr ⟨by omega, hlong⟩)))
  · rw [← hdropped]
    exact runOp_of_ok hcfg (rdmaDeliver_drops hon hrx hfree hlong _)
  · exact runOp_of_ok hcfg ((rdmaDrop_run hon hrx).trans (if_neg (by omega)))

end Sys2Proof.Machine
end

section
/-! A buffer written by a DMA agent off the descriptor pools (20_memory R64; 46_dma_agents R281): what memory and
`cpu_stale` hold of each byte afterwards. -/

namespace Sys2Proof.Machine

/-- From `s` to `t` a DMA agent has written bytes of cacheable memory from `addr` on (R64; logs 14, 15). -/
structure State.DmaStored (s : State) (addr : Word) (bs : List Byte) (t : State) : Prop where
  outside : ∀ a, (∀ k < bs.length, byteAddr addr k ≠ a) →
    Memory.read t.mem a = Memory.read s.mem a ∧ Tab.get? t.cpuStale a = Tab.get? s.cpuStale a
  inside : ∀ k < bs.length, Memory.read t.mem (byteAddr addr k) = bs.getD k 0
  stale : s.cfg.cacheEnabled = true → ∀ k < bs.length,
    Tab.get? t.cpuStale (byteAddr addr k) = some ⟨s.cpuView (byteAddr addr k), bs.getD k 0⟩
  cacheOff : s.cfg.cacheEnabled = false → t.cpuStale = s.cpuStale

/-- The state after a DMA agent has written consecutive bytes of cacheable memory. -/
abbrev State.dmaStored (s : State) (addr : Word) (k : Nat) (bs : List Byte) : State :=
  writeBytes State.dmaStoreByte addr k bs s

theorem State.dmaStored_frame (s : State) (addr : Word) (k : Nat) (bs : List Byte) :
    s.dmaStored addr k bs =
      { s with mem := (s.dmaStored addr k bs).mem, cpuStale := (s.dmaStored addr k bs).cpuStale } :=
  writeBytes_keeps (P := fun t => t = { s with mem := t.mem, cpuStale := t.cpuStale })
    (fun t a v ht => by rw [State.dmaStoreByte, ht]) addr k bs s rfl

/-- A DMA write of one byte leaves every other as stale as it was. -/
theorem State.stale_dmaStoreByte_ne (s : State) {a b : Nat} (hne : a ≠ b) (v : Byte) :
    Tab.get? (s.dmaStoreByte a v).cpuStale b = Tab.get? s.cpuStale b := by
  cases hcache : s.cfg.cacheEnabled with
  | false => simp [State.dmaStoreByte, hcache]
  | true => rw [s.stale_dmaStoreByte a b v hcache, if_neg hne]

theorem State.dmaStored_stale_ne {addr : Word} {k a : Nat} {bs : List Byte} {s : State}
    (h : ∀ j < bs.length, byteAddr addr (k + j) ≠ a) :
    Tab.get? (s.dmaStored addr k bs).cpuStale a = Tab.get? s.cpuStale a := by
  induction bs generalizing k s with
  | nil => rfl
  | cons b bs ih =>
    have hhead : byteAddr addr k ≠ a := h 0 (Nat.succ_pos _)
    have htail : ∀ j < bs.length, byteAddr addr (k + 1 + j) ≠ a := fun j hj => by
      rw [Nat.add_assoc, Nat.add_comm 1]
      exact h (j + 1) (Nat.succ_lt_succ hj)
    exact (ih (s := s.dmaStoreByte (byteAddr addr k) b) htail).trans (s.stale_dmaStoreByte_ne hhead b)

/-- A DMA write of one byte leaves the CPU's view of every other (R64). -/
theorem State.cpuView_dmaStoreByte_ne (s : State) {a b : Nat} (hne : a ≠ b) (v : Byte) :
    (s.dmaStoreByte a v).cpuView b = s.cpuView b := by
  have hmem : (s.dmaStoreByte a v).memByte b = s.memByte b :=
    State.memByte_congr rfl (fun _ _ => rfl) ((s.read_dmaStoreByte a b v).trans (if_neg hne))
  rw [State.cpuView, hmem, s.stale_dmaStoreByte_ne hne, State.dmaStoreByte_cpuDirty]
  rfl

theorem State.dmaStored_stale {addr : Word} {k j : Nat} {bs : List Byte} {s : State}
    (hcache : s.cfg.cacheEnabled = true) (hj : j < bs.length) (hlen : k + bs.length ≤ 2 ^ 32) :
    Tab.get? (s.dmaStored addr k bs).cpuStale (byteAddr addr (k + j)) =
      some ⟨s.cpuView (byteAddr addr (k + j)), bs.getD j 0⟩ := by
  induction bs generalizing k j s with
  | nil => exact absurd hj (Nat.not_lt_zero j)
  | cons b bs ih =>
    rw [List.length_cons] at hj hlen
    cases j with
    | zero =>
      have hlater : ∀ i < bs.length, byteAddr addr (k + 1 + i) ≠ byteAddr addr k := fun i hi =>
        byteAddr_ne addr (by omega) (by omega) (by omega)
      refine (State.dmaStored_stale_ne (s := s.dmaStoreByte (byteAddr addr k) b) hlater).trans ?_
      rw [State.stale_dmaStoreByte _ _ _ _ hcache, if_pos rfl]
      rfl
    | succ j =>
      have hne : byteAddr addr k ≠ byteAddr addr (k + 1 + j) := byteAddr_ne addr (by omega) (by omega) (by omega)
      have hrest := ih (k := k + 1) (j := j) (s := s.dmaStoreByte (byteAddr addr k) b) hcache (by omega) (by omega)
      rw [s.cpuView_dmaStoreByte_ne hne] at hrest
      rw [show k + (j + 1) = k + 1 + j by omega]
      exact hrest

theorem State.dmaStored_cacheOff {addr : Word} {k : Nat} {bs : List Byte} {s : State}
    (hoff : s.cfg.cacheEnabled = false) : (s.dmaStored addr k bs).cpuStale = s.cpuStale :=
  (writeBytes_keeps (f := State.dmaStoreByte) (P := fun t => t.cfg.cacheEnabled = false ∧ t.cpuStale = s.cpuStale)
    (fun t a v ⟨hcfg, hstale⟩ => ⟨hcfg, by simp [State.dmaStoreByte, hcfg, hstale]⟩) addr k bs s ⟨hoff, rfl⟩).2

/-- The bytes of a buffer that does not reach around to its own start. -/
theorem State.dmaStored_spec {addr : Word} {bs : List Byte} (hlen : bs.length ≤ 2 ^ 32) (s : State) :
    s.DmaStored addr bs (s.dmaStored addr 0 bs) where
  outside a ha := ⟨read_writeBytes_dma_ne (by simpa using ha), State.dmaStored_stale_ne (by simpa using ha)⟩
  inside k hk := by
    rw [List.getD_eq_getElem _ _ hk]
    simpa using read_writeBytes_dma (k := 0) (s := s) hk (by omega)
  stale hcache k hk := by simpa using State.dmaStored_stale (k := 0) hcache hk (by omega)
  cacheOff := State.dmaStored_cacheOff

end Sys2Proof.Machine
end

section
/-! One descriptor filled by RDMA (46_dma_agents R281, R282), and RDMA_DELIVER of a frame that fits one buffer. -/

namespace Sys2Proof.Machine

/-- RDMA has filled the descriptor at its write pointer, fetched as `d`, with one chunk and the word `w0`, and moved on
(R281, R282). -/
structure State.RxFilled (s : State) (r : RxRing) (d : Desc) (chunk : List Byte) (w0 : Word) (t : State) : Prop where
  frame : t = { s with
    mem := t.mem, cpuStale := t.cpuStale, descRx := t.descRx, cbRx := t.cbRx
    rdmaWp := ringNext r.cbBase r.endPtr s.rdmaWp, regs := t.regs
    hist := .memWrite .rdma (descAddr s.cfg .rx s.rdmaWp) (wordBytes w0) ::
      .memWrite .rdma (descPhys s.cfg d.w2 d.w1) chunk ::
      .memRead .rdma (descAddr s.cfg .rx s.rdmaWp) d.bytes :: s.hist
    tape := t.tape, drawCount := t.drawCount }
  stored : s.DmaStored (descPhys s.cfg d.w2 d.w1) chunk t
  desc : ∀ dir i, t.desc dir i =
    if dir = .rx ∧ i = s.rdmaWp then { s.desc .rx s.rdmaWp with w0 := w0 } else s.desc dir i
  cb : ∀ dir i, t.cb? dir i =
    if dir = .rx ∧ i = s.rdmaWp then (s.cb? dir i).map fun b => { b with owner := .sw } else s.cb? dir i
  reg : ∀ x, t.reg x =
    if x = .ring .rx defaultRing .writePtr then ptrWord (ringNext r.cbBase r.endPtr s.rdmaWp) else s.reg x

/-- What RDMA does once a chunk is in memory: the writeback of `w0`, the move of the pointer, and the control block
given to software (R281). -/
def State.rxWriteback (s : State) (r : RxRing) (cb : Nat) (w0 : Word) : State :=
  let written := s.setDesc .rx cb { s.desc .rx cb with w0 := w0 }
  let moved : State := { written with
    rdmaWp := ringNext r.cbBase r.endPtr cb
    hist := .memWrite .rdma (descAddr s.cfg .rx cb) (wordBytes w0) :: written.hist }
  (moved.setReg (.ring .rx defaultRing .writePtr) (ptrWord (ringNext r.cbBase r.endPtr cb))).setOwner .rx cb .sw

section
variable {r : RxRing} {chunk : List Byte} {sop eop : Bool} {st : RxStatus} {s t u : State} {d : Desc}

theorem fillOne_run (hfetch : fetchDesc .rdma .rx s.rdmaWp s = .ok d t)
    (hwrite : writeBytes State.dmaWriteByte (descPhys t.cfg d.w2 d.w1) 0 chunk t = u) (hcfg : u.cfg = t.cfg) :
    fillOne r chunk sop eop st s = .ok ()
      ({ u with hist := .memWrite .rdma (descPhys t.cfg d.w2 d.w1) chunk :: u.hist }.rxWriteback r s.rdmaWp
        (rxW0 t.cfg.desc chunk.length sop eop st)) := by
  simp only [fillOne, op_bind, gets_run, hfetch, dmaWrite, upd_run, emit_run, advanceWp, setOwner, hwrite,
    State.rxWriteback, hcfg]

end

theorem State.rxWriteback_frame (s : State) (r : RxRing) (cb : Nat) (w0 : Word) :
    s.rxWriteback r cb w0 = { s with
      descRx := (s.rxWriteback r cb w0).descRx, cbRx := (s.rxWriteback r cb w0).cbRx
      rdmaWp := ringNext r.cbBase r.endPtr cb, regs := (s.rxWriteback r cb w0).regs
      hist := .memWrite .rdma (descAddr s.cfg .rx cb) (wordBytes w0) :: s.hist } := by
  rw [State.rxWriteback, State.setOwner_rx_frame]
  rfl

theorem State.rxWriteback_desc (s : State) (r : RxRing) (cb : Nat) (w0 : Word) (dir : Dir) (i : Nat) :
    (s.rxWriteback r cb w0).desc dir i =
      if dir = .rx ∧ i = cb then { s.desc .rx cb with w0 := w0 } else s.desc dir i := by
  refine (State.setOwner_desc ..).trans ((s.desc_setDesc .rx dir cb i _).trans ?_)
  simp only [eq_comm]

theorem State.rxWriteback_cb? (s : State) (r : RxRing) (cb : Nat) (w0 : Word) (dir : Dir) (i : Nat) :
    (s.rxWriteback r cb w0).cb? dir i =
      if dir = .rx ∧ i = cb then (s.cb? dir i).map fun b => { b with owner := .sw } else s.cb? dir i := by
  refine (State.cb?_setOwner ..).trans ?_
  simp only [eq_comm]
  rfl

theorem State.rxWriteback_reg (s : State) (r : RxRing) (cb : Nat) (w0 : Word) (x : RegId) :
    (s.rxWriteback r cb w0).reg x =
      if x = .ring .rx defaultRing .writePtr then ptrWord (ringNext r.cbBase r.endPtr cb) else s.reg x := by
  refine (State.setOwner_reg ..).trans ((State.reg_setReg ..).trans ?_)
  simp only [eq_comm]
  rfl

/-- A fill from a fetch, off the descriptor pools. -/
theorem fillOne_filled {s : State} {d : Desc} {n : Nat} {chunk : List Byte}
    (hfetch : fetchDesc .rdma .rx s.rdmaWp s = .ok d ((s.drew n).fetched .rdma .rx s.rdmaWp d))
    (hlen : chunk.length ≤ bufLen) (hoff : OffPools s.cfg (descPhys s.cfg d.w2 d.w1) chunk.length) (r : RxRing)
    (sop eop : Bool) (st : RxStatus) :
    ∃ t, fillOne r chunk sop eop st s = .ok () t ∧
      s.RxFilled r d chunk (rxW0 s.cfg.desc chunk.length sop eop st) t := by
  let addr := descPhys s.cfg d.w2 d.w1
  let fetched := (s.drew n).fetched .rdma .rx s.rdmaWp d
  obtain ⟨mem, stale, hstored⟩ : ∃ mem stale, fetched.dmaStored addr 0 chunk =
      { fetched with mem := mem, cpuStale := stale } := ⟨_, _, fetched.dmaStored_frame ..⟩
  have hspec := State.dmaStored_spec (addr := addr) (hlen.trans (by decide)) fetched
  have hwrite : writeBytes State.dmaWriteByte addr 0 chunk fetched = fetched.dmaStored addr 0 chunk :=
    writeBytes_dma_off (s := fetched) hoff
  rw [hstored] at hspec hwrite
  let logged : State := { fetched with
    mem := mem, cpuStale := stale, hist := .memWrite .rdma addr chunk :: fetched.hist }
  let t := logged.rxWriteback r s.rdmaWp (rxW0 s.cfg.desc chunk.length sop eop st)
  have hframe : t = _ := logged.rxWriteback_frame r _ _
  have hmem : t.mem = mem := congrArg State.mem hframe
  have hstale : t.cpuStale = stale := congrArg State.cpuStale hframe
  refine ⟨t, fillOne_run hfetch hwrite rfl, ?_, ⟨?_, ?_, ?_, ?_⟩, logged.rxWriteback_desc r _ _,
    logged.rxWriteback_cb? r _ _, logged.rxWriteback_reg r _ _⟩
  · rw [hframe]
    rfl
  · rw [hmem, hstale]; exact hspec.outside
  · rw [hmem]; exact hspec.inside
  · rw [hstale]; exact hspec.stale
  · rw [hstale]; exact hspec.cacheOff

/-! ### The stored bytes -/

/-- The bytes of R281: a pad, the frame or drawn bytes of its length, and the forwarded FCS (log 25). -/
structure State.StoredParts (s : State) (f : List Byte) (st : RxStatus) (pad body tail : List Byte) : Prop where
  padLen : pad.length = s.padLen
  bodyLen : body.length = f.length
  tailLen : tail.length = s.fcsFwdLen
  sound : st.error = false → body = f

theorem State.StoredParts.length {s : State} {f pad body tail : List Byte} {st : RxStatus}
    (h : s.StoredParts f st pad body tail) : (pad ++ body ++ tail).length = s.storedLen f.length := by
  simp [State.storedLen, h.padLen, h.bodyLen, h.tailLen, Nat.add_assoc]

theorem drawBytes_length (n : Nat) (s : State) : ∃ bs, bs.length = n ∧ drawBytes n s = .ok bs (s.drew n) :=
  ⟨_, by simp, drawBytes_draw n s⟩

theorem storedBody_run (f : List Byte) (st : RxStatus) (s : State) :
    ∃ (body : List Byte) (n : Nat), storedBody f st s = .ok body (s.drew n) ∧ body.length = f.length ∧
      (st.error = false → body = f) := by
  cases herr : st.error with
  | false => exact ⟨f, 0, by simp [storedBody, herr], rfl, fun _ => rfl⟩
  | true =>
    obtain ⟨body, hlen, hdraw⟩ := drawBytes_length f.length s
    exact ⟨body, f.length, by simp [storedBody, herr, hdraw], hlen, nofun⟩

theorem storedBytes_run (f : List Byte) (st : RxStatus) (s : State) :
    ∃ (pad body tail : List Byte) (n : Nat), storedBytes f st s = .ok (pad ++ body ++ tail) (s.drew n) ∧
      s.StoredParts f st pad body tail := by
  obtain ⟨body, n, hbody, hlen, hsound⟩ := storedBody_run f st (s.drew s.padLen)
  obtain ⟨pad, hpadLen, hpad⟩ := drawBytes_length s.padLen s
  obtain ⟨tail, htailLen, htail⟩ := drawBytes_length s.fcsFwdLen ((s.drew s.padLen).drew n)
  have hfcs (m : Nat) : (s.drew m).fcsFwdLen = s.fcsFwdLen := rfl
  rw [State.drew_drew, State.drew_drew] at htail
  refine ⟨pad, body, tail, s.padLen + n + s.fcsFwdLen, ?_, hpadLen, hlen, htailLen, hsound⟩
  simp only [storedBytes, op_bind, gets_run, hpad, hbody, hfcs, State.drew_drew, htail, op_pure]

/-- A frame that RDMA takes has a byte, so that something is stored of it (R280, R281). -/
theorem storedLen_pos {s : State} {f : List Byte} (h : s.rdmaEnabled f = true) : 0 < s.storedLen f.length := by
  have hf : f ≠ [] := by
    rintro rfl
    simp [State.rdmaEnabled] at h
  have := List.length_pos_of_ne_nil hf
  simp only [State.storedLen]
  omega

theorem chunks_length (k : Nat) (bs : List Byte) : (chunks k bs).length = k := by
  induction k generalizing bs with
  | zero => rfl
  | succ k ih => rw [chunks, List.length_cons, ih]

/-- Off the pools physical memory holds what was stored (R60b). -/
theorem State.memBytes_of_read {t : State} {addr : Word} {bs : List Byte} (hoff : OffPools t.cfg addr bs.length)
    (hread : ∀ k < bs.length, Memory.read t.mem (byteAddr addr k) = bs.getD k 0) : t.memBytes addr bs.length = bs := by
  refine List.ext_getElem (by simp [State.memBytes]) fun k _ hk => ?_
  rw [← List.getD_eq_getElem bs 0 hk, ← hread k hk, ← State.memByte_off (hoff k hk)]
  simp [State.memBytes]

/-! ### The whole -/

/-- The frame is in its descriptors and its event is logged; the producer index moves last (R281, R282). -/
def State.rxProduced (s : State) (k : Nat) (f : List Byte) (st : RxStatus) : State :=
  let prod := s.reg (.ring .rx defaultRing .prodIndex)
  { s.setReg (.ring .rx defaultRing .prodIndex) (withIndex prod (indexOf prod + BitVec.ofNat 16 k)) with
    hist := .rxFrame f st :: s.hist }

theorem State.rxProduced_reg (s : State) (k : Nat) (f : List Byte) (st : RxStatus) (x : RegId) :
    (s.rxProduced k f st).reg x =
      if x = .ring .rx defaultRing .prodIndex then
        withIndex (s.reg (.ring .rx defaultRing .prodIndex))
          (indexOf (s.reg (.ring .rx defaultRing .prodIndex)) + BitVec.ofNat 16 k)
      else s.reg x := by
  refine (s.reg_setReg _ x _).trans ?_
  simp only [eq_comm]

/-- The registers after fills that have left `WRITE_PTR` at control block `p`. -/
theorem State.rxProduced_reg_of_fill {s t : State} {p : Nat}
    (hreg : ∀ x, t.reg x = if x = .ring .rx defaultRing .writePtr then ptrWord p else s.reg x) (k : Nat) (f : List Byte)
    (st : RxStatus) (x : RegId) :
    (t.rxProduced k f st).reg x =
      if x = .ring .rx defaultRing .writePtr then BitVec.ofNat 32 (3 * p)
      else if x = .ring .rx defaultRing .prodIndex then
        withIndex (s.reg (.ring .rx defaultRing .prodIndex))
          (indexOf (s.reg (.ring .rx defaultRing .prodIndex)) + BitVec.ofNat 16 k)
      else s.reg x := by
  have hprod : t.reg (.ring .rx defaultRing .prodIndex) = s.reg (.ring .rx defaultRing .prodIndex) :=
    (hreg _).trans (if_neg (by simp))
  rw [State.rxProduced_reg, hprod]
  by_cases hx : x = .ring .rx defaultRing .prodIndex
  · subst hx
    rw [if_pos rfl, if_neg (by simp), if_pos rfl]
  · rw [if_neg hx, if_neg hx, hreg, ptrWord_eq]

theorem rdmaFill_run {s t u : State} {r : RxRing} {f stored : List Byte} {st : RxStatus}
    (hstored : storedBytes f st s = .ok stored t)
    (hfill : fillAll r st true (chunks (chunkCount stored.length) stored) t = .ok () u) :
    rdmaFill r f st s = .ok () (u.rxProduced (chunkCount stored.length) f st) := by
  simp [rdmaFill, hstored, hfill, bumpIndex, State.rxProduced]

/-- Settles O21: one fill of the stored bytes, and then the producer index. -/
theorem rdmaDeliverStores : Obligations.RdmaDeliverStores := by
  intro s r b hcfg f st cb hon hrx hfree hfits hcb hb hsync d addr hoff prod wp
  obtain ⟨pad, body, tail, n, hstored, hparts⟩ := storedBytes_run f st s
  have hlen : (pad ++ body ++ tail).length ≤ bufLen := hparts.length.trans_le hfits
  have hone : chunkCount (s.storedLen f.length) = 1 := by
    have := storedLen_pos hon
    simp only [chunkCount, bufLen] at hfits ⊢
    omega
  have hfetch : fetchDesc .rdma .rx cb (s.drew n) = .ok d (((s.drew n).drew 0).fetched .rdma .rx cb d) :=
    fetchDesc_synced (s := s.drew n) hcb hb hsync
  obtain ⟨t, hfill, ht⟩ := fillOne_filled (s := s.drew n) hfetch hlen (hparts.length ▸ hoff) r true true st
  have hall : fillAll r st true (chunks (chunkCount (pad ++ body ++ tail).length) (pad ++ body ++ tail)) (s.drew n) =
      .ok () t := by
    rw [hparts.length, hone, chunks, List.take_of_length_le hlen]
    exact hfill
  have hexec := runOp_of_ok hcfg (rdmaDeliver_fills hon hrx hfree (by omega) (rdmaFill_run hstored hall))
  refine ⟨pad, body, tail, _, hexec, hparts.padLen, hparts.tailLen, hparts.bodyLen, hparts.sound,
    fun a ha => (ht.stored.outside a ha).1, ?_, ht.stored.stale, fun a ha => (ht.stored.outside a ha).2,
    ht.stored.cacheOff, ht.desc, fun dir i => ?_, congrArg State.rdmaWp ht.frame, fun x => ?_, ?_, ?_⟩
  · have hcfg' : t.cfg = s.cfg := by rw [ht.frame]; rfl
    exact State.memBytes_of_read (t := t) (hcfg' ▸ hparts.length ▸ hoff) ht.stored.inside
  · refine (ht.cb dir i).trans (ite_congr rfl (fun h => ?_) fun _ => rfl)
    obtain ⟨rfl, rfl⟩ := h
    exact congrArg (Option.map _) hb
  · have hk : chunkCount (pad ++ body ++ tail).length = 1 := by rw [hparts.length, hone]
    rw [hk]
    exact State.rxProduced_reg_of_fill ht.reg 1 f st x
  · have hw0 : (t.desc .rx cb).w0 = rxW0 s.cfg.desc (pad ++ body ++ tail).length true true st := by
      rw [ht.desc, if_pos ⟨rfl, rfl⟩]
      rfl
    have hhist : t.hist = .memWrite .rdma (descAddr s.cfg .rx cb) (wordBytes (t.desc .rx cb).w0) ::
        .memWrite .rdma addr (pad ++ body ++ tail) :: .memRead .rdma (descAddr s.cfg .rx cb) d.bytes :: s.hist := by
      rw [hw0, ht.frame]
      rfl
    exact congrArg (Event.rxFrame f st :: ·) hhist
  · rw [ht.frame]
    rfl

end Sys2Proof.Machine
end

section
/-! RDMA_DELIVER over several descriptors (46_dma_agents R282): the fills one after the other, each over the descriptors
that the ones before it have left alone. -/

namespace Sys2Proof.Machine

/-! ### Consecutive fills -/

/-- The control block that the `j`-th of consecutive fills is over, on a ring of 256 (R41, R42). -/
def State.rxSlot (s : State) (j : Nat) : Nat := (s.rdmaWp + j) % 256

/-- The buffer that the `j`-th of consecutive fetches names (R93). -/
def rxBuffer (c : Config) (ds : List Desc) (j : Nat) : Word :=
  descPhys c (ds.getD j ⟨0, 0, 0⟩).w2 (ds.getD j ⟨0, 0, 0⟩).w1

/-- RDMA has filled consecutive descriptors, fetched as `ds`, with the chunks `cs`; `first` says that the first of them
is the frame's first (R282). -/
structure State.RxFilledAll (s : State) (st : RxStatus) (first : Bool) (cs : List (List Byte)) (ds : List Desc)
    (t : State) : Prop where
  frame : t = { s with
    mem := t.mem, cpuStale := t.cpuStale, descRx := t.descRx, cbRx := t.cbRx, rdmaWp := s.rxSlot cs.length
    regs := t.regs, hist := t.hist, tape := t.tape, drawCount := t.drawCount }
  mayFetch : ∀ j < cs.length, ∀ k, s.MayFetch .rx (s.rxSlot j) k ((ds.getD j ⟨0, 0, 0⟩).word k)
  desc : ∀ j < cs.length, t.desc .rx (s.rxSlot j) = { s.desc .rx (s.rxSlot j) with
    w0 := rxW0 s.cfg.desc (cs.getD j []).length (first && decide (j = 0)) (decide (j + 1 = cs.length))
      (if j + 1 = cs.length then st else {}) }
  cb : ∀ j < cs.length, t.cb? .rx (s.rxSlot j) =
    (s.cb? .rx (s.rxSlot j)).map fun b => { b with owner := .sw }
  other : ∀ i, (∀ j < cs.length, s.rxSlot j ≠ i) → t.desc .rx i = s.desc .rx i ∧ t.cb? .rx i = s.cb? .rx i
  hist : ∃ es, t.hist = es ++ s.hist ∧
    ∀ j < cs.length, .memWrite .rdma (rxBuffer s.cfg ds j) (cs.getD j []) ∈ es
  outside : ∀ a, (∀ j < cs.length, ∀ m < (cs.getD j []).length, byteAddr (rxBuffer s.cfg ds j) m ≠ a) →
    Memory.read t.mem a = Memory.read s.mem a ∧ Tab.get? t.cpuStale a = Tab.get? s.cpuStale a
  inside : ∀ j < cs.length,
    (∀ j', j < j' → j' < cs.length → ∀ m < (cs.getD j []).length, ∀ m' < (cs.getD j' []).length,
      byteAddr (rxBuffer s.cfg ds j') m' ≠ byteAddr (rxBuffer s.cfg ds j) m) →
    ∀ m < (cs.getD j []).length, Memory.read t.mem (byteAddr (rxBuffer s.cfg ds j) m) = (cs.getD j []).getD m 0
  cacheOff : s.cfg.cacheEnabled = false → t.cpuStale = s.cpuStale
  reg : ∀ x, t.reg x =
    if x = .ring .rx defaultRing .writePtr ∧ cs ≠ [] then ptrWord (s.rxSlot cs.length) else s.reg x

theorem fillAll_cons {r : RxRing} {st : RxStatus} {first : Bool} {c : List Byte} {cs : List (List Byte)} {s t : State}
    (hone : fillOne r c first (decide (cs = [])) (if cs = [] then st else {}) s = .ok () t) :
    fillAll r st first (c :: cs) s = fillAll r st false cs t := by
  cases cs with
  | nil => exact hone
  | cons c' cs =>
    have hone' : fillOne r c first false {} s = .ok () t := by simpa using hone
    rw [fillAll, op_bind, hone']
    nofun

theorem State.rxSlot_zero {s : State} (hwp : s.rdmaWp < 256) : s.rxSlot 0 = s.rdmaWp := Nat.mod_eq_of_lt hwp

theorem State.rxSlot_of_next {s t : State} (h : t.rdmaWp = s.rxSlot 1) (j : Nat) : t.rxSlot j = s.rxSlot (j + 1) := by
  simp only [State.rxSlot] at *
  omega

/-- The blocks of up to 256 consecutive fills differ. -/
theorem State.rxSlot_ne {s : State} {j : Nat} (hj : j + 1 < 256) : s.rxSlot (j + 1) ≠ s.rdmaWp := by
  simp only [State.rxSlot]
  omega

theorem ringNext_placed {r : RxRing} (hr : r.Placed) {s : State} (hwp : s.rdmaWp < 256) :
    ringNext r.cbBase r.endPtr s.rdmaWp = s.rxSlot 1 := by
  obtain ⟨-, hbase, -, -, hend, -⟩ := hr
  simp only [ringNext, hbase, hend, rxSize, State.rxSlot]
  split <;> omega

theorem State.RxFilledAll.nil {s : State} (hwp : s.rdmaWp < 256) (st : RxStatus) (first : Bool) (ds : List Desc) :
    s.RxFilledAll st first [] ds s where
  frame := by rw [List.length_nil, s.rxSlot_zero hwp]
  mayFetch := nofun
  desc := nofun
  cb := nofun
  other _ _ := ⟨rfl, rfl⟩
  hist := ⟨[], rfl, nofun⟩
  outside _ _ := ⟨rfl, rfl⟩
  inside := nofun
  cacheOff _ := rfl
  reg x := by simp

/-- One fill, which leaves what a fetch of another descriptor may see. -/
theorem State.RxFilled.mayFetch_iff {s t : State} {r : RxRing} {d : Desc} {chunk : List Byte} {w0 : Word}
    (h : s.RxFilled r d chunk w0 t) {i : Nat} (hi : i ≠ s.rdmaWp) (k : DescWord) (w : Word) :
    t.MayFetch .rx i k w ↔ s.MayFetch .rx i k w := by
  have hdesc : t.desc .rx i = s.desc .rx i := (h.desc .rx i).trans (if_neg fun hall => hi hall.2)
  have hold : t.oldWords .rx i k = s.oldWords .rx i k := by rw [h.frame]; rfl
  rw [State.MayFetch, State.MayFetch, hdesc, hold]

theorem State.RxFilledAll.cons {s t u : State} {r : RxRing} {st : RxStatus} {first : Bool} {c : List Byte}
    {cs : List (List Byte)} {d : Desc} {ds : List Desc} (hr : r.Placed) (hwp : s.rdmaWp < 256) (hlen : cs.length < 256)
    (hfetch : ∀ k, s.MayFetch .rx s.rdmaWp k (d.word k))
    (h : s.RxFilled r d c (rxW0 s.cfg.desc c.length first (decide (cs = [])) (if cs = [] then st else {})) t)
    (h' : t.RxFilledAll st false cs ds u) : s.RxFilledAll st first (c :: cs) (d :: ds) u := by
  have hcfg : t.cfg = s.cfg := by rw [h.frame]
  have hnext : t.rdmaWp = s.rxSlot 1 := by rw [h.frame]; exact ringNext_placed hr hwp
  have hslot (j : Nat) : t.rxSlot j = s.rxSlot (j + 1) := State.rxSlot_of_next hnext j
  have hbuffer (j : Nat) : rxBuffer t.cfg ds j = rxBuffer s.cfg (d :: ds) (j + 1) := by rw [hcfg]; rfl
  have hne (j : Nat) (hj : j < cs.length) : s.rxSlot (j + 1) ≠ s.rdmaWp := s.rxSlot_ne (by omega)
  have hzero : s.rxSlot 0 = s.rdmaWp := s.rxSlot_zero hwp
  have htdesc (i : Nat) (hi : i ≠ s.rdmaWp) : t.desc .rx i = s.desc .rx i :=
    (h.desc .rx i).trans (if_neg fun hall => hi hall.2)
  have htcb (i : Nat) (hi : i ≠ s.rdmaWp) : t.cb? .rx i = s.cb? .rx i :=
    (h.cb .rx i).trans (if_neg fun hall => hi hall.2)
  have hkept : u.desc .rx s.rdmaWp = t.desc .rx s.rdmaWp ∧ u.cb? .rx s.rdmaWp = t.cb? .rx s.rdmaWp :=
    h'.other _ fun j hj => hslot j ▸ hne j hj
  have hmore : ∀ {j : Nat}, j + 1 < (c :: cs).length → j < cs.length := Nat.lt_of_succ_lt_succ
  refine ⟨?_, ?_, ?_, ?_, ?_, ?_, ?_, ?_, ?_, ?_⟩
  · rw [h'.frame, hslot, h.frame]
    rfl
  · rintro (_ | j) hj k
    · rw [hzero]
      exact hfetch k
    · have hword := h'.mayFetch j (hmore hj) k
      rw [hslot] at hword
      exact (h.mayFetch_iff (hne j (hmore hj)) k _).mp hword
  · rintro (_ | j) hj
    · rw [hzero, hkept.1, h.desc, if_pos ⟨rfl, rfl⟩]
      simp
    · have hdesc := h'.desc j (hmore hj)
      rw [hslot, htdesc _ (hne j (hmore hj)), hcfg] at hdesc
      rw [hdesc]
      simp
  · rintro (_ | j) hj
    · rw [hzero, hkept.2, h.cb, if_pos ⟨rfl, rfl⟩]
    · have hcb := h'.cb j (hmore hj)
      rwa [hslot, htcb _ (hne j (hmore hj))] at hcb
  · intro i hi
    have hfirst : i ≠ s.rdmaWp := fun he => hi 0 (Nat.succ_pos _) (hzero.trans he.symm)
    obtain ⟨hdesc, hcb⟩ := h'.other i fun j hj => hslot j ▸ hi (j + 1) (Nat.succ_lt_succ hj)
    exact ⟨hdesc.trans (htdesc i hfirst), hcb.trans (htcb i hfirst)⟩
  · obtain ⟨es, hes, hmem⟩ := h'.hist
    have hthist : ∃ es', t.hist = es' ++ s.hist ∧ .memWrite .rdma (rxBuffer s.cfg (d :: ds) 0) c ∈ es' :=
      ⟨[_, _, _], congrArg State.hist h.frame, by simp [rxBuffer]⟩
    obtain ⟨es', hes', hmem'⟩ := hthist
    refine ⟨es ++ es', by rw [hes, hes', List.append_assoc], ?_⟩
    rintro (_ | j) hj
    · exact List.mem_append_right es hmem'
    · rw [← hbuffer]
      exact List.mem_append_left es' (hmem j (hmore hj))
  · intro a ha
    obtain ⟨hread, hstale⟩ := h'.outside a fun j hj => hbuffer j ▸ ha (j + 1) (Nat.succ_lt_succ hj)
    obtain ⟨hread', hstale'⟩ := h.stored.outside a (ha 0 (Nat.succ_pos _))
    exact ⟨hread.trans hread', hstale.trans hstale'⟩
  · rintro (_ | j) hj hlater m hm
    · refine (h'.outside _ fun j hj m' hm' => ?_).1.trans (h.stored.inside m hm)
      rw [hbuffer]
      exact hlater (j + 1) (Nat.succ_pos j) (Nat.succ_lt_succ hj) m hm m' hm'
    · rw [← hbuffer]
      refine h'.inside j (hmore hj) (fun j' hjj' hj' m hm m' hm' => ?_) m hm
      rw [hbuffer, hbuffer]
      exact hlater (j' + 1) (Nat.succ_lt_succ hjj') (Nat.succ_lt_succ hj') m hm m' hm'
  · intro hoff
    exact (h'.cacheOff (by rwa [hcfg])).trans (h.stored.cacheOff hoff)
  · intro x
    rw [h'.reg, h.reg, hslot, ringNext_placed hr hwp]
    by_cases hcs : cs = []
    · simp [hcs]
    · by_cases hx : x = .ring .rx defaultRing .writePtr <;> simp [hcs, hx]

/-- Consecutive fills of up to 256 chunks, each of at most a buffer's length, off the descriptor pools. -/
theorem fillAll_filled {r : RxRing} (hr : r.Placed) (st : RxStatus) (cs : List (List Byte)) (first : Bool) {s : State}
    (hwp : s.rdmaWp < 256) (hlen : cs.length ≤ 256) (hcb : ∀ i < 256, ∃ b, s.cb? .rx i = some b)
    (hchunk : ∀ c ∈ cs, c.length ≤ bufLen)
    (hoff : ∀ j < cs.length, ∀ w1 w2, s.MayFetch .rx (s.rxSlot j) .w1 w1 → s.MayFetch .rx (s.rxSlot j) .w2 w2 →
      OffPools s.cfg (descPhys s.cfg w2 w1) (cs.getD j []).length) :
    ∃ ds t, fillAll r st first cs s = .ok () t ∧ s.RxFilledAll st first cs ds t := by
  induction cs generalizing first s with
  | nil => exact ⟨[], s, rfl, .nil hwp st first []⟩
  | cons c cs ih =>
    rw [List.length_cons] at hlen hoff
    obtain ⟨b, hb⟩ := hcb s.rdmaWp hwp
    obtain ⟨d, n, hfetch, hmay⟩ := fetchDesc_mayFetch .rdma (s := s) hwp hb
    have hzero : s.rxSlot 0 = s.rdmaWp := s.rxSlot_zero hwp
    have hofffirst : OffPools s.cfg (descPhys s.cfg d.w2 d.w1) c.length :=
      hoff 0 (Nat.succ_pos _) d.w1 d.w2 (hzero ▸ hmay .w1) (hzero ▸ hmay .w2)
    obtain ⟨t, hone, ht⟩ := fillOne_filled hfetch (hchunk c List.mem_cons_self) hofffirst r first (decide (cs = []))
      (if cs = [] then st else {})
    have hnext : t.rdmaWp = s.rxSlot 1 := by rw [ht.frame]; exact ringNext_placed hr hwp
    have hcfg : t.cfg = s.cfg := by rw [ht.frame]
    have hcb' (i : Nat) (hi : i < 256) : ∃ b, t.cb? .rx i = some b := by
      obtain ⟨b', hb'⟩ := hcb i hi
      rw [ht.cb, hb']
      split <;> exact ⟨_, rfl⟩
    have hoff' (j : Nat) (hj : j < cs.length) (w1 w2 : Word) (hw1 : t.MayFetch .rx (t.rxSlot j) .w1 w1)
        (hw2 : t.MayFetch .rx (t.rxSlot j) .w2 w2) : OffPools t.cfg (descPhys t.cfg w2 w1) (cs.getD j []).length := by
      have hne : s.rxSlot (j + 1) ≠ s.rdmaWp := s.rxSlot_ne (by omega)
      rw [State.rxSlot_of_next hnext, ht.mayFetch_iff hne] at hw1 hw2
      rw [hcfg]
      exact hoff (j + 1) (Nat.succ_lt_succ hj) w1 w2 hw1 hw2
    obtain ⟨ds, u, hrest, hu⟩ := ih false (hnext ▸ Nat.mod_lt _ (by decide)) (by omega) hcb'
      (fun c' hc' => hchunk c' (List.mem_cons_of_mem c hc')) hoff'
    exact ⟨d :: ds, u, (fillAll_cons hone).trans hrest, .cons hr hwp (by omega) hmay ht hu⟩

/-! ### The chunks -/

theorem chunks_getD (k : Nat) (bs : List Byte) {j : Nat} (hj : j < k) :
    (chunks k bs).getD j [] = (bs.drop (j * 2048)).take 2048 := by
  induction k generalizing j bs with
  | zero => exact absurd hj (Nat.not_lt_zero j)
  | succ k ih =>
    cases j with
    | zero => simp [chunks, bufLen]
    | succ j =>
      rw [chunks, List.getD_cons_succ, ih _ (Nat.lt_of_succ_lt_succ hj), List.drop_drop, bufLen,
        show 2048 + j * 2048 = (j + 1) * 2048 by omega]

/-- All chunks but the last are whole buffers (R282). -/
theorem chunk_length {bs : List Byte} {j : Nat} (hj : j < (bs.length + 2047) / 2048) :
    ((bs.drop (j * 2048)).take 2048).length =
      if j + 1 = (bs.length + 2047) / 2048 then bs.length - j * 2048 else 2048 := by
  rw [List.length_take, List.length_drop]
  split <;> omega

theorem chunks_le_bufLen (k : Nat) (bs : List Byte) : ∀ c ∈ chunks k bs, c.length ≤ bufLen := by
  induction k generalizing bs with
  | zero => nofun
  | succ k ih => exact List.forall_mem_cons.mpr ⟨List.length_take_le bufLen bs, ih _⟩

/-- A ring with its constants in place has at most 256 free descriptors (R41, R280). -/
theorem rdmaFree_le {r : RxRing} (hr : r.Placed) (s : State) : s.rdmaFree r ≤ 256 := by
  obtain ⟨-, -, hsize, -⟩ := hr
  simp only [State.rdmaFree, hsize, rxSize]
  omega

/-- Settles O22: the stored bytes are cut into their chunks, and `fillAll_filled` says what becomes of them. -/
theorem rdmaDeliverMany : Obligations.RdmaDeliverMany := by
  intro s r hcfg hrx hr hid hwp f st n k len slot addr prod hon hfree hcb hoff
  obtain ⟨pad, body, tail, m, hstored, hparts⟩ := storedBytes_run f st s
  have hn : (pad ++ body ++ tail).length = n := hparts.length
  have hpos : 0 < n := storedLen_pos hon
  have hkpos : 0 < k := by omega
  have hfit : s.rdmaFree r ≤ 256 := rdmaFree_le hr s
  have hk : k ≤ 256 := by omega
  have hcount : chunkCount (pad ++ body ++ tail).length = k := by rw [hn]; rfl
  let cs := chunks k (pad ++ body ++ tail)
  have hlen : cs.length = k := chunks_length k _
  have hchunk (j : Nat) (hj : j < k) : cs.getD j [] = ((pad ++ body ++ tail).drop (j * 2048)).take 2048 :=
    chunks_getD k _ hj
  have hchunkLen (j : Nat) (hj : j < k) : (cs.getD j []).length = len j := by
    rw [hchunk j hj, chunk_length (by rwa [hn]), hn]
  obtain ⟨ds, t, hfill, ht⟩ := fillAll_filled (s := s.drew m) hr st cs true hwp (hlen.trans_le hk) hcb
    (chunks_le_bufLen k _) fun j hj w1 w2 hw1 hw2 => by
      rw [hlen] at hj
      rw [hchunkLen j hj]
      exact hoff j hj w1 w2 hw1 hw2
  have hfill' : fillAll r st true (chunks (chunkCount (pad ++ body ++ tail).length) (pad ++ body ++ tail)) (s.drew m) =
      .ok () t := by rw [hcount]; exact hfill
  have hexec := runOp_of_ok hcfg (rdmaDeliver_fills hon hrx (by omega) hfree (rdmaFill_run hstored hfill'))
  have hlt {j : Nat} (hj : j < k) : j < cs.length := hlen.symm ▸ hj
  refine ⟨pad, body, tail, fun j => (ds.getD j ⟨0, 0, 0⟩).w1, fun j => (ds.getD j ⟨0, 0, 0⟩).w2, _, hexec, hkpos, hk,
    fun j hj => ⟨ht.mayFetch j (hlt hj) .w1, ht.mayFetch j (hlt hj) .w2⟩, hparts.padLen, hparts.tailLen, hparts.bodyLen,
    hparts.sound, fun j hj => ?_, fun i hi => ht.other i fun j hj => hi j (hlen ▸ hj), fun j hj => ?_, ?_,
    fun a ha => ?_, fun j hj hlater => ?_, ht.cacheOff, ?_, fun x => ?_, ?_⟩
  · have hdesc := ht.desc j (hlt hj)
    rw [hchunkLen j hj, hlen] at hdesc
    exact hdesc
  · obtain ⟨b, hb⟩ := hcb (slot j) (Nat.mod_lt _ (by decide))
    obtain ⟨hindex, -⟩ := hid .rx (slot j) b hb
    refine (ht.cb j (hlt hj)).trans ((congrArg (Option.map _) hb).trans ?_)
    rw [Option.map_some, hindex]
  · obtain ⟨es, hes, hmem⟩ := ht.hist
    exact ⟨es, congrArg (Event.rxFrame f st :: ·) hes, fun j hj => hchunk j hj ▸ hmem j (hlt hj)⟩
  · refine ht.outside a fun j hj => ?_
    have hj' : j < k := hlen ▸ hj
    rw [hchunkLen j hj']
    exact ha j hj'
  · have hread := ht.inside j (hlt hj) fun j' hjj' hj' => by
      rw [hlen] at hj'
      rw [hchunkLen j hj, hchunkLen j' hj']
      exact hlater j' hjj' hj'
    have hcfg' : t.cfg = s.cfg := by rw [ht.frame]; rfl
    have hoffj : OffPools t.cfg (rxBuffer s.cfg ds j) (cs.getD j []).length := by
      rw [hcfg', hchunkLen j hj]
      exact hoff j hj _ _ (ht.mayFetch j (hlt hj) .w1) (ht.mayFetch j (hlt hj) .w2)
    have hbytes := State.memBytes_of_read hoffj hread
    rw [hchunkLen j hj, hchunk j hj] at hbytes
    exact hbytes
  · exact (congrArg State.rdmaWp ht.frame).trans (congrArg slot hlen)
  · have hne : cs ≠ [] := List.ne_nil_of_length_pos (hlen ▸ hkpos)
    have hreg (x : RegId) : t.reg x = if x = .ring .rx defaultRing .writePtr then ptrWord (slot k) else s.reg x := by
      have hx := ht.reg x
      simp only [hlen, ne_eq, hne, not_false_eq_true, and_true] at hx
      exact hx
    rw [hcount]
    exact State.rxProduced_reg_of_fill hreg k f st x
  · rw [ht.frame]
    rfl

end Sys2Proof.Machine
end

section
/-! Operations that the machine's state refuses (60_exceptions R321; log 22). -/

namespace Sys2Proof.Machine

/-- One control block never written is a pool not yet initialised (R140). -/
theorem State.poolDone_eq_false {s : State} {d : Dir} (h : ∃ i < nDesc, s.cb? d i = none) : s.poolDone d = false := by
  obtain ⟨i, hi, hnone⟩ := h
  exact List.all_eq_false.mpr ⟨i, List.mem_range.mpr hi, by simp [hnone]⟩

theorem rxRingInit_refused {s : State} (h : s.dmaEn .rx = true ∨ s.poolDone .rx = false) :
    rxRingInit s = .error .refused s := by
  have hcond : (s.dmaEn .rx || !s.poolDone .rx) = true := by simpa using h
  simp [rxRingInit, hcond]

theorem rxRecv_refused {s : State} (h : s.seq ≠ .ready) (dest : List Byte) : rxRecv dest s = .error .refused s := by
  simp [rxRecv, h]

theorem txSend_refused {s : State} (h : s.seq ≠ .ready) (k : TxQueue) (bs : List Byte) :
    txSend k bs s = .error .refused s := by
  simp [txSend, h]

theorem txQueuesInit_refused {s : State} (h : s.seq ≠ .step .s11 ∨ s.poolDone .tx = false) :
    txQueuesInit s = .error .refused s := by
  have hcond : (decide (s.seq ≠ .step .s11) || !s.poolDone .tx) = true := by simpa using h
  simp only [txQueuesInit, op_bind, gets_run, hcond, haltIf_run, if_true]

theorem txReclaim_refused {s : State} {k : TxQueue} (h : Tab.get? s.tx k.num = none) :
    txReclaim k s = .error .refused s := by
  simp [txReclaim, h]

theorem seqStep_refused {s : State} (h : s.seq = .ready ∨ ∃ e, s.seq = .failed e) (m : MacAddr) (n : Nat) :
    seqStep m n s = .error .refused s := by
  rcases h with hready | ⟨e, hfailed⟩
  · simp only [seqStep, op_bind, gets_run, hready, halt_run]
  · simp only [seqStep, op_bind, gets_run, hfailed, halt_run]

/-- A TX_SEND before `Ready` is refused whether or not its Q names a queue (R112, R183). -/
theorem exec_txSend_refused {s : State} (hcfg : configOk s.cfg = true) (h : s.seq ≠ .ready) (q : BitVec 8) :
    exec (.txSend q) s = .next { s with refused := true } := by
  cases hq : queueOfQ q with
  | none => exact runOp_of_refused hcfg (by simp [hq])
  | some k => exact (exec_txSend hq s).trans (runOp_of_refused hcfg (okAfter_error (txSend_refused h k _)))

/-- Settles O40: each operation halts at its check of the state, before it writes anything. -/
theorem refusedInState : Obligations.RefusedInState := by
  refine fun s hcfg => ⟨fun h => ?_, fun h => ?_, fun q h => exec_txSend_refused hcfg h q, fun h => ?_,
    fun q k hq h => ?_, fun h => ?_⟩
  · exact runOp_of_refused hcfg (okAfter_error (rxRingInit_refused (h.imp_right State.poolDone_eq_false)))
  · exact runOp_of_refused hcfg (rxRecv_refused h _)
  · exact runOp_of_refused hcfg (okAfter_error (txQueuesInit_refused (h.imp_right State.poolDone_eq_false)))
  · refine (exec_txReclaim hq s).trans (runOp_of_refused hcfg (t := s) ?_)
    rw [op_bind, txReclaim_refused h]
  · exact runOp_of_refused hcfg (okAfter_error (seqStep_refused h _ _))

end Sys2Proof.Machine
end

section
/-! TX_SEND that a check ends (43_tx_ring_arbiter R183, R184, R187; 60_exceptions R313): its reclaim, then its payload
and its ring, then its buffer. -/

namespace Sys2Proof.Machine

/-- A control block that is the software's, or that the reclaim gives back, is the software's after it (R184). -/
theorem State.TxReclaimed.cb_sw {s u : State} {k : TxQueue} {r : TxRing} {i : Nat} {b : Cb} (h : s.TxReclaimed k r u)
    (hcb : s.cb? .tx i = some b)
    (ho : b.owner = .sw ∨ ∃ m < s.completions k r, (ringNext r.cbBase r.endPtr)^[m] r.cleanPtr = i) :
    u.cb? .tx i = some { b with owner := .sw } := by
  rw [h.cb, hcb]
  split
  · rfl
  · next hout => rw [← ho.resolve_right hout]

/-- The checks of R183 on the payload and the ring, by the first that fails (R313). -/
theorem checkPayload_error {c : Config} {r : TxRing} {len : Nat} {e : Err} (s : State)
    (h : (len = 0 ∧ e = .malformed) ∨ (0 < len ∧ (c.mtu < len ∨ bufLen < len) ∧ e = .exhausted) ∨
      (0 < len ∧ len ≤ c.mtu ∧ len ≤ bufLen ∧ r.freeBds = 0 ∧ e = .exhausted)) :
    checkPayload c r len s = .error (.err e) s := by
  rcases h with ⟨hempty, rfl⟩ | ⟨hpos, hlong, rfl⟩ | ⟨hpos, hmtu, hbuf, hfull, rfl⟩
  · simp [checkPayload, hempty]
  · simp [checkPayload, hpos.ne', hlong]
  · simp [checkPayload, hpos.ne', Nat.not_lt.mpr hmtu, Nat.not_lt.mpr hbuf, hfull]

theorem checkPayload_ok {c : Config} {r : TxRing} {len : Nat} (s : State) (hpos : 0 < len) (hmtu : len ≤ c.mtu)
    (hbuf : len ≤ bufLen) (hfree : r.freeBds ≠ 0) : checkPayload c r len s = .ok () s := by
  simp [checkPayload, hpos.ne', Nat.not_lt.mpr hmtu, Nat.not_lt.mpr hbuf, hfree]

section
variable {s : State} {k : TxQueue} {r : TxRing} {bs : List Byte} (hready : s.seq = .ready)
  (hr : Tab.get? s.tx k.num = some r)
include hready hr

/-- An error of its reclaim ends TX_SEND with it (R183, R313). -/
theorem txSend_reclaimError {u : State} {e : Halt} (h : txReclaim k s = .error e u) : txSend k bs s = .error e u := by
  simp [txSend, hready, readTx, hr, h]

/-- TX_SEND past its reclaim, on the record that the reclaim leaves (R184). -/
theorem txSend_reclaimed {u : State} {n : Nat} (hrun : txReclaim k s = .ok n u) (hu : s.TxReclaimed k r u) :
    txSend k bs s = (do
      checkPayload s.cfg (s.reclaimedRing k r) bs.length
      let b ← readCb .tx r.writePtr
      haltIf (decide (b.owner = .hw)) (.fault .ownershipViolation)
      haltIf (badBuffer s.cfg (cbBuf s.cfg .tx r.writePtr)) (.err .unaligned)
      txFill k (s.reclaimedRing k r) b.descIndex bs : Op Unit) u := by
  have hcfg : u.cfg = s.cfg := by rw [hu.frame]
  simp [txSend, hready, readTx, hr, hrun, hu.record, hcfg, TxRing.reclaimed]

theorem txSend_payloadError {u : State} {n : Nat} {e : Err} (hrun : txReclaim k s = .ok n u) (hu : s.TxReclaimed k r u)
    (h : checkPayload s.cfg (s.reclaimedRing k r) bs.length u = .error (.err e) u) :
    txSend k bs s = .error (.err e) u := by
  rw [txSend_reclaimed hready hr hrun hu, op_bind, h]

/-- The buffer is checked last, at a control block that is the software's (R134, R187). -/
theorem txSend_badBuffer {u : State} {n : Nat} {b : Cb} (hrun : txReclaim k s = .ok n u) (hu : s.TxReclaimed k r u)
    (hpayload : checkPayload s.cfg (s.reclaimedRing k r) bs.length u = .ok () u)
    (hcb : u.cb? .tx r.writePtr = some b) (ho : b.owner = .sw)
    (hbad : badBuffer s.cfg (cbBuf s.cfg .tx r.writePtr) = true) : txSend k bs s = .error (.err .unaligned) u := by
  rw [txSend_reclaimed hready hr hrun hu, op_bind, hpayload]
  simp [readCb, hcb, ho, hbad]

end

/-- Settles O48: the reclaim's own error leaves its one register read; each later check finds the state the reclaim left
and writes nothing. -/
theorem txSendRejects : Obligations.TxSendRejects := by
  intro q k r s hq hcfg hb hready hr cons n next len i owned read
  have hcount : s.completions k r = n := s.completions_eq k r
  refine ⟨fun hover => ?_, fun hn e he => ?_⟩
  · have hrun := txReclaim_tooMany hb hr (hcount.symm ▸ hover)
    exact (exec_txSend hq s).trans (runOp_of_err hcfg (okAfter_error (txSend_reclaimError hready hr hrun)))
  obtain ⟨u, hrun, hu⟩ := txReclaim_run hb hr (hcount.symm ▸ hn)
  have hfree : (s.reclaimedRing k r).freeBds = n + r.freeBds := by
    rw [s.reclaimedRing_eq k r, hcount]
    exact Nat.add_comm _ _
  have hsend : txSend k s.args.payload s = .error (.err e) u := by
    rcases he with hempty | hlong | ⟨hpos, hmtu, hbuf, hfull, rfl⟩ |
      ⟨hpos, hmtu, hbuf, hsome, ⟨b, hcb, ho⟩, hbad, rfl⟩
    · exact txSend_payloadError hready hr hrun hu (checkPayload_error u (.inl hempty))
    · exact txSend_payloadError hready hr hrun hu (checkPayload_error u (.inr (.inl hlong)))
    · exact txSend_payloadError hready hr hrun hu
        (checkPayload_error u (.inr (.inr ⟨hpos, hmtu, hbuf, hfree.trans hfull, rfl⟩)))
    · exact txSend_badBuffer hready hr hrun hu (checkPayload_ok u hpos hmtu hbuf (hfree.trans_ne hsome.ne'))
        (hu.cb_sw hcb (hcount.symm ▸ ho)) rfl hbad
  have hcbs := hu.cb
  rw [hcount] at hcbs
  refine ⟨_, (exec_txSend hq s).trans (runOp_of_err hcfg (okAfter_error hsend)), ?_, fun j hj => ?_, fun m hm => ?_,
    fun j hj => ?_, ?_⟩
  · refine hu.record.trans ?_
    rw [s.reclaimedRing_eq k r, hcount]
    rfl
  · rw [hu.frame]
    exact Tab.get?_put_ne _ _ (Ne.symm hj)
  · exact (hcbs _).trans (if_pos ⟨m, hm, rfl⟩)
  · exact (hcbs j).trans (if_neg fun ⟨m, hm, hat⟩ => hj m hm hat)
  · rw [hu.frame]
    rfl

end Sys2Proof.Machine
end

section
/-! The ring cursors (10_state R42, R43; 70_reset_and_hazards R367): a cursor and its wrapped 16-bit index advance
together on a ring whose size divides 65536, and the records that a single update writes keep their constants and
cursors. -/

namespace Sys2Proof.Machine

/-! ### A cursor and its index -/

/-- One more entry on the index is one advance of the cursor: where the index wraps, the ring has made whole turns. -/
theorem ringNext_index {base size : Nat} (hturns : size ∣ 65536) (i : Half) :
    ringNext base (base + size - 1) (base + i.toNat % size) = base + (i + 1).toNat % size := by
  have hlt : i.toNat % size < size := Nat.mod_lt _ (Nat.pos_of_dvd_of_pos hturns (by decide))
  have hindex : (i + 1).toNat % size = (i.toNat % size + 1) % size := by
    calc (i + 1).toNat % size = (i.toNat + 1) % 65536 % size := by rw [BitVec.toNat_add]; rfl
      _ = (i.toNat % size + 1) % size := by rw [Nat.mod_mod_of_dvd _ hturns, Nat.mod_add_mod]
  rw [hindex, ringNext]
  split
  · next hend => rw [show i.toNat % size + 1 = size by omega, Nat.mod_self, Nat.add_zero]
  · next hin => rw [Nat.mod_eq_of_lt (a := i.toNat % size + 1) (by omega), Nat.add_assoc]

theorem ringNext_iterate_index {base size : Nat} (hturns : size ∣ 65536) (i : Half) (n : Nat) :
    (ringNext base (base + size - 1))^[n] (base + i.toNat % size) =
      base + (i + BitVec.ofNat 16 n).toNat % size := by
  induction n with
  | zero => simp
  | succ n ih =>
    rw [Function.iterate_succ_apply', ih, ringNext_index hturns, BitVec.ofNat_add, BitVec.add_assoc]
    rfl

/-- The pending count is what takes one index to the other (R43). -/
theorem add_pendingCount (p c : Half) : c + BitVec.ofNat 16 (pendingCount p c) = p := by
  rw [pendingCount, BitVec.ofNat_toNat, BitVec.setWidth_eq, BitVec.add_comm, BitVec.sub_add_cancel]

theorem TxQueue.size_dvd (q : TxQueue) : q.size ∣ 65536 := by cases q <;> decide

/-! ### Transmit records -/

/-- A fresh ring has both indices at 0 and both cursors at its base (R181). -/
theorem freshTx_placed (q : TxQueue) : (freshTx q).Placed q := by
  simp [freshTx]

/-- A reclaim moves the clean pointer by as many entries as it moves the consumer index (R185). -/
theorem TxRing.Placed.reclaimed {r : TxRing} {q : TxQueue} (h : r.Placed q) (hwC : Half) :
    (r.reclaimed hwC).Placed q := by
  obtain ⟨hindex, hqueue, hbase, hsize, hend, hwrite, hclean⟩ := h
  refine ⟨hindex, hqueue, hbase, hsize, hend, hwrite, ?_⟩
  rw [TxRing.reclaimed, TxRing.nextN_eq_iterate, hbase, hend, hclean, ringNext_iterate_index q.size_dvd,
    add_pendingCount]

/-- A hand-over moves the write pointer and the producer index by one entry (R183). -/
theorem TxRing.Placed.handOver {r : TxRing} {q : TxQueue} (h : r.Placed q) : r.handOver.Placed q := by
  obtain ⟨hindex, hqueue, hbase, hsize, hend, hwrite, hclean⟩ := h
  refine ⟨hindex, hqueue, hbase, hsize, hend, ?_, hclean⟩
  rw [TxRing.handOver, hbase, hend, hwrite, ringNext_index q.size_dvd]

/-- What `State.Cursors` says of the transmit records. -/
def State.TxPlaced (s : State) : Prop :=
  ∀ (n : Nat) (r : TxRing), Tab.get? s.tx n = some r → ∃ q : TxQueue, q.num = n ∧ r.Placed q

theorem State.TxPlaced.at_queue {s : State} (h : s.TxPlaced) {q : TxQueue} {r : TxRing}
    (hr : Tab.get? s.tx q.num = some r) : r.Placed q := by
  obtain ⟨q', hnum, hplaced⟩ := h q.num r hr
  exact TxQueue.num_inj hnum ▸ hplaced

/-- Where every record is in place, the record a single update writes is. -/
theorem TxWrite.placed {s : State} {q : TxQueue} {r' : TxRing} (w : TxWrite s q r') (h : s.TxPlaced) : r'.Placed q := by
  cases w with
  | fresh => exact freshTx_placed q
  | reclaimed hr => exact (h.at_queue hr).reclaimed _
  | handOver hr => exact (h.at_queue hr).handOver

theorem Micro.keeps_txPlaced {a : Allow} {s t : State} (m : Micro a s t) (h : s.TxPlaced) : t.TxPlaced := by
  intro n r hr
  rcases m.tx_cases with hsame | ⟨q, r', w, hput⟩
  · exact h n r (hsame ▸ hr)
  · rw [hput, Tab.get?_put] at hr
    split at hr
    · next hnum => cases hr; exact ⟨q, hnum, w.placed h⟩
    · exact h n r hr

/-! ### The receive record -/

/-- A fresh ring has its index at 0 and its cursor at its base (R150). -/
theorem freshRx_placed : freshRx.Placed := by decide

/-- An advance moves the read pointer and the consumer index by one entry (R162). -/
theorem RxRing.Placed.advance {r : RxRing} (h : r.Placed) : r.advance.Placed := by
  obtain ⟨hindex, hbase, hsize, hinit, hend, hread⟩ := h
  refine ⟨hindex, hbase, hsize, hinit, hend, ?_⟩
  have hnext := ringNext_index (base := 0) (size := rxSize) (by decide) r.cIndex
  simpa only [RxRing.advance, hbase, hend, hread, Nat.zero_add] using hnext

/-- `RxWrite s r'`: a single update from `s` may write the receive record `r'`. -/
inductive RxWrite (s : State) : RxRing → Prop where
  | fresh : RxWrite s freshRx
  | drops {r : RxRing} (hr : s.rx = some r) (n : Half) : RxWrite s { r with oldDiscards := n }
  | advance {r : RxRing} (hr : s.rx = some r) : RxWrite s r.advance

/-- A single update leaves the receive record alone or writes it. -/
theorem Micro.rx_cases {a : Allow} {s t : State} (m : Micro a s t) :
    t.rx = s.rx ∨ ∃ r', RxWrite s r' ∧ t.rx = some r' := by
  cases m with
  | rxInit => exact .inr ⟨_, .fresh, rfl⟩
  | rxDrops r n _ hr => exact .inr ⟨_, .drops hr n, rfl⟩
  | rxAdvance r _ hr => exact .inr ⟨_, .advance hr, rfl⟩
  | hostByte b v => exact .inl (State.hostStoreByte_rx s b v)
  | setDesc d i x => exact .inl (State.setDesc_rx s d i x)
  | initCb d i => exact .inl (State.setCb_rx s d i _)
  | setOwner d i o => exact .inl (State.setOwner_rx s d i o)
  | _ => exact .inl rfl

theorem RxWrite.placed {s : State} {r' : RxRing} (w : RxWrite s r') (h : ∀ r, s.rx = some r → r.Placed) :
    r'.Placed := by
  cases w with
  | fresh => exact freshRx_placed
  | drops hr n =>
    have hplaced := h _ hr
    exact hplaced
  | advance hr => exact (h _ hr).advance

/-! ### Every step -/

theorem Micro.keeps_cursors {a : Allow} {s t : State} (m : Micro a s t) (h : s.Cursors) : t.Cursors := by
  obtain ⟨hrx, htx⟩ := h
  refine ⟨fun r hr => ?_, m.keeps_txPlaced htx⟩
  rcases m.rx_cases with hsame | ⟨r', w, hwritten⟩
  · exact hrx r (hsame ▸ hr)
  · cases hwritten.symm.trans hr
    exact w.placed hrx

/-- Settles O11: every step is a chain of single updates, and each moves a cursor with its index or leaves both. -/
theorem stepKeepsCursors : Obligations.StepKeepsCursors := fun _ _ hstep hs =>
  Chain.keeps (fun _ _ => Micro.keeps_cursors) (step_chain hstep) hs

end Sys2Proof.Machine
end

section
/-! Power-on (70_reset_and_hazards R340): the values of the table, and the invariants there (41_pool R142; 10_state R45;
R367). -/

namespace Sys2Proof.Machine

/-- No control block is written (R340). -/
theorem State.reset_cb? (d : Dir) (i : Nat) : State.reset.cb? d i = none := by cases d <;> rfl

/-- No transmit record is written (R340). -/
theorem State.reset_tx (q : Nat) : Tab.get? State.reset.tx q = none := rfl

/-- No register is written, so each holds its power-on value 0 (R340; log 1). -/
theorem State.reset_reg (r : RegId) : State.reset.reg r = 0 := rfl

/-- Settles O6: the fields as the table gives them; `START_BUSY` is a bit of a register that holds 0. -/
theorem resetState : Obligations.ResetState := by
  have hbusy : State.reset.flag .mdioCmd (·.mdioStartBusy) = false := by
    rw [State.flag, State.reset_reg]
    decide
  exact ⟨rfl, rfl, rfl, hbusy, rfl, State.reset_cb?, rfl, rfl, rfl, State.reset_tx, rfl, rfl, rfl⟩

theorem State.reset_canonical : State.reset.Canonical where
  mem := State.reset_mem_wf
  dirty := Tab.sorted_nil
  stale := Tab.sorted_nil
  regs := Tab.sorted_nil
  tdmaRp := Tab.sorted_nil
  descRx := Tab.sorted_nil
  descTx := Tab.sorted_nil
  cbRx := Tab.sorted_nil
  cbTx := Tab.sorted_nil
  tx := Tab.sorted_nil
  cacheOff := fun _ => ⟨rfl, rfl⟩

theorem State.reset_poolIdentity : State.reset.PoolIdentity := fun d i _ hb =>
  nomatch (State.reset_cb? d i).symm.trans hb

theorem State.reset_occupancy : State.reset.Occupancy := fun q _ hr => nomatch (State.reset_tx q).symm.trans hr

theorem State.reset_cursors : State.reset.Cursors :=
  ⟨fun _ hr => (nomatch hr), fun n _ hr => nomatch (State.reset_tx n).symm.trans hr⟩

/-- Settles O7: every table is empty, so no record and no control block is there to break an invariant. -/
theorem resetMeetsInvariants : Obligations.ResetMeetsInvariants :=
  ⟨State.reset_canonical, State.reset_poolIdentity, State.reset_occupancy, State.reset_cursors, ⟨rfl, rfl⟩⟩

end Sys2Proof.Machine
end
